-- ==== Sys2Proof/Word.lean ====
section
/-!
DEFINITION. The units of data the kernel's two memories are made of: a byte of the byte source, a sample of the
frame store (00_scope.md R9, R10; 20_memory.md R88). Everything wider is built from these in the machine's files.
-/

namespace Sys2Proof

/-- One byte delivered on `BYTE_IN`, or one 8-bit sample of the frame store (20_memory.md R80, R90). -/
abbrev Byte := BitVec 8

/-- One entry of a coefficient block, a 16-bit signed `short` (10_state.md R51). -/
abbrev Coef := BitVec 16

/-- One 8x8 block in raster order, index `8*row + col` (10_state.md R51). -/
abbrev Block := Vector Coef 64

end Sys2Proof
end

