-- ==== Sys2Proof/Syntax.lean ====
section
/-!
DEFINITION. The instructions of the kernel, one constructor per row of opcode_table.json (30_encoding.md R120): host
commands (CMD8), start codes (SC32), stream fields (FIELD), unit operations (UOP8) and the variable-length code words
of the nine tables (VLC). A field whose value the kernel skips keeps it as an operand, so that no encoded bit is lost.
-/

namespace Sys2Proof

/-- The nine code tables (44_vlc_decoder.md R270). -/
inductive Table where
  | mba | mbtI | mbtP | mbtB | cbp | motion | dcl | dcc | dct
  deriving DecidableEq, Repr

/-- A direction of prediction: the index `d` of `PMV[d][c]`, and the role `FWD` or `BWD` of the reference buffer
(10_state.md R52, R56; 48_prediction_recon.md R381). -/
inductive Direction where
  | forward | backward
  deriving DecidableEq, Repr

/-- The index `c` of `PMV[d][c]`: 0 horizontal, 1 vertical (10_state.md R52). -/
inductive Axis where
  | x | y
  deriving DecidableEq, Repr

/-- A block of the macroblock: 0 to 3 luma, 4 Cb, 5 Cr (10_state.md R51). -/
abbrev BlockNo := Fin 6

/-- The symbols of `T_MBA` (44_vlc_decoder.md R271). -/
inductive MbaSymbol where
  | increment (n : Nat) | stuffing | escape
  deriving DecidableEq, Repr

/-- The symbols of `T_DCT` (44_vlc_decoder.md R279): a (run, level magnitude) pair or the escape. -/
inductive DctSymbol where
  | pair (run magnitude : Nat) | escape
  deriving DecidableEq, Repr

/-- A symbol of any of the nine tables, as `VLD_CODE` delivers it (44_vlc_decoder.md R270). -/
inductive VlcSymbol where
  | mba (v : MbaSymbol)
  | mbType (flags : BitVec 5)
  | cbp (v : BitVec 6)
  | magnitude (m : Nat)
  | dcSize (n : Nat)
  | dct (v : DctSymbol)
  deriving DecidableEq, Repr

/-- One entry of a code table: a code word of `len` bits, read as a number with its first bit most significant, and
its symbol (44_vlc_decoder.md R270). -/
structure Row (α : Type) where
  len : Nat
  bits : Nat
  sym : α
  deriving DecidableEq, Repr

/-- The fixed-length fields of headers, slices, macroblocks and blocks (30_encoding.md R123 to R128), in the order of
the opcode table. The last two have a length that an earlier element gives. -/
inductive FieldId where
  | horizontalSize
  | verticalSize
  | aspectRatioCode
  | frameRateCode
  | bitRateValue
  | markerBit
  | vbvBufferSize
  | constrainedParametersFlag
  | loadIntraQuantizerMatrix
  | intraQuantizerMatrixEntry
  | loadNonIntraQuantizerMatrix
  | nonIntraQuantizerMatrixEntry
  | sequenceHeaderSkip
  | gopTimeCodeAndFlags
  | temporalReference
  | pictureCodingType
  | vbvDelay
  | fullPelForwardVector
  | forwardFCode
  | fullPelBackwardVector
  | backwardFCode
  | extraInformationPicture
  | extraBitPictureEnd
  | sliceQuantizerScale
  | extraInformationSlice
  | extraBitSliceEnd
  | macroblockQuantizerScale
  | motionResidual (rangeSize : BitVec 3)
  | dctDcDifferential (size : BitVec 4)
  deriving DecidableEq, Repr

/-- Where in a stream a code word may stand: one place per table, but for `T_DCT`, whose two shortest code words
depend on the position in the block (44_vlc_decoder.md R280, R281). -/
inductive VlcPlace where
  | mba | mbtI | mbtP | mbtB | cbp | motion | dcl | dcc | coefFirst | coefNext
  deriving DecidableEq, Repr

/-- What an encoded item is read as (30_encoding.md R120): a code on the command port, a unit operation of the test
bench, or an element of the bitstream at a place where the syntax of 30_encoding.md expects it. -/
inductive Channel where
  | command
  | unitOp
  | startCode
  | field (f : FieldId)
  | vlc (p : VlcPlace)
  deriving DecidableEq, Repr

/-- The instructions: one constructor per row of opcode_table.json. The tables with operands (`T_MOTION`, `T_DCT`)
stand before those without, because Lean's compiled code numbers constructors with fields in one byte. -/
inductive Instr where
  -- host commands, 30_encoding.md R133
  | cmdOpen (cfg : BitVec 8)
  | cmdReset
  | cmdDecodeNext
  | cmdGetFrame
  | cmdClose
  | cmdUndefined (c : BitVec 8)
  -- start codes, 30_encoding.md R121
  | scPicture
  | scSlice (r : BitVec 8)
  | scSequenceHeader
  | scSequenceEnd
  | scGroup
  | scUnrecognised (x : BitVec 8)
  -- fields, 30_encoding.md R123 to R130
  | horizontalSize (v : BitVec 12)
  | verticalSize (v : BitVec 12)
  | aspectRatioCode (a : BitVec 4)
  | frameRateCode (f : BitVec 4)
  | bitRateValue (b : BitVec 18)
  | markerBit (m : Bool)
  | vbvBufferSize (v : BitVec 10)
  | constrainedParametersFlag (c : Bool)
  | loadIntraQuantizerMatrix (l : Bool)
  | intraQuantizerMatrixEntry (q : BitVec 8)
  | loadNonIntraQuantizerMatrix (l : Bool)
  | nonIntraQuantizerMatrixEntry (q : BitVec 8)
  | sequenceHeaderSkip (x : BitVec 62)
  | gopTimeCodeAndFlags (t : BitVec 27)
  | temporalReference (t : BitVec 10)
  | pictureCodingType (p : BitVec 3)
  | vbvDelay (d : BitVec 16)
  | fullPelForwardVector (f : Bool)
  | forwardFCode (c : BitVec 3)
  | fullPelBackwardVector (f : Bool)
  | backwardFCode (c : BitVec 3)
  | extraInformationPicture (e : BitVec 8)
  | extraBitPictureEnd
  | sliceQuantizerScale (q : BitVec 5)
  | extraInformationSlice (e : BitVec 8)
  | extraBitSliceEnd
  | macroblockQuantizerScale (q : BitVec 5)
  | motionResidual (rangeSize : BitVec 3) (r : BitVec 6)
  | dctDcDifferential (size : BitVec 4) (d : BitVec 8)
  -- unit operations, 30_encoding.md R134
  | brReset
  | brPeek (n : BitVec 6)
  | brConsume (n : BitVec 6)
  | brConsume1
  | brRefill
  | brGet (n : BitVec 6)
  | brAlignSc
  | vldCode (t : Table)
  | vldMbaInc
  | vldMbtype
  | vldCbp
  | vldMotionCode
  | vldDcDiff (b : BlockNo)
  | vldCoef (first : Bool)
  | vldEscape
  | iqIntraDc (b : BlockNo)
  | iqIntraAc (level : BitVec 9) (qs : BitVec 5) (w : BitVec 8)
  | iqInter (level : BitVec 9) (qs : BitVec 5) (w : BitVec 8)
  | iqOddsat (m : BitVec 32)
  | mvrDecode (d : Direction) (c : Axis) (rangeSize : BitVec 3) (fullPel : Bool)
  | idctRow (b : BlockNo) (r : BitVec 3)
  | idctCol (b : BlockNo) (c : BitVec 3)
  | idctBlock (b : BlockNo)
  | hpiForm (ref : Direction) (mbX mbY : BitVec 8) (dx dy : BitVec 16)
  | hpiFormAvg (ref : Direction) (mbX mbY : BitVec 8) (dx dy : BitVec 16)
  | mbtPutIntra (b : BlockNo) (mbX mbY : BitVec 8)
  | mbtAddInter (b : BlockNo) (mbX mbY : BitVec 8)
  | mbtSkipP (a : BitVec 16)
  | mbtSkipB (a : BitVec 16)
  | seqNextHeader
  | seqSequenceHeader
  | seqGopHeader
  | seqPictureHeader
  | seqPictureData
  | seqSlice (total : BitVec 24)
  | seqMacroblock
  | seqIntraBlock (b : BlockNo)
  | seqInterBlock (b : BlockNo)
  | pbmAlloc (cols rows : BitVec 8)
  | pbmRotateRef
  | pbmSelectAux
  | pbmGetFrame
  -- code words of T_MOTION, 44_vlc_decoder.md R276
  | motionMag0
  | motionMag1 (s : Bool)
  | motionMag2 (s : Bool)
  | motionMag3 (s : Bool)
  | motionMag4 (s : Bool)
  | motionMag5 (s : Bool)
  | motionMag6 (s : Bool)
  | motionMag7 (s : Bool)
  | motionMag8 (s : Bool)
  | motionMag9 (s : Bool)
  | motionMag10 (s : Bool)
  | motionMag11 (s : Bool)
  | motionMag12 (s : Bool)
  | motionMag13 (s : Bool)
  | motionMag14 (s : Bool)
  | motionMag15 (s : Bool)
  | motionMag16 (s : Bool)
  -- code words of T_DCT, 44_vlc_decoder.md R279
  | coefR1L1 (s : Bool)
  | coefR0L2 (s : Bool)
  | coefR2L1 (s : Bool)
  | coefR0L3 (s : Bool)
  | coefR3L1 (s : Bool)
  | coefR4L1 (s : Bool)
  | coefR1L2 (s : Bool)
  | coefR5L1 (s : Bool)
  | coefR6L1 (s : Bool)
  | coefR7L1 (s : Bool)
  | coefR0L4 (s : Bool)
  | coefR2L2 (s : Bool)
  | coefR8L1 (s : Bool)
  | coefR9L1 (s : Bool)
  | coefR0L5 (s : Bool)
  | coefR0L6 (s : Bool)
  | coefR1L3 (s : Bool)
  | coefR3L2 (s : Bool)
  | coefR10L1 (s : Bool)
  | coefR11L1 (s : Bool)
  | coefR12L1 (s : Bool)
  | coefR13L1 (s : Bool)
  | coefR0L7 (s : Bool)
  | coefR1L4 (s : Bool)
  | coefR2L3 (s : Bool)
  | coefR4L2 (s : Bool)
  | coefR5L2 (s : Bool)
  | coefR14L1 (s : Bool)
  | coefR15L1 (s : Bool)
  | coefR16L1 (s : Bool)
  | coefR0L8 (s : Bool)
  | coefR0L9 (s : Bool)
  | coefR0L10 (s : Bool)
  | coefR0L11 (s : Bool)
  | coefR1L5 (s : Bool)
  | coefR2L4 (s : Bool)
  | coefR3L3 (s : Bool)
  | coefR4L3 (s : Bool)
  | coefR6L2 (s : Bool)
  | coefR7L2 (s : Bool)
  | coefR8L2 (s : Bool)
  | coefR17L1 (s : Bool)
  | coefR18L1 (s : Bool)
  | coefR19L1 (s : Bool)
  | coefR20L1 (s : Bool)
  | coefR21L1 (s : Bool)
  | coefR0L12 (s : Bool)
  | coefR0L13 (s : Bool)
  | coefR0L14 (s : Bool)
  | coefR0L15 (s : Bool)
  | coefR1L6 (s : Bool)
  | coefR1L7 (s : Bool)
  | coefR2L5 (s : Bool)
  | coefR3L4 (s : Bool)
  | coefR5L3 (s : Bool)
  | coefR9L2 (s : Bool)
  | coefR10L2 (s : Bool)
  | coefR22L1 (s : Bool)
  | coefR23L1 (s : Bool)
  | coefR24L1 (s : Bool)
  | coefR25L1 (s : Bool)
  | coefR26L1 (s : Bool)
  | coefR0L16 (s : Bool)
  | coefR0L17 (s : Bool)
  | coefR0L18 (s : Bool)
  | coefR0L19 (s : Bool)
  | coefR0L20 (s : Bool)
  | coefR0L21 (s : Bool)
  | coefR0L22 (s : Bool)
  | coefR0L23 (s : Bool)
  | coefR0L24 (s : Bool)
  | coefR0L25 (s : Bool)
  | coefR0L26 (s : Bool)
  | coefR0L27 (s : Bool)
  | coefR0L28 (s : Bool)
  | coefR0L29 (s : Bool)
  | coefR0L30 (s : Bool)
  | coefR0L31 (s : Bool)
  | coefR0L32 (s : Bool)
  | coefR0L33 (s : Bool)
  | coefR0L34 (s : Bool)
  | coefR0L35 (s : Bool)
  | coefR0L36 (s : Bool)
  | coefR0L37 (s : Bool)
  | coefR0L38 (s : Bool)
  | coefR0L39 (s : Bool)
  | coefR0L40 (s : Bool)
  | coefR1L8 (s : Bool)
  | coefR1L9 (s : Bool)
  | coefR1L10 (s : Bool)
  | coefR1L11 (s : Bool)
  | coefR1L12 (s : Bool)
  | coefR1L13 (s : Bool)
  | coefR1L14 (s : Bool)
  | coefR1L15 (s : Bool)
  | coefR1L16 (s : Bool)
  | coefR1L17 (s : Bool)
  | coefR1L18 (s : Bool)
  | coefR6L3 (s : Bool)
  | coefR11L2 (s : Bool)
  | coefR12L2 (s : Bool)
  | coefR13L2 (s : Bool)
  | coefR14L2 (s : Bool)
  | coefR15L2 (s : Bool)
  | coefR16L2 (s : Bool)
  | coefR27L1 (s : Bool)
  | coefR28L1 (s : Bool)
  | coefR29L1 (s : Bool)
  | coefR30L1 (s : Bool)
  | coefR31L1 (s : Bool)
  | coefFirstR0L1 (s : Bool)
  | coefNextR0L1 (s : Bool)
  | eob
  | coefEscape20 (r : BitVec 6) (l : BitVec 8)
  | coefEscape28 (r : BitVec 6) (z : Bool) (l : BitVec 8)
  -- code words of T_MBA, 44_vlc_decoder.md R271
  | mbaInc1
  | mbaInc2
  | mbaInc3
  | mbaInc4
  | mbaInc5
  | mbaInc6
  | mbaInc7
  | mbaInc8
  | mbaInc9
  | mbaInc10
  | mbaInc11
  | mbaInc12
  | mbaInc13
  | mbaInc14
  | mbaInc15
  | mbaInc16
  | mbaInc17
  | mbaInc18
  | mbaInc19
  | mbaInc20
  | mbaInc21
  | mbaInc22
  | mbaInc23
  | mbaInc24
  | mbaInc25
  | mbaInc26
  | mbaInc27
  | mbaInc28
  | mbaInc29
  | mbaInc30
  | mbaInc31
  | mbaInc32
  | mbaInc33
  | mbaStuffing
  | mbaEscape
  -- code words of T_MBT_I, 44_vlc_decoder.md R272
  | mbtIIntra
  | mbtIQuantIntra
  -- code words of T_MBT_P, 44_vlc_decoder.md R273
  | mbtPForwardPattern
  | mbtPPattern
  | mbtPForward
  | mbtPIntra
  | mbtPQuantForwardPattern
  | mbtPQuantPattern
  | mbtPQuantIntra
  -- code words of T_MBT_B, 44_vlc_decoder.md R274
  | mbtBForwardBackward
  | mbtBForwardBackwardPattern
  | mbtBBackward
  | mbtBBackwardPattern
  | mbtBForward
  | mbtBForwardPattern
  | mbtBIntra
  | mbtBQuantForwardBackwardPattern
  | mbtBQuantForwardPattern
  | mbtBQuantBackwardPattern
  | mbtBQuantIntra
  -- code words of T_CBP, 44_vlc_decoder.md R275
  | cbp60
  | cbp4
  | cbp8
  | cbp16
  | cbp32
  | cbp12
  | cbp48
  | cbp20
  | cbp40
  | cbp28
  | cbp44
  | cbp52
  | cbp56
  | cbp1
  | cbp61
  | cbp2
  | cbp62
  | cbp24
  | cbp36
  | cbp3
  | cbp63
  | cbp5
  | cbp9
  | cbp17
  | cbp33
  | cbp6
  | cbp10
  | cbp18
  | cbp34
  | cbp7
  | cbp11
  | cbp19
  | cbp35
  | cbp13
  | cbp49
  | cbp21
  | cbp41
  | cbp14
  | cbp50
  | cbp22
  | cbp42
  | cbp15
  | cbp51
  | cbp23
  | cbp43
  | cbp25
  | cbp37
  | cbp26
  | cbp38
  | cbp29
  | cbp45
  | cbp53
  | cbp57
  | cbp30
  | cbp46
  | cbp54
  | cbp58
  | cbp31
  | cbp47
  | cbp55
  | cbp59
  | cbp27
  | cbp39
  -- code words of T_DCL, 44_vlc_decoder.md R277
  | dcSizeLuma0
  | dcSizeLuma1
  | dcSizeLuma2
  | dcSizeLuma3
  | dcSizeLuma4
  | dcSizeLuma5
  | dcSizeLuma6
  | dcSizeLuma7
  | dcSizeLuma8
  -- code words of T_DCC, 44_vlc_decoder.md R278
  | dcSizeChroma0
  | dcSizeChroma1
  | dcSizeChroma2
  | dcSizeChroma3
  | dcSizeChroma4
  | dcSizeChroma5
  | dcSizeChroma6
  | dcSizeChroma7
  | dcSizeChroma8
  deriving DecidableEq, Repr

end Sys2Proof
end

