-- ==== Sys2Proof/Config.lean ====
section
/-!
DEFINITION. What the spec leaves open: the open parameters (00_scope.md R7), which the machine takes as data, and the
free values. The free values are opaque constants without a body, each applied to a counter that State holds (or to the
sample's address), so that nothing about them can be proved: a claim about a state that contains one holds whatever it is
(93_implementation_defined.md Part 1, treatment "any value").
-/

namespace Sys2Proof.Config

/-- The parameter `ODDIFY_ZERO` (00_scope.md R7, 45_block_decode_iq.md R311): what oddification makes of a zero
product. `toOne` is the spec's default, `stayZero` the rule of the named standard. -/
inductive OddifyZero where
  | toOne
  | stayZero
  deriving DecidableEq, Repr

/-- The parameter `AVG2` or `AVG4` (00_scope.md R7, 92_eei_decisions.md D32): the spec's default, or another averaging
function, of which nothing is known but that it is one function (log 12). -/
inductive AverageRule where
  | standard
  | other (which : Nat)
  deriving DecidableEq, Repr

/-- The averaging functions of two samples that are not the default. -/
opaque otherAverage2 (which a b : Nat) : Byte

/-- The averaging functions of four samples that are not the default. -/
opaque otherAverage4 (which a b c d : Nat) : Byte

/-- The parameters `T_MBA` to `T_DCT` (00_scope.md R7, 92_eei_decisions.md D22), each a finite set of code words with
their symbols (44_vlc_decoder.md R270). -/
structure Tables where
  mba : List (Row MbaSymbol)
  mbtI : List (Row (BitVec 5))
  mbtP : List (Row (BitVec 5))
  mbtB : List (Row (BitVec 5))
  cbp : List (Row (BitVec 6))
  motion : List (Row Nat)
  dcl : List (Row Nat)
  dcc : List (Row Nat)
  dct : List (Row DctSymbol)
  deriving DecidableEq, Repr

/-- The open parameters of 00_scope.md R7 that are values: `ODDIFY_ZERO`, `AVG2`, `AVG4`, `ZIGZAG`, `DEF_INTRA` and the
nine code tables. No instruction writes them. -/
structure Params where
  oddifyZero : OddifyZero
  avg2 : AverageRule
  avg4 : AverageRule
  zigzag : Vector (Fin 64) 64
  defIntra : Vector Byte 64
  tables : Tables
  deriving DecidableEq, Repr

/-- A sample never written since its frame store was allocated: one arbitrary value per allocation and address, the
same at every read until the sample is written (10_state.md R55, U5). -/
opaque freeSample (epoch addr : Nat) : Byte

/-- A sample read outside its plane: a fresh arbitrary value per read (20_memory.md R94, U4). -/
opaque freeOutside (draw : Nat) : Byte

/-- The six coefficient blocks at `CMD_OPEN` and between macroblocks (10_state.md R51, R70, U20). -/
opaque freeBlocks (draw : Nat) : Vector Block 6

/-- The column and row of a macroblock while `mb_cols` is 0, for which 10_state.md R28 states no result (log 32). -/
opaque freePosition (draw : Nat) : Nat × Nat

/-- The first address of a slice in row 0, where 43_macroblock_decoder.md R233 gives no natural number (log 36). -/
opaque freeAddress (draw : Nat) : Nat

/-- The text of `ERRSTR` after a fault, before the length bound is applied (10_state.md R58, U21). -/
opaque freeText (draw : Nat) : List Byte

/-- The register `Rdmax`, which no rule reads or defines on an elementary stream (10_state.md R24, U19). -/
opaque freeRdmax (draw : Nat) : Nat

end Sys2Proof.Config
end

