-- ==== Sys2Proof/WellFormed.lean ====
section
/-!
DEFINITION. Which instructions have an encoding: the ranges that the spec gives the operands of a row. Every other
constructor is well-formed for every value of its operands.
-/

namespace Sys2Proof

/-- An instruction has an encoding. `CMD_UNDEFINED` is every code but 1 to 5 (30_encoding.md R133); the slice codes
are 0x01 to 0xAF and the unrecognised codes the rest (R121, R122); a residual has `rangeSize` bits and a differential
`size` bits, and both are present only when there is at least one (R127, R128); an 8-bit escape level is neither 0x00
nor 0x80 (R129); the ranges of the bit reader's operands are those of 40_bit_reader.md R172, R173, R176, of the
dequantiser's those of 45_block_decode_iq.md R309, and `rangeSize` is 0 to 6 (46_motion_vectors.md R339). -/
def Instr.check (i : Instr) : Bool :=
  match i with
  | .cmdUndefined c => decide (c.toNat = 0 ∨ 5 < c.toNat)
  | .scSlice r => decide (1 ≤ r.toNat ∧ r.toNat ≤ 0xAF)
  | .scUnrecognised x => decide (0xAF < x.toNat ∧ x.toNat ≠ 0xB3 ∧ x.toNat ≠ 0xB7 ∧ x.toNat ≠ 0xB8)
  | .motionResidual rangeSize r => decide (1 ≤ rangeSize.toNat ∧ rangeSize.toNat ≤ 6 ∧ r.toNat < 2 ^ rangeSize.toNat)
  | .dctDcDifferential size d => decide (1 ≤ size.toNat ∧ size.toNat ≤ 8 ∧ d.toNat < 2 ^ size.toNat)
  | .brPeek n => decide (1 ≤ n.toNat ∧ n.toNat ≤ 32)
  | .brConsume n => decide (n.toNat ≤ 32)
  | .brGet n => decide (n.toNat ≤ 32)
  | .iqIntraAc level qs _ => decide (level ≠ 0 ∧ qs ≠ 0)
  | .iqInter level qs _ => decide (level ≠ 0 ∧ qs ≠ 0)
  | .mvrDecode _ _ rangeSize _ => decide (rangeSize.toNat ≤ 6)
  | .coefEscape20 _ l => decide (l ≠ 0 ∧ l ≠ 0x80)
  | .cmdOpen _ | .cmdReset | .cmdDecodeNext | .cmdGetFrame | .cmdClose | .scPicture | .scSequenceHeader |
    .scSequenceEnd | .scGroup | .horizontalSize _ | .verticalSize _ | .aspectRatioCode _ | .frameRateCode _ |
    .bitRateValue _ | .markerBit _ | .vbvBufferSize _ | .constrainedParametersFlag _ | .loadIntraQuantizerMatrix _ |
    .intraQuantizerMatrixEntry _ | .loadNonIntraQuantizerMatrix _ | .nonIntraQuantizerMatrixEntry _ |
    .sequenceHeaderSkip _ | .gopTimeCodeAndFlags _ | .temporalReference _ | .pictureCodingType _ | .vbvDelay _ |
    .fullPelForwardVector _ | .forwardFCode _ | .fullPelBackwardVector _ | .backwardFCode _ |
    .extraInformationPicture _ | .extraBitPictureEnd | .sliceQuantizerScale _ | .extraInformationSlice _ |
    .extraBitSliceEnd | .macroblockQuantizerScale _ | .brReset | .brConsume1 | .brRefill | .brAlignSc | .vldCode _ |
    .vldMbaInc | .vldMbtype | .vldCbp | .vldMotionCode | .vldDcDiff _ | .vldCoef _ | .vldEscape | .iqIntraDc _ |
    .iqOddsat _ | .idctRow _ _ | .idctCol _ _ | .idctBlock _ | .hpiForm _ _ _ _ _ | .hpiFormAvg _ _ _ _ _ |
    .mbtPutIntra _ _ _ | .mbtAddInter _ _ _ | .mbtSkipP _ | .mbtSkipB _ | .seqNextHeader | .seqSequenceHeader |
    .seqGopHeader | .seqPictureHeader | .seqPictureData | .seqSlice _ | .seqMacroblock | .seqIntraBlock _ |
    .seqInterBlock _ | .pbmAlloc _ _ | .pbmRotateRef | .pbmSelectAux | .pbmGetFrame | .mbaInc1 | .mbaInc2 |
    .mbaInc3 | .mbaInc4 | .mbaInc5 | .mbaInc6 | .mbaInc7 | .mbaInc8 | .mbaInc9 | .mbaInc10 | .mbaInc11 | .mbaInc12 |
    .mbaInc13 | .mbaInc14 | .mbaInc15 | .mbaInc16 | .mbaInc17 | .mbaInc18 | .mbaInc19 | .mbaInc20 | .mbaInc21 |
    .mbaInc22 | .mbaInc23 | .mbaInc24 | .mbaInc25 | .mbaInc26 | .mbaInc27 | .mbaInc28 | .mbaInc29 | .mbaInc30 |
    .mbaInc31 | .mbaInc32 | .mbaInc33 | .mbaStuffing | .mbaEscape | .mbtIIntra | .mbtIQuantIntra |
    .mbtPForwardPattern | .mbtPPattern | .mbtPForward | .mbtPIntra | .mbtPQuantForwardPattern | .mbtPQuantPattern |
    .mbtPQuantIntra | .mbtBForwardBackward | .mbtBForwardBackwardPattern | .mbtBBackward | .mbtBBackwardPattern |
    .mbtBForward | .mbtBForwardPattern | .mbtBIntra | .mbtBQuantForwardBackwardPattern | .mbtBQuantForwardPattern |
    .mbtBQuantBackwardPattern | .mbtBQuantIntra | .cbp60 | .cbp4 | .cbp8 | .cbp16 | .cbp32 | .cbp12 | .cbp48 |
    .cbp20 | .cbp40 | .cbp28 | .cbp44 | .cbp52 | .cbp56 | .cbp1 | .cbp61 | .cbp2 | .cbp62 | .cbp24 | .cbp36 |
    .cbp3 | .cbp63 | .cbp5 | .cbp9 | .cbp17 | .cbp33 | .cbp6 | .cbp10 | .cbp18 | .cbp34 | .cbp7 | .cbp11 | .cbp19 |
    .cbp35 | .cbp13 | .cbp49 | .cbp21 | .cbp41 | .cbp14 | .cbp50 | .cbp22 | .cbp42 | .cbp15 | .cbp51 | .cbp23 |
    .cbp43 | .cbp25 | .cbp37 | .cbp26 | .cbp38 | .cbp29 | .cbp45 | .cbp53 | .cbp57 | .cbp30 | .cbp46 | .cbp54 |
    .cbp58 | .cbp31 | .cbp47 | .cbp55 | .cbp59 | .cbp27 | .cbp39 | .motionMag0 | .motionMag1 _ | .motionMag2 _ |
    .motionMag3 _ | .motionMag4 _ | .motionMag5 _ | .motionMag6 _ | .motionMag7 _ | .motionMag8 _ | .motionMag9 _ |
    .motionMag10 _ | .motionMag11 _ | .motionMag12 _ | .motionMag13 _ | .motionMag14 _ | .motionMag15 _ |
    .motionMag16 _ | .dcSizeLuma0 | .dcSizeLuma1 | .dcSizeLuma2 | .dcSizeLuma3 | .dcSizeLuma4 | .dcSizeLuma5 |
    .dcSizeLuma6 | .dcSizeLuma7 | .dcSizeLuma8 | .dcSizeChroma0 | .dcSizeChroma1 | .dcSizeChroma2 | .dcSizeChroma3 |
    .dcSizeChroma4 | .dcSizeChroma5 | .dcSizeChroma6 | .dcSizeChroma7 | .dcSizeChroma8 | .coefR1L1 _ | .coefR0L2 _ |
    .coefR2L1 _ | .coefR0L3 _ | .coefR3L1 _ | .coefR4L1 _ | .coefR1L2 _ | .coefR5L1 _ | .coefR6L1 _ | .coefR7L1 _ |
    .coefR0L4 _ | .coefR2L2 _ | .coefR8L1 _ | .coefR9L1 _ | .coefR0L5 _ | .coefR0L6 _ | .coefR1L3 _ | .coefR3L2 _ |
    .coefR10L1 _ | .coefR11L1 _ | .coefR12L1 _ | .coefR13L1 _ | .coefR0L7 _ | .coefR1L4 _ | .coefR2L3 _ |
    .coefR4L2 _ | .coefR5L2 _ | .coefR14L1 _ | .coefR15L1 _ | .coefR16L1 _ | .coefR0L8 _ | .coefR0L9 _ |
    .coefR0L10 _ | .coefR0L11 _ | .coefR1L5 _ | .coefR2L4 _ | .coefR3L3 _ | .coefR4L3 _ | .coefR6L2 _ |
    .coefR7L2 _ | .coefR8L2 _ | .coefR17L1 _ | .coefR18L1 _ | .coefR19L1 _ | .coefR20L1 _ | .coefR21L1 _ |
    .coefR0L12 _ | .coefR0L13 _ | .coefR0L14 _ | .coefR0L15 _ | .coefR1L6 _ | .coefR1L7 _ | .coefR2L5 _ |
    .coefR3L4 _ | .coefR5L3 _ | .coefR9L2 _ | .coefR10L2 _ | .coefR22L1 _ | .coefR23L1 _ | .coefR24L1 _ |
    .coefR25L1 _ | .coefR26L1 _ | .coefR0L16 _ | .coefR0L17 _ | .coefR0L18 _ | .coefR0L19 _ | .coefR0L20 _ |
    .coefR0L21 _ | .coefR0L22 _ | .coefR0L23 _ | .coefR0L24 _ | .coefR0L25 _ | .coefR0L26 _ | .coefR0L27 _ |
    .coefR0L28 _ | .coefR0L29 _ | .coefR0L30 _ | .coefR0L31 _ | .coefR0L32 _ | .coefR0L33 _ | .coefR0L34 _ |
    .coefR0L35 _ | .coefR0L36 _ | .coefR0L37 _ | .coefR0L38 _ | .coefR0L39 _ | .coefR0L40 _ | .coefR1L8 _ |
    .coefR1L9 _ | .coefR1L10 _ | .coefR1L11 _ | .coefR1L12 _ | .coefR1L13 _ | .coefR1L14 _ | .coefR1L15 _ |
    .coefR1L16 _ | .coefR1L17 _ | .coefR1L18 _ | .coefR6L3 _ | .coefR11L2 _ | .coefR12L2 _ | .coefR13L2 _ |
    .coefR14L2 _ | .coefR15L2 _ | .coefR16L2 _ | .coefR27L1 _ | .coefR28L1 _ | .coefR29L1 _ | .coefR30L1 _ |
    .coefR31L1 _ | .coefFirstR0L1 _ | .coefNextR0L1 _ | .eob | .coefEscape28 _ _ _ => true

/-- The instruction has an encoding. -/
abbrev WellFormed (i : Instr) : Prop := i.check = true

end Sys2Proof
end

