-- ==== Sys2Proof/Decode.lean ====
section
/-!
DEFINITION. Encodings (30_encoding.md, 44_vlc_decoder.md): the nine code tables, the decoder (total on any bits,
refusing by `none`), the encoder, and the reading of a word numbered as opcode_table.json numbers it.

A stream is read most significant bit first (20_memory.md R85), so everything is decoded from a WINDOW: the next 64
bits as one number, the first bit to arrive at weight `2 ^ 63`.
-/

namespace Sys2Proof

/-! ### The code tables -/

/-- `T_MBA`, macroblock address increment (44_vlc_decoder.md R271). -/
def tMba : List (Row MbaSymbol) :=
  [⟨1, 0b1, .increment 1⟩, ⟨8, 0b00001000, .increment 13⟩, ⟨11, 0b00000100000, .increment 25⟩,
   ⟨3, 0b011, .increment 2⟩, ⟨8, 0b00000111, .increment 14⟩, ⟨11, 0b00000011111, .increment 26⟩,
   ⟨3, 0b010, .increment 3⟩, ⟨8, 0b00000110, .increment 15⟩, ⟨11, 0b00000011110, .increment 27⟩,
   ⟨4, 0b0011, .increment 4⟩, ⟨10, 0b0000010111, .increment 16⟩, ⟨11, 0b00000011101, .increment 28⟩,
   ⟨4, 0b0010, .increment 5⟩, ⟨10, 0b0000010110, .increment 17⟩, ⟨11, 0b00000011100, .increment 29⟩,
   ⟨5, 0b00011, .increment 6⟩, ⟨10, 0b0000010101, .increment 18⟩, ⟨11, 0b00000011011, .increment 30⟩,
   ⟨5, 0b00010, .increment 7⟩, ⟨10, 0b0000010100, .increment 19⟩, ⟨11, 0b00000011010, .increment 31⟩,
   ⟨7, 0b0000111, .increment 8⟩] ++
  [⟨10, 0b0000010011, .increment 20⟩, ⟨11, 0b00000011001, .increment 32⟩, ⟨7, 0b0000110, .increment 9⟩,
   ⟨10, 0b0000010010, .increment 21⟩, ⟨11, 0b00000011000, .increment 33⟩, ⟨8, 0b00001011, .increment 10⟩,
   ⟨11, 0b00000100011, .increment 22⟩, ⟨11, 0b00000001111, .stuffing⟩, ⟨8, 0b00001010, .increment 11⟩,
   ⟨11, 0b00000100010, .increment 23⟩, ⟨11, 0b00000001000, .escape⟩, ⟨8, 0b00001001, .increment 12⟩,
   ⟨11, 0b00000100001, .increment 24⟩]

/-- `T_MBT_I`, macroblock type in I-pictures; the symbol is `mb_type` (44_vlc_decoder.md R272). -/
def tMbtI : List (Row (BitVec 5)) :=
  [⟨1, 0b1, 1⟩, ⟨2, 0b01, 17⟩]

/-- `T_MBT_P`, macroblock type in P-pictures (44_vlc_decoder.md R273). -/
def tMbtP : List (Row (BitVec 5)) :=
  [⟨1, 0b1, 10⟩, ⟨2, 0b01, 2⟩, ⟨3, 0b001, 8⟩, ⟨5, 0b00011, 1⟩, ⟨5, 0b00010, 26⟩, ⟨5, 0b00001, 18⟩,
   ⟨6, 0b000001, 17⟩]

/-- `T_MBT_B`, macroblock type in B-pictures (44_vlc_decoder.md R274). -/
def tMbtB : List (Row (BitVec 5)) :=
  [⟨2, 0b10, 12⟩, ⟨2, 0b11, 14⟩, ⟨3, 0b010, 4⟩, ⟨3, 0b011, 6⟩, ⟨4, 0b0010, 8⟩, ⟨4, 0b0011, 10⟩, ⟨5, 0b00011, 1⟩,
   ⟨5, 0b00010, 30⟩, ⟨6, 0b000011, 26⟩, ⟨6, 0b000010, 22⟩, ⟨6, 0b000001, 17⟩]

/-- `T_CBP`, coded block pattern (44_vlc_decoder.md R275). -/
def tCbp : List (Row (BitVec 6)) :=
  [⟨3, 0b111, 60⟩, ⟨7, 0b0010111, 5⟩, ⟨8, 0b00010010, 51⟩, ⟨4, 0b1101, 4⟩, ⟨7, 0b0010110, 9⟩, ⟨8, 0b00010001, 23⟩,
   ⟨4, 0b1100, 8⟩, ⟨7, 0b0010101, 17⟩, ⟨8, 0b00010000, 43⟩, ⟨4, 0b1011, 16⟩, ⟨7, 0b0010100, 33⟩,
   ⟨8, 0b00001111, 25⟩, ⟨4, 0b1010, 32⟩, ⟨7, 0b0010011, 6⟩, ⟨8, 0b00001110, 37⟩, ⟨5, 0b10011, 12⟩,
   ⟨7, 0b0010010, 10⟩, ⟨8, 0b00001101, 26⟩, ⟨5, 0b10010, 48⟩, ⟨7, 0b0010001, 18⟩, ⟨8, 0b00001100, 38⟩,
   ⟨5, 0b10001, 20⟩] ++
  [⟨7, 0b0010000, 34⟩, ⟨8, 0b00001011, 29⟩, ⟨5, 0b10000, 40⟩, ⟨8, 0b00011111, 7⟩, ⟨8, 0b00001010, 45⟩,
   ⟨5, 0b01111, 28⟩, ⟨8, 0b00011110, 11⟩, ⟨8, 0b00001001, 53⟩, ⟨5, 0b01110, 44⟩, ⟨8, 0b00011101, 19⟩,
   ⟨8, 0b00001000, 57⟩, ⟨5, 0b01101, 52⟩, ⟨8, 0b00011100, 35⟩, ⟨8, 0b00000111, 30⟩, ⟨5, 0b01100, 56⟩,
   ⟨8, 0b00011011, 13⟩, ⟨8, 0b00000110, 46⟩, ⟨5, 0b01011, 1⟩, ⟨8, 0b00011010, 49⟩, ⟨8, 0b00000101, 54⟩,
   ⟨5, 0b01010, 61⟩, ⟨8, 0b00011001, 21⟩] ++
  [⟨8, 0b00000100, 58⟩, ⟨5, 0b01001, 2⟩, ⟨8, 0b00011000, 41⟩, ⟨9, 0b000000111, 31⟩, ⟨5, 0b01000, 62⟩,
   ⟨8, 0b00010111, 14⟩, ⟨9, 0b000000110, 47⟩, ⟨6, 0b001111, 24⟩, ⟨8, 0b00010110, 50⟩, ⟨9, 0b000000101, 55⟩,
   ⟨6, 0b001110, 36⟩, ⟨8, 0b00010101, 22⟩, ⟨9, 0b000000100, 59⟩, ⟨6, 0b001101, 3⟩, ⟨8, 0b00010100, 42⟩,
   ⟨9, 0b000000011, 27⟩, ⟨6, 0b001100, 63⟩, ⟨8, 0b00010011, 15⟩, ⟨9, 0b000000010, 39⟩]

/-- `T_MOTION`, magnitude of the motion code, without the sign bit (44_vlc_decoder.md R276). -/
def tMotion : List (Row Nat) :=
  [⟨1, 0b1, 0⟩, ⟨9, 0b000001010, 9⟩, ⟨2, 0b01, 1⟩, ⟨9, 0b000001001, 10⟩, ⟨3, 0b001, 2⟩, ⟨10, 0b0000010001, 11⟩,
   ⟨4, 0b0001, 3⟩, ⟨10, 0b0000010000, 12⟩, ⟨6, 0b000011, 4⟩, ⟨10, 0b0000001111, 13⟩, ⟨7, 0b0000101, 5⟩,
   ⟨10, 0b0000001110, 14⟩, ⟨7, 0b0000100, 6⟩, ⟨10, 0b0000001101, 15⟩, ⟨7, 0b0000011, 7⟩, ⟨10, 0b0000001100, 16⟩,
   ⟨9, 0b000001011, 8⟩]

/-- `T_DCL`, size of a luma DC differential (44_vlc_decoder.md R277). -/
def tDcl : List (Row Nat) :=
  [⟨3, 0b100, 0⟩, ⟨2, 0b00, 1⟩, ⟨2, 0b01, 2⟩, ⟨3, 0b101, 3⟩, ⟨3, 0b110, 4⟩, ⟨4, 0b1110, 5⟩, ⟨5, 0b11110, 6⟩,
   ⟨6, 0b111110, 7⟩, ⟨7, 0b1111110, 8⟩]

/-- `T_DCC`, size of a chroma DC differential (44_vlc_decoder.md R278). -/
def tDcc : List (Row Nat) :=
  [⟨2, 0b00, 0⟩, ⟨2, 0b01, 1⟩, ⟨2, 0b10, 2⟩, ⟨3, 0b110, 3⟩, ⟨4, 0b1110, 4⟩, ⟨5, 0b11110, 5⟩, ⟨6, 0b111110, 6⟩,
   ⟨7, 0b1111110, 7⟩, ⟨8, 0b11111110, 8⟩]

/-- The 110 pair entries of `T_DCT`, without the sign bit (44_vlc_decoder.md R279). -/
def tDctPairs : List (Row DctSymbol) :=
  [⟨3, 0b011, .pair 1 1⟩, ⟨12, 0b000000010010, .pair 4 3⟩, ⟨14, 0b00000000010011, .pair 0 28⟩,
   ⟨4, 0b0100, .pair 0 2⟩, ⟨12, 0b000000011110, .pair 6 2⟩, ⟨14, 0b00000000010010, .pair 0 29⟩,
   ⟨4, 0b0101, .pair 2 1⟩, ⟨12, 0b000000010101, .pair 7 2⟩, ⟨14, 0b00000000010001, .pair 0 30⟩,
   ⟨5, 0b00101, .pair 0 3⟩, ⟨12, 0b000000010001, .pair 8 2⟩, ⟨14, 0b00000000010000, .pair 0 31⟩,
   ⟨5, 0b00111, .pair 3 1⟩, ⟨12, 0b000000011111, .pair 17 1⟩, ⟨15, 0b000000000011000, .pair 0 32⟩,
   ⟨5, 0b00110, .pair 4 1⟩, ⟨12, 0b000000011010, .pair 18 1⟩, ⟨15, 0b000000000010111, .pair 0 33⟩,
   ⟨6, 0b000110, .pair 1 2⟩, ⟨12, 0b000000011001, .pair 19 1⟩, ⟨15, 0b000000000010110, .pair 0 34⟩,
   ⟨6, 0b000111, .pair 5 1⟩] ++
  [⟨12, 0b000000010111, .pair 20 1⟩, ⟨15, 0b000000000010101, .pair 0 35⟩, ⟨6, 0b000101, .pair 6 1⟩,
   ⟨12, 0b000000010110, .pair 21 1⟩, ⟨15, 0b000000000010100, .pair 0 36⟩, ⟨6, 0b000100, .pair 7 1⟩,
   ⟨13, 0b0000000011010, .pair 0 12⟩, ⟨15, 0b000000000010011, .pair 0 37⟩, ⟨7, 0b0000110, .pair 0 4⟩,
   ⟨13, 0b0000000011001, .pair 0 13⟩, ⟨15, 0b000000000010010, .pair 0 38⟩, ⟨7, 0b0000100, .pair 2 2⟩,
   ⟨13, 0b0000000011000, .pair 0 14⟩, ⟨15, 0b000000000010001, .pair 0 39⟩, ⟨7, 0b0000111, .pair 8 1⟩,
   ⟨13, 0b0000000010111, .pair 0 15⟩, ⟨15, 0b000000000010000, .pair 0 40⟩, ⟨7, 0b0000101, .pair 9 1⟩,
   ⟨13, 0b0000000010110, .pair 1 6⟩, ⟨15, 0b000000000011111, .pair 1 8⟩, ⟨8, 0b00100110, .pair 0 5⟩,
   ⟨13, 0b0000000010101, .pair 1 7⟩] ++
  [⟨15, 0b000000000011110, .pair 1 9⟩, ⟨8, 0b00100001, .pair 0 6⟩, ⟨13, 0b0000000010100, .pair 2 5⟩,
   ⟨15, 0b000000000011101, .pair 1 10⟩, ⟨8, 0b00100101, .pair 1 3⟩, ⟨13, 0b0000000010011, .pair 3 4⟩,
   ⟨15, 0b000000000011100, .pair 1 11⟩, ⟨8, 0b00100100, .pair 3 2⟩, ⟨13, 0b0000000010010, .pair 5 3⟩,
   ⟨15, 0b000000000011011, .pair 1 12⟩, ⟨8, 0b00100111, .pair 10 1⟩, ⟨13, 0b0000000010001, .pair 9 2⟩,
   ⟨15, 0b000000000011010, .pair 1 13⟩, ⟨8, 0b00100011, .pair 11 1⟩, ⟨13, 0b0000000010000, .pair 10 2⟩,
   ⟨15, 0b000000000011001, .pair 1 14⟩, ⟨8, 0b00100010, .pair 12 1⟩, ⟨13, 0b0000000011111, .pair 22 1⟩,
   ⟨16, 0b0000000000010011, .pair 1 15⟩, ⟨8, 0b00100000, .pair 13 1⟩, ⟨13, 0b0000000011110, .pair 23 1⟩,
   ⟨16, 0b0000000000010010, .pair 1 16⟩] ++
  [⟨10, 0b0000001010, .pair 0 7⟩, ⟨13, 0b0000000011101, .pair 24 1⟩, ⟨16, 0b0000000000010001, .pair 1 17⟩,
   ⟨10, 0b0000001100, .pair 1 4⟩, ⟨13, 0b0000000011100, .pair 25 1⟩, ⟨16, 0b0000000000010000, .pair 1 18⟩,
   ⟨10, 0b0000001011, .pair 2 3⟩, ⟨13, 0b0000000011011, .pair 26 1⟩, ⟨16, 0b0000000000010100, .pair 6 3⟩,
   ⟨10, 0b0000001111, .pair 4 2⟩, ⟨14, 0b00000000011111, .pair 0 16⟩, ⟨16, 0b0000000000011010, .pair 11 2⟩,
   ⟨10, 0b0000001001, .pair 5 2⟩, ⟨14, 0b00000000011110, .pair 0 17⟩, ⟨16, 0b0000000000011001, .pair 12 2⟩,
   ⟨10, 0b0000001110, .pair 14 1⟩, ⟨14, 0b00000000011101, .pair 0 18⟩, ⟨16, 0b0000000000011000, .pair 13 2⟩,
   ⟨10, 0b0000001101, .pair 15 1⟩, ⟨14, 0b00000000011100, .pair 0 19⟩, ⟨16, 0b0000000000010111, .pair 14 2⟩,
   ⟨10, 0b0000001000, .pair 16 1⟩] ++
  [⟨14, 0b00000000011011, .pair 0 20⟩, ⟨16, 0b0000000000010110, .pair 15 2⟩, ⟨12, 0b000000011101, .pair 0 8⟩,
   ⟨14, 0b00000000011010, .pair 0 21⟩, ⟨16, 0b0000000000010101, .pair 16 2⟩, ⟨12, 0b000000011000, .pair 0 9⟩,
   ⟨14, 0b00000000011001, .pair 0 22⟩, ⟨16, 0b0000000000011111, .pair 27 1⟩, ⟨12, 0b000000010011, .pair 0 10⟩,
   ⟨14, 0b00000000011000, .pair 0 23⟩, ⟨16, 0b0000000000011110, .pair 28 1⟩, ⟨12, 0b000000010000, .pair 0 11⟩,
   ⟨14, 0b00000000010111, .pair 0 24⟩, ⟨16, 0b0000000000011101, .pair 29 1⟩, ⟨12, 0b000000011011, .pair 1 5⟩,
   ⟨14, 0b00000000010110, .pair 0 25⟩, ⟨16, 0b0000000000011100, .pair 30 1⟩, ⟨12, 0b000000010100, .pair 2 4⟩,
   ⟨14, 0b00000000010101, .pair 0 26⟩, ⟨16, 0b0000000000011011, .pair 31 1⟩, ⟨12, 0b000000011100, .pair 3 3⟩,
   ⟨14, 0b00000000010100, .pair 0 27⟩]

/-- `T_DCT`: the pairs and the escape `0000 01` (44_vlc_decoder.md R279). -/
def tDct : List (Row DctSymbol) := tDctPairs ++ [⟨6, 0b000001, .escape⟩]

/-- The nine tables as the spec writes them out, the default of the parameters `T_MBA` to `T_DCT` (92_eei_decisions.md
D22). The code words of the opcode table are theirs. -/
def defaultTables : Config.Tables where
  mba := tMba
  mbtI := tMbtI
  mbtP := tMbtP
  mbtB := tMbtB
  cbp := tCbp
  motion := tMotion
  dcl := tDcl
  dcc := tDcc
  dct := tDct

/-! ### Reading a window -/

/-- `n` bits of a 64-bit window from bit `off` on (bit 0 arrives first), as an unsigned number (00_scope.md R9). -/
def bitsOf (w off n : Nat) : Nat := w / 2 ^ (64 - off - n) % 2 ^ n

/-- The entry of a table whose code word begins the window. -/
def lookupRow {α : Type} (rows : List (Row α)) (w : Nat) : Option (Row α) :=
  rows.find? fun r => bitsOf w 0 r.len == r.bits

/-- One bit of a window. -/
def bitAt (w off : Nat) : Bool := bitsOf w off 1 == 1

/-! ### Operands of unit operations (the model's own encoding, log 3) -/

/-- A block number, 0 to 5. -/
def blockOperand (v : Nat) : Option BlockNo := if h : v < 6 then some ⟨v, h⟩ else none

/-- A direction or reference role: 0 forward, 1 backward. -/
def directionOperand (v : Nat) : Option Direction :=
  match v with | 0 => some .forward | 1 => some .backward | _ => none

/-- A vector component: 0 horizontal, 1 vertical. -/
def axisOperand (v : Nat) : Option Axis :=
  match v with | 0 => some .x | 1 => some .y | _ => none

/-- A flag: 0 clear, 1 set. -/
def flagOperand (v : Nat) : Option Bool :=
  match v with | 0 => some false | 1 => some true | _ => none

/-- A number of at most `max`. -/
def rangeOperand (max v : Nat) : Option Nat := if v ≤ max then some v else none

/-- A code table, numbered one less than in 44_vlc_decoder.md R270. -/
def tableOperand (v : Nat) : Option Table :=
  match v with
  | 0 => some .mba | 1 => some .mbtI | 2 => some .mbtP | 3 => some .mbtB | 4 => some .cbp
  | 5 => some .motion | 6 => some .dcl | 7 => some .dcc | 8 => some .dct | _ => none

/-- `table_number` (44_vlc_decoder.md R270). -/
def Table.number (t : Table) : Nat :=
  match t with
  | .mba => 1 | .mbtI => 2 | .mbtP => 3 | .mbtB => 4 | .cbp => 5 | .motion => 6 | .dcl => 7 | .dcc => 8 | .dct => 9

/-! ### From symbols to instructions -/

/-- The `MBA_INC_n` row of an increment. -/
def incrementInstr (v : Nat) : Option Instr :=
  match v with
  | 1 => some .mbaInc1 | 2 => some .mbaInc2 | 3 => some .mbaInc3 | 4 => some .mbaInc4 | 5 => some .mbaInc5
  | 6 => some .mbaInc6 | 7 => some .mbaInc7 | 8 => some .mbaInc8 | 9 => some .mbaInc9 | 10 => some .mbaInc10
  | 11 => some .mbaInc11 | 12 => some .mbaInc12 | 13 => some .mbaInc13 | 14 => some .mbaInc14
  | 15 => some .mbaInc15 | 16 => some .mbaInc16 | 17 => some .mbaInc17 | 18 => some .mbaInc18
  | 19 => some .mbaInc19 | 20 => some .mbaInc20 | 21 => some .mbaInc21 | 22 => some .mbaInc22
  | 23 => some .mbaInc23 | 24 => some .mbaInc24 | 25 => some .mbaInc25 | 26 => some .mbaInc26
  | 27 => some .mbaInc27 | 28 => some .mbaInc28 | 29 => some .mbaInc29 | 30 => some .mbaInc30
  | 31 => some .mbaInc31 | 32 => some .mbaInc32 | 33 => some .mbaInc33 | _ => none

/-- The row of a symbol of `T_MBA`. -/
def mbaInstr (v : MbaSymbol) : Option Instr :=
  match v with
  | .increment n => incrementInstr n
  | .stuffing => some .mbaStuffing
  | .escape => some .mbaEscape

/-- The row of `T_MBT_I` with these flags. -/
def mbtIInstr (v : Nat) : Option Instr :=
  match v with
  | 1 => some .mbtIIntra | 17 => some .mbtIQuantIntra | _ => none

/-- The row of `T_MBT_P` with these flags. -/
def mbtPInstr (v : Nat) : Option Instr :=
  match v with
  | 10 => some .mbtPForwardPattern | 2 => some .mbtPPattern | 8 => some .mbtPForward | 1 => some .mbtPIntra
  | 26 => some .mbtPQuantForwardPattern | 18 => some .mbtPQuantPattern | 17 => some .mbtPQuantIntra | _ => none

/-- The row of `T_MBT_B` with these flags. -/
def mbtBInstr (v : Nat) : Option Instr :=
  match v with
  | 12 => some .mbtBForwardBackward | 14 => some .mbtBForwardBackwardPattern | 4 => some .mbtBBackward
  | 6 => some .mbtBBackwardPattern | 8 => some .mbtBForward | 10 => some .mbtBForwardPattern | 1 => some .mbtBIntra
  | 30 => some .mbtBQuantForwardBackwardPattern | 26 => some .mbtBQuantForwardPattern
  | 22 => some .mbtBQuantBackwardPattern | 17 => some .mbtBQuantIntra | _ => none

/-- The `CBP_n` row of a pattern. -/
def cbpInstr (v : Nat) : Option Instr :=
  match v with
  | 1 => some .cbp1 | 2 => some .cbp2 | 3 => some .cbp3 | 4 => some .cbp4 | 5 => some .cbp5 | 6 => some .cbp6
  | 7 => some .cbp7 | 8 => some .cbp8 | 9 => some .cbp9 | 10 => some .cbp10 | 11 => some .cbp11 | 12 => some .cbp12
  | 13 => some .cbp13 | 14 => some .cbp14 | 15 => some .cbp15 | 16 => some .cbp16 | 17 => some .cbp17
  | 18 => some .cbp18 | 19 => some .cbp19 | 20 => some .cbp20 | 21 => some .cbp21 | 22 => some .cbp22
  | 23 => some .cbp23 | 24 => some .cbp24 | 25 => some .cbp25 | 26 => some .cbp26 | 27 => some .cbp27
  | 28 => some .cbp28 | 29 => some .cbp29 | 30 => some .cbp30 | 31 => some .cbp31 | 32 => some .cbp32
  | 33 => some .cbp33 | 34 => some .cbp34 | 35 => some .cbp35 | 36 => some .cbp36 | 37 => some .cbp37
  | 38 => some .cbp38 | 39 => some .cbp39 | 40 => some .cbp40 | 41 => some .cbp41 | 42 => some .cbp42
  | 43 => some .cbp43 | 44 => some .cbp44 | 45 => some .cbp45 | 46 => some .cbp46 | 47 => some .cbp47
  | 48 => some .cbp48 | 49 => some .cbp49 | 50 => some .cbp50 | 51 => some .cbp51 | 52 => some .cbp52
  | 53 => some .cbp53 | 54 => some .cbp54 | 55 => some .cbp55 | 56 => some .cbp56 | 57 => some .cbp57
  | 58 => some .cbp58 | 59 => some .cbp59 | 60 => some .cbp60 | 61 => some .cbp61 | 62 => some .cbp62
  | 63 => some .cbp63 | _ => none

/-- The `MOTION_MAG_n` row of a magnitude, with its sign bit. -/
def motionInstr (v : Nat) (s : Bool) : Option Instr :=
  match v with
  | 0 => some .motionMag0 | 1 => some (.motionMag1 s) | 2 => some (.motionMag2 s) | 3 => some (.motionMag3 s)
  | 4 => some (.motionMag4 s) | 5 => some (.motionMag5 s) | 6 => some (.motionMag6 s) | 7 => some (.motionMag7 s)
  | 8 => some (.motionMag8 s) | 9 => some (.motionMag9 s) | 10 => some (.motionMag10 s)
  | 11 => some (.motionMag11 s) | 12 => some (.motionMag12 s) | 13 => some (.motionMag13 s)
  | 14 => some (.motionMag14 s) | 15 => some (.motionMag15 s) | 16 => some (.motionMag16 s) | _ => none

/-- The `DC_SIZE_LUMA_n` row of a size. -/
def dclInstr (v : Nat) : Option Instr :=
  match v with
  | 0 => some .dcSizeLuma0 | 1 => some .dcSizeLuma1 | 2 => some .dcSizeLuma2 | 3 => some .dcSizeLuma3
  | 4 => some .dcSizeLuma4 | 5 => some .dcSizeLuma5 | 6 => some .dcSizeLuma6 | 7 => some .dcSizeLuma7
  | 8 => some .dcSizeLuma8 | _ => none

/-- The `DC_SIZE_CHROMA_n` row of a size. -/
def dccInstr (v : Nat) : Option Instr :=
  match v with
  | 0 => some .dcSizeChroma0 | 1 => some .dcSizeChroma1 | 2 => some .dcSizeChroma2 | 3 => some .dcSizeChroma3
  | 4 => some .dcSizeChroma4 | 5 => some .dcSizeChroma5 | 6 => some .dcSizeChroma6 | 7 => some .dcSizeChroma7
  | 8 => some .dcSizeChroma8 | _ => none

/-- The rows of `T_DCT` with run 0. -/
def coefRun0Instr (v : Nat) (s : Bool) : Option Instr :=
  match v with
  | 2 => some (.coefR0L2 s) | 3 => some (.coefR0L3 s) | 4 => some (.coefR0L4 s) | 5 => some (.coefR0L5 s)
  | 6 => some (.coefR0L6 s) | 7 => some (.coefR0L7 s) | 8 => some (.coefR0L8 s) | 9 => some (.coefR0L9 s)
  | 10 => some (.coefR0L10 s) | 11 => some (.coefR0L11 s) | 12 => some (.coefR0L12 s) | 13 => some (.coefR0L13 s)
  | 14 => some (.coefR0L14 s) | 15 => some (.coefR0L15 s) | 16 => some (.coefR0L16 s) | 17 => some (.coefR0L17 s)
  | 18 => some (.coefR0L18 s) | 19 => some (.coefR0L19 s) | 20 => some (.coefR0L20 s) | 21 => some (.coefR0L21 s)
  | 22 => some (.coefR0L22 s) | 23 => some (.coefR0L23 s) | 24 => some (.coefR0L24 s) | 25 => some (.coefR0L25 s)
  | 26 => some (.coefR0L26 s) | 27 => some (.coefR0L27 s) | 28 => some (.coefR0L28 s) | 29 => some (.coefR0L29 s)
  | 30 => some (.coefR0L30 s) | 31 => some (.coefR0L31 s) | 32 => some (.coefR0L32 s) | 33 => some (.coefR0L33 s)
  | 34 => some (.coefR0L34 s) | 35 => some (.coefR0L35 s) | 36 => some (.coefR0L36 s) | 37 => some (.coefR0L37 s)
  | 38 => some (.coefR0L38 s) | 39 => some (.coefR0L39 s) | 40 => some (.coefR0L40 s) | _ => none

/-- The rows of `T_DCT` with run 1. -/
def coefRun1Instr (v : Nat) (s : Bool) : Option Instr :=
  match v with
  | 1 => some (.coefR1L1 s) | 2 => some (.coefR1L2 s) | 3 => some (.coefR1L3 s) | 4 => some (.coefR1L4 s)
  | 5 => some (.coefR1L5 s) | 6 => some (.coefR1L6 s) | 7 => some (.coefR1L7 s) | 8 => some (.coefR1L8 s)
  | 9 => some (.coefR1L9 s) | 10 => some (.coefR1L10 s) | 11 => some (.coefR1L11 s) | 12 => some (.coefR1L12 s)
  | 13 => some (.coefR1L13 s) | 14 => some (.coefR1L14 s) | 15 => some (.coefR1L15 s) | 16 => some (.coefR1L16 s)
  | 17 => some (.coefR1L17 s) | 18 => some (.coefR1L18 s) | _ => none

/-- The rows of `T_DCT` with run 2. -/
def coefRun2Instr (v : Nat) (s : Bool) : Option Instr :=
  match v with
  | 1 => some (.coefR2L1 s) | 2 => some (.coefR2L2 s) | 3 => some (.coefR2L3 s) | 4 => some (.coefR2L4 s)
  | 5 => some (.coefR2L5 s) | _ => none

/-- The row of `T_DCT` of a run and a level magnitude, with its sign bit. -/
def coefInstr (run mag : Nat) (s : Bool) : Option Instr :=
  match run with
  | 0 => coefRun0Instr mag s
  | 1 => coefRun1Instr mag s
  | 2 => coefRun2Instr mag s
  | 3 => match mag with | 1 => some (.coefR3L1 s) | 2 => some (.coefR3L2 s) | 3 => some (.coefR3L3 s) | 4 => some (.coefR3L4 s) | _ => none
  | 4 => match mag with | 1 => some (.coefR4L1 s) | 2 => some (.coefR4L2 s) | 3 => some (.coefR4L3 s) | _ => none
  | 5 => match mag with | 1 => some (.coefR5L1 s) | 2 => some (.coefR5L2 s) | 3 => some (.coefR5L3 s) | _ => none
  | 6 => match mag with | 1 => some (.coefR6L1 s) | 2 => some (.coefR6L2 s) | 3 => some (.coefR6L3 s) | _ => none
  | 7 => match mag with | 1 => some (.coefR7L1 s) | 2 => some (.coefR7L2 s) | _ => none
  | 8 => match mag with | 1 => some (.coefR8L1 s) | 2 => some (.coefR8L2 s) | _ => none
  | 9 => match mag with | 1 => some (.coefR9L1 s) | 2 => some (.coefR9L2 s) | _ => none
  | 10 => match mag with | 1 => some (.coefR10L1 s) | 2 => some (.coefR10L2 s) | _ => none
  | 11 => match mag with | 1 => some (.coefR11L1 s) | 2 => some (.coefR11L2 s) | _ => none
  | 12 => match mag with | 1 => some (.coefR12L1 s) | 2 => some (.coefR12L2 s) | _ => none
  | 13 => match mag with | 1 => some (.coefR13L1 s) | 2 => some (.coefR13L2 s) | _ => none
  | 14 => match mag with | 1 => some (.coefR14L1 s) | 2 => some (.coefR14L2 s) | _ => none
  | 15 => match mag with | 1 => some (.coefR15L1 s) | 2 => some (.coefR15L2 s) | _ => none
  | 16 => match mag with | 1 => some (.coefR16L1 s) | 2 => some (.coefR16L2 s) | _ => none
  | 17 => match mag with | 1 => some (.coefR17L1 s) | _ => none
  | 18 => match mag with | 1 => some (.coefR18L1 s) | _ => none
  | 19 => match mag with | 1 => some (.coefR19L1 s) | _ => none
  | 20 => match mag with | 1 => some (.coefR20L1 s) | _ => none
  | 21 => match mag with | 1 => some (.coefR21L1 s) | _ => none
  | 22 => match mag with | 1 => some (.coefR22L1 s) | _ => none
  | 23 => match mag with | 1 => some (.coefR23L1 s) | _ => none
  | 24 => match mag with | 1 => some (.coefR24L1 s) | _ => none
  | 25 => match mag with | 1 => some (.coefR25L1 s) | _ => none
  | 26 => match mag with | 1 => some (.coefR26L1 s) | _ => none
  | 27 => match mag with | 1 => some (.coefR27L1 s) | _ => none
  | 28 => match mag with | 1 => some (.coefR28L1 s) | _ => none
  | 29 => match mag with | 1 => some (.coefR29L1 s) | _ => none
  | 30 => match mag with | 1 => some (.coefR30L1 s) | _ => none
  | 31 => match mag with | 1 => some (.coefR31L1 s) | _ => none
  | _ => none

/-! ### The decoder -/

/-- A coefficient escape, from its 6-bit code word on: 20 bits, or 28 when the level byte is 0x00 or 0x80
(30_encoding.md R129). -/
def decodeEscape (w : Nat) : Option Instr :=
  let run := BitVec.ofNat 6 (bitsOf w 6 6)
  match bitsOf w 12 8 with
  | 0x00 => some (.coefEscape28 run false (BitVec.ofNat 8 (bitsOf w 20 8)))
  | 0x80 => some (.coefEscape28 run true (BitVec.ofNat 8 (bitsOf w 20 8)))
  | v => some (.coefEscape20 run (BitVec.ofNat 8 v))

/-- A coefficient code word of `T_DCT` that is the same in both positions. -/
def decodeCoef (w : Nat) : Option Instr :=
  match lookupRow tDct w with
  | some ⟨_, _, .escape⟩ => decodeEscape w
  | some ⟨len, _, .pair run mag⟩ => coefInstr run mag (bitAt w len)
  | none => none

/-- A code word at its place in the stream (44_vlc_decoder.md R270 to R282); `none` where no code word of the table
begins the window. -/
def decodeVlc (p : VlcPlace) (w : Nat) : Option Instr :=
  match p with
  | .mba => (lookupRow tMba w).bind fun r => mbaInstr r.sym
  | .mbtI => (lookupRow tMbtI w).bind fun r => mbtIInstr r.sym.toNat
  | .mbtP => (lookupRow tMbtP w).bind fun r => mbtPInstr r.sym.toNat
  | .mbtB => (lookupRow tMbtB w).bind fun r => mbtBInstr r.sym.toNat
  | .cbp => (lookupRow tCbp w).bind fun r => cbpInstr r.sym.toNat
  | .motion => (lookupRow tMotion w).bind fun r => motionInstr r.sym (bitAt w r.len)
  | .dcl => (lookupRow tDcl w).bind fun r => dclInstr r.sym
  | .dcc => (lookupRow tDcc w).bind fun r => dccInstr r.sym
  | .coefFirst => if bitAt w 0 then some (.coefFirstR0L1 (bitAt w 1)) else decodeCoef w
  | .coefNext =>
    match bitsOf w 0 2 with
    | 0b10 => some .eob
    | 0b11 => some (.coefNextR0L1 (bitAt w 2))
    | _ => decodeCoef w

/-- A start code (30_encoding.md R121, R122): `none` where the window does not begin with the prefix `0x000001`. -/
def decodeStartCode (w : Nat) : Option Instr :=
  if bitsOf w 0 24 = 1 then
    match bitsOf w 24 8 with
    | 0x00 => some .scPicture
    | 0xB3 => some .scSequenceHeader
    | 0xB7 => some .scSequenceEnd
    | 0xB8 => some .scGroup
    | x => if x ≤ 0xAF then some (.scSlice (BitVec.ofNat 8 x)) else some (.scUnrecognised (BitVec.ofNat 8 x))
  else none

/-- A field at its place in a header, slice, macroblock or block (30_encoding.md R123 to R128). The two extra-bit
fields are told apart by their first bit; a residual or differential of no bits is absent. -/
def decodeField (f : FieldId) (w : Nat) : Option Instr :=
  match f with
  | .horizontalSize => some (.horizontalSize (BitVec.ofNat 12 (bitsOf w 0 12)))
  | .verticalSize => some (.verticalSize (BitVec.ofNat 12 (bitsOf w 0 12)))
  | .aspectRatioCode => some (.aspectRatioCode (BitVec.ofNat 4 (bitsOf w 0 4)))
  | .frameRateCode => some (.frameRateCode (BitVec.ofNat 4 (bitsOf w 0 4)))
  | .bitRateValue => some (.bitRateValue (BitVec.ofNat 18 (bitsOf w 0 18)))
  | .markerBit => some (.markerBit (bitAt w 0))
  | .vbvBufferSize => some (.vbvBufferSize (BitVec.ofNat 10 (bitsOf w 0 10)))
  | .constrainedParametersFlag => some (.constrainedParametersFlag (bitAt w 0))
  | .loadIntraQuantizerMatrix => some (.loadIntraQuantizerMatrix (bitAt w 0))
  | .intraQuantizerMatrixEntry => some (.intraQuantizerMatrixEntry (BitVec.ofNat 8 (bitsOf w 0 8)))
  | .loadNonIntraQuantizerMatrix => some (.loadNonIntraQuantizerMatrix (bitAt w 0))
  | .nonIntraQuantizerMatrixEntry => some (.nonIntraQuantizerMatrixEntry (BitVec.ofNat 8 (bitsOf w 0 8)))
  | .sequenceHeaderSkip => some (.sequenceHeaderSkip (BitVec.ofNat 62 (bitsOf w 0 62)))
  | .gopTimeCodeAndFlags => some (.gopTimeCodeAndFlags (BitVec.ofNat 27 (bitsOf w 0 27)))
  | .temporalReference => some (.temporalReference (BitVec.ofNat 10 (bitsOf w 0 10)))
  | .pictureCodingType => some (.pictureCodingType (BitVec.ofNat 3 (bitsOf w 0 3)))
  | .vbvDelay => some (.vbvDelay (BitVec.ofNat 16 (bitsOf w 0 16)))
  | .fullPelForwardVector => some (.fullPelForwardVector (bitAt w 0))
  | .forwardFCode => some (.forwardFCode (BitVec.ofNat 3 (bitsOf w 0 3)))
  | .fullPelBackwardVector => some (.fullPelBackwardVector (bitAt w 0))
  | .backwardFCode => some (.backwardFCode (BitVec.ofNat 3 (bitsOf w 0 3)))
  | .extraInformationPicture => if bitAt w 0 then some (.extraInformationPicture (BitVec.ofNat 8 (bitsOf w 1 8))) else none
  | .extraBitPictureEnd => if bitAt w 0 then none else some .extraBitPictureEnd
  | .sliceQuantizerScale => some (.sliceQuantizerScale (BitVec.ofNat 5 (bitsOf w 0 5)))
  | .extraInformationSlice => if bitAt w 0 then some (.extraInformationSlice (BitVec.ofNat 8 (bitsOf w 1 8))) else none
  | .extraBitSliceEnd => if bitAt w 0 then none else some .extraBitSliceEnd
  | .macroblockQuantizerScale => some (.macroblockQuantizerScale (BitVec.ofNat 5 (bitsOf w 0 5)))
  | .motionResidual n =>
    if 1 ≤ n.toNat ∧ n.toNat ≤ 6 then some (.motionResidual n (BitVec.ofNat 6 (bitsOf w 0 n.toNat))) else none
  | .dctDcDifferential n =>
    if 1 ≤ n.toNat ∧ n.toNat ≤ 8 then some (.dctDcDifferential n (BitVec.ofNat 8 (bitsOf w 0 n.toNat))) else none

/-- A code on the command port, with the argument byte of `CMD_OPEN` (30_encoding.md R133). -/
def decodeCommand (w : Nat) : Option Instr :=
  match bitsOf w 0 8 with
  | 1 => some (.cmdOpen (BitVec.ofNat 8 (bitsOf w 8 8)))
  | 2 => some .cmdReset
  | 3 => some .cmdDecodeNext
  | 4 => some .cmdGetFrame
  | 5 => some .cmdClose
  | c => some (.cmdUndefined (BitVec.ofNat 8 c))

/-- The three operands of the dequantiser: the level less 1 (so that 0, which is no level, has no encoding), the
scale less 1, the matrix entry (log 3). -/
def quantOperands (w : Nat) : Option (BitVec 9 × BitVec 5 × BitVec 8) :=
  (rangeOperand 510 (bitsOf w 8 16)).bind fun l => (rangeOperand 30 (bitsOf w 24 8)).bind fun q =>
    some (BitVec.ofNat 9 (l + 1), BitVec.ofNat 5 (q + 1), BitVec.ofNat 8 (bitsOf w 32 8))

/-- A unit operation: its code (30_encoding.md R134) and the model's own encoding of its operands in the bytes that
follow (log 3); `none` for a code that is not assigned or an operand outside its range. -/
def decodeUnitOp (w : Nat) : Option Instr :=
  match bitsOf w 0 8 with
  | 0x10 => some .brReset
  | 0x11 => (rangeOperand 31 (bitsOf w 8 8)).bind fun n => some (.brPeek (BitVec.ofNat 6 (n + 1)))
  | 0x12 => (rangeOperand 32 (bitsOf w 8 8)).bind fun n => some (.brConsume (BitVec.ofNat 6 n))
  | 0x13 => some .brConsume1
  | 0x14 => some .brRefill
  | 0x15 => (rangeOperand 32 (bitsOf w 8 8)).bind fun n => some (.brGet (BitVec.ofNat 6 n))
  | 0x16 => some .brAlignSc
  | 0x20 => (tableOperand (bitsOf w 8 8)).bind fun t => some (.vldCode t)
  | 0x21 => some .vldMbaInc
  | 0x22 => some .vldMbtype
  | 0x23 => some .vldCbp
  | 0x24 => some .vldMotionCode
  | 0x25 => (blockOperand (bitsOf w 8 8)).bind fun b => some (.vldDcDiff b)
  | 0x26 => (flagOperand (bitsOf w 8 8)).bind fun first => some (.vldCoef first)
  | 0x27 => some .vldEscape
  | 0x30 => (blockOperand (bitsOf w 8 8)).bind fun b => some (.iqIntraDc b)
  | 0x31 => (quantOperands w).bind fun o => some (.iqIntraAc o.1 o.2.1 o.2.2)
  | 0x32 => (quantOperands w).bind fun o => some (.iqInter o.1 o.2.1 o.2.2)
  | 0x33 => some (.iqOddsat (BitVec.ofNat 32 (bitsOf w 8 32)))
  | 0x40 => (directionOperand (bitsOf w 8 8)).bind fun d => (axisOperand (bitsOf w 16 8)).bind fun c =>
      (rangeOperand 6 (bitsOf w 24 8)).bind fun rangeSize => (flagOperand (bitsOf w 32 8)).bind fun fullPel =>
      some (.mvrDecode d c (BitVec.ofNat 3 rangeSize) fullPel)
  | 0x50 => (blockOperand (bitsOf w 8 8)).bind fun b => (rangeOperand 7 (bitsOf w 16 8)).bind fun r =>
      some (.idctRow b (BitVec.ofNat 3 r))
  | 0x51 => (blockOperand (bitsOf w 8 8)).bind fun b => (rangeOperand 7 (bitsOf w 16 8)).bind fun c =>
      some (.idctCol b (BitVec.ofNat 3 c))
  | 0x52 => (blockOperand (bitsOf w 8 8)).bind fun b => some (.idctBlock b)
  | 0x60 => (directionOperand (bitsOf w 8 8)).bind fun ref =>
      some (.hpiForm ref (BitVec.ofNat 8 (bitsOf w 16 8)) (BitVec.ofNat 8 (bitsOf w 24 8)) (BitVec.ofNat 16 (bitsOf w 32 16)) (BitVec.ofNat 16 (bitsOf w 48 16)))
  | 0x61 => (directionOperand (bitsOf w 8 8)).bind fun ref =>
      some (.hpiFormAvg ref (BitVec.ofNat 8 (bitsOf w 16 8)) (BitVec.ofNat 8 (bitsOf w 24 8)) (BitVec.ofNat 16 (bitsOf w 32 16)) (BitVec.ofNat 16 (bitsOf w 48 16)))
  | 0x70 => (blockOperand (bitsOf w 8 8)).bind fun b =>
      some (.mbtPutIntra b (BitVec.ofNat 8 (bitsOf w 16 8)) (BitVec.ofNat 8 (bitsOf w 24 8)))
  | 0x71 => (blockOperand (bitsOf w 8 8)).bind fun b =>
      some (.mbtAddInter b (BitVec.ofNat 8 (bitsOf w 16 8)) (BitVec.ofNat 8 (bitsOf w 24 8)))
  | 0x72 => some (.mbtSkipP (BitVec.ofNat 16 (bitsOf w 8 16)))
  | 0x73 => some (.mbtSkipB (BitVec.ofNat 16 (bitsOf w 8 16)))
  | 0x80 => some .seqNextHeader
  | 0x81 => some .seqSequenceHeader
  | 0x82 => some .seqGopHeader
  | 0x83 => some .seqPictureHeader
  | 0x84 => some .seqPictureData
  | 0x85 => some (.seqSlice (BitVec.ofNat 24 (bitsOf w 8 24)))
  | 0x86 => some .seqMacroblock
  | 0x87 => (blockOperand (bitsOf w 8 8)).bind fun b => some (.seqIntraBlock b)
  | 0x88 => (blockOperand (bitsOf w 8 8)).bind fun b => some (.seqInterBlock b)
  | 0x90 => some (.pbmAlloc (BitVec.ofNat 8 (bitsOf w 8 8)) (BitVec.ofNat 8 (bitsOf w 16 8)))
  | 0x91 => some .pbmRotateRef
  | 0x92 => some .pbmSelectAux
  | 0x93 => some .pbmGetFrame
  | _ => none

/-- The decoder: the instruction that begins a 64-bit window on a channel, total on any bits. -/
def decode (c : Channel) (w : Nat) : Option Instr :=
  match c with
  | .command => decodeCommand w
  | .unitOp => decodeUnitOp w
  | .startCode => decodeStartCode w
  | .field f => decodeField f w
  | .vlc p => decodeVlc p w

/-! ### The encoder -/

/-- An encoded instruction: `len` bits, as a number with the first bit to arrive most significant. -/
structure Code where
  len : Nat
  bits : Nat
  deriving DecidableEq, Repr

/-- A sequence of bytes as one code. -/
def octets (bs : List Nat) : Code := ⟨8 * bs.length, bs.foldl (fun n b => n * 256 + b) 0⟩

/-- A code word followed by its sign bit. -/
def signed (len bits : Nat) (s : Bool) : Code := ⟨len + 1, 2 * bits + s.toNat⟩

/-- The low and the high byte of a 16-bit operand, high byte first. -/
def twoBytes (v : Nat) : List Nat := [v / 256 % 256, v % 256]

/-- The byte of a direction. -/
def Direction.byte (d : Direction) : Nat := match d with | .forward => 0 | .backward => 1

/-- The byte of a vector component. -/
def Axis.byte (c : Axis) : Nat := match c with | .x => 0 | .y => 1

/-- The level operand of the dequantiser in 16 bits: the 9-bit level less 1, modulo `2 ^ 9` (log 3). -/
def levelBytes (level : BitVec 9) : List Nat := twoBytes (level - 1).toNat

/-- The channel an instruction is read on. -/
def channel (i : Instr) : Channel :=
  match i with
  | .cmdOpen _ | .cmdReset | .cmdDecodeNext | .cmdGetFrame | .cmdClose | .cmdUndefined _ => .command
  | .scPicture | .scSlice _ | .scSequenceHeader | .scSequenceEnd | .scGroup | .scUnrecognised _ => .startCode
  | .horizontalSize _ => .field .horizontalSize
  | .verticalSize _ => .field .verticalSize
  | .aspectRatioCode _ => .field .aspectRatioCode
  | .frameRateCode _ => .field .frameRateCode
  | .bitRateValue _ => .field .bitRateValue
  | .markerBit _ => .field .markerBit
  | .vbvBufferSize _ => .field .vbvBufferSize
  | .constrainedParametersFlag _ => .field .constrainedParametersFlag
  | .loadIntraQuantizerMatrix _ => .field .loadIntraQuantizerMatrix
  | .intraQuantizerMatrixEntry _ => .field .intraQuantizerMatrixEntry
  | .loadNonIntraQuantizerMatrix _ => .field .loadNonIntraQuantizerMatrix
  | .nonIntraQuantizerMatrixEntry _ => .field .nonIntraQuantizerMatrixEntry
  | .sequenceHeaderSkip _ => .field .sequenceHeaderSkip
  | .gopTimeCodeAndFlags _ => .field .gopTimeCodeAndFlags
  | .temporalReference _ => .field .temporalReference
  | .pictureCodingType _ => .field .pictureCodingType
  | .vbvDelay _ => .field .vbvDelay
  | .fullPelForwardVector _ => .field .fullPelForwardVector
  | .forwardFCode _ => .field .forwardFCode
  | .fullPelBackwardVector _ => .field .fullPelBackwardVector
  | .backwardFCode _ => .field .backwardFCode
  | .extraInformationPicture _ => .field .extraInformationPicture
  | .extraBitPictureEnd => .field .extraBitPictureEnd
  | .sliceQuantizerScale _ => .field .sliceQuantizerScale
  | .extraInformationSlice _ => .field .extraInformationSlice
  | .extraBitSliceEnd => .field .extraBitSliceEnd
  | .macroblockQuantizerScale _ => .field .macroblockQuantizerScale
  | .motionResidual n _ => .field (.motionResidual n)
  | .dctDcDifferential n _ => .field (.dctDcDifferential n)
  | .brReset | .brPeek _ | .brConsume _ | .brConsume1 | .brRefill | .brGet _ | .brAlignSc | .vldCode _ |
    .vldMbaInc | .vldMbtype | .vldCbp | .vldMotionCode | .vldDcDiff _ | .vldCoef _ | .vldEscape | .iqIntraDc _ |
    .iqIntraAc _ _ _ | .iqInter _ _ _ | .iqOddsat _ | .mvrDecode _ _ _ _ | .idctRow _ _ | .idctCol _ _ |
    .idctBlock _ | .hpiForm _ _ _ _ _ | .hpiFormAvg _ _ _ _ _ | .mbtPutIntra _ _ _ | .mbtAddInter _ _ _ |
    .mbtSkipP _ | .mbtSkipB _ | .seqNextHeader | .seqSequenceHeader | .seqGopHeader | .seqPictureHeader |
    .seqPictureData | .seqSlice _ | .seqMacroblock | .seqIntraBlock _ | .seqInterBlock _ | .pbmAlloc _ _ |
    .pbmRotateRef | .pbmSelectAux | .pbmGetFrame => .unitOp
  | .mbaInc1 | .mbaInc2 | .mbaInc3 | .mbaInc4 | .mbaInc5 | .mbaInc6 | .mbaInc7 | .mbaInc8 | .mbaInc9 | .mbaInc10 |
    .mbaInc11 | .mbaInc12 | .mbaInc13 | .mbaInc14 | .mbaInc15 | .mbaInc16 | .mbaInc17 | .mbaInc18 | .mbaInc19 |
    .mbaInc20 | .mbaInc21 | .mbaInc22 | .mbaInc23 | .mbaInc24 | .mbaInc25 | .mbaInc26 | .mbaInc27 | .mbaInc28 |
    .mbaInc29 | .mbaInc30 | .mbaInc31 | .mbaInc32 | .mbaInc33 | .mbaStuffing | .mbaEscape => .vlc .mba
  | .mbtIIntra | .mbtIQuantIntra => .vlc .mbtI
  | .mbtPForwardPattern | .mbtPPattern | .mbtPForward | .mbtPIntra | .mbtPQuantForwardPattern |
    .mbtPQuantPattern | .mbtPQuantIntra => .vlc .mbtP
  | .mbtBForwardBackward | .mbtBForwardBackwardPattern | .mbtBBackward | .mbtBBackwardPattern | .mbtBForward |
    .mbtBForwardPattern | .mbtBIntra | .mbtBQuantForwardBackwardPattern | .mbtBQuantForwardPattern |
    .mbtBQuantBackwardPattern | .mbtBQuantIntra => .vlc .mbtB
  | .cbp60 | .cbp4 | .cbp8 | .cbp16 | .cbp32 | .cbp12 | .cbp48 | .cbp20 | .cbp40 | .cbp28 | .cbp44 | .cbp52 |
    .cbp56 | .cbp1 | .cbp61 | .cbp2 | .cbp62 | .cbp24 | .cbp36 | .cbp3 | .cbp63 | .cbp5 | .cbp9 | .cbp17 |
    .cbp33 | .cbp6 | .cbp10 | .cbp18 | .cbp34 | .cbp7 | .cbp11 | .cbp19 | .cbp35 | .cbp13 | .cbp49 | .cbp21 |
    .cbp41 | .cbp14 | .cbp50 | .cbp22 | .cbp42 | .cbp15 | .cbp51 | .cbp23 | .cbp43 | .cbp25 | .cbp37 | .cbp26 |
    .cbp38 | .cbp29 | .cbp45 | .cbp53 | .cbp57 | .cbp30 | .cbp46 | .cbp54 | .cbp58 | .cbp31 | .cbp47 | .cbp55 |
    .cbp59 | .cbp27 | .cbp39 => .vlc .cbp
  | .motionMag0 | .motionMag1 _ | .motionMag2 _ | .motionMag3 _ | .motionMag4 _ | .motionMag5 _ | .motionMag6 _ |
    .motionMag7 _ | .motionMag8 _ | .motionMag9 _ | .motionMag10 _ | .motionMag11 _ | .motionMag12 _ |
    .motionMag13 _ | .motionMag14 _ | .motionMag15 _ | .motionMag16 _ => .vlc .motion
  | .dcSizeLuma0 | .dcSizeLuma1 | .dcSizeLuma2 | .dcSizeLuma3 | .dcSizeLuma4 | .dcSizeLuma5 | .dcSizeLuma6 |
    .dcSizeLuma7 | .dcSizeLuma8 => .vlc .dcl
  | .dcSizeChroma0 | .dcSizeChroma1 | .dcSizeChroma2 | .dcSizeChroma3 | .dcSizeChroma4 | .dcSizeChroma5 |
    .dcSizeChroma6 | .dcSizeChroma7 | .dcSizeChroma8 => .vlc .dcc
  | .coefFirstR0L1 _ => .vlc .coefFirst
  | .coefR1L1 _ | .coefR0L2 _ | .coefR2L1 _ | .coefR0L3 _ | .coefR3L1 _ | .coefR4L1 _ | .coefR1L2 _ |
    .coefR5L1 _ | .coefR6L1 _ | .coefR7L1 _ | .coefR0L4 _ | .coefR2L2 _ | .coefR8L1 _ | .coefR9L1 _ |
    .coefR0L5 _ | .coefR0L6 _ | .coefR1L3 _ | .coefR3L2 _ | .coefR10L1 _ | .coefR11L1 _ | .coefR12L1 _ |
    .coefR13L1 _ | .coefR0L7 _ | .coefR1L4 _ | .coefR2L3 _ | .coefR4L2 _ | .coefR5L2 _ | .coefR14L1 _ |
    .coefR15L1 _ | .coefR16L1 _ | .coefR0L8 _ | .coefR0L9 _ | .coefR0L10 _ | .coefR0L11 _ | .coefR1L5 _ |
    .coefR2L4 _ | .coefR3L3 _ | .coefR4L3 _ | .coefR6L2 _ | .coefR7L2 _ | .coefR8L2 _ | .coefR17L1 _ |
    .coefR18L1 _ | .coefR19L1 _ | .coefR20L1 _ | .coefR21L1 _ | .coefR0L12 _ | .coefR0L13 _ | .coefR0L14 _ |
    .coefR0L15 _ | .coefR1L6 _ | .coefR1L7 _ | .coefR2L5 _ | .coefR3L4 _ | .coefR5L3 _ | .coefR9L2 _ |
    .coefR10L2 _ | .coefR22L1 _ | .coefR23L1 _ | .coefR24L1 _ | .coefR25L1 _ | .coefR26L1 _ | .coefR0L16 _ |
    .coefR0L17 _ | .coefR0L18 _ | .coefR0L19 _ | .coefR0L20 _ | .coefR0L21 _ | .coefR0L22 _ | .coefR0L23 _ |
    .coefR0L24 _ | .coefR0L25 _ | .coefR0L26 _ | .coefR0L27 _ | .coefR0L28 _ | .coefR0L29 _ | .coefR0L30 _ |
    .coefR0L31 _ | .coefR0L32 _ | .coefR0L33 _ | .coefR0L34 _ | .coefR0L35 _ | .coefR0L36 _ | .coefR0L37 _ |
    .coefR0L38 _ | .coefR0L39 _ | .coefR0L40 _ | .coefR1L8 _ | .coefR1L9 _ | .coefR1L10 _ | .coefR1L11 _ |
    .coefR1L12 _ | .coefR1L13 _ | .coefR1L14 _ | .coefR1L15 _ | .coefR1L16 _ | .coefR1L17 _ | .coefR1L18 _ |
    .coefR6L3 _ | .coefR11L2 _ | .coefR12L2 _ | .coefR13L2 _ | .coefR14L2 _ | .coefR15L2 _ | .coefR16L2 _ |
    .coefR27L1 _ | .coefR28L1 _ | .coefR29L1 _ | .coefR30L1 _ | .coefR31L1 _ | .coefNextR0L1 _ | .eob |
    .coefEscape20 _ _ | .coefEscape28 _ _ _ => .vlc .coefNext

/-- The encoder: the code of a well-formed instruction, written from the "encoding" of its row in opcode_table.json
and, for the operands of a unit operation, from log 3. -/
def encode (i : Instr) : Code :=
  match i with
  | .cmdOpen cfg => octets [1, cfg.toNat]
  | .cmdReset => octets [2]
  | .cmdDecodeNext => octets [3]
  | .cmdGetFrame => octets [4]
  | .cmdClose => octets [5]
  | .cmdUndefined c => octets [c.toNat]
  | .scPicture => ⟨32, 0x00000100⟩
  | .scSlice r => ⟨32, 0x00000100 + r.toNat⟩
  | .scSequenceHeader => ⟨32, 0x000001B3⟩
  | .scSequenceEnd => ⟨32, 0x000001B7⟩
  | .scGroup => ⟨32, 0x000001B8⟩
  | .scUnrecognised x => ⟨32, 0x00000100 + x.toNat⟩
  | .horizontalSize v => ⟨12, v.toNat⟩
  | .verticalSize v => ⟨12, v.toNat⟩
  | .aspectRatioCode a => ⟨4, a.toNat⟩
  | .frameRateCode f => ⟨4, f.toNat⟩
  | .bitRateValue b => ⟨18, b.toNat⟩
  | .markerBit m => ⟨1, m.toNat⟩
  | .vbvBufferSize v => ⟨10, v.toNat⟩
  | .constrainedParametersFlag c => ⟨1, c.toNat⟩
  | .loadIntraQuantizerMatrix l => ⟨1, l.toNat⟩
  | .intraQuantizerMatrixEntry q => ⟨8, q.toNat⟩
  | .loadNonIntraQuantizerMatrix l => ⟨1, l.toNat⟩
  | .nonIntraQuantizerMatrixEntry q => ⟨8, q.toNat⟩
  | .sequenceHeaderSkip x => ⟨62, x.toNat⟩
  | .gopTimeCodeAndFlags t => ⟨27, t.toNat⟩
  | .temporalReference t => ⟨10, t.toNat⟩
  | .pictureCodingType p => ⟨3, p.toNat⟩
  | .vbvDelay d => ⟨16, d.toNat⟩
  | .fullPelForwardVector f => ⟨1, f.toNat⟩
  | .forwardFCode c => ⟨3, c.toNat⟩
  | .fullPelBackwardVector f => ⟨1, f.toNat⟩
  | .backwardFCode c => ⟨3, c.toNat⟩
  | .extraInformationPicture e => ⟨9, 0b100000000 + e.toNat⟩
  | .extraBitPictureEnd => ⟨1, 0b0⟩
  | .sliceQuantizerScale q => ⟨5, q.toNat⟩
  | .extraInformationSlice e => ⟨9, 0b100000000 + e.toNat⟩
  | .extraBitSliceEnd => ⟨1, 0b0⟩
  | .macroblockQuantizerScale q => ⟨5, q.toNat⟩
  | .motionResidual rangeSize r => ⟨rangeSize.toNat, r.toNat⟩
  | .dctDcDifferential size d => ⟨size.toNat, d.toNat⟩
  | .brReset => octets [0x10]
  | .brPeek n => octets [0x11, n.toNat - 1]
  | .brConsume n => octets [0x12, n.toNat]
  | .brConsume1 => octets [0x13]
  | .brRefill => octets [0x14]
  | .brGet n => octets [0x15, n.toNat]
  | .brAlignSc => octets [0x16]
  | .vldCode t => octets [0x20, t.number - 1]
  | .vldMbaInc => octets [0x21]
  | .vldMbtype => octets [0x22]
  | .vldCbp => octets [0x23]
  | .vldMotionCode => octets [0x24]
  | .vldDcDiff b => octets [0x25, b.val]
  | .vldCoef first => octets [0x26, first.toNat]
  | .vldEscape => octets [0x27]
  | .iqIntraDc b => octets [0x30, b.val]
  | .iqIntraAc level qs w => octets ([0x31] ++ levelBytes level ++ [qs.toNat - 1, w.toNat])
  | .iqInter level qs w => octets ([0x32] ++ levelBytes level ++ [qs.toNat - 1, w.toNat])
  | .iqOddsat m => octets [0x33, m.toNat / 16777216, m.toNat / 65536 % 256, m.toNat / 256 % 256, m.toNat % 256]
  | .mvrDecode d c rangeSize fullPel => octets [0x40, d.byte, c.byte, rangeSize.toNat, fullPel.toNat]
  | .idctRow b r => octets [0x50, b.val, r.toNat]
  | .idctCol b c => octets [0x51, b.val, c.toNat]
  | .idctBlock b => octets [0x52, b.val]
  | .hpiForm ref mbX mbY dx dy => octets ([0x60, ref.byte, mbX.toNat, mbY.toNat] ++ twoBytes dx.toNat ++ twoBytes dy.toNat)
  | .hpiFormAvg ref mbX mbY dx dy => octets ([0x61, ref.byte, mbX.toNat, mbY.toNat] ++ twoBytes dx.toNat ++ twoBytes dy.toNat)
  | .mbtPutIntra b mbX mbY => octets [0x70, b.val, mbX.toNat, mbY.toNat]
  | .mbtAddInter b mbX mbY => octets [0x71, b.val, mbX.toNat, mbY.toNat]
  | .mbtSkipP a => octets ([0x72] ++ twoBytes a.toNat)
  | .mbtSkipB a => octets ([0x73] ++ twoBytes a.toNat)
  | .seqNextHeader => octets [0x80]
  | .seqSequenceHeader => octets [0x81]
  | .seqGopHeader => octets [0x82]
  | .seqPictureHeader => octets [0x83]
  | .seqPictureData => octets [0x84]
  | .seqSlice total => octets [0x85, total.toNat / 65536, total.toNat / 256 % 256, total.toNat % 256]
  | .seqMacroblock => octets [0x86]
  | .seqIntraBlock b => octets [0x87, b.val]
  | .seqInterBlock b => octets [0x88, b.val]
  | .pbmAlloc cols rows => octets [0x90, cols.toNat, rows.toNat]
  | .pbmRotateRef => octets [0x91]
  | .pbmSelectAux => octets [0x92]
  | .pbmGetFrame => octets [0x93]
  | .mbaInc1 => ⟨1, 0b1⟩
  | .mbaInc2 => ⟨3, 0b011⟩
  | .mbaInc3 => ⟨3, 0b010⟩
  | .mbaInc4 => ⟨4, 0b0011⟩
  | .mbaInc5 => ⟨4, 0b0010⟩
  | .mbaInc6 => ⟨5, 0b00011⟩
  | .mbaInc7 => ⟨5, 0b00010⟩
  | .mbaInc8 => ⟨7, 0b0000111⟩
  | .mbaInc9 => ⟨7, 0b0000110⟩
  | .mbaInc10 => ⟨8, 0b00001011⟩
  | .mbaInc11 => ⟨8, 0b00001010⟩
  | .mbaInc12 => ⟨8, 0b00001001⟩
  | .mbaInc13 => ⟨8, 0b00001000⟩
  | .mbaInc14 => ⟨8, 0b00000111⟩
  | .mbaInc15 => ⟨8, 0b00000110⟩
  | .mbaInc16 => ⟨10, 0b0000010111⟩
  | .mbaInc17 => ⟨10, 0b0000010110⟩
  | .mbaInc18 => ⟨10, 0b0000010101⟩
  | .mbaInc19 => ⟨10, 0b0000010100⟩
  | .mbaInc20 => ⟨10, 0b0000010011⟩
  | .mbaInc21 => ⟨10, 0b0000010010⟩
  | .mbaInc22 => ⟨11, 0b00000100011⟩
  | .mbaInc23 => ⟨11, 0b00000100010⟩
  | .mbaInc24 => ⟨11, 0b00000100001⟩
  | .mbaInc25 => ⟨11, 0b00000100000⟩
  | .mbaInc26 => ⟨11, 0b00000011111⟩
  | .mbaInc27 => ⟨11, 0b00000011110⟩
  | .mbaInc28 => ⟨11, 0b00000011101⟩
  | .mbaInc29 => ⟨11, 0b00000011100⟩
  | .mbaInc30 => ⟨11, 0b00000011011⟩
  | .mbaInc31 => ⟨11, 0b00000011010⟩
  | .mbaInc32 => ⟨11, 0b00000011001⟩
  | .mbaInc33 => ⟨11, 0b00000011000⟩
  | .mbaStuffing => ⟨11, 0b00000001111⟩
  | .mbaEscape => ⟨11, 0b00000001000⟩
  | .mbtIIntra => ⟨1, 0b1⟩
  | .mbtIQuantIntra => ⟨2, 0b01⟩
  | .mbtPForwardPattern => ⟨1, 0b1⟩
  | .mbtPPattern => ⟨2, 0b01⟩
  | .mbtPForward => ⟨3, 0b001⟩
  | .mbtPIntra => ⟨5, 0b00011⟩
  | .mbtPQuantForwardPattern => ⟨5, 0b00010⟩
  | .mbtPQuantPattern => ⟨5, 0b00001⟩
  | .mbtPQuantIntra => ⟨6, 0b000001⟩
  | .mbtBForwardBackward => ⟨2, 0b10⟩
  | .mbtBForwardBackwardPattern => ⟨2, 0b11⟩
  | .mbtBBackward => ⟨3, 0b010⟩
  | .mbtBBackwardPattern => ⟨3, 0b011⟩
  | .mbtBForward => ⟨4, 0b0010⟩
  | .mbtBForwardPattern => ⟨4, 0b0011⟩
  | .mbtBIntra => ⟨5, 0b00011⟩
  | .mbtBQuantForwardBackwardPattern => ⟨5, 0b00010⟩
  | .mbtBQuantForwardPattern => ⟨6, 0b000011⟩
  | .mbtBQuantBackwardPattern => ⟨6, 0b000010⟩
  | .mbtBQuantIntra => ⟨6, 0b000001⟩
  | .cbp60 => ⟨3, 0b111⟩
  | .cbp4 => ⟨4, 0b1101⟩
  | .cbp8 => ⟨4, 0b1100⟩
  | .cbp16 => ⟨4, 0b1011⟩
  | .cbp32 => ⟨4, 0b1010⟩
  | .cbp12 => ⟨5, 0b10011⟩
  | .cbp48 => ⟨5, 0b10010⟩
  | .cbp20 => ⟨5, 0b10001⟩
  | .cbp40 => ⟨5, 0b10000⟩
  | .cbp28 => ⟨5, 0b01111⟩
  | .cbp44 => ⟨5, 0b01110⟩
  | .cbp52 => ⟨5, 0b01101⟩
  | .cbp56 => ⟨5, 0b01100⟩
  | .cbp1 => ⟨5, 0b01011⟩
  | .cbp61 => ⟨5, 0b01010⟩
  | .cbp2 => ⟨5, 0b01001⟩
  | .cbp62 => ⟨5, 0b01000⟩
  | .cbp24 => ⟨6, 0b001111⟩
  | .cbp36 => ⟨6, 0b001110⟩
  | .cbp3 => ⟨6, 0b001101⟩
  | .cbp63 => ⟨6, 0b001100⟩
  | .cbp5 => ⟨7, 0b0010111⟩
  | .cbp9 => ⟨7, 0b0010110⟩
  | .cbp17 => ⟨7, 0b0010101⟩
  | .cbp33 => ⟨7, 0b0010100⟩
  | .cbp6 => ⟨7, 0b0010011⟩
  | .cbp10 => ⟨7, 0b0010010⟩
  | .cbp18 => ⟨7, 0b0010001⟩
  | .cbp34 => ⟨7, 0b0010000⟩
  | .cbp7 => ⟨8, 0b00011111⟩
  | .cbp11 => ⟨8, 0b00011110⟩
  | .cbp19 => ⟨8, 0b00011101⟩
  | .cbp35 => ⟨8, 0b00011100⟩
  | .cbp13 => ⟨8, 0b00011011⟩
  | .cbp49 => ⟨8, 0b00011010⟩
  | .cbp21 => ⟨8, 0b00011001⟩
  | .cbp41 => ⟨8, 0b00011000⟩
  | .cbp14 => ⟨8, 0b00010111⟩
  | .cbp50 => ⟨8, 0b00010110⟩
  | .cbp22 => ⟨8, 0b00010101⟩
  | .cbp42 => ⟨8, 0b00010100⟩
  | .cbp15 => ⟨8, 0b00010011⟩
  | .cbp51 => ⟨8, 0b00010010⟩
  | .cbp23 => ⟨8, 0b00010001⟩
  | .cbp43 => ⟨8, 0b00010000⟩
  | .cbp25 => ⟨8, 0b00001111⟩
  | .cbp37 => ⟨8, 0b00001110⟩
  | .cbp26 => ⟨8, 0b00001101⟩
  | .cbp38 => ⟨8, 0b00001100⟩
  | .cbp29 => ⟨8, 0b00001011⟩
  | .cbp45 => ⟨8, 0b00001010⟩
  | .cbp53 => ⟨8, 0b00001001⟩
  | .cbp57 => ⟨8, 0b00001000⟩
  | .cbp30 => ⟨8, 0b00000111⟩
  | .cbp46 => ⟨8, 0b00000110⟩
  | .cbp54 => ⟨8, 0b00000101⟩
  | .cbp58 => ⟨8, 0b00000100⟩
  | .cbp31 => ⟨9, 0b000000111⟩
  | .cbp47 => ⟨9, 0b000000110⟩
  | .cbp55 => ⟨9, 0b000000101⟩
  | .cbp59 => ⟨9, 0b000000100⟩
  | .cbp27 => ⟨9, 0b000000011⟩
  | .cbp39 => ⟨9, 0b000000010⟩
  | .motionMag0 => ⟨1, 0b1⟩
  | .motionMag1 s => signed 2 0b01 s
  | .motionMag2 s => signed 3 0b001 s
  | .motionMag3 s => signed 4 0b0001 s
  | .motionMag4 s => signed 6 0b000011 s
  | .motionMag5 s => signed 7 0b0000101 s
  | .motionMag6 s => signed 7 0b0000100 s
  | .motionMag7 s => signed 7 0b0000011 s
  | .motionMag8 s => signed 9 0b000001011 s
  | .motionMag9 s => signed 9 0b000001010 s
  | .motionMag10 s => signed 9 0b000001001 s
  | .motionMag11 s => signed 10 0b0000010001 s
  | .motionMag12 s => signed 10 0b0000010000 s
  | .motionMag13 s => signed 10 0b0000001111 s
  | .motionMag14 s => signed 10 0b0000001110 s
  | .motionMag15 s => signed 10 0b0000001101 s
  | .motionMag16 s => signed 10 0b0000001100 s
  | .dcSizeLuma0 => ⟨3, 0b100⟩
  | .dcSizeLuma1 => ⟨2, 0b00⟩
  | .dcSizeLuma2 => ⟨2, 0b01⟩
  | .dcSizeLuma3 => ⟨3, 0b101⟩
  | .dcSizeLuma4 => ⟨3, 0b110⟩
  | .dcSizeLuma5 => ⟨4, 0b1110⟩
  | .dcSizeLuma6 => ⟨5, 0b11110⟩
  | .dcSizeLuma7 => ⟨6, 0b111110⟩
  | .dcSizeLuma8 => ⟨7, 0b1111110⟩
  | .dcSizeChroma0 => ⟨2, 0b00⟩
  | .dcSizeChroma1 => ⟨2, 0b01⟩
  | .dcSizeChroma2 => ⟨2, 0b10⟩
  | .dcSizeChroma3 => ⟨3, 0b110⟩
  | .dcSizeChroma4 => ⟨4, 0b1110⟩
  | .dcSizeChroma5 => ⟨5, 0b11110⟩
  | .dcSizeChroma6 => ⟨6, 0b111110⟩
  | .dcSizeChroma7 => ⟨7, 0b1111110⟩
  | .dcSizeChroma8 => ⟨8, 0b11111110⟩
  | .coefR1L1 s => signed 3 0b011 s
  | .coefR0L2 s => signed 4 0b0100 s
  | .coefR2L1 s => signed 4 0b0101 s
  | .coefR0L3 s => signed 5 0b00101 s
  | .coefR3L1 s => signed 5 0b00111 s
  | .coefR4L1 s => signed 5 0b00110 s
  | .coefR1L2 s => signed 6 0b000110 s
  | .coefR5L1 s => signed 6 0b000111 s
  | .coefR6L1 s => signed 6 0b000101 s
  | .coefR7L1 s => signed 6 0b000100 s
  | .coefR0L4 s => signed 7 0b0000110 s
  | .coefR2L2 s => signed 7 0b0000100 s
  | .coefR8L1 s => signed 7 0b0000111 s
  | .coefR9L1 s => signed 7 0b0000101 s
  | .coefR0L5 s => signed 8 0b00100110 s
  | .coefR0L6 s => signed 8 0b00100001 s
  | .coefR1L3 s => signed 8 0b00100101 s
  | .coefR3L2 s => signed 8 0b00100100 s
  | .coefR10L1 s => signed 8 0b00100111 s
  | .coefR11L1 s => signed 8 0b00100011 s
  | .coefR12L1 s => signed 8 0b00100010 s
  | .coefR13L1 s => signed 8 0b00100000 s
  | .coefR0L7 s => signed 10 0b0000001010 s
  | .coefR1L4 s => signed 10 0b0000001100 s
  | .coefR2L3 s => signed 10 0b0000001011 s
  | .coefR4L2 s => signed 10 0b0000001111 s
  | .coefR5L2 s => signed 10 0b0000001001 s
  | .coefR14L1 s => signed 10 0b0000001110 s
  | .coefR15L1 s => signed 10 0b0000001101 s
  | .coefR16L1 s => signed 10 0b0000001000 s
  | .coefR0L8 s => signed 12 0b000000011101 s
  | .coefR0L9 s => signed 12 0b000000011000 s
  | .coefR0L10 s => signed 12 0b000000010011 s
  | .coefR0L11 s => signed 12 0b000000010000 s
  | .coefR1L5 s => signed 12 0b000000011011 s
  | .coefR2L4 s => signed 12 0b000000010100 s
  | .coefR3L3 s => signed 12 0b000000011100 s
  | .coefR4L3 s => signed 12 0b000000010010 s
  | .coefR6L2 s => signed 12 0b000000011110 s
  | .coefR7L2 s => signed 12 0b000000010101 s
  | .coefR8L2 s => signed 12 0b000000010001 s
  | .coefR17L1 s => signed 12 0b000000011111 s
  | .coefR18L1 s => signed 12 0b000000011010 s
  | .coefR19L1 s => signed 12 0b000000011001 s
  | .coefR20L1 s => signed 12 0b000000010111 s
  | .coefR21L1 s => signed 12 0b000000010110 s
  | .coefR0L12 s => signed 13 0b0000000011010 s
  | .coefR0L13 s => signed 13 0b0000000011001 s
  | .coefR0L14 s => signed 13 0b0000000011000 s
  | .coefR0L15 s => signed 13 0b0000000010111 s
  | .coefR1L6 s => signed 13 0b0000000010110 s
  | .coefR1L7 s => signed 13 0b0000000010101 s
  | .coefR2L5 s => signed 13 0b0000000010100 s
  | .coefR3L4 s => signed 13 0b0000000010011 s
  | .coefR5L3 s => signed 13 0b0000000010010 s
  | .coefR9L2 s => signed 13 0b0000000010001 s
  | .coefR10L2 s => signed 13 0b0000000010000 s
  | .coefR22L1 s => signed 13 0b0000000011111 s
  | .coefR23L1 s => signed 13 0b0000000011110 s
  | .coefR24L1 s => signed 13 0b0000000011101 s
  | .coefR25L1 s => signed 13 0b0000000011100 s
  | .coefR26L1 s => signed 13 0b0000000011011 s
  | .coefR0L16 s => signed 14 0b00000000011111 s
  | .coefR0L17 s => signed 14 0b00000000011110 s
  | .coefR0L18 s => signed 14 0b00000000011101 s
  | .coefR0L19 s => signed 14 0b00000000011100 s
  | .coefR0L20 s => signed 14 0b00000000011011 s
  | .coefR0L21 s => signed 14 0b00000000011010 s
  | .coefR0L22 s => signed 14 0b00000000011001 s
  | .coefR0L23 s => signed 14 0b00000000011000 s
  | .coefR0L24 s => signed 14 0b00000000010111 s
  | .coefR0L25 s => signed 14 0b00000000010110 s
  | .coefR0L26 s => signed 14 0b00000000010101 s
  | .coefR0L27 s => signed 14 0b00000000010100 s
  | .coefR0L28 s => signed 14 0b00000000010011 s
  | .coefR0L29 s => signed 14 0b00000000010010 s
  | .coefR0L30 s => signed 14 0b00000000010001 s
  | .coefR0L31 s => signed 14 0b00000000010000 s
  | .coefR0L32 s => signed 15 0b000000000011000 s
  | .coefR0L33 s => signed 15 0b000000000010111 s
  | .coefR0L34 s => signed 15 0b000000000010110 s
  | .coefR0L35 s => signed 15 0b000000000010101 s
  | .coefR0L36 s => signed 15 0b000000000010100 s
  | .coefR0L37 s => signed 15 0b000000000010011 s
  | .coefR0L38 s => signed 15 0b000000000010010 s
  | .coefR0L39 s => signed 15 0b000000000010001 s
  | .coefR0L40 s => signed 15 0b000000000010000 s
  | .coefR1L8 s => signed 15 0b000000000011111 s
  | .coefR1L9 s => signed 15 0b000000000011110 s
  | .coefR1L10 s => signed 15 0b000000000011101 s
  | .coefR1L11 s => signed 15 0b000000000011100 s
  | .coefR1L12 s => signed 15 0b000000000011011 s
  | .coefR1L13 s => signed 15 0b000000000011010 s
  | .coefR1L14 s => signed 15 0b000000000011001 s
  | .coefR1L15 s => signed 16 0b0000000000010011 s
  | .coefR1L16 s => signed 16 0b0000000000010010 s
  | .coefR1L17 s => signed 16 0b0000000000010001 s
  | .coefR1L18 s => signed 16 0b0000000000010000 s
  | .coefR6L3 s => signed 16 0b0000000000010100 s
  | .coefR11L2 s => signed 16 0b0000000000011010 s
  | .coefR12L2 s => signed 16 0b0000000000011001 s
  | .coefR13L2 s => signed 16 0b0000000000011000 s
  | .coefR14L2 s => signed 16 0b0000000000010111 s
  | .coefR15L2 s => signed 16 0b0000000000010110 s
  | .coefR16L2 s => signed 16 0b0000000000010101 s
  | .coefR27L1 s => signed 16 0b0000000000011111 s
  | .coefR28L1 s => signed 16 0b0000000000011110 s
  | .coefR29L1 s => signed 16 0b0000000000011101 s
  | .coefR30L1 s => signed 16 0b0000000000011100 s
  | .coefR31L1 s => signed 16 0b0000000000011011 s
  | .coefFirstR0L1 s => signed 1 0b1 s
  | .coefNextR0L1 s => signed 2 0b11 s
  | .eob => ⟨2, 0b10⟩
  | .coefEscape20 r l => ⟨20, (0b000001 * 64 + r.toNat) * 256 + l.toNat⟩
  | .coefEscape28 r z l => ⟨28, (((0b000001 * 64 + r.toNat) * 2 + z.toNat) * 128) * 256 + l.toNat⟩

/-- The window that begins with a code, its other bits 0. -/
def Code.window (c : Code) : Nat := c.bits * 2 ^ (64 - c.len)

/-- The bytes of a window, first to arrive first. -/
def windowBytes (w : Nat) : List Byte :=
  [BitVec.ofNat 8 (bitsOf w 0 8), BitVec.ofNat 8 (bitsOf w 8 8), BitVec.ofNat 8 (bitsOf w 16 8),
   BitVec.ofNat 8 (bitsOf w 24 8), BitVec.ofNat 8 (bitsOf w 32 8), BitVec.ofNat 8 (bitsOf w 40 8),
   BitVec.ofNat 8 (bitsOf w 48 8), BitVec.ofNat 8 (bitsOf w 56 8)]

/-! ### Words numbered as opcode_table.json numbers them -/

/-- The channel on which a bare byte is tried (log 4): the same byte is a command code, a unit operation code and the
first byte of code words of several tables, and the table numbers them all alike. The assigned command codes come
first, then the assigned unit operation codes, then 8-bit code words, then the unassigned command codes. -/
def byteChannel (v : Nat) : Channel :=
  if 1 ≤ v ∧ v ≤ 5 then .command
  else if (decode .unitOp (v * 2 ^ 56)).isSome then .unitOp
  else if 6 ≤ v ∧ v ≤ 11 then .vlc .mba
  else if v = 12 ∨ v = 14 then .vlc .coefNext
  else if v ≤ 31 ∧ v ≠ 0 then .vlc .cbp
  else if v = 254 then .vlc .dcc
  else .command

/-- The instruction the decoder reads from an instruction whose bits are `w`, the bits above `nbits` being 0: an
8-bit word by `byteChannel`, a 16-bit word as a coefficient code word, a 32-bit word as a start code; the table
gives bits to no row of another width. -/
def decodeTableWord (nbits w : Nat) : Option Instr :=
  if nbits = 8 then decode (byteChannel (w % 2 ^ 8)) (w % 2 ^ 8 * 2 ^ 56)
  else if nbits = 16 then decode (.vlc .coefNext) (w % 2 ^ 16 * 2 ^ 48)
  else if nbits = 32 then decode .startCode (w % 2 ^ 32 * 2 ^ 32)
  else none

end Sys2Proof
end

