-- ==== Sys2Proof/Machine/Constants.lean ====
section
/-!
DEFINITION. The constant tables and fixed numbers of the spec: the end-of-stream fill, the default zig-zag order, the two
default matrices and the default parameters (00_scope.md R7, 10_state.md R62, R63). The code tables stand in
Sys2Proof/Decode.lean.
-/

namespace Sys2Proof.Machine

/-- `EOS_FILL`, the bytes that follow the last byte of a source, repeated for ever: `00 00 01 B7`
(20_memory.md R81). -/
def eosFill (i : Nat) : Byte :=
  match i % 4 with
  | 2 => 0x01
  | 3 => 0xB7
  | _ => 0x00

/-- `ZIGZAG`: the raster position of the `i`-th coefficient in transmission order (10_state.md R63). -/
def zigzagTable : Vector (Fin 64) 64 :=
  #v[ 0,  1,  8, 16,  9,  2,  3, 10,
     17, 24, 32, 25, 18, 11,  4,  5,
     12, 19, 26, 33, 40, 48, 41, 34,
     27, 20, 13,  6,  7, 14, 21, 28,
     35, 42, 49, 56, 57, 50, 43, 36,
     29, 22, 15, 23, 30, 37, 44, 51,
     58, 59, 52, 45, 38, 31, 39, 46,
     53, 60, 61, 54, 47, 55, 62, 63]

/-- `DEF_INTRA`, the default intra matrix in raster order (10_state.md R63). -/
def defIntra : Vector Byte 64 :=
  #v[ 8, 16, 19, 22, 26, 27, 29, 34,
     16, 16, 22, 24, 27, 29, 34, 37,
     19, 22, 26, 27, 29, 34, 34, 38,
     22, 22, 26, 27, 29, 34, 37, 40,
     22, 26, 27, 29, 32, 35, 40, 48,
     26, 27, 29, 32, 35, 40, 48, 58,
     26, 27, 29, 34, 38, 46, 56, 69,
     27, 29, 35, 38, 46, 56, 69, 83]

/-- The default non-intra matrix, all 16 (10_state.md R63). -/
def defInter : Vector Byte 64 := Vector.replicate 64 16

/-- The open parameters at the defaults that 00_scope.md R7 gives. -/
def defaultParams : Config.Params where
  oddifyZero := .toOne
  avg2 := .standard
  avg4 := .standard
  zigzag := zigzagTable
  defIntra := defIntra
  tables := defaultTables

/-- A block of zeros (43_macroblock_decoder.md R246). -/
def zeroBlock : Block := Vector.replicate 64 0

end Sys2Proof.Machine
end

