-- ==== Sys2Proof/Machine/State.lean ====
section
/-!
DEFINITION. The state of the kernel (10_state.md), the reasons a step can stop, and the state after reset. INVENTORY.md
lists every field with its rule.
-/

namespace Sys2Proof.Machine

/-- `HP_STATE`, the header-parser state (10_state.md R45). -/
inductive HpState where
  | searching | sequenceSeen | gopSeen | pictureReady | sequenceEnded
  deriving DecidableEq, Repr

/-- `SESSION` (10_state.md R46): `CLOSED`, `OPEN`, `FAILED`. -/
inductive Session where
  | closed | opened | failed
  deriving DecidableEq, Repr

/-- `RET`, the return code of the last command: `OK` 0, `ERROR` 1, `EOF` 2 (10_state.md R58). -/
inductive Ret where
  | ok | error | eof
  deriving DecidableEq, Repr

/-- The named causes (60_exceptions.md R432); `Cause.code` gives the number that `FAULT_CAUSE` holds. -/
inductive Cause where
  | vlcInvalid | coefIndex | qscaleZero | pictype | noSequence | alloc | demuxStartcode | escLevelZero | skipInI
  | fcodeZero | seqParam | bNoMotion | badCommand | srcRewind
  deriving DecidableEq, Repr

/-- The bitstream cursor and the byte source behind it (10_state.md R21 to R25, 20_memory.md R80). -/
structure Reader where
  /-- `S[0..L-1]`, the bytes the host attached to `BYTE_IN` (R80). -/
  source : List Byte
  /-- `src_pos`, bytes pulled since the last open or rewind (R80, R81). -/
  srcPos : Nat
  /-- `Bfr`, the 32-bit accumulator, left-justified (R21). -/
  bfr : BitVec 32
  /-- `Incnt`, the count of valid bits in `Bfr` (R22). -/
  incnt : Int
  /-- `bitpos`, the bits consumed since the last open or rewind: the program counter (R23). -/
  bitpos : Nat
  /-- `eos`, set when a pull found the source exhausted (R25). -/
  eos : Bool
  deriving DecidableEq, Repr

/-- A motion vector or its predictor, in half-pel units (10_state.md R52). -/
structure MotionVector where
  x : Int
  y : Int
  deriving DecidableEq, Repr

/-- `PMV[forward|backward][x|y]` (10_state.md R52). -/
structure Predictors where
  forward : MotionVector
  backward : MotionVector
  deriving DecidableEq, Repr

/-- The two motion flags that `prev_motion` remembers (10_state.md R31). -/
structure Motion where
  forward : Bool
  backward : Bool
  deriving DecidableEq, Repr

/-- The working registers of the sequencer (10_state.md R26 to R31, R52). -/
structure Working where
  /-- `quantizer_scale` (R26). -/
  quantizerScale : BitVec 5
  /-- `dc_pred[0..2]`, luma, Cb, Cr, 32-bit two's-complement (R27). -/
  dcPred : Vector (BitVec 32) 3
  /-- `MBA`, the macroblock address (R28). -/
  mba : Nat
  /-- `mb_type`: bit 0 `INTRA`, 1 `PATTERN`, 2 `MOTION_BACKWARD`, 3 `MOTION_FORWARD`, 4 `QUANT` (R29). -/
  mbType : BitVec 5
  /-- `cbp`: value `32 >> b` is block `b` (R30). -/
  cbp : BitVec 6
  /-- `prev_motion` (R31). -/
  prevMotion : Motion
  /-- `PMV` (R52). -/
  pmv : Predictors
  deriving DecidableEq, Repr

/-- The sequence registers and the sizes derived from them (10_state.md R40 to R42). -/
structure SequenceRegs where
  horizontalSize : BitVec 12
  verticalSize : BitVec 12
  aspectRatioCode : BitVec 4
  frameRateCode : BitVec 4
  bitRateValue : BitVec 18
  vbvBufferSize : BitVec 10
  constrainedParametersFlag : Bool
  codedWidth : Nat
  codedHeight : Nat
  mbCols : Nat
  mbRows : Nat
  seqKnown : Bool
  deriving DecidableEq, Repr

/-- The picture registers (10_state.md R43). -/
structure PictureRegs where
  pictType : BitVec 3
  fullPelForward : Bool
  forwardCode : BitVec 3
  fullPelBackward : Bool
  backwardCode : BitVec 3
  deriving DecidableEq, Repr

/-- The status registers and the event trace (10_state.md R58; 60_exceptions.md R442, R460). `errstr` is the string
without its terminating zero, `events` the codes of the `EV_FRAMING` events, oldest first. -/
structure Status where
  ret : Ret
  fault : Bool
  faultCause : BitVec 4
  faultInfo : BitVec 32
  errstr : List Byte
  evCount : Nat
  events : List (BitVec 32)
  deriving DecidableEq, Repr

/-- The three frame buffers, once allocated (10_state.md R55; 20_memory.md R90 to R94): the size of the luma planes,
the draw that names this allocation, and the samples written since, keyed by `sampleAddr`, in rising order. -/
structure FrameStore where
  width : Nat
  height : Nat
  epoch : Nat
  mem : List Host.Cell
  deriving DecidableEq, Repr

/-- The role registers (10_state.md R56). -/
structure Roles where
  fwd : Fin 3
  bwd : Fin 3
  aux : Fin 3
  cur : Option (Fin 3)
  disp : Option (Fin 3)
  deriving DecidableEq, Repr

/-- One record on `DISPLAY` (49_picture_buffers_host.md R407): the buffer whose three planes are handed over, the
strides of the luma and chroma planes, the coded size and the picture type. -/
structure DisplayRecord where
  buffer : Option (Fin 3)
  lumaStride : Nat
  chromaStride : Nat
  codedWidth : Nat
  codedHeight : Nat
  pictType : BitVec 3
  deriving DecidableEq, Repr

/-- How `nextHeader` ends (42_header_parser.md R200). -/
inductive HeaderEnd where
  | picture | endOfSequence
  deriving DecidableEq, Repr

/-- How `slice` and `macroblockLoop` end (43_macroblock_decoder.md R232, R238). -/
inductive SliceEnd where
  | done | sliceEnd
  deriving DecidableEq, Repr

/-- One result of `coef` (45_block_decode_iq.md R303). -/
inductive Coefficient where
  | eob
  | pair (run : Nat) (level : Int)
  deriving DecidableEq, Repr

/-- What the last unit operation, stream element or `CMD_GET_FRAME` delivered: the "Result" of its rule. The model's
own field (log 5); no rule of the kernel reads it. -/
inductive Result where
  /-- Nothing yet, or an operation without a result. -/
  | nothing
  /-- A number of bits: `peekBits`, `getBits`. -/
  | bits (v : Nat)
  /-- A symbol of a code table: `vlc(T)`. -/
  | symbol (v : VlcSymbol)
  /-- A macroblock address increment. -/
  | increment (n : Nat)
  /-- A motion code, a signed delta (R334) or a vector component (R339). -/
  | motion (v : Int)
  /-- The size of a DC differential. -/
  | dcSize (n : Nat)
  /-- A DC differential. -/
  | dcDiff (v : Int)
  /-- A coefficient as the stream gives it, or end of block. -/
  | coef (c : Coefficient)
  /-- A dequantised coefficient or magnitude. -/
  | dequantised (v : Int)
  /-- How `nextHeader` ended. -/
  | header (e : HeaderEnd)
  /-- How `slice` ended. -/
  | slice (e : SliceEnd)
  /-- The three planes of a buffer with the metadata of R407. -/
  | frame (r : DisplayRecord)
  deriving DecidableEq, Repr

/-- What a test bench presents for one step (60_exceptions.md R460): the bytes of a unit operation, or the place in the
stream syntax at which the element under the cursor is to be read. -/
inductive BenchItem where
  | unitOp (bytes : List Byte)
  | startCode
  | field (f : FieldId)
  | vlc (p : VlcPlace)
  deriving DecidableEq, Repr

/-- The operands that a test bench assembles from several stream elements (30_encoding.md R130); the model's own
fields (log 5, log 17). -/
structure Assembly where
  /-- Sum of the `macroblock_escape` code words so far, 33 each. -/
  increment : Nat
  /-- The last motion code, whose residual may follow. -/
  motionCode : Int
  /-- The number of the next matrix entry, in transmission order. -/
  matrixIndex : BitVec 6
  /-- See `Result`. -/
  result : Result
  deriving DecidableEq, Repr

/-- The state of the kernel with its ports. Every field is plain data. -/
structure State where
  /-- The bitstream cursor and the byte source. -/
  br : Reader
  /-- `Rdmax` (R24). -/
  rdmax : Nat
  /-- The working registers. -/
  work : Working
  /-- The sequence registers. -/
  seq : SequenceRegs
  /-- The picture registers. -/
  pic : PictureRegs
  /-- `CFG`: bit 0 `RECON_SUBPIXEL`, bit 1 `RECON_AVG_SUBPIXEL` (R44). -/
  cfg : BitVec 2
  /-- `HP_STATE` (R45). -/
  hpState : HpState
  /-- `SESSION` (R46). -/
  session : Session
  /-- The status registers and the event trace (R58, R460). -/
  status : Status
  /-- `QI[64]` in raster order (R50). -/
  qi : Vector Byte 64
  /-- `QN[64]` in raster order (R50). -/
  qn : Vector Byte 64
  /-- `BLK[6][64]` (R51). -/
  blk : Vector Block 6
  /-- `F0`, `F1`, `F2`, once allocated (R55). -/
  frames : Option FrameStore
  /-- `FWD`, `BWD`, `AUX`, `CUR`, `DISP` (R56). -/
  roles : Roles
  /-- The records emitted on `DISPLAY`, oldest first (R407). -/
  display : List DisplayRecord
  /-- Bytes presented on `CMD` and not yet taken (00_scope.md R8). -/
  commands : List Byte
  /-- Steps a test bench asks for (60_exceptions.md R460; log 5). -/
  bench : List BenchItem
  /-- Operands and result of single steps (log 5). -/
  assembly : Assembly
  /-- Whether the attached source can rewind (20_memory.md R83). -/
  rewindable : Bool
  /-- The sizes for which `ALLOC_OK` answers no (00_scope.md R7; log 20). -/
  allocDenied : List (Nat × Nat)
  /-- The open parameters (00_scope.md R7; log 12, log 20). -/
  params : Config.Params
  /-- How many free values were drawn; the model's own field (log 28). -/
  draws : Nat
  deriving DecidableEq, Repr

/-- Reasons to stop that are not faults of the kernel: the step has no meaning the spec gives. -/
inductive Fault where
  /-- A unit operation reached the frame store before it was allocated: the buffers do not exist (10_state.md R55).
  Raised by the HPI and MBT operations run alone; safe. -/
  | noFrameStore
  /-- `CUR` names no buffer (10_state.md R56). Raised by the HPI and MBT operations run alone; safe. -/
  | noCurrentBuffer
  /-- A write outside a plane, an address that does not exist (20_memory.md R93, R95). Raised by the HPI and MBT
  operations run alone with a position outside the picture; safe. -/
  | outsidePlane
  /-- A macroblock with `pict_type` other than 1, 2, 3, for which no type table exists (43_macroblock_decoder.md
  R241). Raised by macroblock operations run alone; safe. -/
  | noTypeTable
  /-- A motion vector with a range code of 0, for which no `rangeSize` exists (46_motion_vectors.md R331). Raised by
  macroblock operations run alone; safe. -/
  | noRangeSize
  /-- A loop of the kernel ran longer than its bound. It bounds Lean's recursion only: 70_reset_and_hazards.md R490
  shows that no loop does so from a state the kernel can reach (log 15); safe. -/
  | commandDoesNotReturn
  deriving DecidableEq, Repr

/-- Reasons to refuse: what is presented is no instruction of the kernel. -/
inductive Refusal where
  /-- The instruction has no meaning in this model yet. -/
  | notModelled (mnemonic : String)
  /-- An operand outside the range for which 93_implementation_defined.md U1 says "refuse". Raised by `BR_PEEK`,
  `BR_CONSUME` and `BR_GET`; safe. -/
  | operandOutOfRange
  /-- The test bench presented bytes that are no unit operation (30_encoding.md R134, "unassigned"). Raised by the
  fetch; safe. -/
  | unassignedUnitOperation
  /-- The test bench asked for a start code or extra-bit field that is not under the cursor; a start code off a byte
  boundary is none (20_memory.md R86). Raised by the fetch;
  safe. -/
  | notUnderCursor
  deriving DecidableEq, Repr

/-- The result of an operation that may raise: it answers a value and the state, or raises a cause with its
information word and the state as it then is (60_exceptions.md R430, R453), or stops. -/
inductive Res (α : Type) where
  | ok (a : α) (s : State)
  | raised (c : Cause) (info : Nat) (s : State)
  | stop (f : Fault)

/-- The bitstream reader as `CMD_OPEN` leaves it over a source with no byte (10_state.md R70, 20_memory.md R81). -/
def emptyReader : Reader where
  source := []
  srcPos := 4
  bfr := 0x000001B7
  incnt := 32
  bitpos := 0
  eos := true

/-- Power-on (70_reset_and_hazards.md R470): `SESSION = CLOSED`. The spec states no other power-on value; the model
takes those of 10_state.md R70 with an empty source, `CFG` at its default and the blocks at 0 (log 1). -/
def State.reset : State where
  br := emptyReader
  rdmax := 0
  work :=
    { quantizerScale := 0, dcPred := Vector.replicate 3 0, mba := 0, mbType := 0, cbp := 0
      prevMotion := ⟨false, false⟩, pmv := ⟨⟨0, 0⟩, ⟨0, 0⟩⟩ }
  seq :=
    { horizontalSize := 0, verticalSize := 0, aspectRatioCode := 0, frameRateCode := 0, bitRateValue := 0
      vbvBufferSize := 0, constrainedParametersFlag := false, codedWidth := 0, codedHeight := 0, mbCols := 0
      mbRows := 0, seqKnown := false }
  pic := { pictType := 0, fullPelForward := false, forwardCode := 0, fullPelBackward := false, backwardCode := 0 }
  cfg := 0b11
  hpState := .searching
  session := .closed
  status :=
    { ret := .ok, fault := false, faultCause := 0, faultInfo := 0, errstr := [], evCount := 0, events := [] }
  qi := defIntra
  qn := defInter
  blk := Vector.replicate 6 zeroBlock
  frames := none
  roles := { fwd := 0, bwd := 1, aux := 2, cur := none, disp := none }
  display := []
  commands := []
  bench := []
  assembly := { increment := 0, motionCode := 0, matrixIndex := 0, result := .nothing }
  rewindable := true
  allocDenied := []
  params := defaultParams
  draws := 0

end Sys2Proof.Machine
end

