-- ==== Sys2Proof/Machine/Flags.lean ====
section
/-!
DEFINITION. The flags of the kernel (10_state.md R32): the bits of `mb_type`, of `cbp` and of `CFG`, and the cause codes
of `FAULT_CAUSE` (60_exceptions.md R432). The kernel has no arithmetic condition codes.
-/

namespace Sys2Proof.Machine

/-- `mb_type & INTRA` (10_state.md R29). -/
def hasIntra (t : BitVec 5) : Bool := t.getLsbD 0

/-- `mb_type & PATTERN` (10_state.md R29). -/
def hasPattern (t : BitVec 5) : Bool := t.getLsbD 1

/-- `mb_type & MOTION_BACKWARD` (10_state.md R29). -/
def hasBackward (t : BitVec 5) : Bool := t.getLsbD 2

/-- `mb_type & MOTION_FORWARD` (10_state.md R29). -/
def hasForward (t : BitVec 5) : Bool := t.getLsbD 3

/-- `mb_type & QUANT` (10_state.md R29). -/
def hasQuant (t : BitVec 5) : Bool := t.getLsbD 4

/-- `mb_type & (MOTION_FORWARD | MOTION_BACKWARD)` (43_macroblock_decoder.md R252). -/
def motionOf (t : BitVec 5) : Motion := ⟨hasForward t, hasBackward t⟩

/-- `cbp & (32 >> b)`: block `b` is coded (10_state.md R30). -/
def isCoded (cbp : BitVec 6) (b : BlockNo) : Bool := cbp.getLsbD (5 - b.val)

/-- `CFG.RECON_SUBPIXEL` (10_state.md R44, 48_prediction_recon.md R377). -/
def State.reconSubpixel (s : State) : Bool := s.cfg.getLsbD 0

/-- `CFG.RECON_AVG_SUBPIXEL` (10_state.md R44, 48_prediction_recon.md R378). -/
def State.reconAvgSubpixel (s : State) : Bool := s.cfg.getLsbD 1

/-- The cause codes (60_exceptions.md R432). -/
def Cause.code (c : Cause) : BitVec 4 :=
  match c with
  | .vlcInvalid => 1
  | .coefIndex => 2
  | .qscaleZero => 3
  | .pictype => 4
  | .noSequence => 5
  | .alloc => 6
  | .demuxStartcode => 7
  | .escLevelZero => 8
  | .skipInI => 9
  | .fcodeZero => 10
  | .seqParam => 11
  | .bNoMotion => 12
  | .badCommand => 13
  | .srcRewind => 14

/-- The session-fatal causes: `E_ALLOC`, `E_DEMUX_STARTCODE`, `E_SEQ_PARAM` (60_exceptions.md R445). -/
def Cause.sessionFatal (c : Cause) : Bool :=
  match c with
  | .alloc | .demuxStartcode | .seqParam => true
  | .vlcInvalid | .coefIndex | .qscaleZero | .pictype | .noSequence | .escLevelZero | .skipInI | .fcodeZero
  | .bNoMotion | .badCommand | .srcRewind => false

end Sys2Proof.Machine
end

