-- ==== Sys2Proof/Machine/Ops.lean ====
section
/-!
DEFINITION. The operations every meaning is built from: results that may raise, the bitstream reader (40_bit_reader.md),
the frame store (20_memory.md), the free draws, taking a fault and the refusals beside it (60_exceptions.md).
-/

namespace Sys2Proof.Machine

/-! ### Results that may raise -/

/-- Go on with the value and the state, unless something was raised (60_exceptions.md R430). -/
def Res.bind {α β : Type} (x : Res α) (f : α → State → Res β) : Res β :=
  match x with
  | .ok a s => f a s
  | .raised c info s => .raised c info s
  | .stop e => .stop e

/-- The same result, its value replaced. -/
def Res.map {α β : Type} (x : Res α) (f : α → β) : Res β := x.bind fun a s => .ok (f a) s

/-! ### The bitstream reader -/

/-- The byte of the source at a position, with the endless fill behind its last byte (20_memory.md R81). -/
def streamByte (source : List Byte) (i : Nat) : Byte :=
  if i < source.length then source.getD i 0 else eosFill (i - source.length)

/-- The bits of a stream from bit `pos` on, `n` of them, as a number with the first most significant: the endless bit
sequence `X` of 40_bit_reader.md R170. The machine never uses it; claims about the reader do. -/
def streamBits (source : List Byte) (pos : Nat) : Nat → Nat
  | 0 => 0
  | n + 1 =>
    2 * streamBits source pos n + ((streamByte source ((pos + n) / 8)).getLsbD (7 - (pos + n) % 8)).toNat

/-- `SrcByte()` (20_memory.md R81). -/
def Reader.srcByte (r : Reader) : Byte × Reader :=
  (streamByte r.source r.srcPos,
    { r with srcPos := r.srcPos + 1, eos := r.eos || decide (r.source.length ≤ r.srcPos) })

/-- One turn of the refill loop: a byte is added directly below the valid bits (40_bit_reader.md R175). -/
def Reader.pullByte (r : Reader) : Reader :=
  let (b, r) := r.srcByte
  { r with bfr := BitVec.ofNat 32 (r.bfr.toNat + b.toNat * 2 ^ (24 - r.incnt).toNat), incnt := r.incnt + 8 }

/-- A number of turns of the refill loop. -/
def Reader.pullBytes (r : Reader) : Nat → Reader
  | 0 => r
  | n + 1 => r.pullByte.pullBytes n

/-- `refill()`: pull while `Incnt <= 24`, that is `ceil((25 - Incnt) / 8)` times (40_bit_reader.md R175). -/
def Reader.refill (r : Reader) : Reader := r.pullBytes ((32 - r.incnt) / 8).toNat

/-- `peekBits(n)` (40_bit_reader.md R172). -/
def Reader.peek (r : Reader) (n : Nat) : Nat := (r.bfr >>> (32 - n)).toNat

/-- `consumeBits(n)` (40_bit_reader.md R173). -/
def Reader.consume (r : Reader) (n : Nat) : Reader :=
  Reader.refill { r with bfr := r.bfr <<< n, incnt := r.incnt - n, bitpos := r.bitpos + n }

/-- `getBits(n)` for `n` up to 24 (40_bit_reader.md R176). -/
def Reader.getShort (r : Reader) (n : Nat) : Nat × Reader := (r.peek n, r.consume n)

/-- `getBits(n)` (40_bit_reader.md R176): nothing for 0, one peek up to 24, else two reads of `n - 16` and 16 bits. -/
def Reader.get (r : Reader) (n : Nat) : Nat × Reader :=
  if n = 0 then (0, r)
  else if n ≤ 24 then r.getShort n
  else
    let (hi, r) := r.getShort (n - 16)
    let (lo, r) := r.getShort 16
    (hi * 2 ^ 16 + lo, r)

/-- `brReset()` with the position kept in step: the bits held are discarded and count as consumed, so that
`bitpos = 8 * src_pos - Incnt` goes on holding (40_bit_reader.md R171, 10_state.md R23; log 13). -/
def Reader.reset (r : Reader) : Reader :=
  Reader.refill { r with bfr := 0, incnt := 0, bitpos := r.bitpos + r.incnt.toNat }

/-- The reader at the first byte of its source: `src_pos`, `eos`, `bitpos` cleared, then `brReset()`
(40_bit_reader.md R171; 49_picture_buffers_host.md R411, R412). -/
def Reader.rewind (r : Reader) : Reader :=
  Reader.refill { r with srcPos := 0, bfr := 0, incnt := 0, bitpos := 0, eos := false }

/-- A bound on the turns of any loop over the stream: more than the bits of the source and of two fills
(70_reset_and_hazards.md R490; log 15). -/
def Reader.loopBound (r : Reader) : Nat := 8 * r.source.length + 64

/-- The byte-wise search of `byteAlignToStartCode()` (40_bit_reader.md R177): the first argument bounds its turns. -/
def Reader.search : Nat → Reader → Option Reader
  | 0, _ => none
  | fuel + 1, r => if r.peek 24 = 0x000001 then some r else Reader.search fuel (r.consume 8)

/-- `byteAlignToStartCode()` (40_bit_reader.md R177). -/
def Reader.align (r : Reader) : Option Reader :=
  Reader.search r.loopBound (r.consume (r.incnt % 8).toNat)

/-- `while peekBits(1) = 1: consumeBits(9)`, then the terminating bit (42_header_parser.md R212,
43_macroblock_decoder.md R234): the first argument bounds its turns. -/
def Reader.skipExtra : Nat → Reader → Option Reader
  | 0, _ => none
  | fuel + 1, r => if r.peek 1 = 1 then Reader.skipExtra fuel (r.consume 9) else some (r.consume 1)

/-- The next 64 bits of the stream, as a window of the decoder, read without consuming: what four `getBits(16)` on a
copy of the reader deliver. -/
def Reader.window (r : Reader) : Nat :=
  let (a, r) := r.get 16
  let (b, r) := r.get 16
  let (c, r) := r.get 16
  let (d, _) := r.get 16
  ((a * 2 ^ 16 + b) * 2 ^ 16 + c) * 2 ^ 16 + d

/-- `peekBits(n)` of the machine. -/
def State.peekBits (s : State) (n : Nat) : Nat := s.br.peek n

/-- `consumeBits(n)` of the machine: nothing but the bitstream cursor changes. -/
def State.consumeBits (s : State) (n : Nat) : State := { s with br := s.br.consume n }

/-- `getBits(n)` of the machine. -/
def State.getBits (s : State) (n : Nat) : Nat × State := ((s.br.get n).1, { s with br := (s.br.get n).2 })

/-- `byteAlignToStartCode()` of the machine. -/
def State.align (s : State) : Res Unit :=
  match s.br.align with
  | some r => .ok () { s with br := r }
  | none => .stop .commandDoesNotReturn

/-- The extra-information loop of picture and slice headers. -/
def State.skipExtra (s : State) : Res Unit :=
  match Reader.skipExtra s.br.loopBound s.br with
  | some r => .ok () { s with br := r }
  | none => .stop .commandDoesNotReturn

/-! ### The frame store -/

/-- The key of sample `(x, y)` of plane `p` of buffer `F` in the memory list: buffer, plane, row and column in one
number, each coordinate below 4096 (20_memory.md R91, R93 leave the linear layout open; log 7). -/
def sampleAddr (f : Fin 3) (p : Fin 3) (x y : Nat) : Nat := ((f.val * 3 + p.val) * 4096 + y) * 4096 + x

/-- The byte listed at a key. -/
def memLookup (mem : List Host.Cell) (a : Nat) : Option Byte :=
  match mem with
  | [] => none
  | (k, v) :: rest => if k = a then some v else if a < k then none else memLookup rest a

/-- The list with a byte written at a key, in rising order of keys. -/
def memInsert (mem : List Host.Cell) (a : Nat) (b : Byte) : List Host.Cell :=
  match mem with
  | [] => [(a, b)]
  | (k, v) :: rest => if a < k then (a, b) :: (k, v) :: rest else if k = a then (a, b) :: rest
    else (k, v) :: memInsert rest a b

/-- Every key of the list is above `a`, and the list rises. -/
def memRises (a : Option Nat) (mem : List Host.Cell) : Bool :=
  match mem with
  | [] => true
  | (k, _) :: rest => (match a with | none => true | some a => decide (a < k)) && memRises (some k) rest

/-- The canonical form of a memory: keys strictly rising. A sample is listed when it has been written; an unlisted one
reads as a free value, which no written byte can be told equal to (log 7). -/
def Memory.wf (mem : List Host.Cell) : Bool := memRises none mem

/-- Width of a plane: the coded width, half of it for chroma (20_memory.md R90). -/
def FrameStore.planeWidth (fs : FrameStore) (p : Fin 3) : Nat := if p = 0 then fs.width else fs.width / 2

/-- Height of a plane (20_memory.md R90). -/
def FrameStore.planeHeight (fs : FrameStore) (p : Fin 3) : Nat := if p = 0 then fs.height else fs.height / 2

/-- The position lies in the plane (20_memory.md R93, R94). -/
def FrameStore.inPlane (fs : FrameStore) (p : Fin 3) (x y : Int) : Bool :=
  decide (0 ≤ x ∧ x < fs.planeWidth p ∧ 0 ≤ y ∧ y < fs.planeHeight p)

/-- The sample at a position inside the plane: the one last written, else the arbitrary value that this allocation
has there (20_memory.md R93, 10_state.md R55). -/
def FrameStore.sample (fs : FrameStore) (f p : Fin 3) (x y : Nat) : Byte :=
  (memLookup fs.mem (sampleAddr f p x y)).getD (Config.freeSample fs.epoch (sampleAddr f p x y))

/-- `MemRead(F, p, x, y)`: inside the plane its sample, outside a fresh draw (20_memory.md R93, R94). The second
component counts draws. -/
def FrameStore.read (fs : FrameStore) (draws : Nat) (f p : Fin 3) (x y : Int) : Byte × Nat :=
  if fs.inPlane p x y then (fs.sample f p x.toNat y.toNat, draws) else (Config.freeOutside draws, draws + 1)

/-- `MemWrite(F, p, x, y, v)` at a position inside the plane (20_memory.md R93). -/
def FrameStore.write (fs : FrameStore) (f p : Fin 3) (x y : Nat) (v : Byte) : FrameStore :=
  { fs with mem := memInsert fs.mem (sampleAddr f p x y) v }

/-- `ALLOC_OK(coded_width, coded_height)` (00_scope.md R7; log 20). -/
def State.allocOk (s : State) (w h : Nat) : Bool := !(s.allocDenied.contains (w, h))

/-- `PBM_ALLOC` with its oracle (49_picture_buffers_host.md R400, 42_header_parser.md R208): the three buffers come
into existence with no sample written; no other register changes. -/
def State.allocate (s : State) (w h : Nat) : Res Unit :=
  if s.allocOk w h then
    .ok () { s with frames := some { width := w, height := h, epoch := s.draws, mem := [] }, draws := s.draws + 1 }
  else .raised .alloc (w * 2 ^ 16 + h) s

/-! ### Registers -/

/-- Write `quantizer_scale`. -/
def State.setQuantizerScale (s : State) (v : BitVec 5) : State :=
  { s with work := { s.work with quantizerScale := v } }

/-- Write `MBA`. -/
def State.setMba (s : State) (a : Nat) : State := { s with work := { s.work with mba := a } }

/-- Write `mb_type`. -/
def State.setMbType (s : State) (v : BitVec 5) : State := { s with work := { s.work with mbType := v } }

/-- Write `cbp`. -/
def State.setCbp (s : State) (v : BitVec 6) : State := { s with work := { s.work with cbp := v } }

/-- Write `prev_motion`. -/
def State.setPrevMotion (s : State) (m : Motion) : State := { s with work := { s.work with prevMotion := m } }

/-- Write `dc_pred[c]`. -/
def State.setDcPred (s : State) (c : Fin 3) (v : BitVec 32) : State :=
  { s with work := { s.work with dcPred := s.work.dcPred.set c v } }

/-- `dc_pred[0..2] <- 0` (43_macroblock_decoder.md R232, R250). -/
def State.clearDcPred (s : State) : State :=
  { s with work := { s.work with dcPred := Vector.replicate 3 0 } }

/-- `PMV[d][c]`. -/
def Predictors.get (p : Predictors) (d : Direction) (c : Axis) : Int :=
  match d, c with
  | .forward, .x => p.forward.x
  | .forward, .y => p.forward.y
  | .backward, .x => p.backward.x
  | .backward, .y => p.backward.y

/-- `PMV[d][c] <- v`. -/
def Predictors.set (p : Predictors) (d : Direction) (c : Axis) (v : Int) : Predictors :=
  match d, c with
  | .forward, .x => { p with forward := { p.forward with x := v } }
  | .forward, .y => { p with forward := { p.forward with y := v } }
  | .backward, .x => { p with backward := { p.backward with x := v } }
  | .backward, .y => { p with backward := { p.backward with y := v } }

/-- Write `PMV[d][c]`. -/
def State.setPmv (s : State) (d : Direction) (c : Axis) (v : Int) : State :=
  { s with work := { s.work with pmv := s.work.pmv.set d c v } }

/-- `PMV[0][0] <- 0; PMV[0][1] <- 0` (43_macroblock_decoder.md R248, R249, R255). -/
def State.clearForwardPmv (s : State) : State :=
  { s with work := { s.work with pmv := { s.work.pmv with forward := ⟨0, 0⟩ } } }

/-- All four predictors to 0 (43_macroblock_decoder.md R232, R248). -/
def State.clearPmv (s : State) : State := { s with work := { s.work with pmv := ⟨⟨0, 0⟩, ⟨0, 0⟩⟩ } }

/-- Write one block of `BLK`. -/
def State.setBlock (s : State) (b : BlockNo) (v : Block) : State := { s with blk := s.blk.set b v }

/-- `BLK[b][k] <- v`, for `k` up to 63. -/
def State.setBlkEntry (s : State) (b : BlockNo) (k : Nat) (v : Coef) : State :=
  s.setBlock b (s.blk[b].setIfInBounds k v)

/-- `for b in 0..5: for k in 0..63: BLK[b][k] <- 0` (43_macroblock_decoder.md R246). -/
def State.zeroBlocks (s : State) : State := { s with blk := Vector.replicate 6 zeroBlock }

/-- The blocks are discarded: six free blocks until the next macroblock zeroes them (10_state.md R51, U20; log 9). -/
def State.discardBlocks (s : State) : State :=
  { s with blk := Config.freeBlocks s.draws, draws := s.draws + 1 }

/-- Write `HP_STATE`. -/
def State.setHpState (s : State) (v : HpState) : State := { s with hpState := v }

/-- Write `RET`. -/
def State.setRet (s : State) (v : Ret) : State := { s with status := { s.status with ret := v } }

/-- Deliver a result to the test bench or the command port. -/
def State.deliver (s : State) (v : Result) : State := { s with assembly := { s.assembly with result := v } }

/-! ### Taking a fault, and what stands beside it -/

/-- A text for `ERRSTR`: free, but a string of at most 255 characters none of which is zero (10_state.md R58,
60_exceptions.md R460; log 10). -/
def faultText (draw : Nat) : List Byte := ((Config.freeText draw).filter fun b => b != 0).take 255

/-- The status registers as a fault or a refused command leaves them: `FAULT`, `FAULT_CAUSE`, `FAULT_INFO`, `ERRSTR`
and `RET <- ERROR` (60_exceptions.md R445, R447). -/
def State.recordFault (s : State) (c : Cause) (info : Nat) : State :=
  { s with
    status :=
      { s.status with
        ret := .error
        fault := true
        faultCause := c.code
        faultInfo := BitVec.ofNat 32 info
        errstr := faultText s.draws }
    draws := s.draws + 1 }

/-- `faultEntry(cause, info)` (60_exceptions.md R445): the cause and the information word are saved, `HP_STATE` goes
to `SEARCHING`, a session-fatal cause sets `SESSION` to `FAILED`, and the command ends with `ERROR`. Nothing that went
before is undone: `bitpos`, the roles, the frame store and every working register stay. -/
def faultEntry (c : Cause) (info : Nat) (s : State) : State :=
  let s := s.recordFault c info
  { s with hpState := .searching, session := if c.sessionFatal then .failed else s.session }

/-- `badCommand(code)` (49_picture_buffers_host.md R416): nothing but the status registers changes (60_exceptions.md
R447). -/
def badCommand (code : Nat) (s : State) : State := s.recordFault .badCommand code

/-- A refused rewind (49_picture_buffers_host.md R412, 60_exceptions.md R447). -/
def rewindRefused (s : State) : State := s.recordFault .srcRewind 0

/-- `event EV_FRAMING(code)` (60_exceptions.md R442). -/
def State.framingEvent (s : State) (code : Nat) : State :=
  { s with
    status :=
      { s.status with
        evCount := s.status.evCount + 1
        events := s.status.events ++ [BitVec.ofNat 32 code] } }

/-- The return from a fault: resynchronisation. The next header search discards up to 7 bits and then whole bytes up
to the next start-code prefix (60_exceptions.md R451); there is no return instruction. -/
def resynchronise (s : State) : Res Unit := s.align

/-- The end of an operation run as one step: its value is delivered, or the fault it raised is taken (60_exceptions.md
R445; log 6). -/
def Res.finish {α : Type} (x : Res α) (deliver : α → State → State) : Host.Outcome State Fault Refusal :=
  match x with
  | .ok a s => .next (deliver a s)
  | .raised c info s => .next (faultEntry c info s)
  | .stop e => .fault e

/-- An operation without a result. -/
def noResult (_ : Unit) (s : State) : State := s.deliver .nothing

end Sys2Proof.Machine
end

