-- ==== Sys2Proof/Machine/Operands.lean ====
section
/-!
DEFINITION. How operands are put together from bits, and the arithmetic on them: signs and escapes (30_encoding.md
R130), clamps and rounding (00_scope.md R10), block positions (48_prediction_recon.md R387), averages (R375, R376).
-/

namespace Sys2Proof.Machine

/-! ### Arithmetic of 00_scope.md R10 -/

/-- `clamp(lo, hi, v)`. -/
def clamp (lo hi v : Int) : Int := if v < lo then lo else if hi < v then hi else v

/-- `tdiv2(v)`: division by 2 truncating toward zero. -/
def tdiv2 (v : Int) : Int := v.tdiv 2

/-- `v >> 1`: the arithmetic shift, rounding down. -/
def half (v : Int) : Int := v / 2

/-- `v & 1` on two's-complement values, for negative `v` too. -/
def oddPart (v : Int) : Bool := v % 2 == 1

/-- A sign bit applied to a magnitude: `s ? -mag : mag` (30_encoding.md R130). -/
def applySign (s : Bool) (mag : Nat) : Int := if s then -(mag : Int) else mag

/-! ### Operands from the stream -/

/-- The DC differential of `size` bits `v`, "negate if top bit clear" (30_encoding.md R130, 45_block_decode_iq.md
R301). -/
def dcDifferential (size v : Nat) : Int :=
  if size = 0 then 0 else if v.testBit (size - 1) then (v : Int) else (v : Int) - 2 ^ size + 1

/-- The level of an escape whose first byte is `v` and whose second byte, where there is one, is `lo`
(30_encoding.md R129, 45_block_decode_iq.md R304). -/
def escapeLevel (v lo : Nat) : Int :=
  if v = 0x00 then (lo : Int)
  else if v = 0x80 then (lo : Int) - 256
  else if 0x80 < v then (v : Int) - 256
  else (v : Int)

/-- The magnitude of a motion delta: `((|motion_code| - 1) << rangeSize) + residual + 1` (46_motion_vectors.md
R334). -/
def motionDelta (code : Int) (rangeSize residual : Nat) : Nat := (code.natAbs - 1) * 2 ^ rangeSize + residual + 1

/-! ### Samples -/

/-- `AVG2(a, b)` (48_prediction_recon.md R375), by the parameter (00_scope.md R7; log 12). -/
def avg2 (rule : Config.AverageRule) (a b : Nat) : Nat :=
  match rule with
  | .standard => (a + b + 1) / 2
  | .other which => (Config.otherAverage2 which a b).toNat

/-- `AVG4(a, b, c, d)` (48_prediction_recon.md R376), by the parameter (00_scope.md R7; log 12). -/
def avg4 (rule : Config.AverageRule) (a b c d : Nat) : Nat :=
  match rule with
  | .standard => (a + b + c + d + 2) / 4
  | .other which => (Config.otherAverage4 which a b c d).toNat

/-- A value clamped to a sample, 0 to 255 (48_prediction_recon.md R385, R386). -/
def toSample (v : Int) : Byte := BitVec.ofInt 8 (clamp 0 255 v)

/-! ### Positions -/

/-- `ZIGZAG[i]`, for `i` up to 63 (10_state.md R63), from the parameter. -/
def State.zigzag (s : State) (i : Nat) : Nat := (s.params.zigzag[i]?.getD 0).val

/-- `comp(b)`: the colour component of a block (45_block_decode_iq.md R300). -/
def component (b : BlockNo) : Fin 3 := if b.val < 4 then 0 else if b.val = 4 then 1 else 2

/-- The plane and origin of block `b` of macroblock `(mbX, mbY)` (48_prediction_recon.md R387). -/
def blockOrigin (b : BlockNo) (mbX mbY : Nat) : Fin 3 × Nat × Nat :=
  if b.val < 4 then (0, 16 * mbX + 8 * (b.val % 2), 16 * mbY + 8 * (b.val / 2))
  else (component b, 8 * mbX, 8 * mbY)

/-- A free column and row, inside the frame store where there is one, as every write of the kernel is
(20_memory.md R95; log 32). -/
def State.freePosition (s : State) : Nat × Nat :=
  let p := Config.freePosition s.draws
  match s.frames with
  | none => p
  | some fs => (p.1 % (fs.width / 16), p.2 % (fs.height / 16))

/-- `mbX = a mod mb_cols`, `mbY = a div mb_cols` (10_state.md R28). While `mb_cols` is 0 no result is stated: the
position is free (log 32). -/
def State.gridPosition (s : State) (a : Nat) : (Nat × Nat) × State :=
  if s.seq.mbCols = 0 then (s.freePosition, { s with draws := s.draws + 1 })
  else ((a % s.seq.mbCols, a / s.seq.mbCols), s)

/-- `(row - 1) * mb_cols + inc - 1`, the first address of a slice (43_macroblock_decoder.md R233). Row 0, which R231
shuts out, has the address of this formula where that is a natural number and a free one elsewhere (DESIGN CHOICE, log
36). -/
def State.firstAddress (s : State) (row inc : Nat) : Nat × State :=
  if row = 0 then
    if s.seq.mbCols < inc then (inc - s.seq.mbCols - 1, s)
    else (Config.freeAddress s.draws, { s with draws := s.draws + 1 })
  else ((row - 1) * s.seq.mbCols + inc - 1, s)

/-- The positions of an `n` by `n` area as (column, row), row by row. -/
def area (n : Nat) : List (Nat × Nat) := (List.range n).flatMap fun j => (List.range n).map fun i => (i, j)

/-- The buffer a reference role names (48_prediction_recon.md R381). -/
def State.reference (s : State) (d : Direction) : Fin 3 :=
  match d with
  | .forward => s.roles.fwd
  | .backward => s.roles.bwd

/-- The coded size: the least multiple of 16 not below a header size (10_state.md R41). -/
def codedSize (n : Nat) : Nat := (n + 15) / 16 * 16

end Sys2Proof.Machine
end

