-- ==== Sys2Proof/Machine/BitReader.lean ====
section
/-!
DEFINITION. The bitstream reader's unit operations (40_bit_reader.md R171 to R177). Their pure part stands in Ops.lean.
-/

namespace Sys2Proof.Machine

/-- `BR_RESET` run alone (R171; log 13). -/
def execBrReset (s : State) : Host.Outcome State Fault Refusal :=
  .next ({ s with br := s.br.reset }.deliver .nothing)

/-- `BR_PEEK n` (R172): delivers `peekBits(n)`; an operand outside 1 to 32 is refused (U1). -/
def execBrPeek (n : BitVec 6) (s : State) : Host.Outcome State Fault Refusal :=
  if 1 ≤ n.toNat ∧ n.toNat ≤ 32 then .next (s.deliver (.bits (s.peekBits n.toNat)))
  else .refused .operandOutOfRange

/-- `BR_CONSUME n` (R173); an operand above 32 is refused (U1). -/
def execBrConsume (n : BitVec 6) (s : State) : Host.Outcome State Fault Refusal :=
  if n.toNat ≤ 32 then .next ((s.consumeBits n.toNat).deliver .nothing) else .refused .operandOutOfRange

/-- `BR_CONSUME1` (R174). -/
def execBrConsume1 (s : State) : Host.Outcome State Fault Refusal := .next ((s.consumeBits 1).deliver .nothing)

/-- `BR_REFILL` run alone (R175; DESIGN CHOICE, log 37). -/
def execBrRefill (s : State) : Host.Outcome State Fault Refusal :=
  .next ({ s with br := s.br.refill }.deliver .nothing)

/-- `BR_GET n` (R176): delivers `getBits(n)`; an operand above 32 is refused (U1). -/
def execBrGet (n : BitVec 6) (s : State) : Host.Outcome State Fault Refusal :=
  if n.toNat ≤ 32 then .next ((s.getBits n.toNat).2.deliver (.bits (s.getBits n.toNat).1))
  else .refused .operandOutOfRange

/-- `BR_ALIGN_SC` (R177). -/
def execBrAlignSc (s : State) : Host.Outcome State Fault Refusal := s.align.finish noResult

end Sys2Proof.Machine
end

