-- ==== Sys2Proof/Machine/Vlc.lean ====
section
/-!
DEFINITION. The variable-length-code decoder (44_vlc_decoder.md) and the elements decoded by it alone: the address
increment, the macroblock type, the coded block pattern (43_macroblock_decoder.md R235, R241, R246) and the motion code
(46_motion_vectors.md R332).
-/

namespace Sys2Proof.Machine

/-- `vlc(T)` (44_vlc_decoder.md R270): the symbol of the code word that begins the upcoming bits, which is consumed;
where there is none, `E_VLC_INVALID` with the table's number, and nothing is consumed. -/
def vlc {α : Type} (rows : List (Row α)) (t : Table) (s : State) : Res α :=
  match rows.find? fun r => s.peekBits r.len == r.bits with
  | some r => .ok r.sym (s.consumeBits r.len)
  | none => .raised .vlcInvalid t.number s

/-- `vlc(T)` for a table named by its operand. -/
def vlcSymbol (t : Table) (s : State) : Res VlcSymbol :=
  match t with
  | .mba => (vlc s.params.tables.mba .mba s).map .mba
  | .mbtI => (vlc s.params.tables.mbtI .mbtI s).map .mbType
  | .mbtP => (vlc s.params.tables.mbtP .mbtP s).map .mbType
  | .mbtB => (vlc s.params.tables.mbtB .mbtB s).map .mbType
  | .cbp => (vlc s.params.tables.cbp .cbp s).map .cbp
  | .motion => (vlc s.params.tables.motion .motion s).map .magnitude
  | .dcl => (vlc s.params.tables.dcl .dcl s).map .dcSize
  | .dcc => (vlc s.params.tables.dcc .dcc s).map .dcSize
  | .dct => (vlc s.params.tables.dct .dct s).map .dct

/-- `mbaIncrement()` from a partial sum on (43_macroblock_decoder.md R235): stuffing is discarded, an escape adds 33.
The first argument bounds the turns (log 15). -/
def mbaIncrementFrom : Nat → Nat → State → Res Nat
  | 0, _, _ => .stop .commandDoesNotReturn
  | fuel + 1, inc, s =>
    (vlc s.params.tables.mba .mba s).bind fun v s =>
      match v with
      | .stuffing => mbaIncrementFrom fuel inc s
      | .escape => mbaIncrementFrom fuel (inc + 33) s
      | .increment n => .ok (inc + n) s

/-- `mbaIncrement()` (43_macroblock_decoder.md R235). -/
def mbaIncrement (s : State) : Res Nat := mbaIncrementFrom s.br.loopBound 0 s

/-- `mb_type <- vlc(T)`, the table selected by `pict_type` (43_macroblock_decoder.md R240, R241). -/
def macroblockType (s : State) : Res (BitVec 5) :=
  (if s.pic.pictType = 1 then vlc s.params.tables.mbtI .mbtI s
    else if s.pic.pictType = 2 then vlc s.params.tables.mbtP .mbtP s
    else if s.pic.pictType = 3 then vlc s.params.tables.mbtB .mbtB s
    else .stop .noTypeTable).bind fun t s => .ok t (s.setMbType t)

/-- `cbp <- vlc(T_CBP)` (43_macroblock_decoder.md R246). -/
def codedPattern (s : State) : Res (BitVec 6) := (vlc s.params.tables.cbp .cbp s).bind fun v s => .ok v (s.setCbp v)

/-- `motionCode()` (46_motion_vectors.md R332). -/
def motionCode (s : State) : Res Int :=
  (vlc s.params.tables.motion .motion s).bind fun mag s =>
    if mag = 0 then .ok 0 s
    else .ok (applySign ((s.getBits 1).1 == 1) mag) (s.getBits 1).2

/-- The motion code kept for the residual that may follow it as a single step (log 5). -/
def State.latchMotionCode (s : State) (code : Int) : State :=
  { s with assembly := { s.assembly with motionCode := code } }

/-- `VLD_CODE T` (44_vlc_decoder.md R270). -/
def execVldCode (t : Table) (s : State) : Host.Outcome State Fault Refusal :=
  (vlcSymbol t s).finish fun v s => s.deliver (.symbol v)

/-- `VLD_MBA_INC` (43_macroblock_decoder.md R235). -/
def execVldMbaInc (s : State) : Host.Outcome State Fault Refusal :=
  (mbaIncrement s).finish fun n s => s.deliver (.increment n)

/-- `VLD_MBTYPE` (43_macroblock_decoder.md R241). -/
def execVldMbtype (s : State) : Host.Outcome State Fault Refusal :=
  (macroblockType s).finish fun t s => s.deliver (.symbol (.mbType t))

/-- `VLD_CBP` (43_macroblock_decoder.md R246), whatever `mb_type` holds (DESIGN CHOICE, log 37). -/
def execVldCbp (s : State) : Host.Outcome State Fault Refusal :=
  (codedPattern s).finish fun v s => s.deliver (.symbol (.cbp v))

/-- `VLD_MOTION_CODE` (46_motion_vectors.md R332). -/
def execVldMotionCode (s : State) : Host.Outcome State Fault Refusal :=
  (motionCode s).finish fun v s => (s.latchMotionCode v).deliver (.motion v)

end Sys2Proof.Machine
end

