-- ==== Sys2Proof/Machine/Block.lean ====
section
/-!
DEFINITION. One 8x8 block: the DC differential, the run/level coefficients with their escapes, zig-zag placement and the
inverse quantiser (45_block_decode_iq.md).
-/

namespace Sys2Proof.Machine

/-! ### Inverse quantiser -/

/-- `oddSat(m)` (R311): an even magnitude moves toward zero by 1, a zero product follows `ODDIFY_ZERO`, then the
magnitude saturates at 2047. -/
def oddSat (zero : Config.OddifyZero) (m : Nat) : Nat :=
  min 2047 (if m = 0 then (match zero with | .toOne => 1 | .stayZero => 0) else (m - 1) ||| 1)

/-- `dqIntra(level, qs, w)` (R309, R313). -/
def dqIntra (zero : Config.OddifyZero) (level : Int) (qs w : Nat) : Int :=
  applySign (decide (level < 0)) (oddSat zero (level.natAbs * qs * w / 8))

/-- `dqInter(level, qs, w)` (R310, R313). -/
def dqInter (zero : Config.OddifyZero) (level : Int) (qs w : Nat) : Int :=
  applySign (decide (level < 0)) (oddSat zero ((2 * level.natAbs + 1) * qs * w / 16))

/-! ### DC of an intra block -/

/-- `dcDiff(b)` (R301). -/
def dcDiff (b : BlockNo) (s : State) : Res Int :=
  (if b.val < 4 then vlc s.params.tables.dcl .dcl s else vlc s.params.tables.dcc .dcc s).bind fun size s =>
    if size = 0 then .ok 0 s else .ok (dcDifferential size (s.getBits size).1) (s.getBits size).2

/-- `IQ_INTRA_DC` (R302): the predictor moves by the differential, the coefficient is 8 times the predictor. -/
def intraDc (b : BlockNo) (s : State) : Res Unit :=
  (dcDiff b s).bind fun diff s =>
    let c := component b
    let v := s.work.dcPred[c] + BitVec.ofInt 32 diff
    .ok () ((s.setDcPred c v).setBlkEntry b 0 ((v <<< 3).truncate 16))

/-! ### Run/level coefficients -/

/-- `escape()`, after the code word `0000 01` (R304). -/
def escape (s : State) : Res Coefficient :=
  let (run, s) := s.getBits 6
  let (v, s) := s.getBits 8
  let (lo, s) := if v = 0x00 ∨ v = 0x80 then s.getBits 8 else (0, s)
  if escapeLevel v lo = 0 then .raised .escLevelZero run s else .ok (.pair run (escapeLevel v lo)) s

/-- A pair whose sign bit is next: `s <- getBits(1); return (run, -mag if s else mag)` (R303). -/
def signedPair (run mag : Nat) (s : State) : Res Coefficient :=
  .ok (.pair run (applySign ((s.getBits 1).1 == 1) mag)) (s.getBits 1).2

/-- `coef(first)` (R303). The escape entry of `T_DCT` is taken before the table is searched. -/
def coef (first : Bool) (s : State) : Res Coefficient :=
  if first = true ∧ s.peekBits 1 = 1 then signedPair 0 1 (s.consumeBits 1)
  else if first = false ∧ s.peekBits 2 = 0b10 then .ok .eob (s.consumeBits 2)
  else if first = false ∧ s.peekBits 2 = 0b11 then signedPair 0 1 (s.consumeBits 2)
  else if s.peekBits 6 = 0b000001 then escape (s.consumeBits 6)
  else
    (vlc s.params.tables.dct .dct s).bind fun v s =>
      match v with
      | .pair run mag => signedPair run mag s
      | .escape => escape s

/-- The coefficient that a pair stores: `dqIntra` with `QI[k]` or `dqInter` with `QN[k]` (R305, R306). -/
def State.dequantise (s : State) (intra : Bool) (k : Nat) (level : Int) : Int :=
  if intra then dqIntra s.params.oddifyZero level s.work.quantizerScale.toNat (s.qi[k]?.getD 0).toNat
  else dqInter s.params.oddifyZero level s.work.quantizerScale.toNat (s.qn[k]?.getD 0).toNat

/-- The coefficient loop of a block (R305, R306): `next` is the index after the last one stored, so that a pair lands
on `next + run`; an index past 63 raises `E_COEF_INDEX` before any store (R307). The first argument bounds the turns:
every turn but the last moves `next` up, so 65 suffice (log 15). That the loop runs as written where `BLK[b]` is not all 0, so
that old entries stay, or the quantiser scale is 0, is the model's choice (log 33). -/
def coefLoop (intra : Bool) (b : BlockNo) : Nat → Nat → Bool → State → Res Unit
  | 0, _, _, _ => .stop .commandDoesNotReturn
  | fuel + 1, next, first, s =>
    (coef first s).bind fun r s =>
      match r with
      | .eob => .ok () s
      | .pair run level =>
        if 63 < next + run then .raised .coefIndex b.val s
        else
          let k := s.zigzag (next + run)
          coefLoop intra b fuel (next + run + 1) false
            (s.setBlkEntry b k (BitVec.ofInt 16 (s.dequantise intra k level)))

/-- `intraBlock(b)` (R305): the DC, then coefficients from index 1 on; outside its precondition, log 33. -/
def intraBlock (b : BlockNo) (s : State) : Res Unit := (intraDc b s).bind fun _ s => coefLoop true b 65 1 false s

/-- `interBlock(b)` (R306): coefficients from index 0 on, the first by its own variant of `T_DCT`; outside its
precondition, log 33. -/
def interBlock (b : BlockNo) (s : State) : Res Unit := coefLoop false b 65 0 true s

/-! ### The unit operations -/

/-- `VLD_DC_DIFF` (R301). -/
def execVldDcDiff (b : BlockNo) (s : State) : Host.Outcome State Fault Refusal :=
  (dcDiff b s).finish fun v s => s.deliver (.dcDiff v)

/-- `VLD_COEF` (R303), `first` as the operand says wherever in a block (DESIGN CHOICE, log 37). -/
def execVldCoef (first : Bool) (s : State) : Host.Outcome State Fault Refusal :=
  (coef first s).finish fun c s => s.deliver (.coef c)

/-- `VLD_ESCAPE` (R304), whatever came before it (DESIGN CHOICE, log 37). -/
def execVldEscape (s : State) : Host.Outcome State Fault Refusal :=
  (escape s).finish fun c s => s.deliver (.coef c)

/-- `IQ_INTRA_DC` (R302). -/
def execIqIntraDc (b : BlockNo) (s : State) : Host.Outcome State Fault Refusal := (intraDc b s).finish noResult

/-- `IQ_INTRA_AC` (R309). -/
def execIqIntraAc (level : BitVec 9) (qs : BitVec 5) (w : BitVec 8) (s : State) : Host.Outcome State Fault Refusal :=
  .next (s.deliver (.dequantised (dqIntra s.params.oddifyZero level.toInt qs.toNat w.toNat)))

/-- `IQ_INTER` (R310). -/
def execIqInter (level : BitVec 9) (qs : BitVec 5) (w : BitVec 8) (s : State) : Host.Outcome State Fault Refusal :=
  .next (s.deliver (.dequantised (dqInter s.params.oddifyZero level.toInt qs.toNat w.toNat)))

/-- `IQ_ODDSAT` (R311). -/
def execIqOddsat (m : BitVec 32) (s : State) : Host.Outcome State Fault Refusal :=
  .next (s.deliver (.dequantised (oddSat s.params.oddifyZero m.toNat)))

/-- `SEQ_INTRA_BLOCK` (R305). -/
def execSeqIntraBlock (b : BlockNo) (s : State) : Host.Outcome State Fault Refusal := (intraBlock b s).finish noResult

/-- `SEQ_INTER_BLOCK` (R306). -/
def execSeqInterBlock (b : BlockNo) (s : State) : Host.Outcome State Fault Refusal := (interBlock b s).finish noResult

end Sys2Proof.Machine
end

