-- ==== Sys2Proof/Machine/Motion.lean ====
section
/-!
DEFINITION. The motion-vector reconstructor (46_motion_vectors.md R330 to R339).
-/

namespace Sys2Proof.Machine

/-- The window of R336: one correction by `2 * lim`. -/
def wrapVector (lim vec : Int) : Int :=
  if lim ≤ vec then vec - 2 * lim else if vec < -lim then vec + 2 * lim else vec

/-- The reconstructed component from a predictor, a motion code and its residual (R333 to R337, R339): with
`fullPelFlag` the predictor is halved first and the result doubled. -/
def reconstructVector (pred code : Int) (rangeSize residual : Nat) (fullPel : Bool) : Int :=
  let vec := if fullPel then half pred else pred
  let vec :=
    if code = 0 then vec
    else
      let d : Int := motionDelta code rangeSize residual
      wrapVector (16 * 2 ^ rangeSize) (if 0 < code then vec + d else vec - d)
  if fullPel then 2 * vec else vec

/-- `decodeMotionVector(pred, rangeSize, fullPelFlag)` (R339). A code of 0 reads no residual. -/
def decodeMotionVector (pred : Int) (rangeSize : Nat) (fullPel : Bool) (s : State) : Res Int :=
  (motionCode s).bind fun code s =>
    if code = 0 then .ok (reconstructVector pred 0 rangeSize 0 fullPel) s
    else .ok (reconstructVector pred code rangeSize (s.getBits rangeSize).1 fullPel) (s.getBits rangeSize).2

/-- `PMV[d][c] <- decodeMotionVector(PMV[d][c], rangeSize, fullPelFlag)` (R339). -/
def decodeComponent (d : Direction) (c : Axis) (rangeSize : Nat) (fullPel : Bool) (s : State) : Res Int :=
  (decodeMotionVector (s.work.pmv.get d c) rangeSize fullPel s).bind fun v s => .ok v (s.setPmv d c v)

/-- Both components of one direction, x then y (43_macroblock_decoder.md R244, R245), with
`rangeSize = code - 1` (R331). A code of 0 has no `rangeSize`; `CMD_DECODE_NEXT` refuses it before any macroblock
(42_header_parser.md R215), so only a macroblock operation run alone can stop here (log 18). -/
def decodeVector (d : Direction) (code : BitVec 3) (fullPel : Bool) (s : State) : Res Unit :=
  if code = 0 then .stop .noRangeSize
  else
    (decodeComponent d .x (code.toNat - 1) fullPel s).bind fun _ s =>
      (decodeComponent d .y (code.toNat - 1) fullPel s).bind fun _ s => .ok () s

/-- `MVR_DECODE` (R339). -/
def execMvrDecode (d : Direction) (c : Axis) (rangeSize : BitVec 3) (fullPel : Bool) (s : State) :
    Host.Outcome State Fault Refusal :=
  (decodeComponent d c rangeSize.toNat fullPel s).finish fun v s => s.deliver (.motion v)

end Sys2Proof.Machine
end

