-- ==== Sys2Proof/Machine/Idct.lean ====
section
/-!
DEFINITION. The IDCT engine (47_idct.md): eight values in, eight values out, in 32-bit wrapping arithmetic (R358), and
the row pass, the column pass and the block transform built on them.
-/

namespace Sys2Proof.Machine

/-- A 32-bit intermediate of the network (R358). -/
abbrev W32 := BitVec 32

/-- `W1` to `W7` (R351). -/
def w1 : W32 := 2841
/-- `W2` (R351). -/
def w2 : W32 := 2676
/-- `W3` (R351). -/
def w3 : W32 := 2408
/-- `W5` (R351). -/
def w5 : W32 := 1609
/-- `W6` (R351). -/
def w6 : W32 := 1108
/-- `W7` (R351). -/
def w7 : W32 := 565

/-- Eight entries of a row or a column. -/
structure Eight (α : Type) where
  e0 : α
  e1 : α
  e2 : α
  e3 : α
  e4 : α
  e5 : α
  e6 : α
  e7 : α
  deriving DecidableEq, Repr

/-- The same function on all eight entries. -/
def Eight.map {α β : Type} (v : Eight α) (f : α → β) : Eight β :=
  ⟨f v.e0, f v.e1, f v.e2, f v.e3, f v.e4, f v.e5, f v.e6, f v.e7⟩

/-- The eight entries are all the same. -/
def Eight.all {α : Type} (a : α) : Eight α := ⟨a, a, a, a, a, a, a, a⟩

/-- The third stage of both passes from the intermediates after the second, and the eight sums that the fourth stage
scales (R352, R354). -/
def idctOutputs (x0 x1 x3 x2 x4 x5 x6 x8 : W32) : Eight W32 :=
  let x7 := x8 + x3
  let x8 := x8 - x3
  let x3 := x0 + x2
  let x0 := x0 - x2
  let x2 := (181 * (x4 + x5) + 128).sshiftRight 8
  let x4 := (181 * (x4 - x5) + 128).sshiftRight 8
  ⟨x7 + x1, x3 + x2, x0 + x4, x8 + x6, x8 - x6, x0 - x4, x3 - x2, x7 - x1⟩

/-- The row network on eight sign-extended entries, up to the scaling of the fourth stage (R352). -/
def idctRowNetwork (v : Eight W32) : Eight W32 :=
  let x1 := v.e4 <<< 11
  let x2 := v.e6
  let x3 := v.e2
  let x4 := v.e1
  let x5 := v.e7
  let x6 := v.e5
  let x7 := v.e3
  let x0 := (v.e0 <<< 11) + 128
  let x8 := w7 * (x4 + x5)
  let x4 := x8 + (w1 - w7) * x4
  let x5 := x8 - (w1 + w7) * x5
  let x8 := w3 * (x6 + x7)
  let x6 := x8 - (w3 - w5) * x6
  let x7 := x8 - (w3 + w5) * x7
  let x8 := x0 + x1
  let x0 := x0 - x1
  let x1 := w6 * (x3 + x2)
  let x2 := x1 - (w2 + w6) * x2
  let x3 := x1 + (w2 - w6) * x3
  let x1 := x4 + x6
  let x4 := x4 - x6
  let x6 := x5 + x7
  let x5 := x5 - x7
  idctOutputs x0 x1 x3 x2 x4 x5 x6 x8

/-- The column network on eight sign-extended entries, up to the scaling of the last stage (R354, bias 8192 by
R355). -/
def idctColNetwork (v : Eight W32) : Eight W32 :=
  let x1 := v.e4 <<< 8
  let x2 := v.e6
  let x3 := v.e2
  let x4 := v.e1
  let x5 := v.e7
  let x6 := v.e5
  let x7 := v.e3
  let x0 := (v.e0 <<< 8) + 8192
  let x8 := w7 * (x4 + x5) + 4
  let x4 := (x8 + (w1 - w7) * x4).sshiftRight 3
  let x5 := (x8 - (w1 + w7) * x5).sshiftRight 3
  let x8 := w3 * (x6 + x7) + 4
  let x6 := (x8 - (w3 - w5) * x6).sshiftRight 3
  let x7 := (x8 - (w3 + w5) * x7).sshiftRight 3
  let x8 := x0 + x1
  let x0 := x0 - x1
  let x1 := w6 * (x3 + x2) + 4
  let x2 := (x1 - (w2 + w6) * x2).sshiftRight 3
  let x3 := (x1 + (w2 - w6) * x3).sshiftRight 3
  let x1 := x4 + x6
  let x4 := x4 - x6
  let x6 := x5 + x7
  let x5 := x5 - x7
  idctOutputs x0 x1 x3 x2 x4 x5 x6 x8

/-- A residual clamped to -256 to 255 (R356). -/
def residual (v : Int) : Coef := BitVec.ofInt 16 (clamp (-256) 255 v)

/-- All entries but the first are 0: the condition of both shortcuts (R352, R354; shifting `v[4]` left by 11 or 8 in 32
bits makes no value of 16 bits 0). -/
def Eight.onlyFirst (v : Eight Coef) : Bool :=
  v.e1 == 0 && v.e2 == 0 && v.e3 == 0 && v.e4 == 0 && v.e5 == 0 && v.e6 == 0 && v.e7 == 0

/-- `idctrow` on the eight entries of a row, with its shortcut (R352, R353). -/
def idctRow (v : Eight Coef) : Eight Coef :=
  if v.onlyFirst then Eight.all (v.e0 <<< 3)
  else (idctRowNetwork (v.map (·.signExtend 32))).map fun x => (x.sshiftRight 8).truncate 16

/-- `idctcol` on the eight entries of a column, with its shortcut (R354). -/
def idctCol (v : Eight Coef) : Eight Coef :=
  if v.onlyFirst then Eight.all (residual ((v.e0.toInt + 32) / 64))
  else (idctColNetwork (v.map (·.signExtend 32))).map fun x => residual (x.sshiftRight 14).toInt

/-- The entries `base`, `base + step`, ..., `base + 7 * step` of a block. -/
def gather (b : Block) (base step : Nat) : Eight Coef :=
  let e (i : Nat) : Coef := b[base + i * step]?.getD 0
  ⟨e 0, e 1, e 2, e 3, e 4, e 5, e 6, e 7⟩

/-- The block with those entries replaced. -/
def scatter (b : Block) (base step : Nat) (v : Eight Coef) : Block :=
  (((((((b.setIfInBounds base v.e0).setIfInBounds (base + step) v.e1).setIfInBounds (base + 2 * step)
    v.e2).setIfInBounds (base + 3 * step) v.e3).setIfInBounds (base + 4 * step) v.e4).setIfInBounds
    (base + 5 * step) v.e5).setIfInBounds (base + 6 * step) v.e6).setIfInBounds (base + 7 * step) v.e7

/-- `idctrow(b, r)` on a block (R352). -/
def rowPass (b : Block) (r : Nat) : Block := scatter b (8 * r) 1 (idctRow (gather b (8 * r) 1))

/-- `idctcol(b, c)` on a block (R354). -/
def colPass (b : Block) (c : Nat) : Block := scatter b c 8 (idctCol (gather b c 8))

/-- `idct(b)` on a block: the eight rows, then the eight columns (R357). -/
def idct (b : Block) : Block := (List.range 8).foldl colPass ((List.range 8).foldl rowPass b)

/-- `IDCT_ROW` (R352). -/
def execIdctRow (b : BlockNo) (r : BitVec 3) (s : State) : Host.Outcome State Fault Refusal :=
  .next ((s.setBlock b (rowPass s.blk[b] r.toNat)).deliver .nothing)

/-- `IDCT_COL` (R354). -/
def execIdctCol (b : BlockNo) (c : BitVec 3) (s : State) : Host.Outcome State Fault Refusal :=
  .next ((s.setBlock b (colPass s.blk[b] c.toNat)).deliver .nothing)

/-- `IDCT_BLOCK` (R357). -/
def execIdctBlock (b : BlockNo) (s : State) : Host.Outcome State Fault Refusal :=
  .next ((s.setBlock b (idct s.blk[b])).deliver .nothing)

end Sys2Proof.Machine
end

