-- ==== Sys2Proof/Machine/Prediction.lean ====
section
/-!
DEFINITION. The half-pel interpolator and the macroblock tiler (48_prediction_recon.md): sample fetch, prediction of a
macroblock, averaging of a second prediction, putting and adding residual blocks. Reads and writes go through
`FrameStore.read` and `FrameStore.write`; the number beside the store counts the free draws of reads outside a plane.
-/

namespace Sys2Proof.Machine

/-- `fetch(R, p, x, y, hx, hy)` (R374). -/
def FrameStore.fetch (fs : FrameStore) (par : Config.Params) (draws : Nat) (r p : Fin 3) (x y : Int) (hx hy : Bool) : Nat × Nat :=
  let (a, draws) := fs.read draws r p x y
  match hx, hy with
  | false, false => (a.toNat, draws)
  | true, false =>
    let (b, draws) := fs.read draws r p (x + 1) y
    (avg2 par.avg2 a.toNat b.toNat, draws)
  | false, true =>
    let (b, draws) := fs.read draws r p x (y + 1)
    (avg2 par.avg2 a.toNat b.toNat, draws)
  | true, true =>
    let (b, draws) := fs.read draws r p (x + 1) y
    let (c, draws) := fs.read draws r p x (y + 1)
    let (d, draws) := fs.read draws r p (x + 1) (y + 1)
    (avg4 par.avg4 a.toNat b.toNat c.toNat d.toNat, draws)

/-- One prediction pass over one plane: which plane, the size and origin of its area, the vector in that plane. -/
structure PlanePass where
  plane : Fin 3
  size : Nat
  x0 : Nat
  y0 : Nat
  vx : Int
  vy : Int
  deriving DecidableEq, Repr

/-- The three passes of a macroblock: 16x16 luma with the vector, two 8x8 chroma areas with the vector halved toward
zero (R372, R373). -/
def planePasses (mbX mbY : Nat) (dx dy : Int) : List PlanePass :=
  [⟨0, 16, 16 * mbX, 16 * mbY, dx, dy⟩,
   ⟨1, 8, 8 * mbX, 8 * mbY, tdiv2 dx, tdiv2 dy⟩,
   ⟨2, 8, 8 * mbX, 8 * mbY, tdiv2 dx, tdiv2 dy⟩]

/-- The predicted value for column `i`, row `j` of a pass, from buffer `r`; `sub` says whether the half flags of the
vector count (R371, R372, R377, R378). -/
def FrameStore.predicted (fs : FrameStore) (par : Config.Params) (draws : Nat) (r : Fin 3) (sub : Bool) (q : PlanePass)
    (i j : Nat) : Nat × Nat :=
  fs.fetch par draws r q.plane (q.x0 + i + half q.vx) (q.y0 + j + half q.vy) (sub && oddPart q.vx) (sub && oddPart q.vy)

/-- One sample of a pass: the predicted value is stored in buffer `cur`, or averaged with what stands there (R372,
R379). -/
def predictSample (par : Config.Params) (avg sub : Bool) (r cur : Fin 3) (q : PlanePass) (m : FrameStore × Nat)
    (ij : Nat × Nat) : FrameStore × Nat :=
  let (v, draws) := m.1.predicted par m.2 r sub q ij.1 ij.2
  let old := (m.1.sample cur q.plane (q.x0 + ij.1) (q.y0 + ij.2)).toNat
  (m.1.write cur q.plane (q.x0 + ij.1) (q.y0 + ij.2) (BitVec.ofNat 8 (if avg then avg2 par.avg2 old v else v)), draws)

/-- All samples of one pass, row by row (R372). -/
def predictPlane (par : Config.Params) (avg sub : Bool) (r cur : Fin 3) (m : FrameStore × Nat) (q : PlanePass) :
    FrameStore × Nat :=
  (area q.size).foldl (predictSample par avg sub r cur q) m

/-- The macroblock lies in the picture, so that every sample written is inside its plane (20_memory.md R95). -/
def FrameStore.hasMacroblock (fs : FrameStore) (mbX mbY : Nat) : Bool :=
  decide (16 * mbX + 16 ≤ fs.width ∧ 16 * mbY + 16 ≤ fs.height)

/-- The frame store and the buffer `CUR`, for an operation that writes macroblock `(mbX, mbY)`. -/
def State.withTarget (s : State) (mbX mbY : Nat) (f : FrameStore → Fin 3 → Res Unit) : Res Unit :=
  match s.frames, s.roles.cur with
  | none, _ => .stop .noFrameStore
  | some _, none => .stop .noCurrentBuffer
  | some fs, some cur => if fs.hasMacroblock mbX mbY then f fs cur else .stop .outsidePlane

/-- `formPrediction(R, mbX, mbY, dx, dy)` (R372), and with `avg` `formAvgPrediction` (R379): `RECON_SUBPIXEL` governs
the first, `RECON_AVG_SUBPIXEL` the second (R377, R378). -/
def predict (avg : Bool) (ref : Direction) (mbX mbY : Nat) (dx dy : Int) (s : State) : Res Unit :=
  s.withTarget mbX mbY fun fs cur =>
    let sub := if avg then s.reconAvgSubpixel else s.reconSubpixel
    let m := (planePasses mbX mbY dx dy).foldl (predictPlane s.params avg sub (s.reference ref) cur) (fs, s.draws)
    .ok () { s with frames := some m.1, draws := m.2 }

/-- `formPrediction` (R372). -/
def formPrediction (ref : Direction) (mbX mbY : Nat) (v : MotionVector) (s : State) : Res Unit :=
  predict false ref mbX mbY v.x v.y s

/-- `formAvgPrediction` (R379). -/
def formAvgPrediction (ref : Direction) (mbX mbY : Nat) (v : MotionVector) (s : State) : Res Unit :=
  predict true ref mbX mbY v.x v.y s

/-- `predictB(mbX, mbY, m)` (43_macroblock_decoder.md R251). -/
def predictB (mbX mbY : Nat) (m : Motion) (s : State) : Res Unit :=
  if m.forward then
    (formPrediction .forward mbX mbY s.work.pmv.forward s).bind fun _ s =>
      if m.backward then formAvgPrediction .backward mbX mbY s.work.pmv.backward s else .ok () s
  else if m.backward then formPrediction .backward mbX mbY s.work.pmv.backward s
  else .raised .bNoMotion s.work.mba s

/-! ### Macroblock tiler -/

/-- The residual of column `i`, row `j` of a block. -/
def residualAt (b : Block) (ij : Nat × Nat) : Int := (b[8 * ij.2 + ij.1]?.getD 0).toInt

/-- One sample of a block: the residual added to 128 or to the sample that stands there, clamped (R385, R386). -/
def tileSample (intra : Bool) (blk : Block) (cur p : Fin 3) (x0 y0 : Nat) (fs : FrameStore) (ij : Nat × Nat) :
    FrameStore :=
  let base : Int := if intra then 128 else (fs.sample cur p (x0 + ij.1) (y0 + ij.2)).toNat
  fs.write cur p (x0 + ij.1) (y0 + ij.2) (toSample (base + residualAt blk ij))

/-- `putIntraBlock` and `addInterBlock` (R385, R386) on the store. -/
def tileBlock (intra : Bool) (blk : Block) (cur : Fin 3) (b : BlockNo) (mbX mbY : Nat) (fs : FrameStore) :
    FrameStore :=
  let (p, x0, y0) := blockOrigin b mbX mbY
  (area 8).foldl (tileSample intra blk cur p x0 y0) fs

/-- `putIntraBlock(b, mbX, mbY)` or `addInterBlock(b, mbX, mbY)` (R385, R386). -/
def tile (intra : Bool) (b : BlockNo) (mbX mbY : Nat) (s : State) : Res Unit :=
  s.withTarget mbX mbY fun fs cur =>
    .ok () { s with frames := some (tileBlock intra s.blk[b] cur b mbX mbY fs) }

/-- `HPI_FORM` (R372). -/
def execHpiForm (ref : Direction) (mbX mbY : BitVec 8) (dx dy : BitVec 16) (s : State) :
    Host.Outcome State Fault Refusal :=
  (formPrediction ref mbX.toNat mbY.toNat ⟨dx.toInt, dy.toInt⟩ s).finish noResult

/-- `HPI_FORM_AVG` (R379), from either reference and whatever `CUR` holds (DESIGN CHOICE, log 37). -/
def execHpiFormAvg (ref : Direction) (mbX mbY : BitVec 8) (dx dy : BitVec 16) (s : State) :
    Host.Outcome State Fault Refusal :=
  (formAvgPrediction ref mbX.toNat mbY.toNat ⟨dx.toInt, dy.toInt⟩ s).finish noResult

/-- `MBT_PUT_INTRA` (R385), transformed block or not (DESIGN CHOICE, log 37). -/
def execMbtPutIntra (b : BlockNo) (mbX mbY : BitVec 8) (s : State) : Host.Outcome State Fault Refusal :=
  (tile true b mbX.toNat mbY.toNat s).finish noResult

/-- `MBT_ADD_INTER` (R386), transformed block and prediction or not (DESIGN CHOICE, log 37). -/
def execMbtAddInter (b : BlockNo) (mbX mbY : BitVec 8) (s : State) : Host.Outcome State Fault Refusal :=
  (tile false b mbX.toNat mbY.toNat s).finish noResult

end Sys2Proof.Machine
end

