-- ==== Sys2Proof/Machine/Macroblock.lean ====
section
/-!
DEFINITION. Slices and macroblocks (43_macroblock_decoder.md): one macroblock, skipped macroblocks, the macroblock loop,
the slice header, and the slice loop of a picture.
-/

namespace Sys2Proof.Machine

/-! ### One macroblock -/

/-- `if mb_type & QUANT`: the 5-bit scale, 0 of which raises `E_QSCALE_ZERO(1)` with the register already written
(R243; 60_exceptions.md R435). -/
def macroblockQuant (t : BitVec 5) (s : State) : Res Unit :=
  if hasQuant t then
    let q := (s.getBits 5).1
    let s := (s.getBits 5).2.setQuantizerScale (BitVec.ofNat 5 q)
    if q = 0 then .raised .qscaleZero 1 s else .ok () s
  else .ok () s

/-- The forward vector of a type that has one (R244). -/
def forwardVector (t : BitVec 5) (s : State) : Res Unit :=
  if hasForward t then decodeVector .forward s.pic.forwardCode s.pic.fullPelForward s else .ok () s

/-- The backward vector of a type that has one (R245). -/
def backwardVector (t : BitVec 5) (s : State) : Res Unit :=
  if hasBackward t then decodeVector .backward s.pic.backwardCode s.pic.fullPelBackward s else .ok () s

/-- The vectors of the active directions, forward before backward (R244, R245). -/
def macroblockVectors (t : BitVec 5) (s : State) : Res Unit := (forwardVector t s).bind fun _ s => backwardVector t s

/-- `cbp`: 63 for an intra macroblock, decoded with `PATTERN`, else 0 (R246). -/
def macroblockPattern (t : BitVec 5) (s : State) : Res Unit :=
  if hasIntra t then .ok () (s.setCbp 63)
  else if hasPattern t then (codedPattern s).bind fun _ s => .ok () s
  else .ok () (s.setCbp 0)

/-- For each coded block of a list, in order, an operation (R247, R253). -/
def codedBlocks (f : BlockNo → State → Res Unit) : List BlockNo → State → Res Unit
  | [], s => .ok () s
  | b :: rest, s =>
    (if isCoded s.work.cbp b then f b s else .ok () s).bind fun _ s => codedBlocks f rest s

/-- Blocks 0 to 5. -/
def allBlocks : List BlockNo := [0, 1, 2, 3, 4, 5]

/-- All parsing of a macroblock: type, scale, vectors, pattern, the six blocks zeroed and the coded ones decoded
(R240; 48_prediction_recon.md R383). -/
def parseMacroblock (s : State) : Res (BitVec 5) :=
  (macroblockType s).bind fun t s =>
    (macroblockQuant t s).bind fun _ s =>
      (macroblockVectors t s).bind fun _ s =>
        (macroblockPattern t s).bind fun _ s =>
          (codedBlocks (if hasIntra t then intraBlock else interBlock) allBlocks s.zeroBlocks).bind fun _ s =>
            .ok t s

/-- The predictor resets of an intra macroblock (R248). -/
def afterIntra (s : State) : State :=
  let s := if s.pic.pictType = 2 then s.clearForwardPmv else if s.pic.pictType = 3 then s.clearPmv else s
  s.setPrevMotion ⟨false, false⟩

/-- The prediction of a non-intra macroblock (R249 to R252). -/
def predictMacroblock (t : BitVec 5) (mbX mbY : Nat) (s : State) : Res Unit :=
  let s := s.clearDcPred
  if s.pic.pictType = 2 then
    let s := if hasForward t then s else s.clearForwardPmv
    formPrediction .forward mbX mbY s.work.pmv.forward s
  else
    (predictB mbX mbY (motionOf t) s).bind fun _ s => .ok () (s.setPrevMotion (motionOf t))

/-- One coded block: the IDCT in place, then put or added (R253). -/
def reconstructBlock (intra : Bool) (mbX mbY : Nat) (b : BlockNo) (s : State) : Res Unit :=
  tile intra b mbX mbY (s.setBlock b (idct s.blk[b]))

/-- The reconstruction of a parsed macroblock at `MBA` (R240, R248 to R253); its blocks are then discarded
(10_state.md R51; log 9). -/
def reconstructMacroblock (t : BitVec 5) (s : State) : Res Unit :=
  let (pos, s) := s.gridPosition s.work.mba
  (if hasIntra t then .ok () (afterIntra s) else predictMacroblock t pos.1 pos.2 s).bind fun _ s =>
    (codedBlocks (reconstructBlock (hasIntra t) pos.1 pos.2) allBlocks s).bind fun _ s => .ok () s.discardBlocks

/-- `macroblock()` (R240). -/
def macroblock (s : State) : Res Unit := (parseMacroblock s).bind reconstructMacroblock

/-! ### Skipped macroblocks -/

/-- `skippedMacroblock(a)` in a P-picture (R255). -/
def skipP (a : Nat) (s : State) : Res Unit :=
  let (pos, s) := s.gridPosition a
  formPrediction .forward pos.1 pos.2 ⟨0, 0⟩ s.clearDcPred.clearForwardPmv

/-- `skippedMacroblock(a)` in a B-picture (R256). -/
def skipB (a : Nat) (s : State) : Res Unit :=
  let (pos, s) := s.gridPosition a
  predictB pos.1 pos.2 s.work.prevMotion s.clearDcPred

/-- `skippedMacroblock(a)` (R255 to R257). -/
def skippedMacroblock (a : Nat) (s : State) : Res Unit :=
  if s.pic.pictType = 1 then .raised .skipInI a s
  else if s.pic.pictType = 2 then skipP a s
  else if s.pic.pictType = 3 then skipB a s
  else .stop .noTypeTable

/-- The skipped macroblocks from address `a` on, so many of them; `true` when the picture ended on the way (R238,
R239). -/
def skipRun (total : Nat) : Nat → Nat → State → Res Bool
  | 0, _, s => .ok false s
  | n + 1, a, s =>
    if total ≤ a then .ok true (s.setMba a) else (skippedMacroblock a s).bind fun _ s => skipRun total n (a + 1) s

/-! ### Slices -/

/-- `macroblockLoop` (R236 to R238). The first argument bounds the turns: every turn moves `MBA` up, so `total + 1`
suffice (log 15). -/
def macroblockLoop (total : Nat) : Nat → State → Res SliceEnd
  | 0, _ => .stop .commandDoesNotReturn
  | fuel + 1, s =>
    if total ≤ s.work.mba then .ok .done s
    else
      (macroblock s).bind fun _ s =>
        if total ≤ s.work.mba + 1 then .ok .done (s.setMba (s.work.mba + 1))
        else if s.peekBits 23 = 0 then .ok .sliceEnd s
        else
          (mbaIncrement s).bind fun inc s =>
            (skipRun total (inc - 1) (s.work.mba + 1) s).bind fun ended s =>
              if ended then .ok .done s else macroblockLoop total fuel (s.setMba (s.work.mba + inc))

/-- The resets of `SLICE_START` (R232). -/
def sliceResets (s : State) : State :=
  (((s.setQuantizerScale 0).clearDcPred).clearPmv).setPrevMotion ⟨false, false⟩

/-- The scale of the slice header: 0 raises `E_QSCALE_ZERO(0)` with the register already written (R232). -/
def sliceQuant (s : State) : Res Unit :=
  let q := (s.getBits 5).1
  let s := (s.getBits 5).2.setQuantizerScale (BitVec.ofNat 5 q)
  if q = 0 then .raised .qscaleZero 0 s else .ok () s

/-- `slice(total)` behind its start code, in macroblock row `row`, counted from 1 (R232 to R234). The test of R230 keeps
row 0 out; only `SEQ_SLICE` run alone on another code meets it (log 36). -/
def sliceBody (row total : Nat) (s : State) : Res SliceEnd :=
  (sliceQuant (sliceResets s)).bind fun _ s =>
    s.skipExtra.bind fun _ s =>
      (mbaIncrement s).bind fun inc s =>
        let (a, s) := s.firstAddress row inc
        macroblockLoop total (total + 1) (s.setMba a)

/-- `slice(total)` (R231, R232): the start code is consumed, its low byte is the row. It does not look at the other bits;
that `SEQ_SLICE` run alone takes any 32 bits so is the model's choice (log 36). -/
def sliceDecode (total : Nat) (s : State) : Res SliceEnd :=
  sliceBody ((s.getBits 32).1 % 256) total (s.getBits 32).2

/-- The slice loop of a picture (R230): a slice code is decoded, any other code is left in the stream and ends the
picture. The first argument bounds the turns (log 15). -/
def pictureDataFrom (total : Nat) : Nat → State → Res Unit
  | 0, _ => .stop .commandDoesNotReturn
  | fuel + 1, s =>
    s.align.bind fun _ s =>
      let code := s.peekBits 32
      if code < 0x00000101 ∨ 0x000001AF < code then .ok () s
      else
        (sliceDecode total s).bind fun e s =>
          match e with
          | .done => .ok () s
          | .sliceEnd => pictureDataFrom total fuel s

/-- `pictureData()` (R230). -/
def pictureData (s : State) : Res Unit := pictureDataFrom (s.seq.mbCols * s.seq.mbRows) s.br.loopBound s

/-! ### The unit operations -/

/-- `MBT_SKIP_P` (R255), whatever `pict_type` holds (DESIGN CHOICE, log 37). -/
def execMbtSkipP (a : BitVec 16) (s : State) : Host.Outcome State Fault Refusal := (skipP a.toNat s).finish noResult

/-- `MBT_SKIP_B` (R256), whatever `pict_type` holds (DESIGN CHOICE, log 37). -/
def execMbtSkipB (a : BitVec 16) (s : State) : Host.Outcome State Fault Refusal := (skipB a.toNat s).finish noResult

/-- `SEQ_MACROBLOCK` (R240). -/
def execSeqMacroblock (s : State) : Host.Outcome State Fault Refusal := (macroblock s).finish noResult

/-- `SEQ_SLICE` (R232), whatever 32 bits lie under the cursor (DESIGN CHOICE, log 36). -/
def execSeqSlice (total : BitVec 24) (s : State) : Host.Outcome State Fault Refusal :=
  (sliceDecode total.toNat s).finish fun e s => s.deliver (.slice e)

/-- `SEQ_PICTURE_DATA` (R230), without the header checks and the buffer rotation before it (DESIGN CHOICE, log 37). -/
def execSeqPictureData (s : State) : Host.Outcome State Fault Refusal := (pictureData s).finish noResult

end Sys2Proof.Machine
end

