-- ==== Sys2Proof/Machine/HeaderParser.lean ====
section
/-!
DEFINITION. The header parser (42_header_parser.md): sequence, group and picture headers, and the search for the next
picture.
-/

namespace Sys2Proof.Machine

/-! ### Sequence header -/

/-- The entries of a matrix from the stream, entry `i` to raster position `ZIGZAG[i]`, for the indexes listed (R210). -/
def readMatrix : List Nat → Vector Byte 64 → State → Vector Byte 64 × State
  | [], m, s => (m, s)
  | i :: rest, m, s =>
    readMatrix rest (m.setIfInBounds (s.zigzag i) (BitVec.ofNat 8 (s.getBits 8).1)) (s.getBits 8).2

/-- One half of `loadMatrices`: a set flag brings 64 entries over the old matrix, a clear one restores the default
(R210). -/
def loadMatrix (old default : Vector Byte 64) (s : State) : Vector Byte 64 × State :=
  if (s.getBits 1).1 = 1 then readMatrix (List.range 64) old (s.getBits 1).2 else (default, (s.getBits 1).2)

/-- `loadMatrices()` (R210). -/
def loadMatrices (s : State) : State :=
  let (qi, s) := loadMatrix s.qi s.params.defIntra s
  let s := { s with qi := qi }
  let (qn, s) := loadMatrix s.qn defInter s
  { s with qn := qn }

/-- The size fields and the others of offsets 0 to 61, each written to its register (R208; 30_encoding.md R123). -/
def sequenceFields (s : State) : State :=
  let (h, s) := s.getBits 12
  let (v, s) := s.getBits 12
  let (aspect, s) := s.getBits 4
  let (rate, s) := s.getBits 4
  let (bitRate, s) := s.getBits 18
  let s := s.consumeBits 1
  let (vbv, s) := s.getBits 10
  let (cpf, s) := s.getBits 1
  { s with
    seq :=
      { s.seq with
        horizontalSize := BitVec.ofNat 12 h
        verticalSize := BitVec.ofNat 12 v
        aspectRatioCode := BitVec.ofNat 4 aspect
        frameRateCode := BitVec.ofNat 4 rate
        bitRateValue := BitVec.ofNat 18 bitRate
        vbvBufferSize := BitVec.ofNat 10 vbv
        constrainedParametersFlag := cpf == 1 } }

/-- The derived sizes (10_state.md R41). -/
def deriveSizes (s : State) : State :=
  let w := codedSize s.seq.horizontalSize.toNat
  let h := codedSize s.seq.verticalSize.toNat
  { s with seq := { s.seq with codedWidth := w, codedHeight := h, mbCols := w / 16, mbRows := h / 16 } }

/-- `seq_known <- 1` (10_state.md R42). -/
def State.setSeqKnown (s : State) (v : Bool) : State := { s with seq := { s.seq with seqKnown := v } }

/-- `sequenceHeader()` when `seq_known = 0` (R208, R216). -/
def firstSequenceHeader (s : State) : Res Unit :=
  let s := sequenceFields s
  if s.seq.horizontalSize = 0 ∨ s.seq.verticalSize = 0 then
    .raised .seqParam (s.seq.horizontalSize.toNat * 2 ^ 12 + s.seq.verticalSize.toNat) s
  else
    let s := deriveSizes s
    (s.allocate s.seq.codedWidth s.seq.codedHeight).bind fun _ s => .ok () (loadMatrices (s.setSeqKnown true))

/-- `sequenceHeader()` (R208, R209): a repeated header skips 62 bits unread and reloads the matrices. -/
def sequenceHeader (s : State) : Res Unit :=
  if s.seq.seqKnown then .ok () (loadMatrices ((s.consumeBits 32).consumeBits 30)) else firstSequenceHeader s

/-! ### Group and picture headers -/

/-- `gopHeader()` (R211). -/
def gopHeader (s : State) : State := s.consumeBits 27

/-- `full_pel_forward` and `forward_code` from the stream (R212). -/
def forwardFields (s : State) : State :=
  let (f, s) := s.getBits 1
  let (c, s) := s.getBits 3
  { s with pic := { s.pic with fullPelForward := f == 1, forwardCode := BitVec.ofNat 3 c } }

/-- `full_pel_backward` and `backward_code` from the stream (R212). -/
def backwardFields (s : State) : State :=
  let (f, s) := s.getBits 1
  let (c, s) := s.getBits 3
  { s with pic := { s.pic with fullPelBackward := f == 1, backwardCode := BitVec.ofNat 3 c } }

/-- The fields of a picture header up to its extra information (R212; 30_encoding.md R125). -/
def pictureFields (s : State) : State :=
  let s := s.consumeBits 10
  let (t, s) := s.getBits 3
  let s := { s with pic := { s.pic with pictType := BitVec.ofNat 3 t } }
  let s := s.consumeBits 16
  let s := if t = 2 ∨ t = 3 then forwardFields s else s
  if t = 3 then backwardFields s else s

/-- `pictureHeader()` (R212). -/
def pictureHeader (s : State) : Res Unit := (pictureFields s).skipExtra

/-! ### The search loop -/

/-- The loop of `nextHeader()` (R200 to R206): every header but a picture header goes on with the search, any other
start code is an event. The first argument bounds the turns (log 15). -/
def nextHeaderFrom : Nat → State → Res HeaderEnd
  | 0, _ => .stop .commandDoesNotReturn
  | fuel + 1, s =>
    (resynchronise s).bind fun _ s =>
      let (code, s) := s.getBits 32
      if code = 0x000001B3 then
        (sequenceHeader s).bind fun _ s => nextHeaderFrom fuel (s.setHpState .sequenceSeen)
      else if code = 0x000001B8 then nextHeaderFrom fuel ((gopHeader s).setHpState .gopSeen)
      else if code = 0x00000100 then
        (pictureHeader s).bind fun _ s => .ok .picture (s.setHpState .pictureReady)
      else if code = 0x000001B7 then .ok .endOfSequence (s.setHpState .sequenceEnded)
      else nextHeaderFrom fuel (s.framingEvent code)

/-- `nextHeader()` (R200). -/
def nextHeader (s : State) : Res HeaderEnd := nextHeaderFrom s.br.loopBound s

/-- `SEQ_NEXT_HEADER` (R200). Run alone in `SEQUENCE_ENDED`, it searches as in any other state (DESIGN CHOICE, log 35). -/
def execSeqNextHeader (s : State) : Host.Outcome State Fault Refusal :=
  (nextHeader s).finish fun e s => s.deliver (.header e)

/-- `SEQ_SEQUENCE_HEADER` (R208, R209). -/
def execSeqSequenceHeader (s : State) : Host.Outcome State Fault Refusal := (sequenceHeader s).finish noResult

/-- `SEQ_GOP_HEADER` (R211). -/
def execSeqGopHeader (s : State) : Host.Outcome State Fault Refusal := .next ((gopHeader s).deliver .nothing)

/-- `SEQ_PICTURE_HEADER` (R212). -/
def execSeqPictureHeader (s : State) : Host.Outcome State Fault Refusal := (pictureHeader s).finish noResult

end Sys2Proof.Machine
end

