-- ==== Sys2Proof/Machine/Commands.lean ====
section
/-!
DEFINITION. The picture buffer manager and the host commands (49_picture_buffers_host.md).
-/

namespace Sys2Proof.Machine

/-! ### Picture buffer manager -/

/-- `(FWD, BWD) <- (BWD, FWD); CUR <- BWD` (R401). -/
def rotateRef (s : State) : State :=
  { s with roles := { s.roles with fwd := s.roles.bwd, bwd := s.roles.fwd, cur := some s.roles.fwd } }

/-- `CUR <- AUX` (R402). -/
def selectAux (s : State) : State := { s with roles := { s.roles with cur := some s.roles.aux } }

/-- `DISP <- AUX if pict_type = 3 else FWD` (R405). -/
def selectDisplay (s : State) : State :=
  { s with roles := { s.roles with disp := some (if s.pic.pictType = 3 then s.roles.aux else s.roles.fwd) } }

/-- The record of R407, which is also the answer of `getDecodedFrame()` (R406): the three planes of `DISP` with the
metadata. -/
def displayRecord (s : State) : DisplayRecord where
  buffer := s.roles.disp
  lumaStride := s.seq.codedWidth
  chromaStride := s.seq.codedWidth / 2
  codedWidth := s.seq.codedWidth
  codedHeight := s.seq.codedHeight
  pictType := s.pic.pictType

/-- `emit DISPLAY record` (R407). -/
def emitDisplay (s : State) : State := { s with display := s.display ++ [displayRecord s] }

/-! ### Host commands -/

/-- The state of 10_state.md R70, over the byte source now attached: every register at its value there, `BLK` and
`Rdmax` free, `CFG` the low bits of the argument, no frame buffer, and the reader refilled from byte 0. What is not
kernel state stays: the ports, the parameters, the count of draws (log 1, log 21). -/
def openSession (cfg : BitVec 8) (s : State) : State :=
  { State.reset with
    br := s.br.rewind
    rdmax := Config.freeRdmax s.draws
    cfg := cfg.truncate 2
    session := .opened
    blk := Config.freeBlocks (s.draws + 1)
    display := s.display
    commands := s.commands
    bench := s.bench
    assembly := s.assembly
    rewindable := s.rewindable
    allocDenied := s.allocDenied
    params := s.params
    qi := s.params.defIntra
    draws := s.draws + 2 }

/-- The checks after a picture header, in their order (42_header_parser.md R213 to R215). -/
def pictureChecks (s : State) : Res Unit :=
  let t := s.pic.pictType
  if s.seq.seqKnown = false then .raised .noSequence 0 s
  else if t ≠ 1 ∧ t ≠ 2 ∧ t ≠ 3 then .raised .pictype t.toNat s
  else if (t = 2 ∨ t = 3) ∧ s.pic.forwardCode = 0 then .raised .fcodeZero t.toNat s
  else if t = 3 ∧ s.pic.backwardCode = 0 then .raised .fcodeZero t.toNat s
  else .ok () s

/-- The body of `CMD_DECODE_NEXT` behind its two guards (R417), up to the fault entry, which `Res.finish` takes. -/
def decodePicture (s : State) : Res Unit :=
  (nextHeader s).bind fun e s =>
    match e with
    | .endOfSequence => .ok () (s.setRet .eof)
    | .picture =>
      (pictureChecks s).bind fun _ s =>
        (pictureData (if s.pic.pictType = 3 then selectAux s else rotateRef s)).bind fun _ s =>
          .ok () ((emitDisplay ((selectDisplay s).setHpState .searching)).setRet .ok)

/-- `CMD_OPEN(cfg)` (R411). -/
def execCmdOpen (cfg : BitVec 8) (s : State) : Host.Outcome State Fault Refusal :=
  if s.session = .closed then .next (openSession cfg s) else .next (badCommand 0x01 s)

/-- `CMD_RESET` (R412): the reader rewinds and `HP_STATE` goes to `SEARCHING`; everything else is kept. -/
def execCmdReset (s : State) : Host.Outcome State Fault Refusal :=
  if s.session ≠ .opened then .next (badCommand 0x02 s)
  else if s.rewindable = false then .next (rewindRefused s)
  else .next (({ s with br := s.br.rewind }.setHpState .searching).setRet .ok)

/-- `CMD_DECODE_NEXT` (R413, R417; 42_header_parser.md R207). -/
def execCmdDecodeNext (s : State) : Host.Outcome State Fault Refusal :=
  if s.session ≠ .opened then .next (badCommand 0x03 s)
  else if s.hpState = .sequenceEnded then .next (s.setRet .eof)
  else (decodePicture s).finish fun _ s => s

/-- `CMD_GET_FRAME` (R414, R410). -/
def execCmdGetFrame (s : State) : Host.Outcome State Fault Refusal :=
  if s.session = .opened ∧ s.roles.disp ≠ none then .next ((s.setRet .ok).deliver (.frame (displayRecord s)))
  else .next (badCommand 0x04 s)

/-- `CMD_CLOSE` (R415): the buffers are freed; `seq_known` is 1 only until then (10_state.md R42; log 14). -/
def execCmdClose (s : State) : Host.Outcome State Fault Refusal :=
  if s.session = .closed then .next (badCommand 0x05 s)
  else .next ({ s.setSeqKnown false with frames := none, session := .closed }.setRet .ok)

/-- An undefined code (R416). -/
def execCmdUndefined (c : BitVec 8) (s : State) : Host.Outcome State Fault Refusal := .next (badCommand c.toNat s)

/-! ### The unit operations -/

/-- `PBM_ALLOC` (R400): coded sizes of `16 * (cols + 1)` by `16 * (rows + 1)` (log 3, log 24). -/
def execPbmAlloc (cols rows : BitVec 8) (s : State) : Host.Outcome State Fault Refusal :=
  (s.allocate (16 * (cols.toNat + 1)) (16 * (rows.toNat + 1))).finish noResult

/-- `PBM_ROTATE_REF` (R401), whatever `pict_type` holds (DESIGN CHOICE, log 37). -/
def execPbmRotateRef (s : State) : Host.Outcome State Fault Refusal := .next ((rotateRef s).deliver .nothing)

/-- `PBM_SELECT_AUX` (R402), whatever `pict_type` holds (DESIGN CHOICE, log 37). -/
def execPbmSelectAux (s : State) : Host.Outcome State Fault Refusal := .next ((selectAux s).deliver .nothing)

/-- `PBM_GET_FRAME` (R406). -/
def execPbmGetFrame (s : State) : Host.Outcome State Fault Refusal := .next (s.deliver (.frame (displayRecord s)))

end Sys2Proof.Machine
end

