-- ==== Sys2Proof/Machine/Fields.lean ====
section
/-!
DEFINITION. Start codes and fixed-length fields as single steps (60_exceptions.md R460; log 5): each consumes its own
bits at the cursor and has the effect its rule gives it. The headers built from them stand in HeaderParser.lean and
Macroblock.lean and share the register writes.
-/

namespace Sys2Proof.Machine

/-! ### Start codes -/

/-- `SC_PICTURE` (42_header_parser.md R204, R212): the code, the picture header, `HP_STATE <- PICTURE_READY`, out of
`SEQUENCE_ENDED` too (DESIGN CHOICE, log 35). -/
def execScPicture (s : State) : Host.Outcome State Fault Refusal :=
  (pictureHeader (s.consumeBits 32)).finish fun _ s => (s.setHpState .pictureReady).deliver (.header .picture)

/-- `SC_SLICE`: inside a picture, that is in `PICTURE_READY`, the slice is decoded (43_macroblock_decoder.md R231,
R232); elsewhere the code is consumed and counted as an event (42_header_parser.md R205; log 16). -/
def execScSlice (r : BitVec 8) (s : State) : Host.Outcome State Fault Refusal :=
  if s.hpState = .pictureReady then
    (sliceBody r.toNat (s.seq.mbCols * s.seq.mbRows) (s.consumeBits 32)).finish fun e s => s.deliver (.slice e)
  else .next (((s.consumeBits 32).framingEvent (0x00000100 + r.toNat)).deliver .nothing)

/-- `SC_SEQUENCE_HEADER` (42_header_parser.md R202, R208, R209), out of `SEQUENCE_ENDED` too (DESIGN CHOICE, log 35). -/
def execScSequenceHeader (s : State) : Host.Outcome State Fault Refusal :=
  (sequenceHeader (s.consumeBits 32)).finish fun _ s => (s.setHpState .sequenceSeen).deliver .nothing

/-- `SC_SEQUENCE_END` (42_header_parser.md R206). -/
def execScSequenceEnd (s : State) : Host.Outcome State Fault Refusal :=
  .next (((s.consumeBits 32).setHpState .sequenceEnded).deliver (.header .endOfSequence))

/-- `SC_GROUP` (42_header_parser.md R203, R211), out of `SEQUENCE_ENDED` too (DESIGN CHOICE, log 35). -/
def execScGroup (s : State) : Host.Outcome State Fault Refusal :=
  .next (((gopHeader (s.consumeBits 32)).setHpState .gopSeen).deliver .nothing)

/-- `SC_UNRECOGNISED` (42_header_parser.md R205): the code is consumed and counted as an event. -/
def execScUnrecognised (x : BitVec 8) (s : State) : Host.Outcome State Fault Refusal :=
  .next (((s.consumeBits 32).framingEvent (0x00000100 + x.toNat)).deliver .nothing)

/-! ### Fields -/

/-- A field that is skipped: its bits are consumed, no register changes. -/
def skipField (n : Nat) (s : State) : State := (s.consumeBits n).deliver .nothing

/-- A field of the sequence header that goes to a register. Once the sequence is known its registers are read-only and
the bits are skipped (10_state.md R40, 42_header_parser.md R209). -/
def sequenceField (n : Nat) (f : SequenceRegs → SequenceRegs) (s : State) : State :=
  if s.seq.seqKnown then skipField n s else { s.consumeBits n with seq := f s.seq }.deliver .nothing

/-- A field of the picture header that goes to a register. -/
def pictureField (n : Nat) (f : PictureRegs → PictureRegs) (s : State) : State :=
  { s.consumeBits n with pic := f s.pic }.deliver .nothing

/-- The number of the next matrix entry (log 17). -/
def State.setMatrixIndex (s : State) (i : BitVec 6) : State :=
  { s with assembly := { s.assembly with matrixIndex := i } }

/-- A 5-bit quantiser scale: the register is written, and 0 raises `E_QSCALE_ZERO` (43_macroblock_decoder.md R232,
R243). -/
def scaleField (q : BitVec 5) (info : Nat) (s : State) : Res Unit :=
  let s := (s.consumeBits 5).setQuantizerScale q
  if q = 0 then .raised .qscaleZero info s else .ok () s

/-- `horizontal_size` (42_header_parser.md R208). -/
def execHorizontalSize (v : BitVec 12) (s : State) : Host.Outcome State Fault Refusal :=
  .next (sequenceField 12 (fun q => { q with horizontalSize := v }) s)

/-- `vertical_size` (42_header_parser.md R208). -/
def execVerticalSize (v : BitVec 12) (s : State) : Host.Outcome State Fault Refusal :=
  .next (sequenceField 12 (fun q => { q with verticalSize := v }) s)

/-- `aspect_ratio_code` (42_header_parser.md R208). -/
def execAspectRatioCode (a : BitVec 4) (s : State) : Host.Outcome State Fault Refusal :=
  .next (sequenceField 4 (fun q => { q with aspectRatioCode := a }) s)

/-- `frame_rate_code` (42_header_parser.md R208). -/
def execFrameRateCode (f : BitVec 4) (s : State) : Host.Outcome State Fault Refusal :=
  .next (sequenceField 4 (fun q => { q with frameRateCode := f }) s)

/-- `bit_rate_value` (42_header_parser.md R208). -/
def execBitRateValue (b : BitVec 18) (s : State) : Host.Outcome State Fault Refusal :=
  .next (sequenceField 18 (fun q => { q with bitRateValue := b }) s)

/-- `marker_bit`, skipped (42_header_parser.md R208). -/
def execMarkerBit (_ : Bool) (s : State) : Host.Outcome State Fault Refusal := .next (skipField 1 s)

/-- `vbv_buffer_size` (42_header_parser.md R208). -/
def execVbvBufferSize (v : BitVec 10) (s : State) : Host.Outcome State Fault Refusal :=
  .next (sequenceField 10 (fun q => { q with vbvBufferSize := v }) s)

/-- `constrained_parameters_flag` (42_header_parser.md R208). -/
def execConstrainedParametersFlag (c : Bool) (s : State) : Host.Outcome State Fault Refusal :=
  .next (sequenceField 1 (fun q => { q with constrainedParametersFlag := c }) s)

/-- `load_intra_quantizer_matrix` (42_header_parser.md R210): a clear flag restores the default; after a set one the
entries follow, from entry 0 on. -/
def execLoadIntraQuantizerMatrix (l : Bool) (s : State) : Host.Outcome State Fault Refusal :=
  let s := (s.consumeBits 1).setMatrixIndex 0
  .next ((if l then s else { s with qi := s.params.defIntra }).deliver .nothing)

/-- `intra_quantizer_matrix_entry` (42_header_parser.md R210): the next entry in transmission order, to its raster
position. -/
def execIntraQuantizerMatrixEntry (q : BitVec 8) (s : State) : Host.Outcome State Fault Refusal :=
  let i := s.assembly.matrixIndex
  let s := (s.consumeBits 8).setMatrixIndex (i + 1)
  .next ({ s with qi := s.qi.setIfInBounds (s.zigzag i.toNat) q }.deliver .nothing)

/-- `load_non_intra_quantizer_matrix` (42_header_parser.md R210): a clear flag restores the default; after a set one the
entries follow, from entry 0 on. -/
def execLoadNonIntraQuantizerMatrix (l : Bool) (s : State) : Host.Outcome State Fault Refusal :=
  let s := (s.consumeBits 1).setMatrixIndex 0
  .next ((if l then s else { s with qn := defInter }).deliver .nothing)

/-- `non_intra_quantizer_matrix_entry` (42_header_parser.md R210): the next entry in transmission order, to its raster
position. -/
def execNonIntraQuantizerMatrixEntry (q : BitVec 8) (s : State) : Host.Outcome State Fault Refusal :=
  let i := s.assembly.matrixIndex
  let s := (s.consumeBits 8).setMatrixIndex (i + 1)
  .next ({ s with qn := s.qn.setIfInBounds (s.zigzag i.toNat) q }.deliver .nothing)

/-- `sequence_header_skip`, the 62 bits of a repeated header, unread (R209). -/
def execSequenceHeaderSkip (_ : BitVec 62) (s : State) : Host.Outcome State Fault Refusal :=
  .next (((s.consumeBits 32).consumeBits 30).deliver .nothing)

/-- `gop_time_code_and_flags`, skipped (42_header_parser.md R211). -/
def execGopTimeCodeAndFlags (_ : BitVec 27) (s : State) : Host.Outcome State Fault Refusal := .next (skipField 27 s)

/-- `temporal_reference`, skipped (42_header_parser.md R212). -/
def execTemporalReference (_ : BitVec 10) (s : State) : Host.Outcome State Fault Refusal := .next (skipField 10 s)

/-- `picture_coding_type` (42_header_parser.md R212). -/
def execPictureCodingType (p : BitVec 3) (s : State) : Host.Outcome State Fault Refusal :=
  .next (pictureField 3 (fun q => { q with pictType := p }) s)

/-- `vbv_delay`, skipped (42_header_parser.md R212). -/
def execVbvDelay (_ : BitVec 16) (s : State) : Host.Outcome State Fault Refusal := .next (skipField 16 s)

/-- `full_pel_forward_vector` (42_header_parser.md R212). -/
def execFullPelForwardVector (f : Bool) (s : State) : Host.Outcome State Fault Refusal :=
  .next (pictureField 1 (fun q => { q with fullPelForward := f }) s)

/-- `forward_f_code` (42_header_parser.md R212). -/
def execForwardFCode (c : BitVec 3) (s : State) : Host.Outcome State Fault Refusal :=
  .next (pictureField 3 (fun q => { q with forwardCode := c }) s)

/-- `full_pel_backward_vector` (42_header_parser.md R212). -/
def execFullPelBackwardVector (f : Bool) (s : State) : Host.Outcome State Fault Refusal :=
  .next (pictureField 1 (fun q => { q with fullPelBackward := f }) s)

/-- `backward_f_code` (42_header_parser.md R212). -/
def execBackwardFCode (c : BitVec 3) (s : State) : Host.Outcome State Fault Refusal :=
  .next (pictureField 3 (fun q => { q with backwardCode := c }) s)

/-- `extra_information_picture`, skipped (42_header_parser.md R212). -/
def execExtraInformationPicture (_ : BitVec 8) (s : State) : Host.Outcome State Fault Refusal := .next (skipField 9 s)

/-- `extra_bit_picture_end`, skipped (42_header_parser.md R212). -/
def execExtraBitPictureEnd (s : State) : Host.Outcome State Fault Refusal := .next (skipField 1 s)

/-- `slice_quantizer_scale` (43_macroblock_decoder.md R232). -/
def execSliceQuantizerScale (q : BitVec 5) (s : State) : Host.Outcome State Fault Refusal := (scaleField q 0 s).finish noResult

/-- `extra_information_slice`, skipped (43_macroblock_decoder.md R234). -/
def execExtraInformationSlice (_ : BitVec 8) (s : State) : Host.Outcome State Fault Refusal := .next (skipField 9 s)

/-- `extra_bit_slice_end`, skipped (43_macroblock_decoder.md R234). -/
def execExtraBitSliceEnd (s : State) : Host.Outcome State Fault Refusal := .next (skipField 1 s)

/-- `macroblock_quantizer_scale` (43_macroblock_decoder.md R243). -/
def execMacroblockQuantizerScale (q : BitVec 5) (s : State) : Host.Outcome State Fault Refusal := (scaleField q 1 s).finish noResult

/-- `motion_residual` (46_motion_vectors.md R334): the signed delta of the last motion code.
Presented after a code of 0, where the syntax has no residual (30_encoding.md R127), it has no delta: its bits are
consumed and delivered (log 5). -/
def execMotionResidual (rangeSize : BitVec 3) (r : BitVec 6) (s : State) : Host.Outcome State Fault Refusal :=
  let code := s.assembly.motionCode
  if code = 0 then .next ((s.consumeBits rangeSize.toNat).deliver (.bits r.toNat))
  else
    let d := motionDelta code rangeSize.toNat r.toNat
    .next ((s.consumeBits rangeSize.toNat).deliver (.motion (applySign (decide (code < 0)) d)))

/-- `dct_dc_differential` (45_block_decode_iq.md R301). -/
def execDctDcDifferential (size : BitVec 4) (d : BitVec 8) (s : State) : Host.Outcome State Fault Refusal :=
  .next ((s.consumeBits size.toNat).deliver (.dcDiff (dcDifferential size.toNat d.toNat)))

end Sys2Proof.Machine
end

