-- ==== Sys2Proof/Machine/CodeWords.lean ====
section
/-!
DEFINITION. The code words of the nine tables as single steps (60_exceptions.md R460; log 5): each consumes its own bits,
the sign bit among them where it has one, and delivers its symbol as the rule of its consumer says. The length of each
stands beside its value; the tables themselves are in Sys2Proof/Decode.lean.
-/

namespace Sys2Proof.Machine

/-- A code word of `T_MBA` that ends an increment (43_macroblock_decoder.md R235): the value is added to the escapes
before it. -/
def incrementWord (len n : Nat) (s : State) : State :=
  let total := s.assembly.increment + n
  let s := s.consumeBits len
  { s with assembly := { s.assembly with increment := 0 } }.deliver (.increment total)

/-- `macroblock_escape` (43_macroblock_decoder.md R235): 33 more. -/
def escapeWord (len : Nat) (s : State) : State :=
  let s := s.consumeBits len
  { s with assembly := { s.assembly with increment := s.assembly.increment + 33 } }.deliver .nothing

/-- A code word of a type table: `mb_type` is written (43_macroblock_decoder.md R241). -/
def typeWord (len : Nat) (flags : BitVec 5) (s : State) : State :=
  ((s.consumeBits len).setMbType flags).deliver (.symbol (.mbType flags))

/-- A code word of `T_CBP`: `cbp` is written (43_macroblock_decoder.md R246). -/
def patternWord (len : Nat) (v : BitVec 6) (s : State) : State :=
  ((s.consumeBits len).setCbp v).deliver (.symbol (.cbp v))

/-- A code word of `T_MOTION` with its sign (46_motion_vectors.md R332). -/
def motionWord (len : Nat) (code : Int) (s : State) : State :=
  ((s.consumeBits len).latchMotionCode code).deliver (.motion code)

/-- A code word of `T_DCL` or `T_DCC` (45_block_decode_iq.md R301). -/
def sizeWord (len n : Nat) (s : State) : State := (s.consumeBits len).deliver (.dcSize n)

/-- A code word of `T_DCT` with its sign (45_block_decode_iq.md R303). -/
def coefWord (len run mag : Nat) (sgn : Bool) (s : State) : State :=
  (s.consumeBits len).deliver (.coef (.pair run (applySign sgn mag)))

/-- A coefficient escape of `len` bits (45_block_decode_iq.md R304): a level of 0 raises `E_ESC_LEVEL_ZERO`. -/
def escapeCoefWord (len run : Nat) (level : Int) (s : State) : Res Coefficient :=
  if level = 0 then .raised .escLevelZero run (s.consumeBits len) else .ok (.pair run level) (s.consumeBits len)

/-! ### `T_MBA` -/

/-- `MBA_INC_1` (R271). -/
def execMbaInc1 (s : State) : Host.Outcome State Fault Refusal := .next (incrementWord 1 1 s)

/-- `MBA_INC_2` (R271). -/
def execMbaInc2 (s : State) : Host.Outcome State Fault Refusal := .next (incrementWord 3 2 s)

/-- `MBA_INC_3` (R271). -/
def execMbaInc3 (s : State) : Host.Outcome State Fault Refusal := .next (incrementWord 3 3 s)

/-- `MBA_INC_4` (R271). -/
def execMbaInc4 (s : State) : Host.Outcome State Fault Refusal := .next (incrementWord 4 4 s)

/-- `MBA_INC_5` (R271). -/
def execMbaInc5 (s : State) : Host.Outcome State Fault Refusal := .next (incrementWord 4 5 s)

/-- `MBA_INC_6` (R271). -/
def execMbaInc6 (s : State) : Host.Outcome State Fault Refusal := .next (incrementWord 5 6 s)

/-- `MBA_INC_7` (R271). -/
def execMbaInc7 (s : State) : Host.Outcome State Fault Refusal := .next (incrementWord 5 7 s)

/-- `MBA_INC_8` (R271). -/
def execMbaInc8 (s : State) : Host.Outcome State Fault Refusal := .next (incrementWord 7 8 s)

/-- `MBA_INC_9` (R271). -/
def execMbaInc9 (s : State) : Host.Outcome State Fault Refusal := .next (incrementWord 7 9 s)

/-- `MBA_INC_10` (R271). -/
def execMbaInc10 (s : State) : Host.Outcome State Fault Refusal := .next (incrementWord 8 10 s)

/-- `MBA_INC_11` (R271). -/
def execMbaInc11 (s : State) : Host.Outcome State Fault Refusal := .next (incrementWord 8 11 s)

/-- `MBA_INC_12` (R271). -/
def execMbaInc12 (s : State) : Host.Outcome State Fault Refusal := .next (incrementWord 8 12 s)

/-- `MBA_INC_13` (R271). -/
def execMbaInc13 (s : State) : Host.Outcome State Fault Refusal := .next (incrementWord 8 13 s)

/-- `MBA_INC_14` (R271). -/
def execMbaInc14 (s : State) : Host.Outcome State Fault Refusal := .next (incrementWord 8 14 s)

/-- `MBA_INC_15` (R271). -/
def execMbaInc15 (s : State) : Host.Outcome State Fault Refusal := .next (incrementWord 8 15 s)

/-- `MBA_INC_16` (R271). -/
def execMbaInc16 (s : State) : Host.Outcome State Fault Refusal := .next (incrementWord 10 16 s)

/-- `MBA_INC_17` (R271). -/
def execMbaInc17 (s : State) : Host.Outcome State Fault Refusal := .next (incrementWord 10 17 s)

/-- `MBA_INC_18` (R271). -/
def execMbaInc18 (s : State) : Host.Outcome State Fault Refusal := .next (incrementWord 10 18 s)

/-- `MBA_INC_19` (R271). -/
def execMbaInc19 (s : State) : Host.Outcome State Fault Refusal := .next (incrementWord 10 19 s)

/-- `MBA_INC_20` (R271). -/
def execMbaInc20 (s : State) : Host.Outcome State Fault Refusal := .next (incrementWord 10 20 s)

/-- `MBA_INC_21` (R271). -/
def execMbaInc21 (s : State) : Host.Outcome State Fault Refusal := .next (incrementWord 10 21 s)

/-- `MBA_INC_22` (R271). -/
def execMbaInc22 (s : State) : Host.Outcome State Fault Refusal := .next (incrementWord 11 22 s)

/-- `MBA_INC_23` (R271). -/
def execMbaInc23 (s : State) : Host.Outcome State Fault Refusal := .next (incrementWord 11 23 s)

/-- `MBA_INC_24` (R271). -/
def execMbaInc24 (s : State) : Host.Outcome State Fault Refusal := .next (incrementWord 11 24 s)

/-- `MBA_INC_25` (R271). -/
def execMbaInc25 (s : State) : Host.Outcome State Fault Refusal := .next (incrementWord 11 25 s)

/-- `MBA_INC_26` (R271). -/
def execMbaInc26 (s : State) : Host.Outcome State Fault Refusal := .next (incrementWord 11 26 s)

/-- `MBA_INC_27` (R271). -/
def execMbaInc27 (s : State) : Host.Outcome State Fault Refusal := .next (incrementWord 11 27 s)

/-- `MBA_INC_28` (R271). -/
def execMbaInc28 (s : State) : Host.Outcome State Fault Refusal := .next (incrementWord 11 28 s)

/-- `MBA_INC_29` (R271). -/
def execMbaInc29 (s : State) : Host.Outcome State Fault Refusal := .next (incrementWord 11 29 s)

/-- `MBA_INC_30` (R271). -/
def execMbaInc30 (s : State) : Host.Outcome State Fault Refusal := .next (incrementWord 11 30 s)

/-- `MBA_INC_31` (R271). -/
def execMbaInc31 (s : State) : Host.Outcome State Fault Refusal := .next (incrementWord 11 31 s)

/-- `MBA_INC_32` (R271). -/
def execMbaInc32 (s : State) : Host.Outcome State Fault Refusal := .next (incrementWord 11 32 s)

/-- `MBA_INC_33` (R271). -/
def execMbaInc33 (s : State) : Host.Outcome State Fault Refusal := .next (incrementWord 11 33 s)

/-- `MBA_STUFFING`, discarded (R271). -/
def execMbaStuffing (s : State) : Host.Outcome State Fault Refusal := .next ((s.consumeBits 11).deliver .nothing)

/-- `MBA_ESCAPE` (R271). -/
def execMbaEscape (s : State) : Host.Outcome State Fault Refusal := .next (escapeWord 11 s)

/-! ### `T_MBT_I` -/

/-- `MBT_I_INTRA` (R272). -/
def execMbtIIntra (s : State) : Host.Outcome State Fault Refusal := .next (typeWord 1 1 s)

/-- `MBT_I_QUANT_INTRA` (R272). -/
def execMbtIQuantIntra (s : State) : Host.Outcome State Fault Refusal := .next (typeWord 2 17 s)

/-! ### `T_MBT_P` -/

/-- `MBT_P_FORWARD_PATTERN` (R273). -/
def execMbtPForwardPattern (s : State) : Host.Outcome State Fault Refusal := .next (typeWord 1 10 s)

/-- `MBT_P_PATTERN` (R273). -/
def execMbtPPattern (s : State) : Host.Outcome State Fault Refusal := .next (typeWord 2 2 s)

/-- `MBT_P_FORWARD` (R273). -/
def execMbtPForward (s : State) : Host.Outcome State Fault Refusal := .next (typeWord 3 8 s)

/-- `MBT_P_INTRA` (R273). -/
def execMbtPIntra (s : State) : Host.Outcome State Fault Refusal := .next (typeWord 5 1 s)

/-- `MBT_P_QUANT_FORWARD_PATTERN` (R273). -/
def execMbtPQuantForwardPattern (s : State) : Host.Outcome State Fault Refusal := .next (typeWord 5 26 s)

/-- `MBT_P_QUANT_PATTERN` (R273). -/
def execMbtPQuantPattern (s : State) : Host.Outcome State Fault Refusal := .next (typeWord 5 18 s)

/-- `MBT_P_QUANT_INTRA` (R273). -/
def execMbtPQuantIntra (s : State) : Host.Outcome State Fault Refusal := .next (typeWord 6 17 s)

/-! ### `T_MBT_B` -/

/-- `MBT_B_FORWARD_BACKWARD` (R274). -/
def execMbtBForwardBackward (s : State) : Host.Outcome State Fault Refusal := .next (typeWord 2 12 s)

/-- `MBT_B_FORWARD_BACKWARD_PATTERN` (R274). -/
def execMbtBForwardBackwardPattern (s : State) : Host.Outcome State Fault Refusal := .next (typeWord 2 14 s)

/-- `MBT_B_BACKWARD` (R274). -/
def execMbtBBackward (s : State) : Host.Outcome State Fault Refusal := .next (typeWord 3 4 s)

/-- `MBT_B_BACKWARD_PATTERN` (R274). -/
def execMbtBBackwardPattern (s : State) : Host.Outcome State Fault Refusal := .next (typeWord 3 6 s)

/-- `MBT_B_FORWARD` (R274). -/
def execMbtBForward (s : State) : Host.Outcome State Fault Refusal := .next (typeWord 4 8 s)

/-- `MBT_B_FORWARD_PATTERN` (R274). -/
def execMbtBForwardPattern (s : State) : Host.Outcome State Fault Refusal := .next (typeWord 4 10 s)

/-- `MBT_B_INTRA` (R274). -/
def execMbtBIntra (s : State) : Host.Outcome State Fault Refusal := .next (typeWord 5 1 s)

/-- `MBT_B_QUANT_FORWARD_BACKWARD_PATTERN` (R274). -/
def execMbtBQuantForwardBackwardPattern (s : State) : Host.Outcome State Fault Refusal := .next (typeWord 5 30 s)

/-- `MBT_B_QUANT_FORWARD_PATTERN` (R274). -/
def execMbtBQuantForwardPattern (s : State) : Host.Outcome State Fault Refusal := .next (typeWord 6 26 s)

/-- `MBT_B_QUANT_BACKWARD_PATTERN` (R274). -/
def execMbtBQuantBackwardPattern (s : State) : Host.Outcome State Fault Refusal := .next (typeWord 6 22 s)

/-- `MBT_B_QUANT_INTRA` (R274). -/
def execMbtBQuantIntra (s : State) : Host.Outcome State Fault Refusal := .next (typeWord 6 17 s)

/-! ### `T_CBP` -/

/-- `CBP_60` (R275). -/
def execCbp60 (s : State) : Host.Outcome State Fault Refusal := .next (patternWord 3 60 s)

/-- `CBP_4` (R275). -/
def execCbp4 (s : State) : Host.Outcome State Fault Refusal := .next (patternWord 4 4 s)

/-- `CBP_8` (R275). -/
def execCbp8 (s : State) : Host.Outcome State Fault Refusal := .next (patternWord 4 8 s)

/-- `CBP_16` (R275). -/
def execCbp16 (s : State) : Host.Outcome State Fault Refusal := .next (patternWord 4 16 s)

/-- `CBP_32` (R275). -/
def execCbp32 (s : State) : Host.Outcome State Fault Refusal := .next (patternWord 4 32 s)

/-- `CBP_12` (R275). -/
def execCbp12 (s : State) : Host.Outcome State Fault Refusal := .next (patternWord 5 12 s)

/-- `CBP_48` (R275). -/
def execCbp48 (s : State) : Host.Outcome State Fault Refusal := .next (patternWord 5 48 s)

/-- `CBP_20` (R275). -/
def execCbp20 (s : State) : Host.Outcome State Fault Refusal := .next (patternWord 5 20 s)

/-- `CBP_40` (R275). -/
def execCbp40 (s : State) : Host.Outcome State Fault Refusal := .next (patternWord 5 40 s)

/-- `CBP_28` (R275). -/
def execCbp28 (s : State) : Host.Outcome State Fault Refusal := .next (patternWord 5 28 s)

/-- `CBP_44` (R275). -/
def execCbp44 (s : State) : Host.Outcome State Fault Refusal := .next (patternWord 5 44 s)

/-- `CBP_52` (R275). -/
def execCbp52 (s : State) : Host.Outcome State Fault Refusal := .next (patternWord 5 52 s)

/-- `CBP_56` (R275). -/
def execCbp56 (s : State) : Host.Outcome State Fault Refusal := .next (patternWord 5 56 s)

/-- `CBP_1` (R275). -/
def execCbp1 (s : State) : Host.Outcome State Fault Refusal := .next (patternWord 5 1 s)

/-- `CBP_61` (R275). -/
def execCbp61 (s : State) : Host.Outcome State Fault Refusal := .next (patternWord 5 61 s)

/-- `CBP_2` (R275). -/
def execCbp2 (s : State) : Host.Outcome State Fault Refusal := .next (patternWord 5 2 s)

/-- `CBP_62` (R275). -/
def execCbp62 (s : State) : Host.Outcome State Fault Refusal := .next (patternWord 5 62 s)

/-- `CBP_24` (R275). -/
def execCbp24 (s : State) : Host.Outcome State Fault Refusal := .next (patternWord 6 24 s)

/-- `CBP_36` (R275). -/
def execCbp36 (s : State) : Host.Outcome State Fault Refusal := .next (patternWord 6 36 s)

/-- `CBP_3` (R275). -/
def execCbp3 (s : State) : Host.Outcome State Fault Refusal := .next (patternWord 6 3 s)

/-- `CBP_63` (R275). -/
def execCbp63 (s : State) : Host.Outcome State Fault Refusal := .next (patternWord 6 63 s)

/-- `CBP_5` (R275). -/
def execCbp5 (s : State) : Host.Outcome State Fault Refusal := .next (patternWord 7 5 s)

/-- `CBP_9` (R275). -/
def execCbp9 (s : State) : Host.Outcome State Fault Refusal := .next (patternWord 7 9 s)

/-- `CBP_17` (R275). -/
def execCbp17 (s : State) : Host.Outcome State Fault Refusal := .next (patternWord 7 17 s)

/-- `CBP_33` (R275). -/
def execCbp33 (s : State) : Host.Outcome State Fault Refusal := .next (patternWord 7 33 s)

/-- `CBP_6` (R275). -/
def execCbp6 (s : State) : Host.Outcome State Fault Refusal := .next (patternWord 7 6 s)

/-- `CBP_10` (R275). -/
def execCbp10 (s : State) : Host.Outcome State Fault Refusal := .next (patternWord 7 10 s)

/-- `CBP_18` (R275). -/
def execCbp18 (s : State) : Host.Outcome State Fault Refusal := .next (patternWord 7 18 s)

/-- `CBP_34` (R275). -/
def execCbp34 (s : State) : Host.Outcome State Fault Refusal := .next (patternWord 7 34 s)

/-- `CBP_7` (R275). -/
def execCbp7 (s : State) : Host.Outcome State Fault Refusal := .next (patternWord 8 7 s)

/-- `CBP_11` (R275). -/
def execCbp11 (s : State) : Host.Outcome State Fault Refusal := .next (patternWord 8 11 s)

/-- `CBP_19` (R275). -/
def execCbp19 (s : State) : Host.Outcome State Fault Refusal := .next (patternWord 8 19 s)

/-- `CBP_35` (R275). -/
def execCbp35 (s : State) : Host.Outcome State Fault Refusal := .next (patternWord 8 35 s)

/-- `CBP_13` (R275). -/
def execCbp13 (s : State) : Host.Outcome State Fault Refusal := .next (patternWord 8 13 s)

/-- `CBP_49` (R275). -/
def execCbp49 (s : State) : Host.Outcome State Fault Refusal := .next (patternWord 8 49 s)

/-- `CBP_21` (R275). -/
def execCbp21 (s : State) : Host.Outcome State Fault Refusal := .next (patternWord 8 21 s)

/-- `CBP_41` (R275). -/
def execCbp41 (s : State) : Host.Outcome State Fault Refusal := .next (patternWord 8 41 s)

/-- `CBP_14` (R275). -/
def execCbp14 (s : State) : Host.Outcome State Fault Refusal := .next (patternWord 8 14 s)

/-- `CBP_50` (R275). -/
def execCbp50 (s : State) : Host.Outcome State Fault Refusal := .next (patternWord 8 50 s)

/-- `CBP_22` (R275). -/
def execCbp22 (s : State) : Host.Outcome State Fault Refusal := .next (patternWord 8 22 s)

/-- `CBP_42` (R275). -/
def execCbp42 (s : State) : Host.Outcome State Fault Refusal := .next (patternWord 8 42 s)

/-- `CBP_15` (R275). -/
def execCbp15 (s : State) : Host.Outcome State Fault Refusal := .next (patternWord 8 15 s)

/-- `CBP_51` (R275). -/
def execCbp51 (s : State) : Host.Outcome State Fault Refusal := .next (patternWord 8 51 s)

/-- `CBP_23` (R275). -/
def execCbp23 (s : State) : Host.Outcome State Fault Refusal := .next (patternWord 8 23 s)

/-- `CBP_43` (R275). -/
def execCbp43 (s : State) : Host.Outcome State Fault Refusal := .next (patternWord 8 43 s)

/-- `CBP_25` (R275). -/
def execCbp25 (s : State) : Host.Outcome State Fault Refusal := .next (patternWord 8 25 s)

/-- `CBP_37` (R275). -/
def execCbp37 (s : State) : Host.Outcome State Fault Refusal := .next (patternWord 8 37 s)

/-- `CBP_26` (R275). -/
def execCbp26 (s : State) : Host.Outcome State Fault Refusal := .next (patternWord 8 26 s)

/-- `CBP_38` (R275). -/
def execCbp38 (s : State) : Host.Outcome State Fault Refusal := .next (patternWord 8 38 s)

/-- `CBP_29` (R275). -/
def execCbp29 (s : State) : Host.Outcome State Fault Refusal := .next (patternWord 8 29 s)

/-- `CBP_45` (R275). -/
def execCbp45 (s : State) : Host.Outcome State Fault Refusal := .next (patternWord 8 45 s)

/-- `CBP_53` (R275). -/
def execCbp53 (s : State) : Host.Outcome State Fault Refusal := .next (patternWord 8 53 s)

/-- `CBP_57` (R275). -/
def execCbp57 (s : State) : Host.Outcome State Fault Refusal := .next (patternWord 8 57 s)

/-- `CBP_30` (R275). -/
def execCbp30 (s : State) : Host.Outcome State Fault Refusal := .next (patternWord 8 30 s)

/-- `CBP_46` (R275). -/
def execCbp46 (s : State) : Host.Outcome State Fault Refusal := .next (patternWord 8 46 s)

/-- `CBP_54` (R275). -/
def execCbp54 (s : State) : Host.Outcome State Fault Refusal := .next (patternWord 8 54 s)

/-- `CBP_58` (R275). -/
def execCbp58 (s : State) : Host.Outcome State Fault Refusal := .next (patternWord 8 58 s)

/-- `CBP_31` (R275). -/
def execCbp31 (s : State) : Host.Outcome State Fault Refusal := .next (patternWord 9 31 s)

/-- `CBP_47` (R275). -/
def execCbp47 (s : State) : Host.Outcome State Fault Refusal := .next (patternWord 9 47 s)

/-- `CBP_55` (R275). -/
def execCbp55 (s : State) : Host.Outcome State Fault Refusal := .next (patternWord 9 55 s)

/-- `CBP_59` (R275). -/
def execCbp59 (s : State) : Host.Outcome State Fault Refusal := .next (patternWord 9 59 s)

/-- `CBP_27` (R275). -/
def execCbp27 (s : State) : Host.Outcome State Fault Refusal := .next (patternWord 9 27 s)

/-- `CBP_39` (R275). -/
def execCbp39 (s : State) : Host.Outcome State Fault Refusal := .next (patternWord 9 39 s)

/-! ### `T_MOTION` -/

/-- `MOTION_MAG_0` (R276). -/
def execMotionMag0 (s : State) : Host.Outcome State Fault Refusal := .next (motionWord 1 0 s)

/-- `MOTION_MAG_1` (R276). -/
def execMotionMag1 (sgn : Bool) (s : State) : Host.Outcome State Fault Refusal :=
  .next (motionWord 3 (applySign sgn 1) s)

/-- `MOTION_MAG_2` (R276). -/
def execMotionMag2 (sgn : Bool) (s : State) : Host.Outcome State Fault Refusal :=
  .next (motionWord 4 (applySign sgn 2) s)

/-- `MOTION_MAG_3` (R276). -/
def execMotionMag3 (sgn : Bool) (s : State) : Host.Outcome State Fault Refusal :=
  .next (motionWord 5 (applySign sgn 3) s)

/-- `MOTION_MAG_4` (R276). -/
def execMotionMag4 (sgn : Bool) (s : State) : Host.Outcome State Fault Refusal :=
  .next (motionWord 7 (applySign sgn 4) s)

/-- `MOTION_MAG_5` (R276). -/
def execMotionMag5 (sgn : Bool) (s : State) : Host.Outcome State Fault Refusal :=
  .next (motionWord 8 (applySign sgn 5) s)

/-- `MOTION_MAG_6` (R276). -/
def execMotionMag6 (sgn : Bool) (s : State) : Host.Outcome State Fault Refusal :=
  .next (motionWord 8 (applySign sgn 6) s)

/-- `MOTION_MAG_7` (R276). -/
def execMotionMag7 (sgn : Bool) (s : State) : Host.Outcome State Fault Refusal :=
  .next (motionWord 8 (applySign sgn 7) s)

/-- `MOTION_MAG_8` (R276). -/
def execMotionMag8 (sgn : Bool) (s : State) : Host.Outcome State Fault Refusal :=
  .next (motionWord 10 (applySign sgn 8) s)

/-- `MOTION_MAG_9` (R276). -/
def execMotionMag9 (sgn : Bool) (s : State) : Host.Outcome State Fault Refusal :=
  .next (motionWord 10 (applySign sgn 9) s)

/-- `MOTION_MAG_10` (R276). -/
def execMotionMag10 (sgn : Bool) (s : State) : Host.Outcome State Fault Refusal :=
  .next (motionWord 10 (applySign sgn 10) s)

/-- `MOTION_MAG_11` (R276). -/
def execMotionMag11 (sgn : Bool) (s : State) : Host.Outcome State Fault Refusal :=
  .next (motionWord 11 (applySign sgn 11) s)

/-- `MOTION_MAG_12` (R276). -/
def execMotionMag12 (sgn : Bool) (s : State) : Host.Outcome State Fault Refusal :=
  .next (motionWord 11 (applySign sgn 12) s)

/-- `MOTION_MAG_13` (R276). -/
def execMotionMag13 (sgn : Bool) (s : State) : Host.Outcome State Fault Refusal :=
  .next (motionWord 11 (applySign sgn 13) s)

/-- `MOTION_MAG_14` (R276). -/
def execMotionMag14 (sgn : Bool) (s : State) : Host.Outcome State Fault Refusal :=
  .next (motionWord 11 (applySign sgn 14) s)

/-- `MOTION_MAG_15` (R276). -/
def execMotionMag15 (sgn : Bool) (s : State) : Host.Outcome State Fault Refusal :=
  .next (motionWord 11 (applySign sgn 15) s)

/-- `MOTION_MAG_16` (R276). -/
def execMotionMag16 (sgn : Bool) (s : State) : Host.Outcome State Fault Refusal :=
  .next (motionWord 11 (applySign sgn 16) s)

/-! ### `T_DCL` -/

/-- `DC_SIZE_LUMA_0` (R277). -/
def execDcSizeLuma0 (s : State) : Host.Outcome State Fault Refusal := .next (sizeWord 3 0 s)

/-- `DC_SIZE_LUMA_1` (R277). -/
def execDcSizeLuma1 (s : State) : Host.Outcome State Fault Refusal := .next (sizeWord 2 1 s)

/-- `DC_SIZE_LUMA_2` (R277). -/
def execDcSizeLuma2 (s : State) : Host.Outcome State Fault Refusal := .next (sizeWord 2 2 s)

/-- `DC_SIZE_LUMA_3` (R277). -/
def execDcSizeLuma3 (s : State) : Host.Outcome State Fault Refusal := .next (sizeWord 3 3 s)

/-- `DC_SIZE_LUMA_4` (R277). -/
def execDcSizeLuma4 (s : State) : Host.Outcome State Fault Refusal := .next (sizeWord 3 4 s)

/-- `DC_SIZE_LUMA_5` (R277). -/
def execDcSizeLuma5 (s : State) : Host.Outcome State Fault Refusal := .next (sizeWord 4 5 s)

/-- `DC_SIZE_LUMA_6` (R277). -/
def execDcSizeLuma6 (s : State) : Host.Outcome State Fault Refusal := .next (sizeWord 5 6 s)

/-- `DC_SIZE_LUMA_7` (R277). -/
def execDcSizeLuma7 (s : State) : Host.Outcome State Fault Refusal := .next (sizeWord 6 7 s)

/-- `DC_SIZE_LUMA_8` (R277). -/
def execDcSizeLuma8 (s : State) : Host.Outcome State Fault Refusal := .next (sizeWord 7 8 s)

/-! ### `T_DCC` -/

/-- `DC_SIZE_CHROMA_0` (R278). -/
def execDcSizeChroma0 (s : State) : Host.Outcome State Fault Refusal := .next (sizeWord 2 0 s)

/-- `DC_SIZE_CHROMA_1` (R278). -/
def execDcSizeChroma1 (s : State) : Host.Outcome State Fault Refusal := .next (sizeWord 2 1 s)

/-- `DC_SIZE_CHROMA_2` (R278). -/
def execDcSizeChroma2 (s : State) : Host.Outcome State Fault Refusal := .next (sizeWord 2 2 s)

/-- `DC_SIZE_CHROMA_3` (R278). -/
def execDcSizeChroma3 (s : State) : Host.Outcome State Fault Refusal := .next (sizeWord 3 3 s)

/-- `DC_SIZE_CHROMA_4` (R278). -/
def execDcSizeChroma4 (s : State) : Host.Outcome State Fault Refusal := .next (sizeWord 4 4 s)

/-- `DC_SIZE_CHROMA_5` (R278). -/
def execDcSizeChroma5 (s : State) : Host.Outcome State Fault Refusal := .next (sizeWord 5 5 s)

/-- `DC_SIZE_CHROMA_6` (R278). -/
def execDcSizeChroma6 (s : State) : Host.Outcome State Fault Refusal := .next (sizeWord 6 6 s)

/-- `DC_SIZE_CHROMA_7` (R278). -/
def execDcSizeChroma7 (s : State) : Host.Outcome State Fault Refusal := .next (sizeWord 7 7 s)

/-- `DC_SIZE_CHROMA_8` (R278). -/
def execDcSizeChroma8 (s : State) : Host.Outcome State Fault Refusal := .next (sizeWord 8 8 s)

/-! ### `T_DCT` -/

/-- `COEF_R1_L1` (R279). -/
def execCoefR1L1 (sgn : Bool) (s : State) : Host.Outcome State Fault Refusal := .next (coefWord 4 1 1 sgn s)

/-- `COEF_R0_L2` (R279). -/
def execCoefR0L2 (sgn : Bool) (s : State) : Host.Outcome State Fault Refusal := .next (coefWord 5 0 2 sgn s)

/-- `COEF_R2_L1` (R279). -/
def execCoefR2L1 (sgn : Bool) (s : State) : Host.Outcome State Fault Refusal := .next (coefWord 5 2 1 sgn s)

/-- `COEF_R0_L3` (R279). -/
def execCoefR0L3 (sgn : Bool) (s : State) : Host.Outcome State Fault Refusal := .next (coefWord 6 0 3 sgn s)

/-- `COEF_R3_L1` (R279). -/
def execCoefR3L1 (sgn : Bool) (s : State) : Host.Outcome State Fault Refusal := .next (coefWord 6 3 1 sgn s)

/-- `COEF_R4_L1` (R279). -/
def execCoefR4L1 (sgn : Bool) (s : State) : Host.Outcome State Fault Refusal := .next (coefWord 6 4 1 sgn s)

/-- `COEF_R1_L2` (R279). -/
def execCoefR1L2 (sgn : Bool) (s : State) : Host.Outcome State Fault Refusal := .next (coefWord 7 1 2 sgn s)

/-- `COEF_R5_L1` (R279). -/
def execCoefR5L1 (sgn : Bool) (s : State) : Host.Outcome State Fault Refusal := .next (coefWord 7 5 1 sgn s)

/-- `COEF_R6_L1` (R279). -/
def execCoefR6L1 (sgn : Bool) (s : State) : Host.Outcome State Fault Refusal := .next (coefWord 7 6 1 sgn s)

/-- `COEF_R7_L1` (R279). -/
def execCoefR7L1 (sgn : Bool) (s : State) : Host.Outcome State Fault Refusal := .next (coefWord 7 7 1 sgn s)

/-- `COEF_R0_L4` (R279). -/
def execCoefR0L4 (sgn : Bool) (s : State) : Host.Outcome State Fault Refusal := .next (coefWord 8 0 4 sgn s)

/-- `COEF_R2_L2` (R279). -/
def execCoefR2L2 (sgn : Bool) (s : State) : Host.Outcome State Fault Refusal := .next (coefWord 8 2 2 sgn s)

/-- `COEF_R8_L1` (R279). -/
def execCoefR8L1 (sgn : Bool) (s : State) : Host.Outcome State Fault Refusal := .next (coefWord 8 8 1 sgn s)

/-- `COEF_R9_L1` (R279). -/
def execCoefR9L1 (sgn : Bool) (s : State) : Host.Outcome State Fault Refusal := .next (coefWord 8 9 1 sgn s)

/-- `COEF_R0_L5` (R279). -/
def execCoefR0L5 (sgn : Bool) (s : State) : Host.Outcome State Fault Refusal := .next (coefWord 9 0 5 sgn s)

/-- `COEF_R0_L6` (R279). -/
def execCoefR0L6 (sgn : Bool) (s : State) : Host.Outcome State Fault Refusal := .next (coefWord 9 0 6 sgn s)

/-- `COEF_R1_L3` (R279). -/
def execCoefR1L3 (sgn : Bool) (s : State) : Host.Outcome State Fault Refusal := .next (coefWord 9 1 3 sgn s)

/-- `COEF_R3_L2` (R279). -/
def execCoefR3L2 (sgn : Bool) (s : State) : Host.Outcome State Fault Refusal := .next (coefWord 9 3 2 sgn s)

/-- `COEF_R10_L1` (R279). -/
def execCoefR10L1 (sgn : Bool) (s : State) : Host.Outcome State Fault Refusal := .next (coefWord 9 10 1 sgn s)

/-- `COEF_R11_L1` (R279). -/
def execCoefR11L1 (sgn : Bool) (s : State) : Host.Outcome State Fault Refusal := .next (coefWord 9 11 1 sgn s)

/-- `COEF_R12_L1` (R279). -/
def execCoefR12L1 (sgn : Bool) (s : State) : Host.Outcome State Fault Refusal := .next (coefWord 9 12 1 sgn s)

/-- `COEF_R13_L1` (R279). -/
def execCoefR13L1 (sgn : Bool) (s : State) : Host.Outcome State Fault Refusal := .next (coefWord 9 13 1 sgn s)

/-- `COEF_R0_L7` (R279). -/
def execCoefR0L7 (sgn : Bool) (s : State) : Host.Outcome State Fault Refusal := .next (coefWord 11 0 7 sgn s)

/-- `COEF_R1_L4` (R279). -/
def execCoefR1L4 (sgn : Bool) (s : State) : Host.Outcome State Fault Refusal := .next (coefWord 11 1 4 sgn s)

/-- `COEF_R2_L3` (R279). -/
def execCoefR2L3 (sgn : Bool) (s : State) : Host.Outcome State Fault Refusal := .next (coefWord 11 2 3 sgn s)

/-- `COEF_R4_L2` (R279). -/
def execCoefR4L2 (sgn : Bool) (s : State) : Host.Outcome State Fault Refusal := .next (coefWord 11 4 2 sgn s)

/-- `COEF_R5_L2` (R279). -/
def execCoefR5L2 (sgn : Bool) (s : State) : Host.Outcome State Fault Refusal := .next (coefWord 11 5 2 sgn s)

/-- `COEF_R14_L1` (R279). -/
def execCoefR14L1 (sgn : Bool) (s : State) : Host.Outcome State Fault Refusal := .next (coefWord 11 14 1 sgn s)

/-- `COEF_R15_L1` (R279). -/
def execCoefR15L1 (sgn : Bool) (s : State) : Host.Outcome State Fault Refusal := .next (coefWord 11 15 1 sgn s)

/-- `COEF_R16_L1` (R279). -/
def execCoefR16L1 (sgn : Bool) (s : State) : Host.Outcome State Fault Refusal := .next (coefWord 11 16 1 sgn s)

/-- `COEF_R0_L8` (R279). -/
def execCoefR0L8 (sgn : Bool) (s : State) : Host.Outcome State Fault Refusal := .next (coefWord 13 0 8 sgn s)

/-- `COEF_R0_L9` (R279). -/
def execCoefR0L9 (sgn : Bool) (s : State) : Host.Outcome State Fault Refusal := .next (coefWord 13 0 9 sgn s)

/-- `COEF_R0_L10` (R279). -/
def execCoefR0L10 (sgn : Bool) (s : State) : Host.Outcome State Fault Refusal := .next (coefWord 13 0 10 sgn s)

/-- `COEF_R0_L11` (R279). -/
def execCoefR0L11 (sgn : Bool) (s : State) : Host.Outcome State Fault Refusal := .next (coefWord 13 0 11 sgn s)

/-- `COEF_R1_L5` (R279). -/
def execCoefR1L5 (sgn : Bool) (s : State) : Host.Outcome State Fault Refusal := .next (coefWord 13 1 5 sgn s)

/-- `COEF_R2_L4` (R279). -/
def execCoefR2L4 (sgn : Bool) (s : State) : Host.Outcome State Fault Refusal := .next (coefWord 13 2 4 sgn s)

/-- `COEF_R3_L3` (R279). -/
def execCoefR3L3 (sgn : Bool) (s : State) : Host.Outcome State Fault Refusal := .next (coefWord 13 3 3 sgn s)

/-- `COEF_R4_L3` (R279). -/
def execCoefR4L3 (sgn : Bool) (s : State) : Host.Outcome State Fault Refusal := .next (coefWord 13 4 3 sgn s)

/-- `COEF_R6_L2` (R279). -/
def execCoefR6L2 (sgn : Bool) (s : State) : Host.Outcome State Fault Refusal := .next (coefWord 13 6 2 sgn s)

/-- `COEF_R7_L2` (R279). -/
def execCoefR7L2 (sgn : Bool) (s : State) : Host.Outcome State Fault Refusal := .next (coefWord 13 7 2 sgn s)

/-- `COEF_R8_L2` (R279). -/
def execCoefR8L2 (sgn : Bool) (s : State) : Host.Outcome State Fault Refusal := .next (coefWord 13 8 2 sgn s)

/-- `COEF_R17_L1` (R279). -/
def execCoefR17L1 (sgn : Bool) (s : State) : Host.Outcome State Fault Refusal := .next (coefWord 13 17 1 sgn s)

/-- `COEF_R18_L1` (R279). -/
def execCoefR18L1 (sgn : Bool) (s : State) : Host.Outcome State Fault Refusal := .next (coefWord 13 18 1 sgn s)

/-- `COEF_R19_L1` (R279). -/
def execCoefR19L1 (sgn : Bool) (s : State) : Host.Outcome State Fault Refusal := .next (coefWord 13 19 1 sgn s)

/-- `COEF_R20_L1` (R279). -/
def execCoefR20L1 (sgn : Bool) (s : State) : Host.Outcome State Fault Refusal := .next (coefWord 13 20 1 sgn s)

/-- `COEF_R21_L1` (R279). -/
def execCoefR21L1 (sgn : Bool) (s : State) : Host.Outcome State Fault Refusal := .next (coefWord 13 21 1 sgn s)

/-- `COEF_R0_L12` (R279). -/
def execCoefR0L12 (sgn : Bool) (s : State) : Host.Outcome State Fault Refusal := .next (coefWord 14 0 12 sgn s)

/-- `COEF_R0_L13` (R279). -/
def execCoefR0L13 (sgn : Bool) (s : State) : Host.Outcome State Fault Refusal := .next (coefWord 14 0 13 sgn s)

/-- `COEF_R0_L14` (R279). -/
def execCoefR0L14 (sgn : Bool) (s : State) : Host.Outcome State Fault Refusal := .next (coefWord 14 0 14 sgn s)

/-- `COEF_R0_L15` (R279). -/
def execCoefR0L15 (sgn : Bool) (s : State) : Host.Outcome State Fault Refusal := .next (coefWord 14 0 15 sgn s)

/-- `COEF_R1_L6` (R279). -/
def execCoefR1L6 (sgn : Bool) (s : State) : Host.Outcome State Fault Refusal := .next (coefWord 14 1 6 sgn s)

/-- `COEF_R1_L7` (R279). -/
def execCoefR1L7 (sgn : Bool) (s : State) : Host.Outcome State Fault Refusal := .next (coefWord 14 1 7 sgn s)

/-- `COEF_R2_L5` (R279). -/
def execCoefR2L5 (sgn : Bool) (s : State) : Host.Outcome State Fault Refusal := .next (coefWord 14 2 5 sgn s)

/-- `COEF_R3_L4` (R279). -/
def execCoefR3L4 (sgn : Bool) (s : State) : Host.Outcome State Fault Refusal := .next (coefWord 14 3 4 sgn s)

/-- `COEF_R5_L3` (R279). -/
def execCoefR5L3 (sgn : Bool) (s : State) : Host.Outcome State Fault Refusal := .next (coefWord 14 5 3 sgn s)

/-- `COEF_R9_L2` (R279). -/
def execCoefR9L2 (sgn : Bool) (s : State) : Host.Outcome State Fault Refusal := .next (coefWord 14 9 2 sgn s)

/-- `COEF_R10_L2` (R279). -/
def execCoefR10L2 (sgn : Bool) (s : State) : Host.Outcome State Fault Refusal := .next (coefWord 14 10 2 sgn s)

/-- `COEF_R22_L1` (R279). -/
def execCoefR22L1 (sgn : Bool) (s : State) : Host.Outcome State Fault Refusal := .next (coefWord 14 22 1 sgn s)

/-- `COEF_R23_L1` (R279). -/
def execCoefR23L1 (sgn : Bool) (s : State) : Host.Outcome State Fault Refusal := .next (coefWord 14 23 1 sgn s)

/-- `COEF_R24_L1` (R279). -/
def execCoefR24L1 (sgn : Bool) (s : State) : Host.Outcome State Fault Refusal := .next (coefWord 14 24 1 sgn s)

/-- `COEF_R25_L1` (R279). -/
def execCoefR25L1 (sgn : Bool) (s : State) : Host.Outcome State Fault Refusal := .next (coefWord 14 25 1 sgn s)

/-- `COEF_R26_L1` (R279). -/
def execCoefR26L1 (sgn : Bool) (s : State) : Host.Outcome State Fault Refusal := .next (coefWord 14 26 1 sgn s)

/-- `COEF_R0_L16` (R279). -/
def execCoefR0L16 (sgn : Bool) (s : State) : Host.Outcome State Fault Refusal := .next (coefWord 15 0 16 sgn s)

/-- `COEF_R0_L17` (R279). -/
def execCoefR0L17 (sgn : Bool) (s : State) : Host.Outcome State Fault Refusal := .next (coefWord 15 0 17 sgn s)

/-- `COEF_R0_L18` (R279). -/
def execCoefR0L18 (sgn : Bool) (s : State) : Host.Outcome State Fault Refusal := .next (coefWord 15 0 18 sgn s)

/-- `COEF_R0_L19` (R279). -/
def execCoefR0L19 (sgn : Bool) (s : State) : Host.Outcome State Fault Refusal := .next (coefWord 15 0 19 sgn s)

/-- `COEF_R0_L20` (R279). -/
def execCoefR0L20 (sgn : Bool) (s : State) : Host.Outcome State Fault Refusal := .next (coefWord 15 0 20 sgn s)

/-- `COEF_R0_L21` (R279). -/
def execCoefR0L21 (sgn : Bool) (s : State) : Host.Outcome State Fault Refusal := .next (coefWord 15 0 21 sgn s)

/-- `COEF_R0_L22` (R279). -/
def execCoefR0L22 (sgn : Bool) (s : State) : Host.Outcome State Fault Refusal := .next (coefWord 15 0 22 sgn s)

/-- `COEF_R0_L23` (R279). -/
def execCoefR0L23 (sgn : Bool) (s : State) : Host.Outcome State Fault Refusal := .next (coefWord 15 0 23 sgn s)

/-- `COEF_R0_L24` (R279). -/
def execCoefR0L24 (sgn : Bool) (s : State) : Host.Outcome State Fault Refusal := .next (coefWord 15 0 24 sgn s)

/-- `COEF_R0_L25` (R279). -/
def execCoefR0L25 (sgn : Bool) (s : State) : Host.Outcome State Fault Refusal := .next (coefWord 15 0 25 sgn s)

/-- `COEF_R0_L26` (R279). -/
def execCoefR0L26 (sgn : Bool) (s : State) : Host.Outcome State Fault Refusal := .next (coefWord 15 0 26 sgn s)

/-- `COEF_R0_L27` (R279). -/
def execCoefR0L27 (sgn : Bool) (s : State) : Host.Outcome State Fault Refusal := .next (coefWord 15 0 27 sgn s)

/-- `COEF_R0_L28` (R279). -/
def execCoefR0L28 (sgn : Bool) (s : State) : Host.Outcome State Fault Refusal := .next (coefWord 15 0 28 sgn s)

/-- `COEF_R0_L29` (R279). -/
def execCoefR0L29 (sgn : Bool) (s : State) : Host.Outcome State Fault Refusal := .next (coefWord 15 0 29 sgn s)

/-- `COEF_R0_L30` (R279). -/
def execCoefR0L30 (sgn : Bool) (s : State) : Host.Outcome State Fault Refusal := .next (coefWord 15 0 30 sgn s)

/-- `COEF_R0_L31` (R279). -/
def execCoefR0L31 (sgn : Bool) (s : State) : Host.Outcome State Fault Refusal := .next (coefWord 15 0 31 sgn s)

/-- `COEF_R0_L32` (R279). -/
def execCoefR0L32 (sgn : Bool) (s : State) : Host.Outcome State Fault Refusal := .next (coefWord 16 0 32 sgn s)

/-- `COEF_R0_L33` (R279). -/
def execCoefR0L33 (sgn : Bool) (s : State) : Host.Outcome State Fault Refusal := .next (coefWord 16 0 33 sgn s)

/-- `COEF_R0_L34` (R279). -/
def execCoefR0L34 (sgn : Bool) (s : State) : Host.Outcome State Fault Refusal := .next (coefWord 16 0 34 sgn s)

/-- `COEF_R0_L35` (R279). -/
def execCoefR0L35 (sgn : Bool) (s : State) : Host.Outcome State Fault Refusal := .next (coefWord 16 0 35 sgn s)

/-- `COEF_R0_L36` (R279). -/
def execCoefR0L36 (sgn : Bool) (s : State) : Host.Outcome State Fault Refusal := .next (coefWord 16 0 36 sgn s)

/-- `COEF_R0_L37` (R279). -/
def execCoefR0L37 (sgn : Bool) (s : State) : Host.Outcome State Fault Refusal := .next (coefWord 16 0 37 sgn s)

/-- `COEF_R0_L38` (R279). -/
def execCoefR0L38 (sgn : Bool) (s : State) : Host.Outcome State Fault Refusal := .next (coefWord 16 0 38 sgn s)

/-- `COEF_R0_L39` (R279). -/
def execCoefR0L39 (sgn : Bool) (s : State) : Host.Outcome State Fault Refusal := .next (coefWord 16 0 39 sgn s)

/-- `COEF_R0_L40` (R279). -/
def execCoefR0L40 (sgn : Bool) (s : State) : Host.Outcome State Fault Refusal := .next (coefWord 16 0 40 sgn s)

/-- `COEF_R1_L8` (R279). -/
def execCoefR1L8 (sgn : Bool) (s : State) : Host.Outcome State Fault Refusal := .next (coefWord 16 1 8 sgn s)

/-- `COEF_R1_L9` (R279). -/
def execCoefR1L9 (sgn : Bool) (s : State) : Host.Outcome State Fault Refusal := .next (coefWord 16 1 9 sgn s)

/-- `COEF_R1_L10` (R279). -/
def execCoefR1L10 (sgn : Bool) (s : State) : Host.Outcome State Fault Refusal := .next (coefWord 16 1 10 sgn s)

/-- `COEF_R1_L11` (R279). -/
def execCoefR1L11 (sgn : Bool) (s : State) : Host.Outcome State Fault Refusal := .next (coefWord 16 1 11 sgn s)

/-- `COEF_R1_L12` (R279). -/
def execCoefR1L12 (sgn : Bool) (s : State) : Host.Outcome State Fault Refusal := .next (coefWord 16 1 12 sgn s)

/-- `COEF_R1_L13` (R279). -/
def execCoefR1L13 (sgn : Bool) (s : State) : Host.Outcome State Fault Refusal := .next (coefWord 16 1 13 sgn s)

/-- `COEF_R1_L14` (R279). -/
def execCoefR1L14 (sgn : Bool) (s : State) : Host.Outcome State Fault Refusal := .next (coefWord 16 1 14 sgn s)

/-- `COEF_R1_L15` (R279). -/
def execCoefR1L15 (sgn : Bool) (s : State) : Host.Outcome State Fault Refusal := .next (coefWord 17 1 15 sgn s)

/-- `COEF_R1_L16` (R279). -/
def execCoefR1L16 (sgn : Bool) (s : State) : Host.Outcome State Fault Refusal := .next (coefWord 17 1 16 sgn s)

/-- `COEF_R1_L17` (R279). -/
def execCoefR1L17 (sgn : Bool) (s : State) : Host.Outcome State Fault Refusal := .next (coefWord 17 1 17 sgn s)

/-- `COEF_R1_L18` (R279). -/
def execCoefR1L18 (sgn : Bool) (s : State) : Host.Outcome State Fault Refusal := .next (coefWord 17 1 18 sgn s)

/-- `COEF_R6_L3` (R279). -/
def execCoefR6L3 (sgn : Bool) (s : State) : Host.Outcome State Fault Refusal := .next (coefWord 17 6 3 sgn s)

/-- `COEF_R11_L2` (R279). -/
def execCoefR11L2 (sgn : Bool) (s : State) : Host.Outcome State Fault Refusal := .next (coefWord 17 11 2 sgn s)

/-- `COEF_R12_L2` (R279). -/
def execCoefR12L2 (sgn : Bool) (s : State) : Host.Outcome State Fault Refusal := .next (coefWord 17 12 2 sgn s)

/-- `COEF_R13_L2` (R279). -/
def execCoefR13L2 (sgn : Bool) (s : State) : Host.Outcome State Fault Refusal := .next (coefWord 17 13 2 sgn s)

/-- `COEF_R14_L2` (R279). -/
def execCoefR14L2 (sgn : Bool) (s : State) : Host.Outcome State Fault Refusal := .next (coefWord 17 14 2 sgn s)

/-- `COEF_R15_L2` (R279). -/
def execCoefR15L2 (sgn : Bool) (s : State) : Host.Outcome State Fault Refusal := .next (coefWord 17 15 2 sgn s)

/-- `COEF_R16_L2` (R279). -/
def execCoefR16L2 (sgn : Bool) (s : State) : Host.Outcome State Fault Refusal := .next (coefWord 17 16 2 sgn s)

/-- `COEF_R27_L1` (R279). -/
def execCoefR27L1 (sgn : Bool) (s : State) : Host.Outcome State Fault Refusal := .next (coefWord 17 27 1 sgn s)

/-- `COEF_R28_L1` (R279). -/
def execCoefR28L1 (sgn : Bool) (s : State) : Host.Outcome State Fault Refusal := .next (coefWord 17 28 1 sgn s)

/-- `COEF_R29_L1` (R279). -/
def execCoefR29L1 (sgn : Bool) (s : State) : Host.Outcome State Fault Refusal := .next (coefWord 17 29 1 sgn s)

/-- `COEF_R30_L1` (R279). -/
def execCoefR30L1 (sgn : Bool) (s : State) : Host.Outcome State Fault Refusal := .next (coefWord 17 30 1 sgn s)

/-- `COEF_R31_L1` (R279). -/
def execCoefR31L1 (sgn : Bool) (s : State) : Host.Outcome State Fault Refusal := .next (coefWord 17 31 1 sgn s)

/-- `COEF_FIRST_R0_L1` (R280). -/
def execCoefFirstR0L1 (sgn : Bool) (s : State) : Host.Outcome State Fault Refusal := .next (coefWord 2 0 1 sgn s)

/-- `COEF_NEXT_R0_L1` (R281). -/
def execCoefNextR0L1 (sgn : Bool) (s : State) : Host.Outcome State Fault Refusal := .next (coefWord 3 0 1 sgn s)

/-- `EOB` (R281). -/
def execEob (s : State) : Host.Outcome State Fault Refusal := .next ((s.consumeBits 2).deliver (.coef .eob))

/-- `COEF_ESCAPE_20` (R282; 45_block_decode_iq.md R304). -/
def execCoefEscape20 (r : BitVec 6) (l : BitVec 8) (s : State) : Host.Outcome State Fault Refusal :=
  (escapeCoefWord 20 r.toNat (escapeLevel l.toNat 0) s).finish fun c s => s.deliver (.coef c)

/-- `COEF_ESCAPE_28` (R282; 45_block_decode_iq.md R304). -/
def execCoefEscape28 (r : BitVec 6) (z : Bool) (l : BitVec 8) (s : State) : Host.Outcome State Fault Refusal :=
  (escapeCoefWord 28 r.toNat (escapeLevel (if z then 0x80 else 0x00) l.toNat) s).finish fun c s => s.deliver (.coef c)

end Sys2Proof.Machine
end

