-- ==== Sys2Proof/Machine/Dispatch.lean ====
section
/-!
DEFINITION. One arm per instruction, each one call of its meaning.
-/

namespace Sys2Proof.Machine

/-- The meaning of an instruction. -/
def exec (i : Instr) (s : State) : Host.Outcome State Fault Refusal :=
  match i with
  -- CMD8
  | .cmdOpen cfg => Sys2Proof.Machine.execCmdOpen cfg s
  | .cmdReset => Sys2Proof.Machine.execCmdReset s
  | .cmdDecodeNext => Sys2Proof.Machine.execCmdDecodeNext s
  | .cmdGetFrame => Sys2Proof.Machine.execCmdGetFrame s
  | .cmdClose => Sys2Proof.Machine.execCmdClose s
  | .cmdUndefined c => Sys2Proof.Machine.execCmdUndefined c s
  -- SC32
  | .scPicture => Sys2Proof.Machine.execScPicture s
  | .scSlice r => Sys2Proof.Machine.execScSlice r s
  | .scSequenceHeader => Sys2Proof.Machine.execScSequenceHeader s
  | .scSequenceEnd => Sys2Proof.Machine.execScSequenceEnd s
  | .scGroup => Sys2Proof.Machine.execScGroup s
  | .scUnrecognised x => Sys2Proof.Machine.execScUnrecognised x s
  -- FIELD
  | .horizontalSize v => Sys2Proof.Machine.execHorizontalSize v s
  | .verticalSize v => Sys2Proof.Machine.execVerticalSize v s
  | .aspectRatioCode a => Sys2Proof.Machine.execAspectRatioCode a s
  | .frameRateCode f => Sys2Proof.Machine.execFrameRateCode f s
  | .bitRateValue b => Sys2Proof.Machine.execBitRateValue b s
  | .markerBit m => Sys2Proof.Machine.execMarkerBit m s
  | .vbvBufferSize v => Sys2Proof.Machine.execVbvBufferSize v s
  | .constrainedParametersFlag c => Sys2Proof.Machine.execConstrainedParametersFlag c s
  | .loadIntraQuantizerMatrix l => Sys2Proof.Machine.execLoadIntraQuantizerMatrix l s
  | .intraQuantizerMatrixEntry q => Sys2Proof.Machine.execIntraQuantizerMatrixEntry q s
  | .loadNonIntraQuantizerMatrix l => Sys2Proof.Machine.execLoadNonIntraQuantizerMatrix l s
  | .nonIntraQuantizerMatrixEntry q => Sys2Proof.Machine.execNonIntraQuantizerMatrixEntry q s
  | .sequenceHeaderSkip x => Sys2Proof.Machine.execSequenceHeaderSkip x s
  | .gopTimeCodeAndFlags t => Sys2Proof.Machine.execGopTimeCodeAndFlags t s
  | .temporalReference t => Sys2Proof.Machine.execTemporalReference t s
  | .pictureCodingType p => Sys2Proof.Machine.execPictureCodingType p s
  | .vbvDelay d => Sys2Proof.Machine.execVbvDelay d s
  | .fullPelForwardVector f => Sys2Proof.Machine.execFullPelForwardVector f s
  | .forwardFCode c => Sys2Proof.Machine.execForwardFCode c s
  | .fullPelBackwardVector f => Sys2Proof.Machine.execFullPelBackwardVector f s
  | .backwardFCode c => Sys2Proof.Machine.execBackwardFCode c s
  | .extraInformationPicture e => Sys2Proof.Machine.execExtraInformationPicture e s
  | .extraBitPictureEnd => Sys2Proof.Machine.execExtraBitPictureEnd s
  | .sliceQuantizerScale q => Sys2Proof.Machine.execSliceQuantizerScale q s
  | .extraInformationSlice e => Sys2Proof.Machine.execExtraInformationSlice e s
  | .extraBitSliceEnd => Sys2Proof.Machine.execExtraBitSliceEnd s
  | .macroblockQuantizerScale q => Sys2Proof.Machine.execMacroblockQuantizerScale q s
  | .motionResidual rangeSize r => Sys2Proof.Machine.execMotionResidual rangeSize r s
  | .dctDcDifferential size d => Sys2Proof.Machine.execDctDcDifferential size d s
  -- UOP8
  | .brReset => Sys2Proof.Machine.execBrReset s
  | .brPeek n => Sys2Proof.Machine.execBrPeek n s
  | .brConsume n => Sys2Proof.Machine.execBrConsume n s
  | .brConsume1 => Sys2Proof.Machine.execBrConsume1 s
  | .brRefill => Sys2Proof.Machine.execBrRefill s
  | .brGet n => Sys2Proof.Machine.execBrGet n s
  | .brAlignSc => Sys2Proof.Machine.execBrAlignSc s
  | .vldCode t => Sys2Proof.Machine.execVldCode t s
  | .vldMbaInc => Sys2Proof.Machine.execVldMbaInc s
  | .vldMbtype => Sys2Proof.Machine.execVldMbtype s
  | .vldCbp => Sys2Proof.Machine.execVldCbp s
  | .vldMotionCode => Sys2Proof.Machine.execVldMotionCode s
  | .vldDcDiff b => Sys2Proof.Machine.execVldDcDiff b s
  | .vldCoef first => Sys2Proof.Machine.execVldCoef first s
  | .vldEscape => Sys2Proof.Machine.execVldEscape s
  | .iqIntraDc b => Sys2Proof.Machine.execIqIntraDc b s
  | .iqIntraAc level qs w => Sys2Proof.Machine.execIqIntraAc level qs w s
  | .iqInter level qs w => Sys2Proof.Machine.execIqInter level qs w s
  | .iqOddsat m => Sys2Proof.Machine.execIqOddsat m s
  | .mvrDecode d c rangeSize fullPel => Sys2Proof.Machine.execMvrDecode d c rangeSize fullPel s
  | .idctRow b r => Sys2Proof.Machine.execIdctRow b r s
  | .idctCol b c => Sys2Proof.Machine.execIdctCol b c s
  | .idctBlock b => Sys2Proof.Machine.execIdctBlock b s
  | .hpiForm ref mbX mbY dx dy => Sys2Proof.Machine.execHpiForm ref mbX mbY dx dy s
  | .hpiFormAvg ref mbX mbY dx dy => Sys2Proof.Machine.execHpiFormAvg ref mbX mbY dx dy s
  | .mbtPutIntra b mbX mbY => Sys2Proof.Machine.execMbtPutIntra b mbX mbY s
  | .mbtAddInter b mbX mbY => Sys2Proof.Machine.execMbtAddInter b mbX mbY s
  | .mbtSkipP a => Sys2Proof.Machine.execMbtSkipP a s
  | .mbtSkipB a => Sys2Proof.Machine.execMbtSkipB a s
  | .seqNextHeader => Sys2Proof.Machine.execSeqNextHeader s
  | .seqSequenceHeader => Sys2Proof.Machine.execSeqSequenceHeader s
  | .seqGopHeader => Sys2Proof.Machine.execSeqGopHeader s
  | .seqPictureHeader => Sys2Proof.Machine.execSeqPictureHeader s
  | .seqPictureData => Sys2Proof.Machine.execSeqPictureData s
  | .seqSlice total => Sys2Proof.Machine.execSeqSlice total s
  | .seqMacroblock => Sys2Proof.Machine.execSeqMacroblock s
  | .seqIntraBlock b => Sys2Proof.Machine.execSeqIntraBlock b s
  | .seqInterBlock b => Sys2Proof.Machine.execSeqInterBlock b s
  | .pbmAlloc cols rows => Sys2Proof.Machine.execPbmAlloc cols rows s
  | .pbmRotateRef => Sys2Proof.Machine.execPbmRotateRef s
  | .pbmSelectAux => Sys2Proof.Machine.execPbmSelectAux s
  | .pbmGetFrame => Sys2Proof.Machine.execPbmGetFrame s
  -- T_MOTION
  | .motionMag0 => Sys2Proof.Machine.execMotionMag0 s
  | .motionMag1 sgn => Sys2Proof.Machine.execMotionMag1 sgn s
  | .motionMag2 sgn => Sys2Proof.Machine.execMotionMag2 sgn s
  | .motionMag3 sgn => Sys2Proof.Machine.execMotionMag3 sgn s
  | .motionMag4 sgn => Sys2Proof.Machine.execMotionMag4 sgn s
  | .motionMag5 sgn => Sys2Proof.Machine.execMotionMag5 sgn s
  | .motionMag6 sgn => Sys2Proof.Machine.execMotionMag6 sgn s
  | .motionMag7 sgn => Sys2Proof.Machine.execMotionMag7 sgn s
  | .motionMag8 sgn => Sys2Proof.Machine.execMotionMag8 sgn s
  | .motionMag9 sgn => Sys2Proof.Machine.execMotionMag9 sgn s
  | .motionMag10 sgn => Sys2Proof.Machine.execMotionMag10 sgn s
  | .motionMag11 sgn => Sys2Proof.Machine.execMotionMag11 sgn s
  | .motionMag12 sgn => Sys2Proof.Machine.execMotionMag12 sgn s
  | .motionMag13 sgn => Sys2Proof.Machine.execMotionMag13 sgn s
  | .motionMag14 sgn => Sys2Proof.Machine.execMotionMag14 sgn s
  | .motionMag15 sgn => Sys2Proof.Machine.execMotionMag15 sgn s
  | .motionMag16 sgn => Sys2Proof.Machine.execMotionMag16 sgn s
  -- T_DCT
  | .coefR1L1 sgn => Sys2Proof.Machine.execCoefR1L1 sgn s
  | .coefR0L2 sgn => Sys2Proof.Machine.execCoefR0L2 sgn s
  | .coefR2L1 sgn => Sys2Proof.Machine.execCoefR2L1 sgn s
  | .coefR0L3 sgn => Sys2Proof.Machine.execCoefR0L3 sgn s
  | .coefR3L1 sgn => Sys2Proof.Machine.execCoefR3L1 sgn s
  | .coefR4L1 sgn => Sys2Proof.Machine.execCoefR4L1 sgn s
  | .coefR1L2 sgn => Sys2Proof.Machine.execCoefR1L2 sgn s
  | .coefR5L1 sgn => Sys2Proof.Machine.execCoefR5L1 sgn s
  | .coefR6L1 sgn => Sys2Proof.Machine.execCoefR6L1 sgn s
  | .coefR7L1 sgn => Sys2Proof.Machine.execCoefR7L1 sgn s
  | .coefR0L4 sgn => Sys2Proof.Machine.execCoefR0L4 sgn s
  | .coefR2L2 sgn => Sys2Proof.Machine.execCoefR2L2 sgn s
  | .coefR8L1 sgn => Sys2Proof.Machine.execCoefR8L1 sgn s
  | .coefR9L1 sgn => Sys2Proof.Machine.execCoefR9L1 sgn s
  | .coefR0L5 sgn => Sys2Proof.Machine.execCoefR0L5 sgn s
  | .coefR0L6 sgn => Sys2Proof.Machine.execCoefR0L6 sgn s
  | .coefR1L3 sgn => Sys2Proof.Machine.execCoefR1L3 sgn s
  | .coefR3L2 sgn => Sys2Proof.Machine.execCoefR3L2 sgn s
  | .coefR10L1 sgn => Sys2Proof.Machine.execCoefR10L1 sgn s
  | .coefR11L1 sgn => Sys2Proof.Machine.execCoefR11L1 sgn s
  | .coefR12L1 sgn => Sys2Proof.Machine.execCoefR12L1 sgn s
  | .coefR13L1 sgn => Sys2Proof.Machine.execCoefR13L1 sgn s
  | .coefR0L7 sgn => Sys2Proof.Machine.execCoefR0L7 sgn s
  | .coefR1L4 sgn => Sys2Proof.Machine.execCoefR1L4 sgn s
  | .coefR2L3 sgn => Sys2Proof.Machine.execCoefR2L3 sgn s
  | .coefR4L2 sgn => Sys2Proof.Machine.execCoefR4L2 sgn s
  | .coefR5L2 sgn => Sys2Proof.Machine.execCoefR5L2 sgn s
  | .coefR14L1 sgn => Sys2Proof.Machine.execCoefR14L1 sgn s
  | .coefR15L1 sgn => Sys2Proof.Machine.execCoefR15L1 sgn s
  | .coefR16L1 sgn => Sys2Proof.Machine.execCoefR16L1 sgn s
  | .coefR0L8 sgn => Sys2Proof.Machine.execCoefR0L8 sgn s
  | .coefR0L9 sgn => Sys2Proof.Machine.execCoefR0L9 sgn s
  | .coefR0L10 sgn => Sys2Proof.Machine.execCoefR0L10 sgn s
  | .coefR0L11 sgn => Sys2Proof.Machine.execCoefR0L11 sgn s
  | .coefR1L5 sgn => Sys2Proof.Machine.execCoefR1L5 sgn s
  | .coefR2L4 sgn => Sys2Proof.Machine.execCoefR2L4 sgn s
  | .coefR3L3 sgn => Sys2Proof.Machine.execCoefR3L3 sgn s
  | .coefR4L3 sgn => Sys2Proof.Machine.execCoefR4L3 sgn s
  | .coefR6L2 sgn => Sys2Proof.Machine.execCoefR6L2 sgn s
  | .coefR7L2 sgn => Sys2Proof.Machine.execCoefR7L2 sgn s
  | .coefR8L2 sgn => Sys2Proof.Machine.execCoefR8L2 sgn s
  | .coefR17L1 sgn => Sys2Proof.Machine.execCoefR17L1 sgn s
  | .coefR18L1 sgn => Sys2Proof.Machine.execCoefR18L1 sgn s
  | .coefR19L1 sgn => Sys2Proof.Machine.execCoefR19L1 sgn s
  | .coefR20L1 sgn => Sys2Proof.Machine.execCoefR20L1 sgn s
  | .coefR21L1 sgn => Sys2Proof.Machine.execCoefR21L1 sgn s
  | .coefR0L12 sgn => Sys2Proof.Machine.execCoefR0L12 sgn s
  | .coefR0L13 sgn => Sys2Proof.Machine.execCoefR0L13 sgn s
  | .coefR0L14 sgn => Sys2Proof.Machine.execCoefR0L14 sgn s
  | .coefR0L15 sgn => Sys2Proof.Machine.execCoefR0L15 sgn s
  | .coefR1L6 sgn => Sys2Proof.Machine.execCoefR1L6 sgn s
  | .coefR1L7 sgn => Sys2Proof.Machine.execCoefR1L7 sgn s
  | .coefR2L5 sgn => Sys2Proof.Machine.execCoefR2L5 sgn s
  | .coefR3L4 sgn => Sys2Proof.Machine.execCoefR3L4 sgn s
  | .coefR5L3 sgn => Sys2Proof.Machine.execCoefR5L3 sgn s
  | .coefR9L2 sgn => Sys2Proof.Machine.execCoefR9L2 sgn s
  | .coefR10L2 sgn => Sys2Proof.Machine.execCoefR10L2 sgn s
  | .coefR22L1 sgn => Sys2Proof.Machine.execCoefR22L1 sgn s
  | .coefR23L1 sgn => Sys2Proof.Machine.execCoefR23L1 sgn s
  | .coefR24L1 sgn => Sys2Proof.Machine.execCoefR24L1 sgn s
  | .coefR25L1 sgn => Sys2Proof.Machine.execCoefR25L1 sgn s
  | .coefR26L1 sgn => Sys2Proof.Machine.execCoefR26L1 sgn s
  | .coefR0L16 sgn => Sys2Proof.Machine.execCoefR0L16 sgn s
  | .coefR0L17 sgn => Sys2Proof.Machine.execCoefR0L17 sgn s
  | .coefR0L18 sgn => Sys2Proof.Machine.execCoefR0L18 sgn s
  | .coefR0L19 sgn => Sys2Proof.Machine.execCoefR0L19 sgn s
  | .coefR0L20 sgn => Sys2Proof.Machine.execCoefR0L20 sgn s
  | .coefR0L21 sgn => Sys2Proof.Machine.execCoefR0L21 sgn s
  | .coefR0L22 sgn => Sys2Proof.Machine.execCoefR0L22 sgn s
  | .coefR0L23 sgn => Sys2Proof.Machine.execCoefR0L23 sgn s
  | .coefR0L24 sgn => Sys2Proof.Machine.execCoefR0L24 sgn s
  | .coefR0L25 sgn => Sys2Proof.Machine.execCoefR0L25 sgn s
  | .coefR0L26 sgn => Sys2Proof.Machine.execCoefR0L26 sgn s
  | .coefR0L27 sgn => Sys2Proof.Machine.execCoefR0L27 sgn s
  | .coefR0L28 sgn => Sys2Proof.Machine.execCoefR0L28 sgn s
  | .coefR0L29 sgn => Sys2Proof.Machine.execCoefR0L29 sgn s
  | .coefR0L30 sgn => Sys2Proof.Machine.execCoefR0L30 sgn s
  | .coefR0L31 sgn => Sys2Proof.Machine.execCoefR0L31 sgn s
  | .coefR0L32 sgn => Sys2Proof.Machine.execCoefR0L32 sgn s
  | .coefR0L33 sgn => Sys2Proof.Machine.execCoefR0L33 sgn s
  | .coefR0L34 sgn => Sys2Proof.Machine.execCoefR0L34 sgn s
  | .coefR0L35 sgn => Sys2Proof.Machine.execCoefR0L35 sgn s
  | .coefR0L36 sgn => Sys2Proof.Machine.execCoefR0L36 sgn s
  | .coefR0L37 sgn => Sys2Proof.Machine.execCoefR0L37 sgn s
  | .coefR0L38 sgn => Sys2Proof.Machine.execCoefR0L38 sgn s
  | .coefR0L39 sgn => Sys2Proof.Machine.execCoefR0L39 sgn s
  | .coefR0L40 sgn => Sys2Proof.Machine.execCoefR0L40 sgn s
  | .coefR1L8 sgn => Sys2Proof.Machine.execCoefR1L8 sgn s
  | .coefR1L9 sgn => Sys2Proof.Machine.execCoefR1L9 sgn s
  | .coefR1L10 sgn => Sys2Proof.Machine.execCoefR1L10 sgn s
  | .coefR1L11 sgn => Sys2Proof.Machine.execCoefR1L11 sgn s
  | .coefR1L12 sgn => Sys2Proof.Machine.execCoefR1L12 sgn s
  | .coefR1L13 sgn => Sys2Proof.Machine.execCoefR1L13 sgn s
  | .coefR1L14 sgn => Sys2Proof.Machine.execCoefR1L14 sgn s
  | .coefR1L15 sgn => Sys2Proof.Machine.execCoefR1L15 sgn s
  | .coefR1L16 sgn => Sys2Proof.Machine.execCoefR1L16 sgn s
  | .coefR1L17 sgn => Sys2Proof.Machine.execCoefR1L17 sgn s
  | .coefR1L18 sgn => Sys2Proof.Machine.execCoefR1L18 sgn s
  | .coefR6L3 sgn => Sys2Proof.Machine.execCoefR6L3 sgn s
  | .coefR11L2 sgn => Sys2Proof.Machine.execCoefR11L2 sgn s
  | .coefR12L2 sgn => Sys2Proof.Machine.execCoefR12L2 sgn s
  | .coefR13L2 sgn => Sys2Proof.Machine.execCoefR13L2 sgn s
  | .coefR14L2 sgn => Sys2Proof.Machine.execCoefR14L2 sgn s
  | .coefR15L2 sgn => Sys2Proof.Machine.execCoefR15L2 sgn s
  | .coefR16L2 sgn => Sys2Proof.Machine.execCoefR16L2 sgn s
  | .coefR27L1 sgn => Sys2Proof.Machine.execCoefR27L1 sgn s
  | .coefR28L1 sgn => Sys2Proof.Machine.execCoefR28L1 sgn s
  | .coefR29L1 sgn => Sys2Proof.Machine.execCoefR29L1 sgn s
  | .coefR30L1 sgn => Sys2Proof.Machine.execCoefR30L1 sgn s
  | .coefR31L1 sgn => Sys2Proof.Machine.execCoefR31L1 sgn s
  | .coefFirstR0L1 sgn => Sys2Proof.Machine.execCoefFirstR0L1 sgn s
  | .coefNextR0L1 sgn => Sys2Proof.Machine.execCoefNextR0L1 sgn s
  | .eob => Sys2Proof.Machine.execEob s
  | .coefEscape20 r l => Sys2Proof.Machine.execCoefEscape20 r l s
  | .coefEscape28 r z l => Sys2Proof.Machine.execCoefEscape28 r z l s
  -- T_MBA
  | .mbaInc1 => Sys2Proof.Machine.execMbaInc1 s
  | .mbaInc2 => Sys2Proof.Machine.execMbaInc2 s
  | .mbaInc3 => Sys2Proof.Machine.execMbaInc3 s
  | .mbaInc4 => Sys2Proof.Machine.execMbaInc4 s
  | .mbaInc5 => Sys2Proof.Machine.execMbaInc5 s
  | .mbaInc6 => Sys2Proof.Machine.execMbaInc6 s
  | .mbaInc7 => Sys2Proof.Machine.execMbaInc7 s
  | .mbaInc8 => Sys2Proof.Machine.execMbaInc8 s
  | .mbaInc9 => Sys2Proof.Machine.execMbaInc9 s
  | .mbaInc10 => Sys2Proof.Machine.execMbaInc10 s
  | .mbaInc11 => Sys2Proof.Machine.execMbaInc11 s
  | .mbaInc12 => Sys2Proof.Machine.execMbaInc12 s
  | .mbaInc13 => Sys2Proof.Machine.execMbaInc13 s
  | .mbaInc14 => Sys2Proof.Machine.execMbaInc14 s
  | .mbaInc15 => Sys2Proof.Machine.execMbaInc15 s
  | .mbaInc16 => Sys2Proof.Machine.execMbaInc16 s
  | .mbaInc17 => Sys2Proof.Machine.execMbaInc17 s
  | .mbaInc18 => Sys2Proof.Machine.execMbaInc18 s
  | .mbaInc19 => Sys2Proof.Machine.execMbaInc19 s
  | .mbaInc20 => Sys2Proof.Machine.execMbaInc20 s
  | .mbaInc21 => Sys2Proof.Machine.execMbaInc21 s
  | .mbaInc22 => Sys2Proof.Machine.execMbaInc22 s
  | .mbaInc23 => Sys2Proof.Machine.execMbaInc23 s
  | .mbaInc24 => Sys2Proof.Machine.execMbaInc24 s
  | .mbaInc25 => Sys2Proof.Machine.execMbaInc25 s
  | .mbaInc26 => Sys2Proof.Machine.execMbaInc26 s
  | .mbaInc27 => Sys2Proof.Machine.execMbaInc27 s
  | .mbaInc28 => Sys2Proof.Machine.execMbaInc28 s
  | .mbaInc29 => Sys2Proof.Machine.execMbaInc29 s
  | .mbaInc30 => Sys2Proof.Machine.execMbaInc30 s
  | .mbaInc31 => Sys2Proof.Machine.execMbaInc31 s
  | .mbaInc32 => Sys2Proof.Machine.execMbaInc32 s
  | .mbaInc33 => Sys2Proof.Machine.execMbaInc33 s
  | .mbaStuffing => Sys2Proof.Machine.execMbaStuffing s
  | .mbaEscape => Sys2Proof.Machine.execMbaEscape s
  -- T_MBT_I
  | .mbtIIntra => Sys2Proof.Machine.execMbtIIntra s
  | .mbtIQuantIntra => Sys2Proof.Machine.execMbtIQuantIntra s
  -- T_MBT_P
  | .mbtPForwardPattern => Sys2Proof.Machine.execMbtPForwardPattern s
  | .mbtPPattern => Sys2Proof.Machine.execMbtPPattern s
  | .mbtPForward => Sys2Proof.Machine.execMbtPForward s
  | .mbtPIntra => Sys2Proof.Machine.execMbtPIntra s
  | .mbtPQuantForwardPattern => Sys2Proof.Machine.execMbtPQuantForwardPattern s
  | .mbtPQuantPattern => Sys2Proof.Machine.execMbtPQuantPattern s
  | .mbtPQuantIntra => Sys2Proof.Machine.execMbtPQuantIntra s
  -- T_MBT_B
  | .mbtBForwardBackward => Sys2Proof.Machine.execMbtBForwardBackward s
  | .mbtBForwardBackwardPattern => Sys2Proof.Machine.execMbtBForwardBackwardPattern s
  | .mbtBBackward => Sys2Proof.Machine.execMbtBBackward s
  | .mbtBBackwardPattern => Sys2Proof.Machine.execMbtBBackwardPattern s
  | .mbtBForward => Sys2Proof.Machine.execMbtBForward s
  | .mbtBForwardPattern => Sys2Proof.Machine.execMbtBForwardPattern s
  | .mbtBIntra => Sys2Proof.Machine.execMbtBIntra s
  | .mbtBQuantForwardBackwardPattern => Sys2Proof.Machine.execMbtBQuantForwardBackwardPattern s
  | .mbtBQuantForwardPattern => Sys2Proof.Machine.execMbtBQuantForwardPattern s
  | .mbtBQuantBackwardPattern => Sys2Proof.Machine.execMbtBQuantBackwardPattern s
  | .mbtBQuantIntra => Sys2Proof.Machine.execMbtBQuantIntra s
  -- T_CBP
  | .cbp60 => Sys2Proof.Machine.execCbp60 s
  | .cbp4 => Sys2Proof.Machine.execCbp4 s
  | .cbp8 => Sys2Proof.Machine.execCbp8 s
  | .cbp16 => Sys2Proof.Machine.execCbp16 s
  | .cbp32 => Sys2Proof.Machine.execCbp32 s
  | .cbp12 => Sys2Proof.Machine.execCbp12 s
  | .cbp48 => Sys2Proof.Machine.execCbp48 s
  | .cbp20 => Sys2Proof.Machine.execCbp20 s
  | .cbp40 => Sys2Proof.Machine.execCbp40 s
  | .cbp28 => Sys2Proof.Machine.execCbp28 s
  | .cbp44 => Sys2Proof.Machine.execCbp44 s
  | .cbp52 => Sys2Proof.Machine.execCbp52 s
  | .cbp56 => Sys2Proof.Machine.execCbp56 s
  | .cbp1 => Sys2Proof.Machine.execCbp1 s
  | .cbp61 => Sys2Proof.Machine.execCbp61 s
  | .cbp2 => Sys2Proof.Machine.execCbp2 s
  | .cbp62 => Sys2Proof.Machine.execCbp62 s
  | .cbp24 => Sys2Proof.Machine.execCbp24 s
  | .cbp36 => Sys2Proof.Machine.execCbp36 s
  | .cbp3 => Sys2Proof.Machine.execCbp3 s
  | .cbp63 => Sys2Proof.Machine.execCbp63 s
  | .cbp5 => Sys2Proof.Machine.execCbp5 s
  | .cbp9 => Sys2Proof.Machine.execCbp9 s
  | .cbp17 => Sys2Proof.Machine.execCbp17 s
  | .cbp33 => Sys2Proof.Machine.execCbp33 s
  | .cbp6 => Sys2Proof.Machine.execCbp6 s
  | .cbp10 => Sys2Proof.Machine.execCbp10 s
  | .cbp18 => Sys2Proof.Machine.execCbp18 s
  | .cbp34 => Sys2Proof.Machine.execCbp34 s
  | .cbp7 => Sys2Proof.Machine.execCbp7 s
  | .cbp11 => Sys2Proof.Machine.execCbp11 s
  | .cbp19 => Sys2Proof.Machine.execCbp19 s
  | .cbp35 => Sys2Proof.Machine.execCbp35 s
  | .cbp13 => Sys2Proof.Machine.execCbp13 s
  | .cbp49 => Sys2Proof.Machine.execCbp49 s
  | .cbp21 => Sys2Proof.Machine.execCbp21 s
  | .cbp41 => Sys2Proof.Machine.execCbp41 s
  | .cbp14 => Sys2Proof.Machine.execCbp14 s
  | .cbp50 => Sys2Proof.Machine.execCbp50 s
  | .cbp22 => Sys2Proof.Machine.execCbp22 s
  | .cbp42 => Sys2Proof.Machine.execCbp42 s
  | .cbp15 => Sys2Proof.Machine.execCbp15 s
  | .cbp51 => Sys2Proof.Machine.execCbp51 s
  | .cbp23 => Sys2Proof.Machine.execCbp23 s
  | .cbp43 => Sys2Proof.Machine.execCbp43 s
  | .cbp25 => Sys2Proof.Machine.execCbp25 s
  | .cbp37 => Sys2Proof.Machine.execCbp37 s
  | .cbp26 => Sys2Proof.Machine.execCbp26 s
  | .cbp38 => Sys2Proof.Machine.execCbp38 s
  | .cbp29 => Sys2Proof.Machine.execCbp29 s
  | .cbp45 => Sys2Proof.Machine.execCbp45 s
  | .cbp53 => Sys2Proof.Machine.execCbp53 s
  | .cbp57 => Sys2Proof.Machine.execCbp57 s
  | .cbp30 => Sys2Proof.Machine.execCbp30 s
  | .cbp46 => Sys2Proof.Machine.execCbp46 s
  | .cbp54 => Sys2Proof.Machine.execCbp54 s
  | .cbp58 => Sys2Proof.Machine.execCbp58 s
  | .cbp31 => Sys2Proof.Machine.execCbp31 s
  | .cbp47 => Sys2Proof.Machine.execCbp47 s
  | .cbp55 => Sys2Proof.Machine.execCbp55 s
  | .cbp59 => Sys2Proof.Machine.execCbp59 s
  | .cbp27 => Sys2Proof.Machine.execCbp27 s
  | .cbp39 => Sys2Proof.Machine.execCbp39 s
  -- T_DCL
  | .dcSizeLuma0 => Sys2Proof.Machine.execDcSizeLuma0 s
  | .dcSizeLuma1 => Sys2Proof.Machine.execDcSizeLuma1 s
  | .dcSizeLuma2 => Sys2Proof.Machine.execDcSizeLuma2 s
  | .dcSizeLuma3 => Sys2Proof.Machine.execDcSizeLuma3 s
  | .dcSizeLuma4 => Sys2Proof.Machine.execDcSizeLuma4 s
  | .dcSizeLuma5 => Sys2Proof.Machine.execDcSizeLuma5 s
  | .dcSizeLuma6 => Sys2Proof.Machine.execDcSizeLuma6 s
  | .dcSizeLuma7 => Sys2Proof.Machine.execDcSizeLuma7 s
  | .dcSizeLuma8 => Sys2Proof.Machine.execDcSizeLuma8 s
  -- T_DCC
  | .dcSizeChroma0 => Sys2Proof.Machine.execDcSizeChroma0 s
  | .dcSizeChroma1 => Sys2Proof.Machine.execDcSizeChroma1 s
  | .dcSizeChroma2 => Sys2Proof.Machine.execDcSizeChroma2 s
  | .dcSizeChroma3 => Sys2Proof.Machine.execDcSizeChroma3 s
  | .dcSizeChroma4 => Sys2Proof.Machine.execDcSizeChroma4 s
  | .dcSizeChroma5 => Sys2Proof.Machine.execDcSizeChroma5 s
  | .dcSizeChroma6 => Sys2Proof.Machine.execDcSizeChroma6 s
  | .dcSizeChroma7 => Sys2Proof.Machine.execDcSizeChroma7 s
  | .dcSizeChroma8 => Sys2Proof.Machine.execDcSizeChroma8 s

end Sys2Proof.Machine
end

