-- ==== Sys2Proof/Machine/Fetch.lean ====
section
/-!
DEFINITION. Where the next instruction comes from (log 2, log 5): a code on the command port, or what a test bench
presents for a single step, which goes first. A stream element is read at the cursor without being consumed; its
meaning consumes it.
-/

namespace Sys2Proof.Machine

/-- The window that begins with some bytes, the bits behind them 0. -/
def bytesWindow (bytes : List Byte) : Nat :=
  (List.range 8).foldl (fun n i => n * 256 + (bytes.getD i 0).toNat) 0

/-- The channel of a bench item. -/
def BenchItem.channel (item : BenchItem) : Channel :=
  match item with
  | .unitOp _ => .unitOp
  | .startCode => .startCode
  | .field f => .field f
  | .vlc p => .vlc p

/-- The bits a bench item is decoded from: its own bytes, or the upcoming bits of the stream. -/
def BenchItem.window (item : BenchItem) (s : State) : Nat :=
  match item with
  | .unitOp bytes => bytesWindow bytes
  | .startCode | .field _ | .vlc _ => s.br.window

/-- The table of a place in the stream (44_vlc_decoder.md R270). -/
def placeTable (p : VlcPlace) : Table :=
  match p with
  | .mba => .mba
  | .mbtI => .mbtI
  | .mbtP => .mbtP
  | .mbtB => .mbtB
  | .cbp => .cbp
  | .motion => .motion
  | .dcl => .dcl
  | .dcc => .dcc
  | .coefFirst | .coefNext => .dct

/-- The instruction a bench item stands for. A start code is one only at a byte boundary (20_memory.md R86,
30_encoding.md R121); that a request for one elsewhere is refused is the model's choice (log 5). -/
def BenchItem.fetch (item : BenchItem) (s : State) : Option Instr :=
  if item = .startCode ∧ s.br.bitpos % 8 ≠ 0 then none else decode item.channel (item.window s)

/-- What follows when a bench item is no instruction: bits that match no code word raise `E_VLC_INVALID`
(44_vlc_decoder.md R270); anything else is refused. -/
def noInstruction (item : BenchItem) (s : State) : Host.Outcome State Fault Refusal :=
  match item with
  | .vlc p => .next (faultEntry .vlcInvalid (placeTable p).number s)
  | .unitOp _ => .refused .unassignedUnitOperation
  | .startCode | .field _ => .refused .notUnderCursor

/-- One bench item is taken and run; single steps of stream elements are the model's own (log 5, log 16), and so is that a
single step runs whatever `SESSION` holds (log 34). -/
def runBenchItem (item : BenchItem) (rest : List BenchItem) (s : State) : Host.Outcome State Fault Refusal :=
  match item.fetch s with
  | some i => exec i { s with bench := rest }
  | none => noInstruction item { s with bench := rest }

/-- The next command on the port and the bytes behind it; `CMD_OPEN` is complete with its argument byte
(49_picture_buffers_host.md R410; log 25). -/
def nextCommand (bytes : List Byte) : Option (Instr × List Byte) :=
  match bytes with
  | [] => none
  | [c] => if c = 0x01 then none else (decode .command (bytesWindow [c])).map fun i => (i, [])
  | c :: d :: rest =>
    (decode .command (bytesWindow [c, d])).map fun i => (i, if c = 0x01 then rest else d :: rest)

/-- The next command is taken and run; an idle kernel holds its state (60_exceptions.md R461). -/
def runCommand (s : State) : Host.Outcome State Fault Refusal :=
  match nextCommand s.commands with
  | some (i, rest) => exec i { s with commands := rest }
  | none => .next s

/-- The reader at the start of a stream that holds just these bytes. -/
def loadStream (bytes : List Byte) (r : Reader) : Reader := { r with source := bytes }.rewind

/-- The bytes of an encoded instruction. -/
def codeBytes (c : Code) : List Byte := (windowBytes c.window).take ((c.len + 7) / 8)

/-- The state with an instruction presented where the next step takes its instruction from: a command code on the
command port with the bench empty, a unit operation on the bench, a stream element as the stream itself with the bench
asking for an element at its place (log 2). -/
def present (i : Instr) (s : State) : State :=
  let bytes := codeBytes (encode i)
  match channel i with
  | .command => { s with bench := [], commands := bytes }
  | .unitOp => { s with bench := [.unitOp bytes] }
  | .startCode => { s with br := loadStream bytes s.br, bench := [.startCode] }
  | .field f => { s with br := loadStream bytes s.br, bench := [.field f] }
  | .vlc p => { s with br := loadStream bytes s.br, bench := [.vlc p] }

end Sys2Proof.Machine
end

