-- ==== Sys2Proof/Machine/Step.lean ====
section
/-!
DEFINITION. One step of the kernel: one command, or one single step of a test bench (70_reset_and_hazards.md R489,
60_exceptions.md R460).
-/

namespace Sys2Proof.Machine

/-- One step: the bench's next item if there is one, else the next command, else nothing. -/
def step (s : State) : Host.Outcome State Fault Refusal :=
  match s.bench with
  | item :: rest => runBenchItem item rest s
  | [] => runCommand s

/-- The state with the instruction of a table word presented to the next step; a word that is no instruction changes
nothing. -/
def State.withFetchWord (s : State) (nbits w : Nat) : State :=
  match decodeTableWord nbits w with
  | some i => present i s
  | none => s

end Sys2Proof.Machine
end

