-- ==== Sys2Proof/Safety.lean ====
section
/-!
DEFINITION. The terms in which claims about the machine are stated: the reader at a bit of its stream, codes lying in a
stream, areas of a picture, arithmetic without wrapping, and the invariants that make a run safe. The machine uses none of
it.
-/

namespace Sys2Proof.Machine

/-! ### The stream -/

/-- The reader of a source with `pos` bits consumed: everything in it follows from these two (40_bit_reader.md R170).
Whole bytes are pulled, so 32 bits are held at a byte boundary and one less for every bit past it. -/
def Reader.atBit (source : List Byte) (pos : Nat) : Reader where
  source := source
  srcPos := pos / 8 + 4
  bfr := BitVec.ofNat 32 (streamBits source pos (32 - pos % 8) * 2 ^ (pos % 8))
  incnt := 32 - (pos % 8 : Nat)
  bitpos := pos
  eos := decide (source.length < pos / 8 + 4)

/-- The invariant of R170: the reader is the one its source and its `bitpos` determine. -/
def Reader.InStep (r : Reader) : Prop := r = Reader.atBit r.source r.bitpos

/-- The reader between two pulls of its refill loop: as `InStep`, but holding any number of bits from -7, the most that
were consumed unseen, to 32 (40_bit_reader.md R173, R175). -/
structure Reader.Filling (r : Reader) : Prop where
  count : 8 * (r.srcPos : Int) = r.bitpos + r.incnt
  least : -7 ≤ r.incnt
  most : r.incnt ≤ 32
  bits : r.bfr.toNat = streamBits r.source r.bitpos r.incnt.toNat * 2 ^ (32 - r.incnt.toNat) % 2 ^ 32
  ended : r.eos = decide (r.source.length < r.srcPos)

/-- A start-code prefix lies at byte `k` (40_bit_reader.md R177). -/
def prefixAt (S : List Byte) (k : Nat) : Prop := streamBits S (8 * k) 24 = 1

/-- The first start-code prefix at a byte boundary from a position on begins at byte `k` (40_bit_reader.md R177, R180).
-/
def FirstPrefix (S : List Byte) (pos k : Nat) : Prop :=
  pos ≤ 8 * k ∧ prefixAt S k ∧ ∀ j, pos ≤ 8 * j → j < k → ¬prefixAt S j

/-- The number of extra-information bytes from a position on: as many 1 bits, nine apart, as come before the first 0
(42_header_parser.md R212, 43_macroblock_decoder.md R234). -/
def ExtraBytes (S : List Byte) (pos n : Nat) : Prop :=
  streamBits S (pos + 9 * n) 1 = 0 ∧ ∀ i, i < n → streamBits S (pos + 9 * i) 1 = 1

/-- The state with the cursor at byte `k` of the source and nothing else changed. -/
def State.atByte (s : State) (k : Nat) : State := { s with br := Reader.atBit s.br.source (8 * k) }

/-- The state with the cursor `n` bits further on and nothing else changed. -/
def State.ahead (s : State) (n : Nat) : State := { s with br := Reader.atBit s.br.source (s.br.bitpos + n) }

/-- The `n` bits of the stream that begin `offset` bits after the cursor, first bit most significant. -/
def State.upcoming (s : State) (offset n : Nat) : Nat := streamBits s.br.source (s.br.bitpos + offset) n

/-- Some codes, one behind the other, lie in the stream `offset` bits after the cursor. -/
def State.Holds (s : State) (offset : Nat) : List Code → Prop
  | [] => True
  | c :: rest => s.upcoming offset c.len = c.bits ∧ s.Holds (offset + c.len) rest

/-- The number of bits of some codes. -/
def bitCount : List Code → Nat
  | [] => 0
  | c :: rest => c.len + bitCount rest

/-- The code of an entry of a code table. -/
def rowCode {α : Type} (r : Row α) : Code := ⟨r.len, r.bits⟩

/-- The bit string of `n` bits begins with `code` (for patterns of 44_vlc_decoder.md R283). -/
def beginsWith (n v : Nat) (code : Code) : Prop := code.len ≤ n ∧ v / 2 ^ (n - code.len) = code.bits

/-- The codes that match no code word at a place in the stream, as 44_vlc_decoder.md R283 lists them. -/
def invalidPrefixes (p : VlcPlace) : List Code :=
  match p with
  | .mba =>
    [⟨8, 0b00000000⟩, ⟨11, 0b00000001001⟩, ⟨10, 0b0000000101⟩, ⟨10, 0b0000000110⟩, ⟨11, 0b00000001110⟩, ⟨8, 0b00000010⟩]
  | .mbtI => [⟨2, 0b00⟩]
  | .mbtP | .mbtB => [⟨6, 0b000000⟩]
  | .cbp => [⟨8, 0b00000000⟩]
  | .motion => [⟨7, 0b0000000⟩, ⟨8, 0b00000010⟩]
  | .dcl => [⟨7, 0b1111111⟩]
  | .dcc => [⟨8, 0b11111111⟩]
  | .coefFirst | .coefNext => [⟨12, 0b000000000000⟩]

/-- The entries of a table with their symbols as `VLD_CODE` delivers them. -/
def State.tableRows (s : State) (t : Table) : List (Row VlcSymbol) :=
  match t with
  | .mba => s.params.tables.mba.map fun r => ⟨r.len, r.bits, .mba r.sym⟩
  | .mbtI => s.params.tables.mbtI.map fun r => ⟨r.len, r.bits, .mbType r.sym⟩
  | .mbtP => s.params.tables.mbtP.map fun r => ⟨r.len, r.bits, .mbType r.sym⟩
  | .mbtB => s.params.tables.mbtB.map fun r => ⟨r.len, r.bits, .mbType r.sym⟩
  | .cbp => s.params.tables.cbp.map fun r => ⟨r.len, r.bits, .cbp r.sym⟩
  | .motion => s.params.tables.motion.map fun r => ⟨r.len, r.bits, .magnitude r.sym⟩
  | .dcl => s.params.tables.dcl.map fun r => ⟨r.len, r.bits, .dcSize r.sym⟩
  | .dcc => s.params.tables.dcc.map fun r => ⟨r.len, r.bits, .dcSize r.sym⟩
  | .dct => s.params.tables.dct.map fun r => ⟨r.len, r.bits, .dct r.sym⟩

/-- The type table of the picture type (43_macroblock_decoder.md R241). -/
def State.typeTable (s : State) : List (Row (BitVec 5)) :=
  if s.pic.pictType = 1 then s.params.tables.mbtI else if s.pic.pictType = 2 then s.params.tables.mbtP
  else s.params.tables.mbtB

/-- The size table of a block (45_block_decode_iq.md R301). -/
def State.sizeTable (s : State) (b : BlockNo) : List (Row Nat) :=
  if b.val < 4 then s.params.tables.dcl else s.params.tables.dcc

/-! ### Legal parameters -/

/-- Neither code word is a prefix of the other (44_vlc_decoder.md R270). -/
def Apart {α : Type} (r q : Row α) : Prop :=
  if r.len ≤ q.len then q.bits / 2 ^ (q.len - r.len) ≠ r.bits else r.bits / 2 ^ (r.len - q.len) ≠ q.bits

/-- Code words of 1 to 16 bits, none a prefix of another (44_vlc_decoder.md R270). -/
def PrefixCode {α : Type} (rows : List (Row α)) : Prop :=
  (∀ r ∈ rows, 1 ≤ r.len ∧ r.len ≤ 16) ∧ rows.Pairwise Apart

/-- What the rules rely on of the nine code tables, whatever they are: prefix codes (44_vlc_decoder.md R270); increments
from 1 on, and no stuffing or escape that the end-of-stream fill could repeat for ever (43_macroblock_decoder.md R235,
70_reset_and_hazards.md R490); no vectors in an I-picture, no backward ones in a P-picture, and a direction of every
non-intra macroblock of a B-picture (R242, R251); magnitudes up to 16, sizes up to 8 (R276 to R278); the escape `0000
01`, no pair beginning with the 1 of the short codes, and runs and levels in range (R279 to R282). -/
structure Tables.Legal (t : Config.Tables) : Prop where
  mba : PrefixCode t.mba
  increments : ∀ r ∈ t.mba, ∀ n, r.sym = .increment n → 1 ≤ n
  extensions : ∀ r ∈ t.mba, r.sym = .stuffing ∨ r.sym = .escape → ∀ k, k < 32 → streamBits [] k r.len ≠ r.bits
  mbtI : PrefixCode t.mbtI
  typesI : ∀ r ∈ t.mbtI, hasIntra r.sym = true ∧ hasForward r.sym = false ∧ hasBackward r.sym = false
  mbtP : PrefixCode t.mbtP
  typesP : ∀ r ∈ t.mbtP, hasBackward r.sym = false
  mbtB : PrefixCode t.mbtB
  typesB : ∀ r ∈ t.mbtB, hasIntra r.sym = true ∨ hasForward r.sym = true ∨ hasBackward r.sym = true
  cbp : PrefixCode t.cbp
  motion : PrefixCode t.motion
  magnitudes : ∀ r ∈ t.motion, r.sym ≤ 16
  dcl : PrefixCode t.dcl
  dcc : PrefixCode t.dcc
  sizes : ∀ r ∈ t.dcl ++ t.dcc, r.sym ≤ 8
  dct : PrefixCode t.dct
  escape : ⟨6, 0b000001, .escape⟩ ∈ t.dct
  short : ∀ r ∈ t.dct, r.bits < 2 ^ (r.len - 1)
  pairs : ∀ r ∈ t.dct, ∀ run mag, r.sym = .pair run mag → run ≤ 63 ∧ 1 ≤ mag ∧ mag ≤ 255

/-- Legal parameters: legal tables, and a zig-zag order that begins with the DC and visits no position twice
(10_state.md R63). -/
structure Params.Legal (p : Config.Params) : Prop where
  tables : Tables.Legal p.tables
  first : p.zigzag[0] = 0
  once : p.zigzag.toList.Nodup

/-- The reader is in step with its stream and the parameters are legal: what every rule that decodes relies on. -/
structure State.Decoding (s : State) : Prop where
  reader : s.br.InStep
  params : Params.Legal s.params

/-! ### Presenting instructions -/

/-- The instruction of a command code that takes no argument (30_encoding.md R133). -/
def commandOf (c : Byte) : Instr :=
  if c = 0x02 then .cmdReset
  else if c = 0x03 then .cmdDecodeNext
  else if c = 0x04 then .cmdGetFrame
  else if c = 0x05 then .cmdClose
  else .cmdUndefined c

/-- The bench item that asks for an instruction: the bytes of a unit operation, or the place of a stream element. -/
def benchItem (i : Instr) : Option BenchItem :=
  match channel i with
  | .command => none
  | .unitOp => some (.unitOp (codeBytes (encode i)))
  | .startCode => some .startCode
  | .field f => some (.field f)
  | .vlc p => some (.vlc p)

/-- The instruction, if it is a stream element, lies under the cursor; a start code at a byte boundary (20_memory.md
R86). -/
def State.Shows (s : State) (i : Instr) : Prop :=
  match channel i with
  | .command | .unitOp => True
  | .startCode => s.br.bitpos % 8 = 0 ∧ s.upcoming 0 (encode i).len = (encode i).bits
  | .field _ | .vlc _ => s.upcoming 0 (encode i).len = (encode i).bits

/-- Some instructions run one after the other. -/
def execAll : List Instr → State → Host.Outcome State Machine.Fault Refusal
  | [], s => .next s
  | i :: rest, s =>
    match exec i s with
    | .next t => execAll rest t
    | .fault e => .fault e
    | .refused r => .refused r

/-- The state with a result delivered. -/
def State.answering (s : State) (v : Result) : State := { s with assembly := { s.assembly with result := v } }

/-! ### Values an element stands for -/

/-- The differential of 45_block_decode_iq.md R301, by the ranges of `v`. -/
def differential (size v : Nat) : Int :=
  if size = 0 then 0 else if 2 ^ (size - 1) ≤ v then (v : Int) else (v : Int) - 2 ^ size + 1

/-- A pair and a code of it: an entry of `T_DCT` with its sign bit, the short code of the pair (0, 1), which differs for
the first coefficient of an inter block, or one of the two escapes (44_vlc_decoder.md R279 to R282; 30_encoding.md
R129). -/
def CodesPair (rows : List (Row DctSymbol)) (first : Bool) (run : Nat) (level : Int) (c : Code) : Prop :=
  level ≠ 0 ∧
  ((∃ r ∈ rows, r.sym = .pair run level.natAbs ∧
      c = ⟨r.len + 1, 2 * r.bits + (decide (level < 0)).toNat⟩) ∨
    (run = 0 ∧ level.natAbs = 1 ∧
      c = if first then ⟨2, 0b10 + (decide (level < 0)).toNat⟩ else ⟨3, 0b110 + (decide (level < 0)).toNat⟩) ∨
    (run < 64 ∧ -128 < level ∧ level < 128 ∧ c = ⟨20, (64 + run) * 256 + (level % 256).toNat⟩) ∨
    (run < 64 ∧ 0 < level ∧ level < 256 ∧ c = ⟨28, ((64 + run) * 256 + 0x00) * 256 + level.toNat⟩) ∨
    (run < 64 ∧ -256 ≤ level ∧ level < 0 ∧ c = ⟨28, ((64 + run) * 256 + 0x80) * 256 + (level + 256).toNat⟩))

/-- Each pair of a list with a code of it; `first` speaks of the first pair. -/
def CodePairs (rows : List (Row DctSymbol)) (first : Bool) : List (Nat × Int) → List Code → Prop
  | [], [] => True
  | (run, level) :: ps, c :: cs => CodesPair rows first run level c ∧ CodePairs rows false ps cs
  | [], _ :: _ => False
  | _ :: _, [] => False

/-- The index in transmission order of each pair, `next` being the one after the last coefficient placed
(45_block_decode_iq.md R305, R306). -/
def pairIndexes (next : Nat) : List (Nat × Int) → List (Nat × Int)
  | [] => []
  | (run, level) :: ps => (next + run, level) :: pairIndexes (next + run + 1) ps

/-- The index after some pairs, from the one they begin at. -/
def indexAfter (next : Nat) : List (Nat × Int) → Nat
  | [] => next
  | (run, _) :: ps => indexAfter (next + run + 1) ps

/-- What lies `o` bits after the cursor raises a fault where a coefficient is expected, with `used` bits consumed: no
code word, or an escape with a level of 0 (45_block_decode_iq.md R303, R304). -/
def State.CoefRaises (s : State) (o : Nat) (cause : Cause) (info used : Nat) : Prop :=
  (s.upcoming o 1 = 0 ∧ (∀ r ∈ s.params.tables.dct, s.upcoming o r.len ≠ r.bits) ∧ cause = .vlcInvalid ∧ info = 9 ∧
    used = 0) ∨
  (∃ run, run < 64 ∧ s.upcoming o 28 = (64 + run) * 2 ^ 16 ∧ cause = .escLevelZero ∧ info = run ∧ used = 28)

/-- What lies `o` bits after the cursor raises a fault in block `b` where its pairs have come to index `next`: as
`CoefRaises`, or a pair that carries the index past 63 (45_block_decode_iq.md R307). -/
def State.PairRaises (s : State) (b : BlockNo) (first : Bool) (next o : Nat) (cause : Cause) (info used : Nat) : Prop :=
  s.CoefRaises o cause info used ∨
  ∃ run level c, CodesPair s.params.tables.dct first run level c ∧ s.upcoming o c.len = c.bits ∧ 63 < next + run ∧
    cause = .coefIndex ∧ info = b.val ∧ used = c.len

/-- The magnitude that 45_block_decode_iq.md R311 makes of a product: odd, at most 2047. -/
def oddMagnitude (zero : Config.OddifyZero) (m : Nat) : Nat :=
  if m = 0 then (if zero = .toOne then 1 else 0)
  else if m % 2 = 0 then min (m - 1) 2047 else min m 2047

/-- A value with the sign of another. -/
def withSignOf (level : Int) (m : Nat) : Int := if level < 0 then -(m : Int) else m

/-- `blk` is `old` with each pair, given by its index and level, dequantised at the raster position of its index: with
`QI` in an intra block, `QN` in another (45_block_decode_iq.md R305, R306, R309, R310). -/
def State.PlacesPairs (s : State) (intra : Bool) (pairs : List (Nat × Int)) (old blk : Block) : Prop :=
  (∀ q ∈ pairs, ∃ w, (if intra then s.qi else s.qn)[s.zigzag q.1]? = some w ∧
    blk[s.zigzag q.1]? = some (BitVec.ofInt 16 (withSignOf q.2 (oddMagnitude s.params.oddifyZero
      (if intra then q.2.natAbs * s.work.quantizerScale.toNat * w.toNat / 8
        else (2 * q.2.natAbs + 1) * s.work.quantizerScale.toNat * w.toNat / 16))))) ∧
  (∀ k, k < 64 → (∀ q ∈ pairs, s.zigzag q.1 ≠ k) → blk[k]? = old[k]?)

/-! ### Headers -/

/-- The bits of a picture header before its extra information, by `picture_coding_type` (30_encoding.md R125). -/
def pictureFieldBits (t : Nat) : Nat := if t = 2 then 33 else if t = 3 then 37 else 29

/-- The picture registers that a picture header leaves whose bits begin `o` bits after the cursor (30_encoding.md R125,
42_header_parser.md R212). -/
def State.pictureRegs (s : State) (o : Nat) : PictureRegs :=
  let t := s.upcoming (o + 10) 3
  { pictType := BitVec.ofNat 3 t
    fullPelForward := if t = 2 ∨ t = 3 then s.upcoming (o + 29) 1 == 1 else s.pic.fullPelForward
    forwardCode := if t = 2 ∨ t = 3 then BitVec.ofNat 3 (s.upcoming (o + 30) 3) else s.pic.forwardCode
    fullPelBackward := if t = 3 then s.upcoming (o + 33) 1 == 1 else s.pic.fullPelBackward
    backwardCode := if t = 3 then BitVec.ofNat 3 (s.upcoming (o + 34) 3) else s.pic.backwardCode }

/-- The bits of one half of the matrix part of a sequence header (42_header_parser.md R210). -/
def State.matrixBits (s : State) (o : Nat) : Nat := if s.upcoming o 1 = 1 then 1 + 64 * 8 else 1

/-- `m` is the matrix that the half beginning `o` bits after the cursor leaves: entry `i` of the stream at raster
position `ZIGZAG[i]`, or the default (42_header_parser.md R210). -/
def State.LeavesMatrix (s : State) (o : Nat) (default m : Vector Byte 64) : Prop :=
  ∀ i, i < 64 → m[s.zigzag i]? =
    if s.upcoming o 1 = 1 then some (BitVec.ofNat 8 (s.upcoming (o + 1 + 8 * i) 8)) else default[s.zigzag i]?

/-- The sequence registers as the 62 bits beginning `o` bits after the cursor give them, the derived sizes not yet
computed (30_encoding.md R123, 42_header_parser.md R208). -/
def State.sequenceRegs (s : State) (o : Nat) : SequenceRegs :=
  { s.seq with
    horizontalSize := BitVec.ofNat 12 (s.upcoming o 12)
    verticalSize := BitVec.ofNat 12 (s.upcoming (o + 12) 12)
    aspectRatioCode := BitVec.ofNat 4 (s.upcoming (o + 24) 4)
    frameRateCode := BitVec.ofNat 4 (s.upcoming (o + 28) 4)
    bitRateValue := BitVec.ofNat 18 (s.upcoming (o + 32) 18)
    vbvBufferSize := BitVec.ofNat 10 (s.upcoming (o + 51) 10)
    constrainedParametersFlag := s.upcoming (o + 61) 1 == 1 }

/-- The least multiple of 16 that is not below a size (10_state.md R41). -/
def roundUp16 (n : Nat) : Nat := if n % 16 = 0 then n else n - n % 16 + 16

/-- The sequence registers with the sizes derived and the sequence known (10_state.md R41, R42). -/
def SequenceRegs.known (q : SequenceRegs) : SequenceRegs :=
  { q with
    codedWidth := roundUp16 q.horizontalSize.toNat
    codedHeight := roundUp16 q.verticalSize.toNat
    mbCols := roundUp16 q.horizontalSize.toNat / 16
    mbRows := roundUp16 q.verticalSize.toNat / 16
    seqKnown := true }

/-- The role registers a picture is decoded with (49_picture_buffers_host.md R401, R402). -/
def Roles.forPicture (r : Roles) (pictType : BitVec 3) : Roles :=
  if pictType = 3 then { r with cur := some r.aux } else { r with fwd := r.bwd, bwd := r.fwd, cur := some r.fwd }

/-- The state that `CMD_DECODE_NEXT` leaves once a picture's data has been decoded: `DISP` chosen, a record shown, `OK`
(49_picture_buffers_host.md R405, R407, R417). -/
def State.shown (s : State) : State :=
  let disp := if s.pic.pictType = 3 then s.roles.aux else s.roles.fwd
  { s with
    roles := { s.roles with disp := some disp }
    hpState := .searching
    display :=
      s.display ++ [⟨some disp, s.seq.codedWidth, s.seq.codedWidth / 2, s.seq.codedWidth, s.seq.codedHeight, s.pic.pictType⟩]
    status := { s.status with ret := .ok } }

/-! ### The picture -/

/-- The samples of macroblock `(mbX, mbY)` in a plane (48_prediction_recon.md R387). -/
def inMacroblock (p : Fin 3) (mbX mbY x y : Nat) : Prop :=
  if p = 0 then 16 * mbX ≤ x ∧ x < 16 * mbX + 16 ∧ 16 * mbY ≤ y ∧ y < 16 * mbY + 16
  else 8 * mbX ≤ x ∧ x < 8 * mbX + 8 ∧ 8 * mbY ≤ y ∧ y < 8 * mbY + 8

/-- Two stores of one allocation: the same planes, the same values where nothing was written. -/
def FrameStore.SameAllocation (a b : FrameStore) : Prop :=
  a.width = b.width ∧ a.height = b.height ∧ a.epoch = b.epoch

/-- Every sample of `b` outside macroblock `(mbX, mbY)` of buffer `cur` is what it is in `a`. -/
def FrameStore.AgreeOutside (a b : FrameStore) (cur : Fin 3) (mbX mbY : Nat) : Prop :=
  ∀ f p (x y : Nat), a.inPlane p x y = true → ¬(f = cur ∧ inMacroblock p mbX mbY x y) → b.sample f p x y = a.sample f p x y

/-- The samples a fetch reads lie in the plane (48_prediction_recon.md R374). -/
def FrameStore.Reads (fs : FrameStore) (p : Fin 3) (x y : Int) (hx hy : Bool) : Prop :=
  fs.inPlane p x y = true ∧ fs.inPlane p (x + hx.toNat) (y + hy.toNat) = true

/-- The average of two samples: rounded to nearest, a tie up (48_prediction_recon.md R375), unless the parameter says
otherwise. -/
def mean2 (rule : Config.AverageRule) (a b : Nat) : Nat :=
  match rule with
  | .standard => (a + b + 1) / 2
  | .other which => (Config.otherAverage2 which a b).toNat

/-- The average of four samples (48_prediction_recon.md R376), by the parameter. -/
def mean4 (rule : Config.AverageRule) (a b c d : Nat) : Nat :=
  match rule with
  | .standard => (a + b + c + d + 2) / 4
  | .other which => (Config.otherAverage4 which a b c d).toNat

/-- The value fetched at a position inside the plane, from the samples around it (48_prediction_recon.md R374 to
R376). -/
def FrameStore.interpolated (fs : FrameStore) (par : Config.Params) (r p : Fin 3) (x y : Int) (hx hy : Bool) : Nat :=
  let at_ (i j : Int) : Nat := (fs.sample r p (x + i).toNat (y + j).toNat).toNat
  match hx, hy with
  | false, false => at_ 0 0
  | true, false => mean2 par.avg2 (at_ 0 0) (at_ 1 0)
  | false, true => mean2 par.avg2 (at_ 0 0) (at_ 0 1)
  | true, true => mean4 par.avg4 (at_ 0 0) (at_ 1 0) (at_ 0 1) (at_ 1 1)

/-- The vector component in a plane: whole in luma, halved toward zero in chroma (48_prediction_recon.md R373). -/
def planeVector (p : Fin 3) (v : Int) : Int := if p = 0 then v else v.tdiv 2

/-- What a pass fetches for the sample at `(x, y)` of a plane with a luma vector `(dx, dy)`; `sub` says whether half
positions count (48_prediction_recon.md R371, R377, R378). -/
def FrameStore.PassReads (fs : FrameStore) (p : Fin 3) (sub : Bool) (dx dy : Int) (x y : Nat) : Prop :=
  fs.Reads p (x + planeVector p dx / 2) (y + planeVector p dy / 2) (sub && planeVector p dx % 2 == 1)
    (sub && planeVector p dy % 2 == 1)

/-- The value of such a fetch. -/
def FrameStore.passValue (fs : FrameStore) (par : Config.Params) (r p : Fin 3) (sub : Bool) (dx dy : Int) (x y : Nat) : Nat :=
  fs.interpolated par r p (x + planeVector p dx / 2) (y + planeVector p dy / 2) (sub && planeVector p dx % 2 == 1)
    (sub && planeVector p dy % 2 == 1)

/-- `frames`, `CUR` and the position allow macroblock `(mbX, mbY)` to be written. -/
def State.Targets (s : State) (fs : FrameStore) (cur : Fin 3) (mbX mbY : Nat) : Prop :=
  s.frames = some fs ∧ s.roles.cur = some cur ∧ 16 * mbX + 16 ≤ fs.width ∧ 16 * mbY + 16 ≤ fs.height

/-- The residual in every position of a block whose only coefficient is the DC of a predictor: predictor times 8 in 16
bits, the row pass times 8 in 16 bits, the column pass a 64th of that, clamped (45_block_decode_iq.md R302, 47_idct.md
R353, R360). -/
def flatResidual (pred : BitVec 32) : Int :=
  let dc : BitVec 16 := (pred <<< 3).truncate 16
  let row : BitVec 16 := dc <<< 3
  max (-256) (min 255 ((row.toInt + 32) / 64))

/-- The bits of an intra macroblock of an I-picture in which no block codes a difference and none has a coefficient: the
type, four luma blocks (size 0, end of block), two chroma blocks. -/
def flatIntra : Code := ⟨29, 0b1_10010_10010_10010_10010_0010_0010⟩

/-- What decoding those bits makes of a state: every sample of the macroblock at `MBA` is 128 and the residual of its
component's predictor, every other sample is kept. -/
def State.PaintsFlat (s t : State) : Prop :=
  ∃ fs gs cur, s.frames = some fs ∧ s.roles.cur = some cur ∧
    t =
      { s.ahead 29 with
        work := { s.work with mbType := 1, cbp := 63, prevMotion := ⟨false, false⟩ }
        frames := some gs
        blk := Config.freeBlocks s.draws
        draws := s.draws + 1 } ∧
    fs.SameAllocation gs ∧
    fs.AgreeOutside gs cur (s.work.mba % s.seq.mbCols) (s.work.mba / s.seq.mbCols) ∧
    ∀ p x y, inMacroblock p (s.work.mba % s.seq.mbCols) (s.work.mba / s.seq.mbCols) x y →
      ((gs.sample cur p x y).toNat : Int) = max 0 (min 255 (128 + flatResidual s.work.dcPred[p]))

/-! ### A macroblock and the operations it is made of (43_macroblock_decoder.md R240) -/

/-- A unit operation or field, run alone, completes: it answers `t` with its result delivered. -/
def Does (i : Instr) (s t : State) : Prop := ∃ r, exec i s = .next (t.answering r) ∧ t.assembly = s.assembly

/-- A parsing operation completes. It draws no free value, as a fault entry does for its message (log 10). -/
def Parses (i : Instr) (s t : State) : Prop := Does i s t ∧ t.draws = s.draws

/-- A parsing operation takes a fault and answers `v`. -/
def Raises (i : Instr) (s v : State) : Prop :=
  exec i s = .next v ∧ ∃ c info u, v = faultEntry c info u ∧ u.draws = s.draws

/-- Operations one after the other, each taking its state to the next by `R`. -/
def Sequence (R : Instr → State → State → Prop) : List Instr → State → State → Prop
  | [], s, t => t = s
  | i :: rest, s, t => ∃ u, R i s u ∧ Sequence R rest u t

/-- One of some parsing operations takes a fault and answers `v`; those before it complete. -/
def SequenceRaises : List Instr → State → State → Prop
  | [], _, _ => False
  | i :: rest, s, v => Raises i s v ∨ ∃ u, Parses i s u ∧ SequenceRaises rest u v

/-- The scale of a macroblock of type `t`, which lies under the cursor (R243). -/
def State.scaleOps (s : State) (t : BitVec 5) : List Instr :=
  if hasQuant t then [.macroblockQuantizerScale (BitVec.ofNat 5 (s.upcoming 0 5))] else []

/-- The forward vector (R244). -/
def State.forwardOps (s : State) (t : BitVec 5) : List Instr :=
  if hasForward t then
    [.mvrDecode .forward .x (s.pic.forwardCode - 1) s.pic.fullPelForward,
     .mvrDecode .forward .y (s.pic.forwardCode - 1) s.pic.fullPelForward]
  else []

/-- The backward vector (R245). -/
def State.backwardOps (s : State) (t : BitVec 5) : List Instr :=
  if hasBackward t then
    [.mvrDecode .backward .x (s.pic.backwardCode - 1) s.pic.fullPelBackward,
     .mvrDecode .backward .y (s.pic.backwardCode - 1) s.pic.fullPelBackward]
  else []

/-- All operations between the type of a macroblock and its blocks: scale, vectors, pattern (R243 to R246). -/
def State.headOps (s : State) (t : BitVec 5) : List Instr :=
  s.scaleOps t ++ s.forwardOps t ++ s.backwardOps t ++ if hasPattern t && !hasIntra t then [.vldCbp] else []

/-- The coded blocks, in order (R246, R247). -/
def codedList (cbp : BitVec 6) : List BlockNo := allBlocks.filter (isCoded cbp)

/-- The state before the blocks of a macroblock of type `t`: its pattern, where none was decoded, and all blocks 0
(R246). -/
def State.beforeBlocks (s : State) (t : BitVec 5) : State :=
  { s with
    work := { s.work with cbp := if hasIntra t then 63 else if hasPattern t then s.work.cbp else 0 }
    blk := Vector.replicate 6 (Vector.replicate 64 0) }

/-- The decoding of the coded blocks (R247). -/
def State.blockOps (s : State) (t : BitVec 5) : List Instr :=
  (codedList s.work.cbp).map fun b => if hasIntra t then .seqIntraBlock b else .seqInterBlock b

/-- The state before the prediction of a macroblock of type `t`: an intra one clears vectors by the picture type and
`prev_motion`, any other the DC predictors and, in a P-picture, a forward vector it does not have (R248 to R250). -/
def State.beforePrediction (s : State) (t : BitVec 5) : State :=
  { s with
    work :=
      if hasIntra t then
        { s.work with
          prevMotion := ⟨false, false⟩
          pmv :=
            if s.pic.pictType = 2 then { s.work.pmv with forward := ⟨0, 0⟩ }
            else if s.pic.pictType = 3 then ⟨⟨0, 0⟩, ⟨0, 0⟩⟩
            else s.work.pmv }
      else
        { s.work with
          dcPred := Vector.replicate 3 0
          pmv :=
            if s.pic.pictType = 2 ∧ hasForward t = false then { s.work.pmv with forward := ⟨0, 0⟩ } else s.work.pmv } }

/-- The prediction of macroblock `(X, Y)` of type `t` with the vectors as they stand: none for an intra one; forward in
a P-picture; in a B-picture by the directions, the backward one averaged onto the forward one (R248, R249, R251). -/
def State.predictionOps (s : State) (t : BitVec 5) (X Y : BitVec 8) : List Instr :=
  let form (d : Direction) (v : MotionVector) : Instr := .hpiForm d X Y (BitVec.ofInt 16 v.x) (BitVec.ofInt 16 v.y)
  let average (d : Direction) (v : MotionVector) : Instr :=
    .hpiFormAvg d X Y (BitVec.ofInt 16 v.x) (BitVec.ofInt 16 v.y)
  if hasIntra t then []
  else if s.pic.pictType = 2 then [form .forward s.work.pmv.forward]
  else
    match hasForward t, hasBackward t with
    | true, true => [form .forward s.work.pmv.forward, average .backward s.work.pmv.backward]
    | true, false => [form .forward s.work.pmv.forward]
    | false, _ => [form .backward s.work.pmv.backward]

/-- The state after the prediction: a non-intra macroblock of a B-picture leaves its directions in `prev_motion`
(R252). -/
def State.afterPrediction (s : State) (t : BitVec 5) : State :=
  if hasIntra t = false ∧ s.pic.pictType = 3 then { s with work := { s.work with prevMotion := motionOf t } } else s

/-- The reconstruction of the coded blocks: the transform of each, then put or added (R253). -/
def State.residualOps (s : State) (t : BitVec 5) (X Y : BitVec 8) : List Instr :=
  (codedList s.work.cbp).flatMap fun b =>
    [.idctBlock b, if hasIntra t then .mbtPutIntra b X Y else .mbtAddInter b X Y]

/-! ### The macroblock loop (43_macroblock_decoder.md R238) -/

/-- So many skipped macroblocks, from address `a` on (R239). -/
def skips : Nat → Nat → State → Res Unit
  | 0, _, s => .ok () s
  | n + 1, a, s => (skippedMacroblock a s).bind fun _ s => skips n (a + 1) s

/-- What the macroblock loop of a picture of `total` macroblocks comes to, without any bound on its turns: how it ends,
or what it raises, and the state it leaves (R235 to R239). -/
inductive LoopGives (total : Nat) : State → Res SliceEnd → Prop where
  /-- An address past the picture. -/
  | past (s : State) : total ≤ s.work.mba → LoopGives total s (.ok .done s)
  /-- A macroblock raises. -/
  | raises (s : State) (c : Cause) (info : Nat) (t : State) : s.work.mba < total →
      macroblock s = .raised c info t → LoopGives total s (.raised c info t)
  /-- The last macroblock of the picture. -/
  | last (s u : State) : s.work.mba + 1 = total → macroblock s = .ok () u →
      LoopGives total s (.ok .done { u with work := { u.work with mba := total } })
  /-- 23 zero bits behind a macroblock. -/
  | zeros (s u : State) : s.work.mba + 1 < total → macroblock s = .ok () u → u.upcoming 0 23 = 0 →
      LoopGives total s (.ok .sliceEnd u)
  /-- No further increment. -/
  | noIncrement (s u : State) (c : Cause) (info : Nat) (t : State) : s.work.mba + 1 < total →
      macroblock s = .ok () u → u.upcoming 0 23 ≠ 0 → mbaIncrement u = .raised c info t →
      LoopGives total s (.raised c info t)
  /-- A skipped macroblock raises. -/
  | skipRaises (s u v : State) (inc : Nat) (c : Cause) (info : Nat) (t : State) : s.work.mba + 1 < total →
      macroblock s = .ok () u → u.upcoming 0 23 ≠ 0 → mbaIncrement u = .ok inc v →
      skips (min (inc - 1) (total - s.work.mba - 1)) (s.work.mba + 1) v = .raised c info t →
      LoopGives total s (.raised c info t)
  /-- The run of skipped macroblocks reaches the end of the picture. -/
  | skippedAll (s u v w : State) (inc : Nat) : s.work.mba + 1 < total → macroblock s = .ok () u →
      u.upcoming 0 23 ≠ 0 → mbaIncrement u = .ok inc v → total < s.work.mba + inc →
      skips (total - s.work.mba - 1) (s.work.mba + 1) v = .ok () w →
      LoopGives total s (.ok .done { w with work := { w.work with mba := total } })
  /-- The macroblocks before the next address are skipped, and the loop goes on there. -/
  | further (s u v w : State) (inc : Nat) (r : Res SliceEnd) : s.work.mba + 1 < total →
      macroblock s = .ok () u → u.upcoming 0 23 ≠ 0 → mbaIncrement u = .ok inc v →
      s.work.mba + inc ≤ total → skips (inc - 1) (s.work.mba + 1) v = .ok () w →
      LoopGives total { w with work := { w.work with mba := s.work.mba + inc } } r → LoopGives total s r

/-! ### The IDCT on mathematical integers (47_idct.md R358) -/

/-- The third stage of both passes and the sums before the last scaling. -/
def exactOutputs (x0 x1 x3 x2 x4 x5 x6 x8 : Int) : Eight Int :=
  let s := x8 + x3
  let d := x8 - x3
  let p := x0 + x2
  let q := x0 - x2
  let a := (181 * (x4 + x5) + 128) / 256
  let b := (181 * (x4 - x5) + 128) / 256
  ⟨s + x1, p + a, q + b, d + x6, d - x6, q - b, p - a, s - x1⟩

/-- The row network without any wrapping. -/
def exactRow (v : Eight Int) : Eight Int :=
  let x0 := 2048 * v.e0 + 128
  let x1 := 2048 * v.e4
  let u := 565 * (v.e1 + v.e7)
  let x4 := u + (2841 - 565) * v.e1
  let x5 := u - (2841 + 565) * v.e7
  let w := 2408 * (v.e5 + v.e3)
  let x6 := w - (2408 - 1609) * v.e5
  let x7 := w - (2408 + 1609) * v.e3
  let t := 1108 * (v.e2 + v.e6)
  let x2 := t - (2676 + 1108) * v.e6
  let x3 := t + (2676 - 1108) * v.e2
  exactOutputs (x0 - x1) (x4 + x6) x3 x2 (x4 - x6) (x5 - x7) (x5 + x7) (x0 + x1)

/-- The column network without any wrapping. -/
def exactCol (v : Eight Int) : Eight Int :=
  let x0 := 256 * v.e0 + 8192
  let x1 := 256 * v.e4
  let u := 565 * (v.e1 + v.e7) + 4
  let x4 := (u + (2841 - 565) * v.e1) / 8
  let x5 := (u - (2841 + 565) * v.e7) / 8
  let w := 2408 * (v.e5 + v.e3) + 4
  let x6 := (w - (2408 - 1609) * v.e5) / 8
  let x7 := (w - (2408 + 1609) * v.e3) / 8
  let t := 1108 * (v.e2 + v.e6) + 4
  let x2 := (t - (2676 + 1108) * v.e6) / 8
  let x3 := (t + (2676 - 1108) * v.e2) / 8
  exactOutputs (x0 - x1) (x4 + x6) x3 x2 (x4 - x6) (x5 - x7) (x5 + x7) (x0 + x1)

/-- Eight values as a function of their number. -/
def Eight.nth {α : Type} (v : Eight α) (i : Nat) : α :=
  match i with
  | 0 => v.e0
  | 1 => v.e1
  | 2 => v.e2
  | 3 => v.e3
  | 4 => v.e4
  | 5 => v.e5
  | 6 => v.e6
  | _ => v.e7

/-! ### Invariants -/

/-- A frame store in order: planes of a coded size (10_state.md R41, R72), an allocation already drawn, a memory in
canonical form, and nothing written outside a plane (20_memory.md R95). -/
structure FrameStore.InOrder (fs : FrameStore) (draws : Nat) : Prop where
  width : fs.width % 16 = 0 ∧ 16 ≤ fs.width ∧ fs.width ≤ 4096
  height : fs.height % 16 = 0 ∧ 16 ≤ fs.height ∧ fs.height ≤ 4096
  epoch : fs.epoch < draws
  canonical : Memory.wf fs.mem = true
  inside : ∀ c ∈ fs.mem, ∃ f p x y, fs.inPlane p (x : Nat) (y : Nat) = true ∧ c.1 = sampleAddr f p x y

/-- What every step keeps, single steps of a test bench included: the reader is in step (40_bit_reader.md R170), the
parameters are legal, the roles are a permutation with `AUX` fixed (10_state.md R56), the frame store is in order and
present once the sequence is known (R72), the status registers fit their rules (R58, 60_exceptions.md R432, R442), and
every predictor lies in the range of 10_state.md R52. -/
structure StepInv (s : State) : Prop where
  reader : s.br.InStep
  params : Params.Legal s.params
  roles : s.roles.aux = 2 ∧ s.roles.fwd ≠ 2 ∧ s.roles.bwd ≠ 2 ∧ s.roles.fwd ≠ s.roles.bwd
  frames : ∀ fs, s.frames = some fs → fs.InOrder s.draws
  allocated : s.seq.seqKnown = true → s.frames ≠ none
  eventCount : s.status.evCount = s.status.events.length
  message : s.status.errstr.length ≤ 255 ∧ ∀ b ∈ s.status.errstr, b ≠ 0
  cause : s.status.faultCause ≠ 15 ∧ (s.status.fault = true ↔ s.status.faultCause ≠ 0)
  predictors : ∀ d c, -2048 ≤ s.work.pmv.get d c ∧ s.work.pmv.get d c ≤ 2046

/-- What holds between commands of a kernel that no test bench touches, beside `StepInv` (10_state.md R72,
42_header_parser.md R201, 49_picture_buffers_host.md R415): the frame store has the coded size, the macroblock grid is a
sixteenth of it, a closed session holds no frame store, and the header parser is either searching or at the end. -/
structure KernelInv (s : State) : Prop extends StepInv s where
  noBench : s.bench = []
  parser : s.hpState = .searching ∨ s.hpState = .sequenceEnded
  closed : s.session = .closed → s.seq.seqKnown = false ∧ s.frames = none
  sized : s.seq.seqKnown = true → ∃ fs, s.frames = some fs ∧ fs.width = s.seq.codedWidth ∧
    fs.height = s.seq.codedHeight ∧ s.seq.codedWidth = 16 * s.seq.mbCols ∧ s.seq.codedHeight = 16 * s.seq.mbRows

/-- A step is safe when it answers a state from which the next one is safe again: it neither stops with a fault of the
model nor refuses. -/
def SafeStep (s : State) : Prop := ∃ t, step s = .next t ∧ KernelInv t

end Sys2Proof.Machine
end

