-- ==== Sys2Proof/Certificates/Slice0/Obligations.lean ====
section
/-!
DEFINITION. The statements about the model. `s.br.InStep` is the invariant of the bitstream reader (40_bit_reader.md
R170); `s.Decoding` says besides that the open parameters are legal, the code tables prefix codes among them
(44_vlc_decoder.md R270); `Obligations.StepKeepsInvariant` says that every step keeps both. `s.ahead n` is `s` with the
cursor `n` bits further on; `s.upcoming o n` are the `n` bits that begin `o` bits after the cursor. An equality of states
is also the frame: what it does not name is unchanged.
-/

open Sys2Proof Sys2Proof.Machine

/-! ### Fetching and encoding -/

/-- A step runs what comes next: the decoded item of the bench, else the next command, complete with its argument byte;
with nothing to do it holds the state (49_picture_buffers_host.md R410, 60_exceptions.md R461). A start code asked for
off a byte boundary is none (20_memory.md R86); that the request is then refused is the model's choice (log 5). -/
def Obligations.StepRunsDecodedInstruction : Prop :=
  (∀ (s : State) (item : BenchItem) (rest : List BenchItem) (i : Instr), s.bench = item :: rest →
      (item = .startCode → s.br.bitpos % 8 = 0) → decode item.channel (item.window s) = some i → step s = exec i { s with bench := rest }) ∧
  (∀ (s : State) (rest : List BenchItem), s.bench = .startCode :: rest → s.br.bitpos % 8 ≠ 0 →
      step s = .refused .notUnderCursor) ∧
  (∀ (s : State) (c : Byte) (rest : List Byte), s.bench = [] → s.commands = c :: rest → c ≠ 0x01 →
      step s = exec (commandOf c) { s with commands := rest }) ∧
  (∀ (s : State) (cfg : Byte) (rest : List Byte), s.bench = [] → s.commands = 0x01 :: cfg :: rest →
      step s = exec (.cmdOpen cfg) { s with commands := rest }) ∧
  (∀ s : State, s.bench = [] → s.commands = [] ∨ s.commands = [0x01] → step s = .next s)

/-- A single step runs the element that lies in the stream under the cursor, whatever follows it, a start code at a
byte boundary (20_memory.md R86), and a unit operation from its bytes. -/
def Obligations.StepRunsInstructionUnderCursor : Prop :=
  ∀ (i : Instr) (s : State) (item : BenchItem) (rest : List BenchItem), i.check = true → benchItem i = some item →
    s.bench = item :: rest → s.br.InStep → s.Shows i → step s = exec i { s with bench := rest }

/-- Every well-formed instruction decodes from its code, whatever bits follow it. -/
def Obligations.DecodeInvertsEncode : Prop :=
  ∀ (i : Instr) (tail : Nat), i.check = true → tail < 2 ^ (64 - (encode i).len) →
    decode (channel i) ((encode i).window + tail) = some i

/-- What the decoder answers is a well-formed instruction of the channel, and its code is exactly the bits the window
begins with: no bit of a code is ignored. -/
def Obligations.DecodeIsExact : Prop :=
  ∀ (c : Channel) (w : Nat) (i : Instr), w < 2 ^ 64 → decode c w = some i →
    i.check = true ∧ w / 2 ^ (64 - (encode i).len) = (encode i).bits ∧
      (channel i = c ∨ (c = .vlc .coefFirst ∧ channel i = .vlc .coefNext))

/-- One word of each format, written out from the spec's encoding (30_encoding.md R121 to R134). -/
def Obligations.WrittenWordsDecode : Prop :=
  decode .command (0x01_03 * 2 ^ 48) = some (.cmdOpen 3) ∧
  decode .startCode (0x00_00_01_1F * 2 ^ 32) = some (.scSlice 0x1F) ∧
  decode (.field .bitRateValue) (0b111111111111111111 * 2 ^ 46) = some (.bitRateValue 0x3FFFF) ∧
  decode .unitOp (0x86 * 2 ^ 56) = some .seqMacroblock ∧
  decode (.vlc .mba) (0b00000001000 * 2 ^ 53) = some .mbaEscape ∧
  decode (.vlc .coefNext) (0b011_1 * 2 ^ 60) = some (.coefR1L1 true) ∧
  decode (.vlc .coefFirst) (0b1_1 * 2 ^ 62) = some (.coefFirstR0L1 true) ∧
  decode (.vlc .coefNext) (0b10 * 2 ^ 62) = some .eob ∧
  decode (.vlc .coefNext) (0b000001_000101_00001010 * 2 ^ 44) = some (.coefEscape20 5 10)

/-- The bits at a place in the stream are no code word exactly where 44_vlc_decoder.md R283 says so, and a lookup that
meets such bits raises `E_VLC_INVALID` with the table's number and consumes nothing (R270). -/
def Obligations.InvalidCodeWordsRaise : Prop :=
  (∀ (p : VlcPlace) (w : Nat), w < 2 ^ 64 → (decode (.vlc p) w = none ↔ ∃ c ∈ invalidPrefixes p, beginsWith 64 w c)) ∧
  (∀ (p : VlcPlace) (s : State) (rest : List BenchItem) (c : Code), s.bench = .vlc p :: rest → s.br.InStep →
      c ∈ invalidPrefixes p → s.upcoming 0 c.len = c.bits →
      step s = .next (faultEntry .vlcInvalid (placeTable p).number { s with bench := rest }))

/-- A byte that names no unit operation (30_encoding.md R134) is refused. That a bench can present such bytes, and that
it is refused, is the model's choice: the spec only calls them unassigned (logs 3, 5). -/
def Obligations.UnassignedOperationsAreRefused : Prop :=
  ∀ (s : State) (b : Byte) (more : List Byte) (rest : List BenchItem), s.bench = .unitOp (b :: more) :: rest →
    b.toNat ∉ [0x10, 0x11, 0x12, 0x13, 0x14, 0x15, 0x16, 0x20, 0x21, 0x22, 0x23, 0x24, 0x25, 0x26, 0x27, 0x30, 0x31,
        0x32, 0x33, 0x40, 0x50, 0x51, 0x52, 0x60, 0x61, 0x70, 0x71, 0x72, 0x73, 0x80, 0x81, 0x82, 0x83, 0x84, 0x85,
        0x86, 0x87, 0x88, 0x90, 0x91, 0x92, 0x93] → step s = .refused .unassignedUnitOperation

/-! ### Bitstream reader -/

/-- `peekBits` shows the next bits and, past the `32 - bitpos mod 8` that are held, zeros (40_bit_reader.md R172);
`consumeBits` and `consumeBits1` move the cursor (R173, R174); `getBits` returns the next bits, of any number up to 32
and at any alignment (R176). Operands out of range are refused, which
the model reads from 93_implementation_defined.md U1 (log 23). -/
def Obligations.PeekConsumeAndGet : Prop :=
  (∀ (s : State) (n : BitVec 6), s.br.InStep → 1 ≤ n.toNat → n.toNat ≤ 32 - s.br.bitpos % 8 →
      exec (.brPeek n) s = .next (s.answering (.bits (s.upcoming 0 n.toNat)))) ∧
  (∀ (s : State) (n : BitVec 6), s.br.InStep → 32 - s.br.bitpos % 8 < n.toNat → n.toNat ≤ 32 →
      exec (.brPeek n) s = .next (s.answering
        (.bits (s.upcoming 0 (32 - s.br.bitpos % 8) * 2 ^ (n.toNat - (32 - s.br.bitpos % 8)))))) ∧
  (∀ (s : State) (n : BitVec 6), s.br.InStep → n.toNat ≤ 32 →
      exec (.brConsume n) s = .next ((s.ahead n.toNat).answering .nothing)) ∧
  (∀ s : State, s.br.InStep → exec .brConsume1 s = .next ((s.ahead 1).answering .nothing)) ∧
  (∀ (s : State) (n : BitVec 6), s.br.InStep → n.toNat ≤ 32 →
      exec (.brGet n) s = .next ((s.ahead n.toNat).answering (.bits (s.upcoming 0 n.toNat)))) ∧
  (∀ (s : State) (n : BitVec 6), n = 0 ∨ 32 < n.toNat → exec (.brPeek n) s = .refused .operandOutOfRange) ∧
  (∀ (s : State) (n : BitVec 6), 32 < n.toNat →
      exec (.brConsume n) s = .refused .operandOutOfRange ∧ exec (.brGet n) s = .refused .operandOutOfRange)

/-- `byteAlignToStartCode` always ends, at the first start-code prefix at a byte boundary from the cursor on
(40_bit_reader.md R177, R180); `refill` fills the accumulator whatever number of bits it holds (R175); `brReset`
discards the bits held and pulls four bytes (R171). That `BR_REFILL`, which R175 says is never issued on its own, runs
alone is the model's choice (log 37), and what `BR_RESET` alone counts its reading (log 13). -/
def Obligations.AlignRefillAndReset : Prop :=
  (∀ s : State, s.br.InStep →
      ∃ k, FirstPrefix s.br.source s.br.bitpos k ∧ exec .brAlignSc s = .next ((s.atByte k).answering .nothing)) ∧
  (∀ s : State, s.br.Filling →
      exec .brRefill s = .next ({ s with br := Reader.atBit s.br.source s.br.bitpos }.answering .nothing)) ∧
  (∀ s : State, s.br.InStep → exec .brReset s = .next ((s.ahead (32 - s.br.bitpos % 8)).answering .nothing))

/-! ### Code words as single steps -/

/-- The 35 code words of `T_MBA` (44_vlc_decoder.md R271): an increment is added to the escapes before it, an escape
adds 33, stuffing adds nothing (30_encoding.md R130). -/
def Obligations.MbaCodeWords : Prop :=
  ∀ (i : Instr) (s : State), channel i = .vlc .mba → s.br.InStep →
    ∃ r ∈ tMba, encode i = rowCode r ∧
      exec i s = .next (match r.sym with
        | .increment n =>
          { s.ahead r.len with
            assembly := { s.assembly with increment := 0, result := .increment (s.assembly.increment + n) } }
        | .escape =>
          { s.ahead r.len with assembly := { s.assembly with increment := s.assembly.increment + 33, result := .nothing } }
        | .stuffing => (s.ahead r.len).answering .nothing)

/-- The code words of the three type tables write `mb_type` (44_vlc_decoder.md R272 to R274), those of `T_CBP` write
`cbp` (R275). -/
def Obligations.TypeAndPatternCodeWords : Prop :=
  (∀ (i : Instr) (s : State) (rows : List (Row (BitVec 5))),
      (channel i = .vlc .mbtI ∧ rows = tMbtI) ∨ (channel i = .vlc .mbtP ∧ rows = tMbtP) ∨
        (channel i = .vlc .mbtB ∧ rows = tMbtB) → s.br.InStep →
      ∃ r ∈ rows, encode i = rowCode r ∧
        exec i s = .next ({ s.ahead r.len with work := { s.work with mbType := r.sym } }.answering
          (.symbol (.mbType r.sym)))) ∧
  (∀ (i : Instr) (s : State), channel i = .vlc .cbp → s.br.InStep →
      ∃ r ∈ tCbp, encode i = rowCode r ∧
        exec i s = .next ({ s.ahead r.len with work := { s.work with cbp := r.sym } }.answering (.symbol (.cbp r.sym))))

/-- The code words of `T_MOTION`: a magnitude, then a sign bit unless it is 0 (44_vlc_decoder.md R276); those of `T_DCL`
and `T_DCC` give the size of a differential (R277, R278). -/
def Obligations.MotionAndSizeCodeWords : Prop :=
  (∀ (i : Instr) (s : State), channel i = .vlc .motion → s.br.InStep →
      ∃ r ∈ tMotion, ∃ sgn : Bool,
        encode i = (if r.sym = 0 then rowCode r else signed r.len r.bits sgn) ∧
        exec i s = .next { s.ahead (encode i).len with
          assembly :=
            { s.assembly with
              motionCode := if sgn then -(r.sym : Int) else r.sym
              result := .motion (if sgn then -(r.sym : Int) else r.sym) } }) ∧
  (∀ (i : Instr) (s : State) (rows : List (Row Nat)),
      (channel i = .vlc .dcl ∧ rows = tDcl) ∨ (channel i = .vlc .dcc ∧ rows = tDcc) → s.br.InStep →
      ∃ r ∈ rows, encode i = rowCode r ∧ exec i s = .next ((s.ahead r.len).answering (.dcSize r.sym)))

/-- The coefficient code words: a pair with its sign bit (44_vlc_decoder.md R279), the short codes of the pair (0, 1)
and the end of block (R280, R281), and the escapes, of which a level of 0 raises `E_ESC_LEVEL_ZERO` (R282;
30_encoding.md R129). -/
def Obligations.CoefficientCodeWords : Prop :=
  (∀ (i : Instr) (s : State), channel i = .vlc .coefFirst ∨ channel i = .vlc .coefNext → i ≠ .eob → s.br.InStep →
      (∀ r l, i ≠ .coefEscape20 r l) → (∀ r z l, i ≠ .coefEscape28 r z l) →
      ∃ run level, CodesPair tDct (channel i = .vlc .coefFirst) run level (encode i) ∧
        exec i s = .next ((s.ahead (encode i).len).answering (.coef (.pair run level)))) ∧
  (∀ s : State, s.br.InStep → exec .eob s = .next ((s.ahead 2).answering (.coef .eob))) ∧
  (∀ (s : State) (r : BitVec 6) (l : BitVec 8), s.br.InStep → l ≠ 0 → l ≠ 0x80 →
      exec (.coefEscape20 r l) s = .next ((s.ahead 20).answering (.coef (.pair r.toNat l.toInt)))) ∧
  (∀ (s : State) (r : BitVec 6) (z : Bool) (l : BitVec 8), s.br.InStep → ¬(z = false ∧ l = 0) →
      exec (.coefEscape28 r z l) s =
        .next ((s.ahead 28).answering (.coef (.pair r.toNat (if z then (l.toNat : Int) - 256 else l.toNat))))) ∧
  (∀ (s : State) (r : BitVec 6), s.br.InStep →
      exec (.coefEscape28 r false 0) s = .next (faultEntry .escLevelZero r.toNat (s.ahead 28)))

/-! ### Fields as single steps -/

/-- Each field of a sequence or picture header that has a register writes that register and no other
(42_header_parser.md R208, R212), those of the sequence header only until the sequence is known: then they are read-only
and the bits are skipped (10_state.md R40, 42_header_parser.md R209). Of the fields whose values the kernel skips the
bits are consumed and no register changes (R208, R209, R211, R212; 43_macroblock_decoder.md R234). -/
def Obligations.HeaderFields : Prop :=
  ∀ s : State, s.br.InStep →
    (∀ (i : Instr) (n : Nat),
      (∃ m, i = .markerBit m ∧ n = 1) ∨ (∃ x, i = .sequenceHeaderSkip x ∧ n = 62) ∨
        (∃ t, i = .gopTimeCodeAndFlags t ∧ n = 27) ∨ (∃ t, i = .temporalReference t ∧ n = 10) ∨
        (∃ d, i = .vbvDelay d ∧ n = 16) ∨ (∃ e, i = .extraInformationPicture e ∧ n = 9) ∨
        (∃ e, i = .extraInformationSlice e ∧ n = 9) ∨ (i = .extraBitPictureEnd ∧ n = 1) ∨
        (i = .extraBitSliceEnd ∧ n = 1) →
      exec i s = .next ((s.ahead n).answering .nothing)) ∧
    (∀ v, exec (.horizontalSize v) s =
      .next ({ s.ahead 12 with seq := if s.seq.seqKnown then s.seq else { s.seq with horizontalSize := v } }.answering .nothing)) ∧
    (∀ v, exec (.verticalSize v) s =
      .next ({ s.ahead 12 with seq := if s.seq.seqKnown then s.seq else { s.seq with verticalSize := v } }.answering .nothing)) ∧
    (∀ v, exec (.aspectRatioCode v) s =
      .next ({ s.ahead 4 with seq := if s.seq.seqKnown then s.seq else { s.seq with aspectRatioCode := v } }.answering .nothing)) ∧
    (∀ v, exec (.frameRateCode v) s =
      .next ({ s.ahead 4 with seq := if s.seq.seqKnown then s.seq else { s.seq with frameRateCode := v } }.answering .nothing)) ∧
    (∀ v, exec (.bitRateValue v) s =
      .next ({ s.ahead 18 with seq := if s.seq.seqKnown then s.seq else { s.seq with bitRateValue := v } }.answering .nothing)) ∧
    (∀ v, exec (.vbvBufferSize v) s =
      .next ({ s.ahead 10 with seq := if s.seq.seqKnown then s.seq else { s.seq with vbvBufferSize := v } }.answering .nothing)) ∧
    (∀ v, exec (.constrainedParametersFlag v) s =
      .next ({ s.ahead 1 with seq := if s.seq.seqKnown then s.seq else { s.seq with constrainedParametersFlag := v } }.answering .nothing)) ∧
    (∀ v, exec (.pictureCodingType v) s =
      .next ({ s.ahead 3 with pic := { s.pic with pictType := v } }.answering .nothing)) ∧
    (∀ v, exec (.fullPelForwardVector v) s =
      .next ({ s.ahead 1 with pic := { s.pic with fullPelForward := v } }.answering .nothing)) ∧
    (∀ v, exec (.forwardFCode v) s =
      .next ({ s.ahead 3 with pic := { s.pic with forwardCode := v } }.answering .nothing)) ∧
    (∀ v, exec (.fullPelBackwardVector v) s =
      .next ({ s.ahead 1 with pic := { s.pic with fullPelBackward := v } }.answering .nothing)) ∧
    (∀ v, exec (.backwardFCode v) s =
      .next ({ s.ahead 3 with pic := { s.pic with backwardCode := v } }.answering .nothing))

/-- A clear load flag restores the default matrix (the intra one a parameter, 00_scope.md R7), a set one announces 64
entries; entry `i` goes to raster position `ZIGZAG[i]` (42_header_parser.md R210). -/
def Obligations.MatrixFields : Prop :=
  ∀ s : State, s.br.InStep →
    (∀ l, ∃ m, exec (.loadIntraQuantizerMatrix l) s = .next { s.ahead 1 with
        qi := m, assembly := { s.assembly with matrixIndex := 0, result := .nothing } } ∧
      m = if l then s.qi else s.params.defIntra) ∧
    (∀ l, ∃ m, exec (.loadNonIntraQuantizerMatrix l) s = .next { s.ahead 1 with
        qn := m, assembly := { s.assembly with matrixIndex := 0, result := .nothing } } ∧
      m = if l then s.qn else Vector.replicate 64 16) ∧
    (∀ q, ∃ m, exec (.intraQuantizerMatrixEntry q) s = .next { s.ahead 8 with
        qi := m, assembly := { s.assembly with matrixIndex := s.assembly.matrixIndex + 1, result := .nothing } } ∧
      ∀ k, k < 64 → m[k]? = if k = s.zigzag s.assembly.matrixIndex.toNat then some q else s.qi[k]?) ∧
    (∀ q, ∃ m, exec (.nonIntraQuantizerMatrixEntry q) s = .next { s.ahead 8 with
        qn := m, assembly := { s.assembly with matrixIndex := s.assembly.matrixIndex + 1, result := .nothing } } ∧
      ∀ k, k < 64 → m[k]? = if k = s.zigzag s.assembly.matrixIndex.toNat then some q else s.qn[k]?)

/-- A quantiser scale is written, and 0 raises `E_QSCALE_ZERO` with the register already 0 (43_macroblock_decoder.md
R232, R243; 60_exceptions.md R435). -/
def Obligations.ScaleFields : Prop :=
  ∀ (s : State) (q : BitVec 5), s.br.InStep →
    (q ≠ 0 →
      exec (.sliceQuantizerScale q) s =
        .next ({ s.ahead 5 with work := { s.work with quantizerScale := q } }.answering .nothing) ∧
      exec (.macroblockQuantizerScale q) s =
        .next ({ s.ahead 5 with work := { s.work with quantizerScale := q } }.answering .nothing)) ∧
    exec (.sliceQuantizerScale 0) s =
      .next (faultEntry .qscaleZero 0 { s.ahead 5 with work := { s.work with quantizerScale := 0 } }) ∧
    exec (.macroblockQuantizerScale 0) s =
      .next (faultEntry .qscaleZero 1 { s.ahead 5 with work := { s.work with quantizerScale := 0 } })

/-- The residual of a motion code makes the signed delta (46_motion_vectors.md R334), the bits of a DC differential its
value (45_block_decode_iq.md R301). A residual presented after a code of 0, where the syntax has none, is the model's
own case (log 5). -/
def Obligations.ResidualAndDifferentialFields : Prop :=
  (∀ (s : State) (n : BitVec 3) (r : BitVec 6), s.br.InStep → s.assembly.motionCode ≠ 0 →
      exec (.motionResidual n r) s = .next ((s.ahead n.toNat).answering (.motion
        (withSignOf s.assembly.motionCode ((s.assembly.motionCode.natAbs - 1) * 2 ^ n.toNat + r.toNat + 1))))) ∧
  (∀ (s : State) (n : BitVec 3) (r : BitVec 6), s.br.InStep → s.assembly.motionCode = 0 →
      exec (.motionResidual n r) s = .next ((s.ahead n.toNat).answering (.bits r.toNat))) ∧
  (∀ (s : State) (n : BitVec 4) (d : BitVec 8), s.br.InStep → 1 ≤ n.toNat → n.toNat ≤ 8 → d.toNat < 2 ^ n.toNat →
      exec (.dctDcDifferential n d) s =
        .next ((s.ahead n.toNat).answering (.dcDiff (differential n.toNat d.toNat))))

/-! ### Start codes and headers -/

/-- Start codes without a header of their own: the sequence end (42_header_parser.md R206), the group code and its 27
bits (R203, R211), and every code that is only an event (R205), a slice code outside a picture among them, which is the
model's reading (log 16). That a group code leaves `SEQUENCE_ENDED` too is the model's choice (log 35). -/
def Obligations.StartCodesWithoutFields : Prop :=
  ∀ s : State, s.br.InStep →
    exec .scSequenceEnd s =
      .next ({ s.ahead 32 with hpState := .sequenceEnded }.answering (.header .endOfSequence)) ∧
    exec .scGroup s = .next ({ s.ahead 59 with hpState := .gopSeen }.answering .nothing) ∧
    exec .seqGopHeader s = .next ((s.ahead 27).answering .nothing) ∧
    (∀ (i : Instr) (x : BitVec 8), i = .scUnrecognised x ∨ (i = .scSlice x ∧ s.hpState ≠ .pictureReady) →
      exec i s =
        .next ({ s.ahead 32 with
          status :=
            { s.status with
              evCount := s.status.evCount + 1
              events := s.status.events ++ [BitVec.ofNat 32 (0x100 + x.toNat)] } }.answering .nothing))

/-- A picture header writes the picture registers its type carries and keeps the others, passes over `m` bytes of extra
information and the bit that ends them (42_header_parser.md R212); behind its start code it leaves `PICTURE_READY`
(R204), in `SEQUENCE_ENDED` too, which is the model's choice (log 35). -/
def Obligations.PictureHeader : Prop :=
  ∀ (s : State) (m : Nat), s.br.InStep →
    (ExtraBytes s.br.source (s.br.bitpos + pictureFieldBits (s.upcoming 10 3)) m →
      exec .seqPictureHeader s =
        .next ({ s.ahead (pictureFieldBits (s.upcoming 10 3) + 9 * m + 1) with pic := s.pictureRegs 0 }.answering
          .nothing)) ∧
    (ExtraBytes s.br.source (s.br.bitpos + 32 + pictureFieldBits (s.upcoming 42 3)) m →
      exec .scPicture s =
        .next ({ s.ahead (32 + pictureFieldBits (s.upcoming 42 3) + 9 * m + 1) with
          pic := s.pictureRegs 32, hpState := .pictureReady }.answering (.header .picture)))

/-- The first sequence header of a session, alone or behind its start code: its fields go to their registers, the sizes
are derived, the buffers allocated with no sample written, and both matrices left as the flags say (42_header_parser.md
R208, R210). A size of 0 raises `E_SEQ_PARAM` (R216), an allocation that the oracle denies `E_ALLOC`; both end the
session, with the registers read so far kept (60_exceptions.md R438, R449). That an operation run alone takes the fault
entry (log 6), and that its start code leaves `SEQUENCE_ENDED` too (log 35), are the model's choices. That `ZIGZAG`
visits no position twice is part of `s.Decoding`. -/
def Obligations.FirstSequenceHeader : Prop :=
  ∀ (i : Instr) (s : State) (o w h : Nat), s.Decoding → s.seq.seqKnown = false →
    (i = .seqSequenceHeader ∧ o = 0) ∨ (i = .scSequenceHeader ∧ o = 32) →
    w = s.upcoming o 12 → h = s.upcoming (o + 12) 12 →
    (w ≠ 0 → h ≠ 0 → (roundUp16 w, roundUp16 h) ∉ s.allocDenied →
      ∃ qi qn, s.LeavesMatrix (o + 62) s.params.defIntra qi ∧
        s.LeavesMatrix (o + 62 + s.matrixBits (o + 62)) (Vector.replicate 64 16) qn ∧
        exec i s = .next ({ s.ahead (o + 62 + s.matrixBits (o + 62) + s.matrixBits (o + 62 + s.matrixBits (o + 62))) with
          seq := (s.sequenceRegs o).known
          hpState := if o = 32 then .sequenceSeen else s.hpState
          frames := some ⟨roundUp16 w, roundUp16 h, s.draws, []⟩
          draws := s.draws + 1
          qi := qi
          qn := qn }.answering .nothing)) ∧
    (w = 0 ∨ h = 0 →
      exec i s = .next (faultEntry .seqParam (w * 2 ^ 12 + h) { s.ahead (o + 62) with seq := s.sequenceRegs o })) ∧
    (w ≠ 0 → h ≠ 0 → (roundUp16 w, roundUp16 h) ∈ s.allocDenied →
      exec i s = .next (faultEntry .alloc (roundUp16 w * 2 ^ 16 + roundUp16 h)
        { s.ahead (o + 62) with seq := { (s.sequenceRegs o).known with seqKnown := false } }))

/-- A repeated sequence header passes over its 62 bits unread and leaves both matrices as its flags say; sizes and
buffers stay (42_header_parser.md R209, R210). That its start code leaves `SEQUENCE_ENDED` too is the model's choice
(log 35). That `ZIGZAG` visits no position twice is part of `s.Decoding`. -/
def Obligations.RepeatedSequenceHeader : Prop :=
  ∀ (i : Instr) (s : State) (o : Nat), s.Decoding → s.seq.seqKnown = true →
    (i = .seqSequenceHeader ∧ o = 0) ∨ (i = .scSequenceHeader ∧ o = 32) →
    ∃ qi qn, s.LeavesMatrix (o + 62) s.params.defIntra qi ∧
      s.LeavesMatrix (o + 62 + s.matrixBits (o + 62)) (Vector.replicate 64 16) qn ∧
      exec i s = .next ({ s.ahead (o + 62 + s.matrixBits (o + 62) + s.matrixBits (o + 62 + s.matrixBits (o + 62))) with
        hpState := if o = 32 then .sequenceSeen else s.hpState
        qi := qi
        qn := qn }.answering .nothing)

/-! ### Symbols and values read by unit operations -/

/-- `VLD_CODE` consumes the code word that begins the upcoming bits and delivers its symbol; where none does, it raises
`E_VLC_INVALID` with the table's number and consumes nothing (44_vlc_decoder.md R270). That an operation run
alone takes the fault entry is the model's choice (log 6). -/
def Obligations.VldCode : Prop :=
  ∀ (t : Table) (s : State), s.Decoding →
    (∀ r ∈ s.tableRows t, s.upcoming 0 r.len = r.bits →
      exec (.vldCode t) s = .next ((s.ahead r.len).answering (.symbol r.sym))) ∧
    ((∀ r ∈ s.tableRows t, s.upcoming 0 r.len ≠ r.bits) →
      exec (.vldCode t) s = .next (faultEntry .vlcInvalid t.number s))

/-- `VLD_MBA_INC`: any run of stuffing and escape codes, then an increment; each escape adds 33; where no code word
follows the run, `E_VLC_INVALID` with the number of `T_MBA` is raised (43_macroblock_decoder.md R235). That an operation
run alone takes the fault entry is the model's choice (log 6). -/
def Obligations.VldMbaInc : Prop :=
  ∀ (s : State) (run : List (Row MbaSymbol)), s.Decoding →
    (∀ r ∈ run, r ∈ s.params.tables.mba ∧ (r.sym = .stuffing ∨ r.sym = .escape)) → s.Holds 0 (run.map rowCode) →
    (∀ (r : Row MbaSymbol) (n : Nat), r ∈ s.params.tables.mba → r.sym = .increment n →
      s.upcoming (bitCount (run.map rowCode)) r.len = r.bits →
      exec .vldMbaInc s = .next ((s.ahead (bitCount (run.map rowCode) + r.len)).answering
        (.increment (33 * (run.map Row.sym).count .escape + n)))) ∧
    ((∀ r ∈ s.params.tables.mba, s.upcoming (bitCount (run.map rowCode)) r.len ≠ r.bits) →
      exec .vldMbaInc s = .next (faultEntry .vlcInvalid 1 (s.ahead (bitCount (run.map rowCode)))))

/-- `VLD_MBTYPE` reads the table of the picture type and writes `mb_type` (43_macroblock_decoder.md R241); `VLD_CBP`
reads `T_CBP` and writes `cbp` (R246); `VLD_MOTION_CODE` reads a magnitude of `T_MOTION`, and a sign bit unless it is 0
(46_motion_vectors.md R332). Where no code word is found, each raises `E_VLC_INVALID` with its table's number. That an
operation run alone takes the fault entry is the model's choice (log 6), and so are the latch of the motion code (log
5), the stop of `VLD_MBTYPE` for a picture type without a table (R241; log 18), and that `VLD_CBP` does not look at
`mb_type` (log 37). -/
def Obligations.VldMbTypeCbpAndMotionCode : Prop :=
  (∀ s : State, s.Decoding → s.pic.pictType = 1 ∨ s.pic.pictType = 2 ∨ s.pic.pictType = 3 →
      (∀ r ∈ s.typeTable, s.upcoming 0 r.len = r.bits →
        exec .vldMbtype s = .next ({ s.ahead r.len with work := { s.work with mbType := r.sym } }.answering
          (.symbol (.mbType r.sym)))) ∧
      ((∀ r ∈ s.typeTable, s.upcoming 0 r.len ≠ r.bits) →
        exec .vldMbtype s = .next (faultEntry .vlcInvalid (s.pic.pictType.toNat + 1) s))) ∧
  (∀ s : State, s.pic.pictType ∉ [1, 2, 3] → exec .vldMbtype s = .fault .noTypeTable) ∧
  (∀ s : State, s.Decoding →
      (∀ r ∈ s.params.tables.cbp, s.upcoming 0 r.len = r.bits →
        exec .vldCbp s = .next ({ s.ahead r.len with work := { s.work with cbp := r.sym } }.answering
          (.symbol (.cbp r.sym)))) ∧
      ((∀ r ∈ s.params.tables.cbp, s.upcoming 0 r.len ≠ r.bits) → exec .vldCbp s = .next (faultEntry .vlcInvalid 5 s))) ∧
  (∀ s : State, s.Decoding →
      (∀ r ∈ s.params.tables.motion, s.upcoming 0 r.len = r.bits → ∃ (n : Nat) (v : Int),
        exec .vldMotionCode s =
          .next { s.ahead n with assembly := { s.assembly with motionCode := v, result := .motion v } } ∧
        (r.sym = 0 → n = r.len ∧ v = 0) ∧
        (r.sym ≠ 0 → n = r.len + 1 ∧ v = if s.upcoming r.len 1 = 1 then -(r.sym : Int) else r.sym)) ∧
      ((∀ r ∈ s.params.tables.motion, s.upcoming 0 r.len ≠ r.bits) → exec .vldMotionCode s = .next (faultEntry .vlcInvalid 6 s)))

/-- The DC differential of a block (45_block_decode_iq.md R301), and what it makes of the predictor of the block's
component and of the coefficient: the predictor moves by it, the coefficient is 8 times the predictor (R300, R302).
Where no size is found, both raise `E_VLC_INVALID` with the table's number; that they take
the fault entry when run alone is the model's choice (log 6). -/
def Obligations.DcDifferential : Prop :=
  ∀ (b : BlockNo) (s : State), s.Decoding →
    (∀ r ∈ s.sizeTable b, s.upcoming 0 r.len = r.bits →
      exec (.vldDcDiff b) s =
        .next ((s.ahead (r.len + r.sym)).answering (.dcDiff (differential r.sym (s.upcoming r.len r.sym)))) ∧
      ∃ c : Fin 3, (c.val = if b.val < 4 then 0 else b.val - 3) ∧
        ∃ p, p = s.work.dcPred[c] + BitVec.ofInt 32 (differential r.sym (s.upcoming r.len r.sym)) ∧
          exec (.iqIntraDc b) s =
            .next ({ s.ahead (r.len + r.sym) with
              work := { s.work with dcPred := s.work.dcPred.set c p }
              blk := s.blk.set b (s.blk[b].set 0 ((p <<< 3).truncate 16)) }.answering .nothing)) ∧
    ((∀ r ∈ s.sizeTable b, s.upcoming 0 r.len ≠ r.bits) →
      exec (.vldDcDiff b) s = .next (faultEntry .vlcInvalid (if b.val < 4 then 7 else 8) s) ∧
      exec (.iqIntraDc b) s = .next (faultEntry .vlcInvalid (if b.val < 4 then 7 else 8) s))

/-- `VLD_COEF`: a pair by any code of it, and the end of block, which the first position does not have; bits that are no
code word raise `E_VLC_INVALID`, an escaped level of 0 `E_ESC_LEVEL_ZERO` (45_block_decode_iq.md R303). `VLD_ESCAPE`,
behind the escape code word: a 6-bit run, then a level of 8 bits, or of 8 bits behind a byte 0x00 or 0x80; a level of 0
raises `E_ESC_LEVEL_ZERO` with the run (R304). That operations run alone take the fault entry is the model's choice
(log 6), and so is that they do not look at their place in a block (log 37). -/
def Obligations.VldCoefAndEscape : Prop :=
  (∀ (first : Bool) (s : State) (run : Nat) (level : Int) (c : Code), s.Decoding →
      CodesPair s.params.tables.dct first run level c → s.upcoming 0 c.len = c.bits →
      exec (.vldCoef first) s = .next ((s.ahead c.len).answering (.coef (.pair run level)))) ∧
  (∀ s : State, s.Decoding → s.upcoming 0 2 = 0b10 →
      exec (.vldCoef false) s = .next ((s.ahead 2).answering (.coef .eob))) ∧
  (∀ (first : Bool) (s : State) (cause : Cause) (info used : Nat), s.Decoding → s.CoefRaises 0 cause info used →
      exec (.vldCoef first) s = .next (faultEntry cause info (s.ahead used))) ∧
  (∀ (s : State) (run v lo : Nat), s.br.InStep → s.upcoming 0 6 = run → s.upcoming 6 8 = v → s.upcoming 14 8 = lo →
    (0 < v → v < 0x80 → exec .vldEscape s = .next ((s.ahead 14).answering (.coef (.pair run v)))) ∧
    (0x80 < v → exec .vldEscape s = .next ((s.ahead 14).answering (.coef (.pair run ((v : Int) - 256))))) ∧
    (v = 0x80 → exec .vldEscape s = .next ((s.ahead 22).answering (.coef (.pair run ((lo : Int) - 256))))) ∧
    (v = 0 → 0 < lo → exec .vldEscape s = .next ((s.ahead 22).answering (.coef (.pair run lo)))) ∧
    (v = 0 → lo = 0 → exec .vldEscape s = .next (faultEntry .escLevelZero run (s.ahead 22))))

/-! ### Blocks -/

/-- The inverse quantiser: the magnitude is scaled, made odd and saturated, and takes the sign of the level
(45_block_decode_iq.md R309 to R311, R313). R309 and R310 give a scale of 1 to 31 and a level that is not 0; the results
at a scale or a level of 0 are the model's choice (log 33). -/
def Obligations.Dequantiser : Prop :=
  ∀ (s : State) (level : BitVec 9) (qs : BitVec 5) (w : BitVec 8) (m : BitVec 32),
    exec (.iqIntraAc level qs w) s = .next (s.answering (.dequantised (withSignOf level.toInt
      (oddMagnitude s.params.oddifyZero (level.toInt.natAbs * qs.toNat * w.toNat / 8))))) ∧
    exec (.iqInter level qs w) s = .next (s.answering (.dequantised (withSignOf level.toInt
      (oddMagnitude s.params.oddifyZero ((2 * level.toInt.natAbs + 1) * qs.toNat * w.toNat / 16))))) ∧
    exec (.iqOddsat m) s = .next (s.answering (.dequantised (oddMagnitude s.params.oddifyZero m.toNat)))

/-- "The dequantized coefficient is always odd in absolute value" with `ODDIFY_ZERO = to_one`, never beyond 2047 in
either direction, and has the sign of the level (45_block_decode_iq.md R311 to R313). That a scale of 0, which R309
shuts out, gives such a value too is the model's choice (log 33). -/
def Obligations.DequantisedIsOddAndBounded : Prop :=
  ∀ (s : State) (i : Instr) (level : BitVec 9) (qs : BitVec 5) (w : BitVec 8),
    i = .iqIntraAc level qs w ∨ i = .iqInter level qs w → level ≠ 0 →
    ∃ v : Int, exec i s = .next (s.answering (.dequantised v)) ∧ -2047 ≤ v ∧ v ≤ 2047 ∧
      (s.params.oddifyZero = .toOne → v % 2 = 1) ∧ (v % 2 = 1 ∨ v = 0) ∧ (0 < v → 0 < level.toInt) ∧ (v < 0 → level.toInt < 0)

/-- An intra block: the DC by its differential, then every pair at the next index past its run, dequantised with `QI` at
the same raster position, up to the end of block; nothing else in the block changes (45_block_decode_iq.md R305, R308).
A pair past index 63 raises `E_COEF_INDEX` with the block's number before any store of it (R307), an escaped level of 0
`E_ESC_LEVEL_ZERO`, bits that are no code word `E_VLC_INVALID`; the DC and the pairs before stand in the block. That
the operation run alone takes the fault entry is the model's choice (log 6). So is what it does outside R305's
precondition that the block is all 0 (it runs as written, old entries stay) and at a quantiser scale of 0 (log 33). -/
def Obligations.IntraBlock : Prop :=
  (∀ (b : BlockNo) (s : State) (r : Row Nat) (ps : List (Nat × Int)) (cs : List Code) (o : Nat), s.Decoding →
    r ∈ s.sizeTable b → s.upcoming 0 r.len = r.bits → o = r.len + r.sym →
    CodePairs s.params.tables.dct false ps cs → s.Holds o cs → (∀ q ∈ pairIndexes 1 ps, q.1 ≤ 63) →
    ∃ c : Fin 3, (c.val = if b.val < 4 then 0 else b.val - 3) ∧
    ∃ p blk, p = s.work.dcPred[c] + BitVec.ofInt 32 (differential r.sym (s.upcoming r.len r.sym)) ∧
      blk[0] = (p <<< 3).truncate 16 ∧
      s.PlacesPairs true (pairIndexes 1 ps) (s.blk[b].set 0 ((p <<< 3).truncate 16)) blk ∧
      (s.upcoming (o + bitCount cs) 2 = 0b10 →
        exec (.seqIntraBlock b) s =
          .next ({ s.ahead (o + bitCount cs + 2) with
            work := { s.work with dcPred := s.work.dcPred.set c p }
            blk := s.blk.set b blk }.answering .nothing)) ∧
      ∀ cause info used, s.PairRaises b false (indexAfter 1 ps) (o + bitCount cs) cause info used →
        exec (.seqIntraBlock b) s =
          .next (faultEntry cause info { s.ahead (o + bitCount cs + used) with
            work := { s.work with dcPred := s.work.dcPred.set c p }
            blk := s.blk.set b blk })) ∧
  (∀ (b : BlockNo) (s : State), s.Decoding → (∀ r ∈ s.sizeTable b, s.upcoming 0 r.len ≠ r.bits) →
    exec (.seqIntraBlock b) s = .next (faultEntry .vlcInvalid (if b.val < 4 then 7 else 8) s))

/-- An inter block: at least one pair, the first by its own variant of the table and possibly at index 0, each
dequantised with `QN`; nothing else in the block changes (45_block_decode_iq.md R306, R308). A pair past index 63, an
escaped level of 0 and bits that are no code word raise their faults as in an intra block; the pairs before stand in the
block (R307). That the operation run alone takes the fault entry is the model's choice (log 6). So is what it does
outside R306's preconditions that the block is all 0 and its `cbp` bit set (it runs as written, old entries stay) and at
a quantiser scale of 0 (log 33). -/
def Obligations.InterBlock : Prop :=
  ∀ (b : BlockNo) (s : State) (ps : List (Nat × Int)) (cs : List Code), s.Decoding →
    CodePairs s.params.tables.dct true ps cs → s.Holds 0 cs → (∀ q ∈ pairIndexes 0 ps, q.1 ≤ 63) →
    ∃ blk, s.PlacesPairs false (pairIndexes 0 ps) s.blk[b] blk ∧
      (ps ≠ [] → s.upcoming (bitCount cs) 2 = 0b10 →
        exec (.seqInterBlock b) s =
          .next ({ s.ahead (bitCount cs + 2) with blk := s.blk.set b blk }.answering .nothing)) ∧
      ∀ cause info used, s.PairRaises b (ps.isEmpty) (indexAfter 0 ps) (bitCount cs) cause info used →
        exec (.seqInterBlock b) s =
          .next (faultEntry cause info { s.ahead (bitCount cs + used) with blk := s.blk.set b blk })

/-! ### Motion vectors -/

/-- One vector component: predictor, code, residual, the delta with its sign, one correction into the window, halving
and doubling in full-pel mode; the result replaces the predictor (46_motion_vectors.md R333 to R337, R339). Where no
code word is found, `E_VLC_INVALID` is raised and the predictor keeps its value; that the
operation run alone takes the fault entry is the model's choice (log 6). -/
def Obligations.MotionVectorDecode : Prop :=
  ∀ (d : Direction) (c : Axis) (n : BitVec 3) (fullPel : Bool) (s : State), s.Decoding →
    (∀ r ∈ s.params.tables.motion, s.upcoming 0 r.len = r.bits →
      ∃ (len : Nat) (base vec v : Int),
        exec (.mvrDecode d c n fullPel) s =
          .next ({ s.ahead len with work := { s.work with pmv := s.work.pmv.set d c v } }.answering (.motion v)) ∧
        (base = if fullPel then s.work.pmv.get d c / 2 else s.work.pmv.get d c) ∧
        (v = if fullPel then 2 * vec else vec) ∧
        (r.sym = 0 → len = r.len ∧ vec = base) ∧
        (r.sym ≠ 0 → len = r.len + 1 + n.toNat ∧
          ∃ (delta raw lim : Int), delta = ((r.sym - 1) * 2 ^ n.toNat + s.upcoming (r.len + 1) n.toNat + 1 : Nat) ∧
            lim = 16 * 2 ^ n.toNat ∧ (raw = if s.upcoming r.len 1 = 1 then base - delta else base + delta) ∧
            vec = if lim ≤ raw then raw - 2 * lim else if raw < -lim then raw + 2 * lim else raw)) ∧
    ((∀ r ∈ s.params.tables.motion, s.upcoming 0 r.len ≠ r.bits) →
      exec (.mvrDecode d c n fullPel) s = .next (faultEntry .vlcInvalid 6 s))

/-- A predictor in the window of its mode stays in it, whatever the stream holds (46_motion_vectors.md R340). -/
def Obligations.VectorStaysInWindow : Prop :=
  ∀ (d : Direction) (c : Axis) (n : BitVec 3) (s t : State), s.Decoding → n.toNat ≤ 6 →
    (-(16 * 2 ^ n.toNat) ≤ s.work.pmv.get d c → s.work.pmv.get d c < 16 * 2 ^ n.toNat →
      exec (.mvrDecode d c n false) s = .next t →
      -(16 * 2 ^ n.toNat) ≤ t.work.pmv.get d c ∧ t.work.pmv.get d c < 16 * 2 ^ n.toNat) ∧
    (s.work.pmv.get d c % 2 = 0 → -(32 * 2 ^ n.toNat) ≤ s.work.pmv.get d c → s.work.pmv.get d c < 32 * 2 ^ n.toNat →
      exec (.mvrDecode d c n true) s = .next t →
      t.work.pmv.get d c % 2 = 0 ∧ -(32 * 2 ^ n.toNat) ≤ t.work.pmv.get d c ∧ t.work.pmv.get d c < 32 * 2 ^ n.toNat)

/-! ### IDCT -/

/-- The row pass may be computed on mathematical integers and reduced once at the store, for every input
(47_idct.md R352, R358); the other rows and blocks are kept. -/
def Obligations.IdctRowPass : Prop :=
  ∀ (b : BlockNo) (r : BitVec 3) (s : State), ∃ blk,
    exec (.idctRow b r) s = .next ({ s with blk := s.blk.set b blk }.answering .nothing) ∧
    (∀ i, i < 8 → blk[8 * r.toNat + i]? =
      some (BitVec.ofInt 16 ((exactRow ((gather s.blk[b] (8 * r.toNat) 1).map BitVec.toInt)).nth i / 256))) ∧
    (∀ k, k < 64 → k / 8 ≠ r.toNat → blk[k]? = s.blk[b][k]?)

/-- The column pass on inputs of magnitude at most 9000 is that of mathematical integers, clamped; on any input every
result lies in -256 to 255 (47_idct.md R354 to R356, R358); the other columns and blocks are kept. -/
def Obligations.IdctColumnPass : Prop :=
  ∀ (b : BlockNo) (c : BitVec 3) (s : State), ∃ blk,
    exec (.idctCol b c) s = .next ({ s with blk := s.blk.set b blk }.answering .nothing) ∧
    (∀ i, i < 8 → ∃ v, blk[c.toNat + 8 * i]? = some v ∧ -256 ≤ v.toInt ∧ v.toInt ≤ 255 ∧
      ((∀ j, j < 8 → -9000 ≤ ((gather s.blk[b] c.toNat 8).map BitVec.toInt).nth j ∧
          ((gather s.blk[b] c.toNat 8).map BitVec.toInt).nth j ≤ 9000) →
        v.toInt = max (-256) (min 255
          ((exactCol ((gather s.blk[b] c.toNat 8).map BitVec.toInt)).nth i / 2 ^ 14)))) ∧
    (∀ k, k < 64 → k % 8 ≠ c.toNat → blk[k]? = s.blk[b][k]?)

/-- The block transform is the eight row passes, then the eight column passes (47_idct.md R357); every entry it leaves
is in -256 to 255, for every input whatever (R356). A block with a DC coefficient only becomes uniform: `D << 3` after
the row pass, `(... + 32) >> 6` clamped after the column pass (R360). -/
def Obligations.IdctBlockTransform : Prop :=
  ∀ (b : BlockNo) (s : State),
    exec (.idctBlock b) s = execAll
      [.idctRow b 0, .idctRow b 1, .idctRow b 2, .idctRow b 3, .idctRow b 4, .idctRow b 5, .idctRow b 6, .idctRow b 7,
       .idctCol b 0, .idctCol b 1, .idctCol b 2, .idctCol b 3, .idctCol b 4, .idctCol b 5, .idctCol b 6, .idctCol b 7] s ∧
    ∃ blk, exec (.idctBlock b) s = .next ({ s with blk := s.blk.set b blk }.answering .nothing) ∧
      (∀ k, k < 64 → ∃ v, blk[k]? = some v ∧ -256 ≤ v.toInt ∧ v.toInt ≤ 255) ∧
      ∀ D : Int, -2048 ≤ D → D ≤ 2047 → s.blk[b][0] = BitVec.ofInt 16 D →
        (∀ k, 0 < k → k < 64 → s.blk[b][k]? = some 0) →
        blk = Vector.replicate 64 (BitVec.ofInt 16 (max (-256) (min 255 ((8 * D + 32) / 64))))

/-! ### Prediction and reconstruction -/

/-- A byte of the frame store reads as the one last written; every other sample of every plane keeps its value
(20_memory.md R93). -/
def Obligations.SampleReadsAsWritten : Prop :=
  ∀ (fs : FrameStore) (d : Nat) (f p : Fin 3) (x y : Nat) (v : Byte), fs.InOrder d → fs.inPlane p x y = true →
    ((fs.write f p x y v).read d f p x y).1 = v ∧ (fs.write f p x y v).InOrder d ∧
      ∀ (g q : Fin 3) (u w : Nat), fs.inPlane q u w = true → (g, q, u, w) ≠ (f, p, x, y) →
        (fs.write f p x y v).read d g q u w = fs.read d g q u w

/-- `formPrediction` writes the macroblock in `CUR`, every sample from the reference at the vector's offset,
interpolated by its half flags if `RECON_SUBPIXEL` is set (48_prediction_recon.md R372 to R377); `formAvgPrediction`
averages the same fetch, governed by `RECON_AVG_SUBPIXEL`, into what the macroblock holds (R375, R378, R379). Neither
writes anything else; a sample fetched from outside a plane is free (20_memory.md R94). With a reference that is `CUR`,
which R372 shuts out, both complete and keep to their macroblock: the model's reading (log 19). That the average runs
from either reference and without a prediction before it is the model's choice (log 37). Without a frame store,
without a current buffer or at a position outside the picture they stop (10_state.md R55, R56, 20_memory.md R95; log
18). -/
def Obligations.FormPrediction : Prop :=
  (∀ (s : State) (fs : FrameStore) (cur : Fin 3) (ref : Direction) (mbX mbY : BitVec 8) (dx dy : BitVec 16) (avg sub : Bool),
    StepInv s → s.Targets fs cur mbX.toNat mbY.toNat → sub = s.cfg.getLsbD (if avg then 1 else 0) →
    ∃ gs d, exec (if avg then .hpiFormAvg ref mbX mbY dx dy else .hpiForm ref mbX mbY dx dy) s =
        .next ({ s with frames := some gs, draws := d }.answering .nothing) ∧
      s.draws ≤ d ∧ fs.SameAllocation gs ∧ fs.AgreeOutside gs cur mbX.toNat mbY.toNat ∧
      (s.reference ref ≠ cur → ∀ p x y, inMacroblock p mbX.toNat mbY.toNat x y →
        fs.PassReads p sub dx.toInt dy.toInt x y →
        (gs.sample cur p x y).toNat =
          if avg then mean2 s.params.avg2 (fs.sample cur p x y).toNat (
            fs.passValue s.params (s.reference ref) p sub dx.toInt dy.toInt x y)
          else fs.passValue s.params (s.reference ref) p sub dx.toInt dy.toInt x y)) ∧
  (∀ (s : State) (i : Instr) (mbX mbY : BitVec 8), (∃ ref dx dy, i = .hpiForm ref mbX mbY dx dy ∨
      i = .hpiFormAvg ref mbX mbY dx dy) →
    (s.frames = none → exec i s = .fault .noFrameStore) ∧
    ∀ fs, s.frames = some fs → (s.roles.cur = none → exec i s = .fault .noCurrentBuffer) ∧
      ∀ cur, s.roles.cur = some cur → ¬s.Targets fs cur mbX.toNat mbY.toNat → exec i s = .fault .outsidePlane)

/-- `putIntraBlock` writes the 64 samples of a block as 128 and the residual, `addInterBlock` adds the residual to what
stands there, both clamped to 0 to 255, and neither writes anything else (48_prediction_recon.md R385 to R387). They
stop where the predictions do (log 18). That they look neither for a transform nor for a prediction before them is the
model's choice (log 37). -/
def Obligations.PutAndAddBlock : Prop :=
  (∀ (s : State) (fs : FrameStore) (cur : Fin 3) (b : BlockNo) (mbX mbY : BitVec 8) (intra : Bool) (p : Fin 3)
    (x0 y0 : Nat), StepInv s → s.Targets fs cur mbX.toNat mbY.toNat → (p, x0, y0) = blockOrigin b mbX.toNat mbY.toNat →
    ∃ gs, exec (if intra then .mbtPutIntra b mbX mbY else .mbtAddInter b mbX mbY) s =
        .next ({ s with frames := some gs }.answering .nothing) ∧ fs.SameAllocation gs ∧
      (∀ i j, i < 8 → j < 8 → ∃ v, s.blk[b][8 * j + i]? = some v ∧
        ((gs.sample cur p (x0 + i) (y0 + j)).toNat : Int) =
          max 0 (min 255 (((if intra then 128 else (fs.sample cur p (x0 + i) (y0 + j)).toNat : Nat) : Int) + v.toInt))) ∧
      (∀ f q (x y : Nat), fs.inPlane q x y = true →
        ¬(f = cur ∧ q = p ∧ x0 ≤ x ∧ x < x0 + 8 ∧ y0 ≤ y ∧ y < y0 + 8) → gs.sample f q x y = fs.sample f q x y)) ∧
  (∀ (s : State) (i : Instr) (b : BlockNo) (mbX mbY : BitVec 8), i = .mbtPutIntra b mbX mbY ∨ i = .mbtAddInter b mbX mbY →
    (s.frames = none → exec i s = .fault .noFrameStore) ∧
    ∀ fs, s.frames = some fs → (s.roles.cur = none → exec i s = .fault .noCurrentBuffer) ∧
      ∀ cur, s.roles.cur = some cur → ¬s.Targets fs cur mbX.toNat mbY.toNat → exec i s = .fault .outsidePlane)

/-- A skipped macroblock of a P-picture is a copy of the co-located one of `FWD`, whatever `CFG` says; it clears the DC
predictors and the forward vector (43_macroblock_decoder.md R255, 48_prediction_recon.md R388). The position is that of
10_state.md R28, free while no macroblock grid is known (log 32). That the operation runs so alone in a picture of any
type is the model's choice (log 37). -/
def Obligations.SkippedMacroblockInP : Prop :=
  ∀ (s t : State) (fs : FrameStore) (cur : Fin 3) (a : BitVec 16) (X Y : Nat), StepInv s →
    s.gridPosition a.toNat = ((X, Y), t) → s.Targets fs cur X Y →
    (s.seq.mbCols ≠ 0 → X = a.toNat % s.seq.mbCols ∧ Y = a.toNat / s.seq.mbCols ∧ t = s) ∧
    ∃ gs, exec (.mbtSkipP a) s =
        .next ({ t with
          work :=
            { s.work with
              dcPred := Vector.replicate 3 0
              pmv := { s.work.pmv with forward := ⟨0, 0⟩ } }
          frames := some gs }.answering .nothing) ∧
      fs.SameAllocation gs ∧ fs.AgreeOutside gs cur X Y ∧
      ∀ p x y, inMacroblock p X Y x y → gs.sample cur p x y = fs.sample s.roles.fwd p x y

/-- A skipped macroblock of a B-picture is the prediction that the unit operations form with the vectors as they stand,
in the directions of `prev_motion`; it clears the DC predictors alone (43_macroblock_decoder.md R251, R256,
48_prediction_recon.md R389). Without a direction it raises `E_B_NO_MOTION` with `MBA` (60_exceptions.md R446); that it
takes the fault entry when run alone is the model's choice (log 6), and so is that it runs so in a picture of any type
(log 37). The position is that of 10_state.md R28, free while no macroblock grid is known (log 32). -/
def Obligations.SkippedMacroblockInB : Prop :=
  ∀ (s t u : State) (fs : FrameStore) (cur : Fin 3) (a : BitVec 16) (X Y : BitVec 8) (fx fy bx by' : BitVec 16), StepInv s →
    s.gridPosition a.toNat = ((X.toNat, Y.toNat), t) → s.Targets fs cur X.toNat Y.toNat → u = { t with work := { s.work with dcPred := Vector.replicate 3 0 } } →
    fx.toInt = s.work.pmv.forward.x → fy.toInt = s.work.pmv.forward.y → bx.toInt = s.work.pmv.backward.x →
    by'.toInt = s.work.pmv.backward.y →
    (s.seq.mbCols ≠ 0 → X.toNat = a.toNat % s.seq.mbCols ∧ Y.toNat = a.toNat / s.seq.mbCols ∧ t = s) ∧
    (s.work.prevMotion = ⟨false, false⟩ → exec (.mbtSkipB a) s = .next (faultEntry .bNoMotion s.work.mba u)) ∧
    (s.work.prevMotion ≠ ⟨false, false⟩ →
      (∃ gs d, exec (.mbtSkipB a) s = .next ({ u with frames := some gs, draws := d }.answering .nothing) ∧
        fs.SameAllocation gs ∧ fs.AgreeOutside gs cur X.toNat Y.toNat) ∧
      exec (.mbtSkipB a) s = execAll (match s.work.prevMotion with
        | ⟨true, true⟩ => [.hpiForm .forward X Y fx fy, .hpiFormAvg .backward X Y bx by']
        | ⟨true, false⟩ => [.hpiForm .forward X Y fx fy]
        | ⟨false, _⟩ => [.hpiForm .backward X Y bx by']) u)

/-! ### Macroblocks, slices, pictures -/

/-- `SEQ_MACROBLOCK` is its unit operations in the order of 43_macroblock_decoder.md R240, in every picture type: the
type; scale, vectors and pattern as the type has them (R243 to R246); the six blocks zeroed and the coded ones decoded
(R246, R247); the resets (R248 to R250); the prediction with the vectors as they then stand (R249, R251) and
`prev_motion` (R252); each coded block transformed and put or added (R253). A fault of any parsing operation is the
fault of the whole. The blocks are then discarded, which the model says by free ones (log 9; 10_state.md R51); the
position is that of 10_state.md R28, free while no macroblock grid is known (log 32). For a picture type without a type
table and a vector with a range code of 0 it stops (log 18).

So an intra macroblock of an I-picture whose blocks code no difference consumes its 29 bits, writes `mb_type` and `cbp`,
and paints the macroblock with 128 and the residual of the predictors. -/
def Obligations.Macroblock : Prop :=
  (∀ s : State, s.pic.pictType ∉ [1, 2, 3] → exec .seqMacroblock s = .fault .noTypeTable) ∧
  (∀ s : State, StepInv s → s.pic.pictType ∈ [1, 2, 3] →
    (∀ v, Raises .vldMbtype s v → exec .seqMacroblock s = .next v) ∧
    ∀ (a : State) (t : BitVec 5), Parses .vldMbtype s a → t = a.work.mbType →
      (∀ b, Sequence Parses (a.scaleOps t) a b → hasForward t = true → s.pic.forwardCode = 0 →
        exec .seqMacroblock s = .fault .noRangeSize) ∧
      ((hasForward t = true → s.pic.forwardCode ≠ 0) →
        (∀ b, Sequence Parses (a.scaleOps t ++ a.forwardOps t) a b → hasBackward t = true → s.pic.backwardCode = 0 →
          exec .seqMacroblock s = .fault .noRangeSize) ∧
        ((hasBackward t = true → s.pic.backwardCode ≠ 0) →
          (∀ v, SequenceRaises (a.headOps t) a v → exec .seqMacroblock s = .next v) ∧
          ∀ b c, Sequence Parses (a.headOps t) a b → c = b.beforeBlocks t →
            (∀ v, SequenceRaises (c.blockOps t) c v → exec .seqMacroblock s = .next v) ∧
            ∀ (d e f g : State) (X Y : BitVec 8), Sequence Parses (c.blockOps t) c d →
              d.gridPosition d.work.mba = ((X.toNat, Y.toNat), e) →
              Sequence Does ((e.beforePrediction t).predictionOps t X Y) (e.beforePrediction t) f →
              Sequence Does ((f.afterPrediction t).residualOps t X Y) (f.afterPrediction t) g →
              exec .seqMacroblock s =
                .next ({ g with blk := Config.freeBlocks g.draws, draws := g.draws + 1 }.answering .nothing)))) ∧
  (∀ (s : State) (fs : FrameStore) (cur : Fin 3), StepInv s → s.params.tables = defaultTables → s.pic.pictType = 1 →
    s.seq.mbCols ≠ 0 → s.Targets fs cur (s.work.mba % s.seq.mbCols) (s.work.mba / s.seq.mbCols) →
    s.Holds 0 [flatIntra] → ∃ t, s.PaintsFlat t ∧ exec .seqMacroblock s = .next (t.answering .nothing))

/-- What the blocks hold before `SEQ_MACROBLOCK` has no influence on anything it does (43_macroblock_decoder.md R246,
70_reset_and_hazards.md R487): two runs that differ in `BLK` alone end alike but for `BLK`. -/
def Obligations.BlocksBeforeAMacroblockDoNotMatter : Prop :=
  ∀ (s t : State) (old : Vector Block 6), exec .seqMacroblock s = .next t →
    ∃ t', exec .seqMacroblock { s with blk := old } = .next t' ∧ { t' with blk := t.blk } = t

/-- A slice resets its registers, reads its scale, passes over `m` bytes of extra information and takes its first
address from its row and the increment, generating no skipped macroblock (43_macroblock_decoder.md R231 to R234); from
there it is the macroblock loop, which an address past the picture ends with `DONE` (R236, R238). A scale of 0 raises
`E_QSCALE_ZERO`, bits that are no increment `E_VLC_INVALID`. A slice code runs so inside a picture only (log 16); that a
slice run alone takes the fault entry is the model's choice (log 6), and so is that `SEQ_SLICE` run alone takes the row
from any 32 bits. In row 0, which R231 shuts out, the address of R233 stands where it is a natural number, and a free one
elsewhere (log 36). -/
def Obligations.SliceHeader : Prop :=
  ∀ (i : Instr) (s u : State) (row total : Nat) (q : BitVec 5) (m : Nat), s.Decoding →
    (∃ t : BitVec 24, i = .seqSlice t ∧ total = t.toNat ∧ row = s.upcoming 0 32 % 256) ∨
      (∃ x : BitVec 8, i = .scSlice x ∧ s.hpState = .pictureReady ∧ total = s.seq.mbCols * s.seq.mbRows ∧
        row = x.toNat) →
    q.toNat = s.upcoming 32 5 →
    u = { s with
      work :=
        { s.work with
          quantizerScale := q
          dcPred := Vector.replicate 3 0
          pmv := ⟨⟨0, 0⟩, ⟨0, 0⟩⟩
          prevMotion := ⟨false, false⟩ } } →
    (q = 0 → exec i s = .next (faultEntry .qscaleZero 0 (u.ahead 37))) ∧
    (q ≠ 0 → ExtraBytes s.br.source (s.br.bitpos + 37) m →
      (∀ c info v, mbaIncrement (u.ahead (38 + 9 * m)) = .raised c info v →
        exec i s = .next (faultEntry c info v)) ∧
      ∀ inc v, mbaIncrement (u.ahead (38 + 9 * m)) = .ok inc v →
        ∀ w,
          (1 ≤ row → w = { v with work := { v.work with mba := (row - 1) * s.seq.mbCols + inc - 1 } }) →
          (row = 0 → s.seq.mbCols < inc → w = { v with work := { v.work with mba := inc - s.seq.mbCols - 1 } }) →
          (row = 0 → inc ≤ s.seq.mbCols →
            w = { v with work := { v.work with mba := Config.freeAddress v.draws }, draws := v.draws + 1 }) →
          (total ≤ w.work.mba → exec i s = .next (w.answering (.slice .done))) ∧
          (∀ e x, LoopGives total w (.ok e x) → exec i s = .next (x.answering (.slice e))) ∧
          (∀ c info x, LoopGives total w (.raised c info x) → exec i s = .next (faultEntry c info x)))

/-- The macroblock loop (43_macroblock_decoder.md R238) of `SEQ_SLICE` behind a slice header of one code each. It comes
to what `LoopGives` says, without any bound on its turns: `SLICE_END` at 23 zero bits (R237), `DONE` at the end of the
picture (R236), else a further increment, the macroblocks before the new address skipped in rising order (R239), a fault
of any part the fault of the whole. In an I-picture the first skipped macroblock raises `E_SKIP_IN_I` with its address
(R257). So over the last macroblock of a picture, an intra one of an I-picture that codes no difference, the macroblock
is painted with the predictors at 0, `MBA` moves past it and the slice ends with `DONE`; the blocks are then free (log
9; 10_state.md R51), and nothing else changes. Taking the fault entry in a slice run alone is the model's choice (log
6), and so are a start code off a byte boundary and a `total` other than that of the picture (log 36). -/
def Obligations.MacroblockLoop : Prop :=
  ∀ (s u : State) (total : BitVec 24) (row n : Nat) (q : BitVec 5) (r : Row MbaSymbol),
    StepInv s → 1 ≤ row → row ≤ 0xAF → q ≠ 0 → r ∈ s.params.tables.mba → r.sym = .increment n →
    s.Holds 0 [⟨32, 0x100 + row⟩, ⟨5, q.toNat⟩, ⟨1, 0⟩, rowCode r] →
    u = { s.ahead (38 + r.len) with
      work :=
        { s.work with
          quantizerScale := q
          dcPred := Vector.replicate 3 0
          pmv := ⟨⟨0, 0⟩, ⟨0, 0⟩⟩
          prevMotion := ⟨false, false⟩
          mba := (row - 1) * s.seq.mbCols + n - 1 } } →
    (∀ e x, LoopGives total.toNat u (.ok e x) → exec (.seqSlice total) s = .next (x.answering (.slice e))) ∧
    (∀ c info x, LoopGives total.toNat u (.raised c info x) → exec (.seqSlice total) s = .next (faultEntry c info x)) ∧
    (∀ v w inc, s.pic.pictType = 1 → u.work.mba + 1 < total.toNat → macroblock u = .ok () v → v.upcoming 0 23 ≠ 0 →
      mbaIncrement v = .ok inc w → 1 < inc →
      exec (.seqSlice total) s = .next (faultEntry .skipInI (u.work.mba + 1) w)) ∧
    (∀ fs cur, s.params.tables = defaultTables → s.pic.pictType = 1 → s.seq.mbCols ≠ 0 →
      s.upcoming (38 + r.len) flatIntra.len = flatIntra.bits → total.toNat = u.work.mba + 1 →
      s.Targets fs cur (u.work.mba % s.seq.mbCols) (u.work.mba / s.seq.mbCols) →
      ∃ t, u.PaintsFlat t ∧ exec (.seqSlice total) s =
        .next ({ t with work := { t.work with mba := u.work.mba + 1 } }.answering (.slice .done)))

/-- The slice loop of a picture (43_macroblock_decoder.md R230): at the next start code it ends without consuming it
unless that is a slice code; after a slice that ended it goes on; a fault in a slice abandons the whole picture (R258).
That it takes the fault entry when run alone is the model's choice (log 6), and so is that it runs without the checks
and the rotation of R417 before it (log 37). -/
def Obligations.PictureDataLoop : Prop :=
  ∀ (s : State) (k : Nat), s.Decoding → FirstPrefix s.br.source s.br.bitpos k →
    (streamBits s.br.source (8 * k) 32 < 0x101 ∨ 0x1AF < streamBits s.br.source (8 * k) 32 →
      exec .seqPictureData s = .next ((s.atByte k).answering .nothing)) ∧
    (0x101 ≤ streamBits s.br.source (8 * k) 32 → streamBits s.br.source (8 * k) 32 ≤ 0x1AF →
      (∀ t, sliceDecode (s.seq.mbCols * s.seq.mbRows) (s.atByte k) = .ok .done t →
        exec .seqPictureData s = .next (t.answering .nothing)) ∧
      (∀ t, sliceDecode (s.seq.mbCols * s.seq.mbRows) (s.atByte k) = .ok .sliceEnd t →
        exec .seqPictureData s = exec .seqPictureData t) ∧
      (∀ c info t, sliceDecode (s.seq.mbCols * s.seq.mbRows) (s.atByte k) = .raised c info t →
        exec .seqPictureData s = .next (faultEntry c info t)))

/-- The search for the next picture (42_header_parser.md R200, R202 to R206): an end code ends it, a picture header ends
it, a sequence or group header and any other code, which is an event, let it go on. That a fault of a sequence header
takes the fault entry when the search is run alone is the model's choice (log 6), and so is that the search run alone in
`SEQUENCE_ENDED` goes on as in any other state (log 35). -/
def Obligations.HeaderSearch : Prop :=
  ∀ (s u : State) (k code : Nat), s.br.InStep → FirstPrefix s.br.source s.br.bitpos k →
    code = streamBits s.br.source (8 * k) 32 → u = (s.atByte k).ahead 32 →
    (code = 0x1B7 → exec .seqNextHeader s =
      .next ({ u with hpState := .sequenceEnded }.answering (.header .endOfSequence))) ∧
    (code = 0x100 → ∀ m, ExtraBytes u.br.source (u.br.bitpos + pictureFieldBits (u.upcoming 10 3)) m →
      exec .seqNextHeader s =
        .next ({ u.ahead (pictureFieldBits (u.upcoming 10 3) + 9 * m + 1) with
          pic := u.pictureRegs 0, hpState := .pictureReady }.answering (.header .picture))) ∧
    (code = 0x1B8 → exec .seqNextHeader s = exec .seqNextHeader { u.ahead 27 with hpState := .gopSeen }) ∧
    (code = 0x1B3 → ∀ t, sequenceHeader u = .ok () t →
      exec .seqNextHeader s = exec .seqNextHeader { t with hpState := .sequenceSeen }) ∧
    (code = 0x1B3 → ∀ c info t, sequenceHeader u = .raised c info t →
      exec .seqNextHeader s = .next (faultEntry c info t)) ∧
    (code ∉ [0x100, 0x1B3, 0x1B7, 0x1B8] → exec .seqNextHeader s = exec .seqNextHeader
      { u with
        status :=
          { u.status with
            evCount := u.status.evCount + 1
            events := u.status.events ++ [BitVec.ofNat 32 code] } })

/-! ### Picture buffers and commands -/

/-- The operations of the picture buffer manager: the swap of the references with `CUR` on the new `BWD`
(49_picture_buffers_host.md R401), `CUR` on `AUX` (R402), the planes of `DISP` with their metadata (R406, R407), and the
allocation, which the oracle may deny (R400). The operands of `PBM_ALLOC`, its oracle and its fault entry when run alone
are the model's (logs 3, 24, 6), and so is that the roles change so in a picture of any type (log 37). -/
def Obligations.PictureBufferOperations : Prop :=
  ∀ s : State,
    exec .pbmRotateRef s = .next ({ s with
      roles := { s.roles with fwd := s.roles.bwd, bwd := s.roles.fwd, cur := some s.roles.fwd } }.answering .nothing) ∧
    exec .pbmSelectAux s = .next ({ s with roles := { s.roles with cur := some s.roles.aux } }.answering .nothing) ∧
    exec .pbmGetFrame s = .next (s.answering (.frame ⟨s.roles.disp, s.seq.codedWidth, s.seq.codedWidth / 2,
      s.seq.codedWidth, s.seq.codedHeight, s.pic.pictType⟩)) ∧
    (∀ (cols rows : BitVec 8) (w h : Nat), w = 16 * (cols.toNat + 1) → h = 16 * (rows.toNat + 1) →
      ((w, h) ∉ s.allocDenied → exec (.pbmAlloc cols rows) s =
        .next ({ s with frames := some ⟨w, h, s.draws, []⟩, draws := s.draws + 1 }.answering .nothing)) ∧
      ((w, h) ∈ s.allocDenied → exec (.pbmAlloc cols rows) s = .next (faultEntry .alloc (w * 2 ^ 16 + h) s)))

/-- `CMD_OPEN` in a closed session gives every register the value of 10_state.md R70, takes `CFG` from the low two bits
of its argument, and leaves the reader at the first byte of its source (49_picture_buffers_host.md R411). `BLK` and
`Rdmax` are unspecified. -/
def Obligations.CmdOpen : Prop :=
  ∀ (s : State) (cfg : BitVec 8), s.session = .closed → ∃ t, exec (.cmdOpen cfg) s = .next t ∧
    t.session = .opened ∧ t.br = Reader.atBit s.br.source 0 ∧ t.cfg = cfg.truncate 2 ∧ t.hpState = .searching ∧
    t.work = ⟨0, Vector.replicate 3 0, 0, 0, 0, ⟨false, false⟩, ⟨⟨0, 0⟩, ⟨0, 0⟩⟩⟩ ∧
    t.seq = ⟨0, 0, 0, 0, 0, 0, false, 0, 0, 0, 0, false⟩ ∧ t.pic = ⟨0, false, 0, false, 0⟩ ∧
    t.status = ⟨.ok, false, 0, 0, [], 0, []⟩ ∧ t.qi = s.params.defIntra ∧ t.qn = Vector.replicate 64 16 ∧
    t.frames = none ∧ t.roles = ⟨0, 1, 2, none, none⟩ ∧
    t.display = s.display ∧ t.commands = s.commands ∧ t.bench = s.bench ∧ t.rewindable = s.rewindable ∧
    t.allocDenied = s.allocDenied ∧ t.params = s.params

/-- `CMD_RESET` in an open session rewinds the reader and sets `HP_STATE`, and keeps everything else; a source that
cannot rewind gives `E_SRC_REWIND` and nothing but the status registers changes (49_picture_buffers_host.md R412,
10_state.md R71, 60_exceptions.md R447). `CMD_GET_FRAME` answers with `DISP` and the metadata and changes nothing else
(49_picture_buffers_host.md R414); `CMD_CLOSE` frees the buffers and closes the session (R415), and with it the sequence
is no longer known (10_state.md R42). -/
def Obligations.CmdResetGetFrameAndClose : Prop :=
  (∀ s : State, s.session = .opened →
      (s.rewindable = true → exec .cmdReset s = .next { s with
        br := Reader.atBit s.br.source 0, hpState := .searching, status := { s.status with ret := .ok } }) ∧
      (s.rewindable = false → ∃ text, text.length ≤ 255 ∧ (∀ b ∈ text, b ≠ 0) ∧ exec .cmdReset s = .next { s with
        status :=
          { s.status with ret := .error, fault := true, faultCause := 14, faultInfo := 0, errstr := text }
        draws := s.draws + 1 })) ∧
  (∀ s : State, s.session = .opened → s.roles.disp ≠ none →
      exec .cmdGetFrame s = .next ({ s with status := { s.status with ret := .ok } }.answering
        (.frame ⟨s.roles.disp, s.seq.codedWidth, s.seq.codedWidth / 2, s.seq.codedWidth, s.seq.codedHeight,
          s.pic.pictType⟩))) ∧
  (∀ s : State, s.session ≠ .closed →
      exec .cmdClose s = .next { s with
        session := .closed
        frames := none
        seq := { s.seq with seqKnown := false }
        status := { s.status with ret := .ok } })

/-- An undefined code, or a command that the session's state does not allow, is refused: the status registers take
`E_BAD_COMMAND` with its code and a message, which is free (60_exceptions.md R447; log 10), and nothing else changes
(49_picture_buffers_host.md R410, R416). -/
def Obligations.BadCommands : Prop :=
  ∀ (s : State) (i : Instr) (code : Nat),
    (∃ cfg, i = .cmdOpen cfg ∧ s.session ≠ .closed ∧ code = 1) ∨
    (i = .cmdReset ∧ s.session ≠ .opened ∧ code = 2) ∨ (i = .cmdDecodeNext ∧ s.session ≠ .opened ∧ code = 3) ∨
    (i = .cmdGetFrame ∧ (s.session ≠ .opened ∨ s.roles.disp = none) ∧ code = 4) ∨
    (i = .cmdClose ∧ s.session = .closed ∧ code = 5) ∨ (∃ c, i = .cmdUndefined c ∧ code = c.toNat) →
    ∃ text, text.length ≤ 255 ∧ (∀ b ∈ text, b ≠ 0) ∧ exec i s = .next { s with
      status :=
        { s.status with
          ret := .error, fault := true, faultCause := 13, faultInfo := BitVec.ofNat 32 code, errstr := text }
      draws := s.draws + 1 }

/-- `CMD_DECODE_NEXT` at the end: a sequence end code, real or the fill's, gives `EOF` (42_header_parser.md R206), and
from then on every `CMD_DECODE_NEXT` gives `EOF` without touching the stream (R207); no fault register changes
(60_exceptions.md R448). -/
def Obligations.DecodeNextAtTheEnd : Prop :=
  (∀ (s : State) (k : Nat), s.session = .opened → s.hpState ≠ .sequenceEnded → s.br.InStep →
      FirstPrefix s.br.source s.br.bitpos k → streamBits s.br.source (8 * k) 32 = 0x1B7 →
      exec .cmdDecodeNext s = .next { (s.atByte k).ahead 32 with
        hpState := .sequenceEnded, status := { s.status with ret := .eof } }) ∧
  (∀ s : State, s.session = .opened → s.hpState = .sequenceEnded →
      exec .cmdDecodeNext s = .next { s with status := { s.status with ret := .eof } })

/-- The body of `CMD_DECODE_NEXT` (49_picture_buffers_host.md R417), by the result of the header search, whatever
headers and events came before it: a fault of the search is taken (42_header_parser.md R216), the end gives `EOF`
(R206), and behind a picture header come the checks in their order (42_header_parser.md R213 to R215, 60_exceptions.md
R449), none of which rotates a buffer; then the roles for the picture type, the picture's data, and, if that raises
nothing, `DISP`, a record and `OK`; a fault leaves the roles rotated (R404) and takes the fault entry. The last clause
is the search itself where the first start code is a picture's (R204, R212); `Obligations.HeaderSearch` has the others.
-/
def Obligations.DecodeNextPicture : Prop :=
  (∀ s : State, s.session = .opened → s.hpState ≠ .sequenceEnded → s.Decoding →
    (∀ c info u, nextHeader s = .raised c info u → exec .cmdDecodeNext s = .next (faultEntry c info u)) ∧
    (∀ u, nextHeader s = .ok .endOfSequence u →
      exec .cmdDecodeNext s = .next { u with status := { u.status with ret := .eof } }) ∧
    ∀ u, nextHeader s = .ok .picture u →
      (u.seq.seqKnown = false → exec .cmdDecodeNext s = .next (faultEntry .noSequence 0 u)) ∧
      (u.seq.seqKnown = true → u.pic.pictType ∉ [1, 2, 3] →
        exec .cmdDecodeNext s = .next (faultEntry .pictype u.pic.pictType.toNat u)) ∧
      (u.seq.seqKnown = true → (u.pic.pictType = 2 ∨ u.pic.pictType = 3) ∧ u.pic.forwardCode = 0 ∨
          u.pic.pictType = 3 ∧ u.pic.backwardCode = 0 →
        exec .cmdDecodeNext s = .next (faultEntry .fcodeZero u.pic.pictType.toNat u)) ∧
      (u.seq.seqKnown = true → u.pic.pictType ∈ [1, 2, 3] → (u.pic.pictType ≠ 1 → u.pic.forwardCode ≠ 0) →
        (u.pic.pictType = 3 → u.pic.backwardCode ≠ 0) →
        (∀ t, pictureData { u with roles := u.roles.forPicture u.pic.pictType } = .ok () t →
          exec .cmdDecodeNext s = .next t.shown) ∧
        (∀ c info t, pictureData { u with roles := u.roles.forPicture u.pic.pictType } = .raised c info t →
          exec .cmdDecodeNext s = .next (faultEntry c info t)))) ∧
  (∀ (s : State) (i : HeaderEnd) (u : State), s.br.InStep → exec .seqNextHeader s = .next (u.answering (.header i)) →
    u.assembly = s.assembly → u.hpState ≠ .searching → nextHeader s = .ok i u) ∧
  ∀ (s : State) (k m : Nat), s.br.InStep → FirstPrefix s.br.source s.br.bitpos k →
    streamBits s.br.source (8 * k) 32 = 0x100 →
    ExtraBytes s.br.source (8 * k + 32 + pictureFieldBits (streamBits s.br.source (8 * k + 42) 3)) m →
    nextHeader s = .ok .picture
      { (s.atByte k).ahead (32 + pictureFieldBits (streamBits s.br.source (8 * k + 42) 3) + 9 * m + 1) with
        pic := (s.atByte k).pictureRegs 32, hpState := .pictureReady }

/-- A whole I-picture of one macroblock (as the second command of a stream meets it: the sequence is known): from the
byte `k` of its start code, one slice code at byte `l` behind the header, and an intra macroblock that codes no
difference, the command paints 128 into the new `BWD`, delivers the old reference and answers `OK`
(49_picture_buffers_host.md R401, R405, R407, R417). -/
def Obligations.DecodeNextFlatPicture : Prop :=
  ∀ (s : State) (fs : FrameStore) (k l : Nat) (q : BitVec 5), StepInv s → s.params.tables = defaultTables →
    s.session = .opened →
    s.hpState ≠ .sequenceEnded → s.seq.seqKnown = true → s.seq.mbCols = 1 → s.seq.mbRows = 1 → s.frames = some fs →
    fs.width = 16 → fs.height = 16 →
    FirstPrefix s.br.source s.br.bitpos k → streamBits s.br.source (8 * k) 32 = 0x100 →
    streamBits s.br.source (8 * k + 42) 3 = 1 → streamBits s.br.source (8 * k + 61) 1 = 0 →
    FirstPrefix s.br.source (8 * k + 62) l → q ≠ 0 →
    (s.atByte l).Holds 0 [⟨32, 0x101⟩, ⟨5, q.toNat⟩, ⟨1, 0⟩, ⟨1, 1⟩, flatIntra] →
    ∃ t gs, exec .cmdDecodeNext s = .next t ∧ t.status = { s.status with ret := .ok } ∧
      t.hpState = .searching ∧ t.br = Reader.atBit s.br.source (8 * l + 68) ∧ t.frames = some gs ∧
      t.roles = { s.roles with
        fwd := s.roles.bwd, bwd := s.roles.fwd, cur := some s.roles.fwd, disp := some s.roles.bwd } ∧
      t.display = s.display ++ [⟨some s.roles.bwd, s.seq.codedWidth, s.seq.codedWidth / 2, s.seq.codedWidth,
        s.seq.codedHeight, 1⟩] ∧
      (∀ p (x y : Nat), fs.inPlane p x y = true → gs.sample s.roles.fwd p x y = 128) ∧
      (∀ f p (x y : Nat), fs.inPlane p x y = true → f ≠ s.roles.fwd → gs.sample f p x y = fs.sample f p x y)

/-! ### Faults and whole-machine rules -/

/-- The fault entry (60_exceptions.md R445): the cause, the information word, a message and `ERROR` are recorded,
`HP_STATE` goes to `SEARCHING`, a session-fatal cause fails the session; the cursor, the roles, the frame store and
every other register stay as they are. -/
def Obligations.FaultEntry : Prop :=
  ∀ (c : Cause) (info : Nat) (s : State), ∃ text, text.length ≤ 255 ∧ (∀ b ∈ text, b ≠ 0) ∧
    faultEntry c info s = { s with
      status :=
        { s.status with
          ret := .error
          fault := true
          faultCause := c.code
          faultInfo := BitVec.ofNat 32 info
          errstr := text }
      hpState := .searching
      session := if c = .alloc ∨ c = .demuxStartcode ∨ c = .seqParam then .failed else s.session
      draws := s.draws + 1 }

/-- `CFG` is written only by `CMD_OPEN` (10_state.md R44); the source, what it can do, the oracle
and the open parameters are the host's (00_scope.md R7; log 20). -/
def Obligations.ConfigurationIsWrittenAtOpenOnly : Prop :=
  ∀ (i : Instr) (s t : State), exec i s = .next t →
    ((∀ cfg, i ≠ .cmdOpen cfg) → t.cfg = s.cfg) ∧
    t.rewindable = s.rewindable ∧ t.allocDenied = s.allocDenied ∧ t.params = s.params ∧
    t.commands = s.commands ∧ t.bench = s.bench

/-- The bit position never moves backwards, except that `CMD_OPEN` and `CMD_RESET` set it to 0, and the kernel never
writes its source (10_state.md R23, 20_memory.md R80). -/
def Obligations.CursorNeverMovesBack : Prop :=
  ∀ (i : Instr) (s t : State), s.br.InStep → i.check = true → exec i s = .next t → t.br.source = s.br.source ∧
    ((∀ cfg, i ≠ .cmdOpen cfg) → i ≠ .cmdReset → s.br.bitpos ≤ t.br.bitpos)

/-- The sequence registers are written only by the first sequence header of a session and read-only afterwards, but for
`CMD_OPEN` and the `seq_known` of `CMD_CLOSE` (10_state.md R40 to R42; log 14). -/
def Obligations.SequenceRegistersAreReadOnlyOnceKnown : Prop :=
  ∀ (i : Instr) (s t : State), s.br.InStep → i.check = true → s.seq.seqKnown = true → exec i s = .next t →
    (∀ cfg, i ≠ .cmdOpen cfg) → i ≠ .cmdClose → t.seq = s.seq

/-- After reset the session is closed (70_reset_and_hazards.md R470) and both invariants hold. -/
def Obligations.ResetMeetsInvariants : Prop :=
  State.reset.session = .closed ∧ StepInv State.reset ∧ KernelInv State.reset

/-- Every step, single steps of a test bench included, keeps `StepInv`: the reader stays in step with its source, the
parameters legal, the references distinct and `AUX` fixed, the frame store's memory canonical and inside its planes, the
predictors in range, the status registers as their rules say (40_bit_reader.md R170; 10_state.md R52, R56, R58, R72;
20_memory.md R95). -/
def Obligations.StepKeepsInvariant : Prop :=
  ∀ s t : State, StepInv s → step s = .next t → StepInv t

/-- Every command terminates, and the kernel never stops: from a state between commands, one more step, whatever the
stream holds and whichever command comes, answers a state between commands (70_reset_and_hazards.md R490). -/
def Obligations.EveryCommandCompletes : Prop :=
  ∀ s : State, KernelInv s → SafeStep s
end

