-- ==== Sys2Proof/Laws/Stream.lean ====
section
/-!
SUPPORT. The bitstream reader: the bits of a stream, and what every reader operation does to a reader in step
(40_bit_reader.md R170 to R177).
-/

namespace Sys2Proof.Machine

/-! ### The bits of a stream -/

@[simp] theorem streamBits_zero (S : List Byte) (pos : Nat) : streamBits S pos 0 = 0 := rfl

theorem streamBits_lt (S : List Byte) (pos n : Nat) : streamBits S pos n < 2 ^ n := by
  induction n with
  | zero => simp
  | succ n ih =>
    simp only [streamBits, pow_succ]
    have : (Bool.toNat ((streamByte S ((pos + n) / 8)).getLsbD (7 - (pos + n) % 8))) ≤ 1 := Bool.toNat_le _
    omega

theorem streamBits_add (S : List Byte) (pos m n : Nat) :
    streamBits S pos (m + n) = streamBits S pos m * 2 ^ n + streamBits S (pos + m) n := by
  induction n with
  | zero => simp
  | succ n ih =>
    have e : pos + (m + n) = pos + m + n := by omega
    rw [← Nat.add_assoc, streamBits, streamBits, ih, e]
    ring

/-- The first bits of a longer string. -/
theorem streamBits_prefix (S : List Byte) (pos m n : Nat) (h : m ≤ n) :
    streamBits S pos m = streamBits S pos n / 2 ^ (n - m) := by
  obtain ⟨k, rfl⟩ := Nat.exists_eq_add_of_le h
  rw [streamBits_add, Nat.add_sub_cancel_left, Nat.add_comm,
    Nat.add_mul_div_right _ _ (Nat.two_pow_pos k), Nat.div_eq_of_lt (streamBits_lt _ _ _), Nat.zero_add]

/-- The last bits of a longer string. -/
theorem streamBits_suffix (S : List Byte) (pos m n : Nat) :
    streamBits S (pos + m) n = streamBits S pos (m + n) % 2 ^ n := by
  rw [streamBits_add, Nat.mul_comm, Nat.mul_add_mod, Nat.mod_eq_of_lt (streamBits_lt _ _ _)]

/-- Eight bits from a byte boundary are the byte there. -/
theorem streamBits_byte (S : List Byte) (q : Nat) : streamBits S (8 * q) 8 = (streamByte S q).toNat := by
  have key : ∀ b : Byte, 2 * (2 * (2 * (2 * (2 * (2 * (2 * (2 * 0 + (b.getLsbD 7).toNat) + (b.getLsbD 6).toNat) +
      (b.getLsbD 5).toNat) + (b.getLsbD 4).toNat) + (b.getLsbD 3).toNat) + (b.getLsbD 2).toNat) +
      (b.getLsbD 1).toNat) + (b.getLsbD 0).toNat = b.toNat := by decide
  have q0 : ∀ i, i < 8 → (8 * q + i) / 8 = q ∧ (8 * q + i) % 8 = i := by omega
  simp only [streamBits, q0 0 (by omega), q0 1 (by omega), q0 2 (by omega), q0 3 (by omega), q0 4 (by omega),
    q0 5 (by omega), q0 6 (by omega), q0 7 (by omega)]
  exact key (streamByte S q)

/-- The bits of a byte from bit `j` on. -/
theorem streamBits_byte_tail (S : List Byte) (q j : Nat) (h : j ≤ 8) :
    streamBits S (8 * q + j) (8 - j) = (streamByte S q).toNat % 2 ^ (8 - j) := by
  rw [streamBits_suffix, show j + (8 - j) = 8 by omega, streamBits_byte]

/-! ### A reader in the middle of a refill -/

theorem Reader.InStep.filling {r : Reader} (h : r.InStep) : r.Filling := by
  rw [Reader.InStep] at h
  rw [h]
  refine ⟨?_, ?_, ?_, ?_, rfl⟩ <;> simp only [Reader.atBit]
  · omega
  · omega
  · omega
  · have e : (32 - ((r.bitpos % 8 : Nat) : Int)).toNat = 32 - r.bitpos % 8 := by omega
    rw [e, BitVec.toNat_ofNat, show 32 - (32 - r.bitpos % 8) = r.bitpos % 8 by omega]

theorem Reader.Filling.inStep {r : Reader} (h : r.Filling) (full : 25 ≤ r.incnt) : r.InStep := by
  obtain ⟨count, -, most, bits, ended⟩ := h
  obtain ⟨S, p, b, c, q, e⟩ := r
  simp only at count most bits ended full
  have hp : p = q / 8 + 4 := by omega
  have hc : c = 32 - ((q % 8 : Nat) : Int) := by omega
  have hn : c.toNat = 32 - q % 8 := by omega
  simp only [Reader.InStep, Reader.atBit, Reader.mk.injEq, true_and]
  refine ⟨hp, ?_, hc, by rw [ended, hp]⟩
  apply BitVec.eq_of_toNat_eq
  rw [BitVec.toNat_ofNat, bits, hn, show 32 - (32 - q % 8) = q % 8 by omega]

theorem Reader.Filling.pullByte {r : Reader} (h : r.Filling) (low : r.incnt ≤ 24) : r.pullByte.Filling := by
  obtain ⟨count, least, -, bits, ended⟩ := h
  obtain ⟨S, p, b, c, q, e⟩ := r
  simp only at count least bits ended low
  refine ⟨?_, ?_, ?_, ?_, ?_⟩ <;> simp only [Reader.pullByte, Reader.srcByte]
  · push_cast; omega
  · omega
  · omega
  · rw [BitVec.toNat_ofNat, bits]
    by_cases neg : c < 0
    · obtain ⟨j, hj⟩ : ∃ j : Nat, c = -(j : Int) := ⟨(-c).toNat, by omega⟩
      have hq : q = 8 * p + j := by omega
      have e1 : c.toNat = 0 := by omega
      have e2 : (c + 8).toNat = 8 - j := by omega
      have e3 : (24 - c).toNat = 24 + j := by omega
      rw [e1, e2, e3, hq, streamBits_byte_tail S p j (by omega)]
      simp only [streamBits_zero, Nat.zero_mul, Nat.zero_mod, Nat.zero_add]
      rw [show 32 - (8 - j) = 24 + j by omega]
      have : (2 : Nat) ^ 32 = 2 ^ (8 - j) * 2 ^ (24 + j) := by rw [← pow_add]; congr 1; omega
      rw [this, Nat.mul_mod_mul_right, Nat.mul_mod_mul_right, Nat.mod_mod]
    · obtain ⟨k, hk⟩ : ∃ k : Nat, c = (k : Int) := ⟨c.toNat, by omega⟩
      have hq : q + k = 8 * p := by omega
      have e1 : c.toNat = k := by omega
      have e2 : (c + 8).toNat = k + 8 := by omega
      have e3 : (24 - c).toNat = 24 - k := by omega
      rw [e1, e2, e3, streamBits_add, hq, streamBits_byte]
      have : (2 : Nat) ^ (32 - k) = 2 ^ 8 * 2 ^ (24 - k) := by rw [← pow_add]; congr 1; omega
      rw [this, show 32 - (k + 8) = 24 - k by omega, Nat.mod_add_mod]
      congr 1
      ring
  · rw [ended]
    by_cases h : S.length < p
    · simp [h]; omega
    · simp [h]

@[simp] theorem Reader.pullByte_incnt (r : Reader) : r.pullByte.incnt = r.incnt + 8 := rfl
@[simp] theorem Reader.pullByte_source (r : Reader) : r.pullByte.source = r.source := rfl
@[simp] theorem Reader.pullByte_bitpos (r : Reader) : r.pullByte.bitpos = r.bitpos := rfl

@[simp] theorem Reader.pullBytes_source (n : Nat) (r : Reader) : (r.pullBytes n).source = r.source := by
  induction n generalizing r with
  | zero => rfl
  | succ n ih => simp [Reader.pullBytes, ih]

@[simp] theorem Reader.pullBytes_bitpos (n : Nat) (r : Reader) : (r.pullBytes n).bitpos = r.bitpos := by
  induction n generalizing r with
  | zero => rfl
  | succ n ih => simp [Reader.pullBytes, ih]

theorem Reader.pullBytes_incnt (n : Nat) (r : Reader) : (r.pullBytes n).incnt = r.incnt + 8 * n := by
  induction n generalizing r with
  | zero => simp [Reader.pullBytes]
  | succ n ih => simp only [Reader.pullBytes, ih, Reader.pullByte_incnt]; push_cast; omega

theorem Reader.Filling.pullBytes {r : Reader} (h : r.Filling) (n : Nat) (low : r.incnt + 8 * n ≤ 32) :
    (r.pullBytes n).Filling := by
  induction n generalizing r with
  | zero => exact h
  | succ n ih =>
    push_cast at low
    exact ih (h.pullByte (by omega)) (by simp only [Reader.pullByte_incnt]; omega)

/-- `refill()` leaves a reader in step, at the same bit of the same source (R175). -/
theorem Reader.Filling.refill {r : Reader} (h : r.Filling) : r.refill = Reader.atBit r.source r.bitpos := by
  have least := h.least
  have most := h.most
  have e : (((32 - r.incnt) / 8).toNat : Int) = (32 - r.incnt) / 8 := by omega
  have key : r.refill.InStep := by
    refine (h.pullBytes _ ?_).inStep ?_
    · omega
    · rw [Reader.pullBytes_incnt]; omega
  rw [Reader.InStep] at key
  rw [key]
  simp [Reader.refill]

/-! ### The operations on a reader in step -/

theorem Reader.atBit_inStep (S : List Byte) (pos : Nat) : (Reader.atBit S pos).InStep := rfl

@[simp] theorem Reader.atBit_source (S : List Byte) (pos : Nat) : (Reader.atBit S pos).source = S := rfl
@[simp] theorem Reader.atBit_bitpos (S : List Byte) (pos : Nat) : (Reader.atBit S pos).bitpos = pos := rfl

/-- `consumeBits(n)` (R173). -/
theorem Reader.InStep.consume {r : Reader} (h : r.InStep) (n : Nat) (hn : n ≤ 32) :
    r.consume n = Reader.atBit r.source (r.bitpos + n) := by
  have full : 25 ≤ r.incnt := by
    rw [Reader.InStep] at h; rw [h]; simp only [Reader.atBit]; omega
  have hf := h.filling
  have f : ({ r with bfr := r.bfr <<< n, incnt := r.incnt - n, bitpos := r.bitpos + n } : Reader).Filling := by
    obtain ⟨count, -, most, bits, ended⟩ := hf
    refine ⟨?_, ?_, ?_, ?_, ended⟩ <;> simp only
    · push_cast; omega
    · omega
    · omega
    · rw [BitVec.toNat_shiftLeft, bits, Nat.shiftLeft_eq]
      obtain ⟨c, hc⟩ : ∃ c : Nat, r.incnt = (c : Int) := ⟨r.incnt.toNat, by omega⟩
      rw [hc, Int.toNat_natCast, Nat.mod_mul_mod]
      by_cases small : n ≤ c
      · obtain ⟨d, hd⟩ := Nat.exists_eq_add_of_le small
        rw [show ((c : Int) - n).toNat = d by omega, hd, streamBits_add]
        have e : 2 ^ (32 - (n + d)) * 2 ^ n = 2 ^ (32 - d) := by rw [← pow_add]; congr 1; omega
        rw [Nat.mul_assoc, e, Nat.add_mul, Nat.mul_assoc, ← pow_add, show d + (32 - d) = 32 by omega,
          Nat.mul_comm, Nat.mul_add_mod]
      · rw [show ((c : Int) - n).toNat = 0 by omega]
        simp only [streamBits_zero, Nat.zero_mul, Nat.zero_mod]
        rw [Nat.mul_assoc, ← pow_add, show 32 - c + n = 32 + (n - c) by omega, pow_add, Nat.mul_comm, Nat.mul_assoc,
          Nat.mul_mod_right]
  exact f.refill

/-- `peekBits(n)` of bits that are held (R172). -/
theorem Reader.InStep.peek {r : Reader} (h : r.InStep) (n : Nat) (hn : (n : Int) ≤ r.incnt) :
    r.peek n = streamBits r.source r.bitpos n := by
  obtain ⟨-, -, most, bits, -⟩ := h.filling
  obtain ⟨c, hc⟩ : ∃ c : Nat, r.incnt = (c : Int) := ⟨r.incnt.toNat, by omega⟩
  rw [hc] at bits most hn
  rw [Int.toNat_natCast] at bits
  have lt : streamBits r.source r.bitpos c * 2 ^ (32 - c) < 2 ^ 32 := by
    have := Nat.mul_lt_mul_of_pos_right (streamBits_lt r.source r.bitpos c) (Nat.two_pow_pos (32 - c))
    rwa [← pow_add, show c + (32 - c) = 32 by omega] at this
  rw [Nat.mod_eq_of_lt lt] at bits
  rw [Reader.peek, BitVec.toNat_ushiftRight, bits, Nat.shiftRight_eq_div_pow,
    streamBits_prefix r.source r.bitpos n c (by omega)]
  rw [show 32 - n = (c - n) + (32 - c) by omega, pow_add, Nat.mul_div_mul_right _ _ (Nat.two_pow_pos _)]

theorem Reader.InStep.held {r : Reader} (h : r.InStep) : 25 ≤ r.incnt ∧ r.incnt ≤ 32 := by
  rw [Reader.InStep] at h; rw [h]; simp only [Reader.atBit]; omega

/-- Every peek of up to 25 bits shows stream bits (R172). -/
theorem Reader.InStep.peek_short {r : Reader} (h : r.InStep) (n : Nat) (hn : n ≤ 25) :
    r.peek n = streamBits r.source r.bitpos n := h.peek n (by have := h.held; omega)

/-- At a byte boundary every peek shows stream bits (R172). -/
theorem Reader.InStep.peek_aligned {r : Reader} (h : r.InStep) (n : Nat) (hn : n ≤ 32) (al : r.bitpos % 8 = 0) :
    r.peek n = streamBits r.source r.bitpos n :=
  h.peek n (by rw [Reader.InStep] at h; rw [h]; simp only [Reader.atBit]; omega)

/-- `getBits(n)` (R176). -/
theorem Reader.InStep.get {r : Reader} (h : r.InStep) (n : Nat) (hn : n ≤ 32) :
    r.get n = (streamBits r.source r.bitpos n, Reader.atBit r.source (r.bitpos + n)) := by
  unfold Reader.get
  split
  · next e => subst e; simpa [Reader.InStep] using h
  · split
    · rw [Reader.getShort, h.peek_short n (by omega), h.consume n (by omega)]
    · simp only [Reader.getShort]
      rw [h.peek_short (n - 16) (by omega), h.consume (n - 16) (by omega),
        (Reader.atBit_inStep _ _).peek_short 16 (by omega), (Reader.atBit_inStep _ _).consume 16 (by omega)]
      simp only [Reader.atBit_source, Reader.atBit_bitpos, Nat.add_assoc]
      rw [show n - 16 + 16 = n by omega, ← streamBits_add, show n - 16 + 16 = n by omega]

/-- The reader at the first byte of its source (R171). -/
theorem Reader.rewind_eq (r : Reader) : r.rewind = Reader.atBit r.source 0 := by
  refine Reader.Filling.refill ⟨?_, ?_, ?_, ?_, ?_⟩ <;> simp

/-- `refill()` on a reader in step does nothing (R173, R175). -/
theorem Reader.InStep.refill {r : Reader} (h : r.InStep) : r.refill = r := by
  rw [h.filling.refill]; exact h.symm

/-- `brReset()` alone: the bits held are dropped and count as consumed (R171). -/
theorem Reader.InStep.reset {r : Reader} (h : r.InStep) :
    r.reset = Reader.atBit r.source (8 * (r.bitpos / 8 + 4)) := by
  have e : r.bitpos + r.incnt.toNat = 8 * (r.bitpos / 8 + 4) := by
    rw [Reader.InStep] at h; rw [h]; simp only [Reader.atBit]; omega
  rw [Reader.reset, e]
  refine Reader.Filling.refill (r := { r with bfr := 0, incnt := 0, bitpos := 8 * (r.bitpos / 8 + 4) })
    ⟨?_, ?_, ?_, ?_, h.filling.ended⟩
  · have := h.filling.count; push_cast; omega
  · simp
  · simp
  · simp

end Sys2Proof.Machine
end

