-- ==== Sys2Proof/Laws/Search.lean ====
section
/-!
SUPPORT. Why the loops over the stream end within their bounds (70_reset_and_hazards.md R490; log 15): behind the last byte
the stream repeats `00 00 01 B7` for ever, in which a start code, a 0 bit and the end of an address increment are never far.
-/

namespace Sys2Proof.Machine

/-! ### The fill behind the last byte -/

theorem streamByte_fill (S : List Byte) (i : Nat) : streamByte S (S.length + i) = streamByte [] i := by
  simp [streamByte]

/-- Behind the last byte of a source the stream is that of an empty source. -/
theorem streamBits_fill (S : List Byte) (k n : Nat) : streamBits S (8 * S.length + k) n = streamBits [] k n := by
  induction n with
  | zero => rfl
  | succ n ih =>
    simp only [streamBits, ih]
    rw [show (8 * S.length + k + n) / 8 = S.length + (k + n) / 8 by omega,
      show (8 * S.length + k + n) % 8 = (k + n) % 8 by omega, streamByte_fill]

/-- The fill has a period of 32 bits. -/
theorem streamBits_period (k n : Nat) : streamBits [] (k + 32) n = streamBits [] k n := by
  induction n with
  | zero => rfl
  | succ n ih =>
    simp only [streamBits, ih]
    have e : streamByte [] ((k + 32 + n) / 8) = streamByte [] ((k + n) / 8) := by
      rw [show (k + 32 + n) / 8 = (k + n) / 8 + 4 by omega]
      simp [streamByte, eosFill]
    rw [e, show (k + 32 + n) % 8 = (k + n) % 8 by omega]

theorem streamBits_residue (k n : Nat) : streamBits [] k n = streamBits [] (k % 32) n := by
  induction k using Nat.strongRecOn with
  | _ k ih =>
    by_cases h : k < 32
    · rw [Nat.mod_eq_of_lt h]
    · obtain ⟨j, rfl⟩ : ∃ j, k = j + 32 := ⟨k - 32, by omega⟩
      rw [streamBits_period, ih j (by omega), Nat.add_mod_right]

/-- The bits at a position not before the end of the source. -/
theorem streamBits_past (S : List Byte) (pos n : Nat) (h : 8 * S.length ≤ pos) :
    streamBits S pos n = streamBits [] ((pos - 8 * S.length) % 32) n := by
  obtain ⟨k, rfl⟩ := Nat.exists_eq_add_of_le h
  rw [streamBits_fill, streamBits_residue, Nat.add_sub_cancel_left]

/-! ### The search for a start code -/

/-- From every byte on there is a prefix, at the latest four bytes past the end of the source. -/
theorem exists_prefix (S : List Byte) (q : Nat) : ∃ k, q ≤ k ∧ k ≤ max S.length (q + 3) ∧ prefixAt S k := by
  by_cases h : q ≤ S.length
  · refine ⟨S.length, h, le_max_left _ _, ?_⟩
    rw [prefixAt, streamBits_past S _ 24 le_rfl]
    simp only [Nat.sub_self]
    decide
  · obtain ⟨j, hj, hm⟩ : ∃ j, j ≤ 3 ∧ (q + j - S.length) % 4 = 0 := by
      have : (q - S.length) % 4 < 4 := Nat.mod_lt _ (by norm_num)
      refine ⟨(4 - (q - S.length) % 4) % 4, by omega, by omega⟩
    refine ⟨q + j, by omega, le_trans (by omega) (le_max_right _ _), ?_⟩
    rw [prefixAt, streamBits_past S _ 24 (by omega), show (8 * (q + j) - 8 * S.length) % 32 = 0 by omega]
    decide

/-- The search from a byte boundary stops at the first prefix, if its bound allows as many turns. -/
theorem Reader.search_eq (S : List Byte) (d : Nat) : ∀ (q fuel : Nat), d < fuel → prefixAt S (q + d) →
    (∀ j, q ≤ j → j < q + d → ¬prefixAt S j) →
    Reader.search fuel (Reader.atBit S (8 * q)) = some (Reader.atBit S (8 * (q + d))) := by
  induction d with
  | zero =>
    intro q fuel hf hp _
    obtain ⟨f, rfl⟩ : ∃ f, fuel = f + 1 := ⟨fuel - 1, by omega⟩
    have := (Reader.atBit_inStep S (8 * q)).peek_short 24 (by norm_num)
    rw [Reader.search, this, if_pos (by simpa [prefixAt] using hp)]
    simp
  | succ d ih =>
    intro q fuel hf hp hn
    obtain ⟨f, rfl⟩ : ∃ f, fuel = f + 1 := ⟨fuel - 1, by omega⟩
    have := (Reader.atBit_inStep S (8 * q)).peek_short 24 (by norm_num)
    have no : ¬prefixAt S q := hn q le_rfl (by omega)
    rw [Reader.search, this, if_neg (by simpa [prefixAt] using no),
      (Reader.atBit_inStep S (8 * q)).consume 8 (by norm_num)]
    have e := ih (q + 1) f (by omega) (by rwa [show q + 1 + d = q + (d + 1) by omega])
      (fun j h1 h2 => hn j (by omega) (by omega))
    simp only [Reader.atBit_source, Reader.atBit_bitpos]
    rw [show 8 * q + 8 = 8 * (q + 1) by ring, e]
    congr 2
    omega

theorem FirstPrefix.unique {S : List Byte} {pos k l : Nat} (hk : FirstPrefix S pos k) (hl : FirstPrefix S pos l) :
    k = l := by
  rcases Nat.lt_trichotomy k l with h | h | h
  · exact absurd hk.2.1 (hl.2.2 k hk.1 h)
  · exact h
  · exact absurd hl.2.1 (hk.2.2 l hl.1 h)

theorem exists_firstPrefix (S : List Byte) (pos : Nat) :
    ∃ k, FirstPrefix S pos k ∧ k ≤ max S.length ((pos + 7) / 8 + 3) := by
  classical
  obtain ⟨m, h1, h2, h3⟩ := exists_prefix S ((pos + 7) / 8)
  have ex : ∃ k, pos ≤ 8 * k ∧ prefixAt S k := ⟨m, by omega, h3⟩
  refine ⟨Nat.find ex, ⟨(Nat.find_spec ex).1, (Nat.find_spec ex).2, fun j hj hlt hp => ?_⟩, ?_⟩
  · exact Nat.find_min ex hlt ⟨hj, hp⟩
  · exact le_trans (Nat.find_min' ex ⟨by omega, h3⟩) h2

/-- `byteAlignToStartCode()` never exceeds its bound and stops at the first prefix (R177). -/
theorem Reader.InStep.align {r : Reader} (h : r.InStep) {k : Nat} (hk : FirstPrefix r.source r.bitpos k) :
    r.align = some (Reader.atBit r.source (8 * k)) := by
  obtain ⟨m, hm, hle⟩ := exists_firstPrefix r.source r.bitpos
  have e : k = m := hk.unique hm
  have inc : (r.incnt % 8).toNat = (8 - r.bitpos % 8) % 8 := by
    rw [Reader.InStep] at h
    rw [h]
    simp only [Reader.atBit]
    omega
  rw [Reader.align, inc, h.consume _ (by omega)]
  have q : r.bitpos + (8 - r.bitpos % 8) % 8 = 8 * ((r.bitpos + 7) / 8) := by omega
  rw [q]
  have hle' : (r.bitpos + 7) / 8 ≤ k := by have := hk.1; omega
  obtain ⟨d, hd⟩ := Nat.exists_eq_add_of_le hle'
  have := Reader.search_eq r.source d ((r.bitpos + 7) / 8) r.loopBound ?_ (hd ▸ hk.2.1) ?_
  · rw [this, hd]
  · simp only [Reader.loopBound]
    have : d ≤ max r.source.length 3 := by
      rcases le_total r.source.length ((r.bitpos + 7) / 8 + 3) with g | g
      · rw [max_eq_right g] at hle; exact le_max_of_le_right (by omega)
      · rw [max_eq_left g] at hle; exact le_max_of_le_left (by omega)
    rcases le_total r.source.length 3 with g | g
    · rw [max_eq_right g] at this; omega
    · rw [max_eq_left g] at this; omega
  · intro j h1 h2
    exact hk.2.2 j (by omega) (by omega)

/-! ### The extra-information loop -/

/-- Two bits of the fill nine apart are never both 1. -/
theorem fill_stride (S : List Byte) (pos : Nat) (h : 8 * S.length ≤ pos) :
    streamBits S pos 1 = 0 ∨ streamBits S (pos + 9) 1 = 0 := by
  have key : ∀ k, k < 32 → streamBits [] k 1 = 0 ∨ streamBits [] ((k + 9) % 32) 1 = 0 := by decide
  have := key ((pos - 8 * S.length) % 32) (Nat.mod_lt _ (by norm_num))
  rw [streamBits_past S pos 1 h, streamBits_past S (pos + 9) 1 (by omega)]
  rwa [show (pos + 9 - 8 * S.length) % 32 = ((pos - 8 * S.length) % 32 + 9) % 32 by omega]

theorem exists_extraBytes (S : List Byte) (pos : Nat) : ∃ n, ExtraBytes S pos n ∧ n ≤ S.length + 1 := by
  classical
  have far : 8 * S.length ≤ pos + 9 * S.length := by omega
  obtain ⟨m, hm, hz⟩ : ∃ m, m ≤ S.length + 1 ∧ streamBits S (pos + 9 * m) 1 = 0 := by
    rcases fill_stride S _ far with h | h
    · exact ⟨S.length, by omega, h⟩
    · exact ⟨S.length + 1, le_rfl, by rwa [show pos + 9 * (S.length + 1) = pos + 9 * S.length + 9 by ring]⟩
  have ex : ∃ n, streamBits S (pos + 9 * n) 1 = 0 := ⟨m, hz⟩
  refine ⟨Nat.find ex, ⟨Nat.find_spec ex, fun i hi => ?_⟩, le_trans (Nat.find_min' ex hz) hm⟩
  have lt := streamBits_lt S (pos + 9 * i) 1
  have := Nat.find_min ex hi
  omega

theorem ExtraBytes.unique {S : List Byte} {pos m n : Nat} (hm : ExtraBytes S pos m) (hn : ExtraBytes S pos n) :
    m = n := by
  rcases Nat.lt_trichotomy m n with h | h | h
  · have := hn.2 m h; have := hm.1; omega
  · exact h
  · have := hm.2 n h; have := hn.1; omega

theorem Reader.skipExtra_eq (S : List Byte) (n : Nat) : ∀ (pos fuel : Nat), n < fuel → ExtraBytes S pos n →
    Reader.skipExtra fuel (Reader.atBit S pos) = some (Reader.atBit S (pos + 9 * n + 1)) := by
  induction n with
  | zero =>
    rintro pos fuel hf ⟨hz, -⟩
    obtain ⟨f, rfl⟩ : ∃ f, fuel = f + 1 := ⟨fuel - 1, by omega⟩
    have p := (Reader.atBit_inStep S pos).peek_short 1 (by norm_num)
    simp only [Reader.atBit_source, Reader.atBit_bitpos] at p
    simp only [Nat.mul_zero, Nat.add_zero] at hz
    rw [Reader.skipExtra, p, if_neg (by rw [hz]; norm_num), (Reader.atBit_inStep S pos).consume 1 (by norm_num)]
    simp
  | succ n ih =>
    rintro pos fuel hf ⟨hz, ho⟩
    obtain ⟨f, rfl⟩ : ∃ f, fuel = f + 1 := ⟨fuel - 1, by omega⟩
    have p := (Reader.atBit_inStep S pos).peek_short 1 (by norm_num)
    simp only [Reader.atBit_source, Reader.atBit_bitpos] at p
    have one := ho 0 (by omega)
    simp only [Nat.mul_zero, Nat.add_zero] at one
    rw [Reader.skipExtra, p, if_pos one, (Reader.atBit_inStep S pos).consume 9 (by norm_num)]
    simp only [Reader.atBit_source, Reader.atBit_bitpos]
    rw [ih (pos + 9) f (by omega) ⟨by rwa [show pos + 9 + 9 * n = pos + 9 * (n + 1) by ring],
      fun i hi => by rw [show pos + 9 + 9 * i = pos + 9 * (i + 1) by ring]; exact ho (i + 1) (by omega)⟩]
    congr 2
    ring

/-- The extra-information loop never exceeds its bound (42_header_parser.md R212, 43_macroblock_decoder.md R234). -/
theorem Reader.InStep.skipExtra {r : Reader} (h : r.InStep) {n : Nat} (hn : ExtraBytes r.source r.bitpos n) :
    Reader.skipExtra r.loopBound r = some (Reader.atBit r.source (r.bitpos + 9 * n + 1)) := by
  obtain ⟨m, hm, hle⟩ := exists_extraBytes r.source r.bitpos
  have e : n = m := hn.unique hm
  have := Reader.skipExtra_eq r.source n r.bitpos r.loopBound (by simp only [Reader.loopBound]; omega) hn
  rwa [← show r = Reader.atBit r.source r.bitpos from h] at this

end Sys2Proof.Machine
end

