-- ==== Sys2Proof/Laws/State.lean ====
section
/-!
SUPPORT. What each register update of Ops.lean leaves and writes, field by field: all true by definition, all simp lemmas, so
that no proof unfolds an update. A lemma's name is the update and the field it speaks of.
-/

namespace Sys2Proof.Machine

section
variable (s : State)

/-! ### `consumeBits` -/

@[simp] theorem State.consumeBits_br (n : Nat) : (s.consumeBits n).br = s.br.consume n := rfl
@[simp] theorem State.consumeBits_rdmax (n : Nat) : (s.consumeBits n).rdmax = s.rdmax := rfl
@[simp] theorem State.consumeBits_work (n : Nat) : (s.consumeBits n).work = s.work := rfl
@[simp] theorem State.consumeBits_seq (n : Nat) : (s.consumeBits n).seq = s.seq := rfl
@[simp] theorem State.consumeBits_pic (n : Nat) : (s.consumeBits n).pic = s.pic := rfl
@[simp] theorem State.consumeBits_cfg (n : Nat) : (s.consumeBits n).cfg = s.cfg := rfl
@[simp] theorem State.consumeBits_hpState (n : Nat) : (s.consumeBits n).hpState = s.hpState := rfl
@[simp] theorem State.consumeBits_session (n : Nat) : (s.consumeBits n).session = s.session := rfl
@[simp] theorem State.consumeBits_status (n : Nat) : (s.consumeBits n).status = s.status := rfl
@[simp] theorem State.consumeBits_qi (n : Nat) : (s.consumeBits n).qi = s.qi := rfl
@[simp] theorem State.consumeBits_qn (n : Nat) : (s.consumeBits n).qn = s.qn := rfl
@[simp] theorem State.consumeBits_blk (n : Nat) : (s.consumeBits n).blk = s.blk := rfl
@[simp] theorem State.consumeBits_frames (n : Nat) : (s.consumeBits n).frames = s.frames := rfl
@[simp] theorem State.consumeBits_roles (n : Nat) : (s.consumeBits n).roles = s.roles := rfl
@[simp] theorem State.consumeBits_display (n : Nat) : (s.consumeBits n).display = s.display := rfl
@[simp] theorem State.consumeBits_commands (n : Nat) : (s.consumeBits n).commands = s.commands := rfl
@[simp] theorem State.consumeBits_bench (n : Nat) : (s.consumeBits n).bench = s.bench := rfl
@[simp] theorem State.consumeBits_assembly (n : Nat) : (s.consumeBits n).assembly = s.assembly := rfl
@[simp] theorem State.consumeBits_rewindable (n : Nat) : (s.consumeBits n).rewindable = s.rewindable := rfl
@[simp] theorem State.consumeBits_allocDenied (n : Nat) : (s.consumeBits n).allocDenied = s.allocDenied := rfl
@[simp] theorem State.consumeBits_params (n : Nat) : (s.consumeBits n).params = s.params := rfl
@[simp] theorem State.consumeBits_draws (n : Nat) : (s.consumeBits n).draws = s.draws := rfl

/-! ### `setQuantizerScale` -/

@[simp] theorem State.setQuantizerScale_br (v : BitVec 5) : (s.setQuantizerScale v).br = s.br := rfl
@[simp] theorem State.setQuantizerScale_rdmax (v : BitVec 5) : (s.setQuantizerScale v).rdmax = s.rdmax := rfl
@[simp] theorem State.setQuantizerScale_seq (v : BitVec 5) : (s.setQuantizerScale v).seq = s.seq := rfl
@[simp] theorem State.setQuantizerScale_pic (v : BitVec 5) : (s.setQuantizerScale v).pic = s.pic := rfl
@[simp] theorem State.setQuantizerScale_cfg (v : BitVec 5) : (s.setQuantizerScale v).cfg = s.cfg := rfl
@[simp] theorem State.setQuantizerScale_hpState (v : BitVec 5) : (s.setQuantizerScale v).hpState = s.hpState := rfl
@[simp] theorem State.setQuantizerScale_session (v : BitVec 5) : (s.setQuantizerScale v).session = s.session := rfl
@[simp] theorem State.setQuantizerScale_status (v : BitVec 5) : (s.setQuantizerScale v).status = s.status := rfl
@[simp] theorem State.setQuantizerScale_qi (v : BitVec 5) : (s.setQuantizerScale v).qi = s.qi := rfl
@[simp] theorem State.setQuantizerScale_qn (v : BitVec 5) : (s.setQuantizerScale v).qn = s.qn := rfl
@[simp] theorem State.setQuantizerScale_blk (v : BitVec 5) : (s.setQuantizerScale v).blk = s.blk := rfl
@[simp] theorem State.setQuantizerScale_frames (v : BitVec 5) : (s.setQuantizerScale v).frames = s.frames := rfl
@[simp] theorem State.setQuantizerScale_roles (v : BitVec 5) : (s.setQuantizerScale v).roles = s.roles := rfl
@[simp] theorem State.setQuantizerScale_display (v : BitVec 5) : (s.setQuantizerScale v).display = s.display := rfl
@[simp] theorem State.setQuantizerScale_commands (v : BitVec 5) : (s.setQuantizerScale v).commands = s.commands := rfl
@[simp] theorem State.setQuantizerScale_bench (v : BitVec 5) : (s.setQuantizerScale v).bench = s.bench := rfl
@[simp] theorem State.setQuantizerScale_assembly (v : BitVec 5) : (s.setQuantizerScale v).assembly = s.assembly := rfl
@[simp] theorem State.setQuantizerScale_rewindable (v : BitVec 5) : (s.setQuantizerScale v).rewindable = s.rewindable := rfl
@[simp] theorem State.setQuantizerScale_allocDenied (v : BitVec 5) : (s.setQuantizerScale v).allocDenied = s.allocDenied := rfl
@[simp] theorem State.setQuantizerScale_params (v : BitVec 5) : (s.setQuantizerScale v).params = s.params := rfl
@[simp] theorem State.setQuantizerScale_draws (v : BitVec 5) : (s.setQuantizerScale v).draws = s.draws := rfl
@[simp] theorem State.setQuantizerScale_quantizerScale (v : BitVec 5) : (s.setQuantizerScale v).work.quantizerScale = v := rfl
@[simp] theorem State.setQuantizerScale_dcPred (v : BitVec 5) : (s.setQuantizerScale v).work.dcPred = s.work.dcPred := rfl
@[simp] theorem State.setQuantizerScale_mba (v : BitVec 5) : (s.setQuantizerScale v).work.mba = s.work.mba := rfl
@[simp] theorem State.setQuantizerScale_mbType (v : BitVec 5) : (s.setQuantizerScale v).work.mbType = s.work.mbType := rfl
@[simp] theorem State.setQuantizerScale_cbp (v : BitVec 5) : (s.setQuantizerScale v).work.cbp = s.work.cbp := rfl
@[simp] theorem State.setQuantizerScale_prevMotion (v : BitVec 5) : (s.setQuantizerScale v).work.prevMotion = s.work.prevMotion := rfl
@[simp] theorem State.setQuantizerScale_pmv (v : BitVec 5) : (s.setQuantizerScale v).work.pmv = s.work.pmv := rfl

/-! ### `setMba` -/

@[simp] theorem State.setMba_br (a : Nat) : (s.setMba a).br = s.br := rfl
@[simp] theorem State.setMba_rdmax (a : Nat) : (s.setMba a).rdmax = s.rdmax := rfl
@[simp] theorem State.setMba_seq (a : Nat) : (s.setMba a).seq = s.seq := rfl
@[simp] theorem State.setMba_pic (a : Nat) : (s.setMba a).pic = s.pic := rfl
@[simp] theorem State.setMba_cfg (a : Nat) : (s.setMba a).cfg = s.cfg := rfl
@[simp] theorem State.setMba_hpState (a : Nat) : (s.setMba a).hpState = s.hpState := rfl
@[simp] theorem State.setMba_session (a : Nat) : (s.setMba a).session = s.session := rfl
@[simp] theorem State.setMba_status (a : Nat) : (s.setMba a).status = s.status := rfl
@[simp] theorem State.setMba_qi (a : Nat) : (s.setMba a).qi = s.qi := rfl
@[simp] theorem State.setMba_qn (a : Nat) : (s.setMba a).qn = s.qn := rfl
@[simp] theorem State.setMba_blk (a : Nat) : (s.setMba a).blk = s.blk := rfl
@[simp] theorem State.setMba_frames (a : Nat) : (s.setMba a).frames = s.frames := rfl
@[simp] theorem State.setMba_roles (a : Nat) : (s.setMba a).roles = s.roles := rfl
@[simp] theorem State.setMba_display (a : Nat) : (s.setMba a).display = s.display := rfl
@[simp] theorem State.setMba_commands (a : Nat) : (s.setMba a).commands = s.commands := rfl
@[simp] theorem State.setMba_bench (a : Nat) : (s.setMba a).bench = s.bench := rfl
@[simp] theorem State.setMba_assembly (a : Nat) : (s.setMba a).assembly = s.assembly := rfl
@[simp] theorem State.setMba_rewindable (a : Nat) : (s.setMba a).rewindable = s.rewindable := rfl
@[simp] theorem State.setMba_allocDenied (a : Nat) : (s.setMba a).allocDenied = s.allocDenied := rfl
@[simp] theorem State.setMba_params (a : Nat) : (s.setMba a).params = s.params := rfl
@[simp] theorem State.setMba_draws (a : Nat) : (s.setMba a).draws = s.draws := rfl
@[simp] theorem State.setMba_quantizerScale (a : Nat) : (s.setMba a).work.quantizerScale = s.work.quantizerScale := rfl
@[simp] theorem State.setMba_dcPred (a : Nat) : (s.setMba a).work.dcPred = s.work.dcPred := rfl
@[simp] theorem State.setMba_mba (a : Nat) : (s.setMba a).work.mba = a := rfl
@[simp] theorem State.setMba_mbType (a : Nat) : (s.setMba a).work.mbType = s.work.mbType := rfl
@[simp] theorem State.setMba_cbp (a : Nat) : (s.setMba a).work.cbp = s.work.cbp := rfl
@[simp] theorem State.setMba_prevMotion (a : Nat) : (s.setMba a).work.prevMotion = s.work.prevMotion := rfl
@[simp] theorem State.setMba_pmv (a : Nat) : (s.setMba a).work.pmv = s.work.pmv := rfl

/-! ### `setMbType` -/

@[simp] theorem State.setMbType_br (v : BitVec 5) : (s.setMbType v).br = s.br := rfl
@[simp] theorem State.setMbType_rdmax (v : BitVec 5) : (s.setMbType v).rdmax = s.rdmax := rfl
@[simp] theorem State.setMbType_seq (v : BitVec 5) : (s.setMbType v).seq = s.seq := rfl
@[simp] theorem State.setMbType_pic (v : BitVec 5) : (s.setMbType v).pic = s.pic := rfl
@[simp] theorem State.setMbType_cfg (v : BitVec 5) : (s.setMbType v).cfg = s.cfg := rfl
@[simp] theorem State.setMbType_hpState (v : BitVec 5) : (s.setMbType v).hpState = s.hpState := rfl
@[simp] theorem State.setMbType_session (v : BitVec 5) : (s.setMbType v).session = s.session := rfl
@[simp] theorem State.setMbType_status (v : BitVec 5) : (s.setMbType v).status = s.status := rfl
@[simp] theorem State.setMbType_qi (v : BitVec 5) : (s.setMbType v).qi = s.qi := rfl
@[simp] theorem State.setMbType_qn (v : BitVec 5) : (s.setMbType v).qn = s.qn := rfl
@[simp] theorem State.setMbType_blk (v : BitVec 5) : (s.setMbType v).blk = s.blk := rfl
@[simp] theorem State.setMbType_frames (v : BitVec 5) : (s.setMbType v).frames = s.frames := rfl
@[simp] theorem State.setMbType_roles (v : BitVec 5) : (s.setMbType v).roles = s.roles := rfl
@[simp] theorem State.setMbType_display (v : BitVec 5) : (s.setMbType v).display = s.display := rfl
@[simp] theorem State.setMbType_commands (v : BitVec 5) : (s.setMbType v).commands = s.commands := rfl
@[simp] theorem State.setMbType_bench (v : BitVec 5) : (s.setMbType v).bench = s.bench := rfl
@[simp] theorem State.setMbType_assembly (v : BitVec 5) : (s.setMbType v).assembly = s.assembly := rfl
@[simp] theorem State.setMbType_rewindable (v : BitVec 5) : (s.setMbType v).rewindable = s.rewindable := rfl
@[simp] theorem State.setMbType_allocDenied (v : BitVec 5) : (s.setMbType v).allocDenied = s.allocDenied := rfl
@[simp] theorem State.setMbType_params (v : BitVec 5) : (s.setMbType v).params = s.params := rfl
@[simp] theorem State.setMbType_draws (v : BitVec 5) : (s.setMbType v).draws = s.draws := rfl
@[simp] theorem State.setMbType_quantizerScale (v : BitVec 5) : (s.setMbType v).work.quantizerScale = s.work.quantizerScale := rfl
@[simp] theorem State.setMbType_dcPred (v : BitVec 5) : (s.setMbType v).work.dcPred = s.work.dcPred := rfl
@[simp] theorem State.setMbType_mba (v : BitVec 5) : (s.setMbType v).work.mba = s.work.mba := rfl
@[simp] theorem State.setMbType_mbType (v : BitVec 5) : (s.setMbType v).work.mbType = v := rfl
@[simp] theorem State.setMbType_cbp (v : BitVec 5) : (s.setMbType v).work.cbp = s.work.cbp := rfl
@[simp] theorem State.setMbType_prevMotion (v : BitVec 5) : (s.setMbType v).work.prevMotion = s.work.prevMotion := rfl
@[simp] theorem State.setMbType_pmv (v : BitVec 5) : (s.setMbType v).work.pmv = s.work.pmv := rfl

/-! ### `setCbp` -/

@[simp] theorem State.setCbp_br (v : BitVec 6) : (s.setCbp v).br = s.br := rfl
@[simp] theorem State.setCbp_rdmax (v : BitVec 6) : (s.setCbp v).rdmax = s.rdmax := rfl
@[simp] theorem State.setCbp_seq (v : BitVec 6) : (s.setCbp v).seq = s.seq := rfl
@[simp] theorem State.setCbp_pic (v : BitVec 6) : (s.setCbp v).pic = s.pic := rfl
@[simp] theorem State.setCbp_cfg (v : BitVec 6) : (s.setCbp v).cfg = s.cfg := rfl
@[simp] theorem State.setCbp_hpState (v : BitVec 6) : (s.setCbp v).hpState = s.hpState := rfl
@[simp] theorem State.setCbp_session (v : BitVec 6) : (s.setCbp v).session = s.session := rfl
@[simp] theorem State.setCbp_status (v : BitVec 6) : (s.setCbp v).status = s.status := rfl
@[simp] theorem State.setCbp_qi (v : BitVec 6) : (s.setCbp v).qi = s.qi := rfl
@[simp] theorem State.setCbp_qn (v : BitVec 6) : (s.setCbp v).qn = s.qn := rfl
@[simp] theorem State.setCbp_blk (v : BitVec 6) : (s.setCbp v).blk = s.blk := rfl
@[simp] theorem State.setCbp_frames (v : BitVec 6) : (s.setCbp v).frames = s.frames := rfl
@[simp] theorem State.setCbp_roles (v : BitVec 6) : (s.setCbp v).roles = s.roles := rfl
@[simp] theorem State.setCbp_display (v : BitVec 6) : (s.setCbp v).display = s.display := rfl
@[simp] theorem State.setCbp_commands (v : BitVec 6) : (s.setCbp v).commands = s.commands := rfl
@[simp] theorem State.setCbp_bench (v : BitVec 6) : (s.setCbp v).bench = s.bench := rfl
@[simp] theorem State.setCbp_assembly (v : BitVec 6) : (s.setCbp v).assembly = s.assembly := rfl
@[simp] theorem State.setCbp_rewindable (v : BitVec 6) : (s.setCbp v).rewindable = s.rewindable := rfl
@[simp] theorem State.setCbp_allocDenied (v : BitVec 6) : (s.setCbp v).allocDenied = s.allocDenied := rfl
@[simp] theorem State.setCbp_params (v : BitVec 6) : (s.setCbp v).params = s.params := rfl
@[simp] theorem State.setCbp_draws (v : BitVec 6) : (s.setCbp v).draws = s.draws := rfl
@[simp] theorem State.setCbp_quantizerScale (v : BitVec 6) : (s.setCbp v).work.quantizerScale = s.work.quantizerScale := rfl
@[simp] theorem State.setCbp_dcPred (v : BitVec 6) : (s.setCbp v).work.dcPred = s.work.dcPred := rfl
@[simp] theorem State.setCbp_mba (v : BitVec 6) : (s.setCbp v).work.mba = s.work.mba := rfl
@[simp] theorem State.setCbp_mbType (v : BitVec 6) : (s.setCbp v).work.mbType = s.work.mbType := rfl
@[simp] theorem State.setCbp_cbp (v : BitVec 6) : (s.setCbp v).work.cbp = v := rfl
@[simp] theorem State.setCbp_prevMotion (v : BitVec 6) : (s.setCbp v).work.prevMotion = s.work.prevMotion := rfl
@[simp] theorem State.setCbp_pmv (v : BitVec 6) : (s.setCbp v).work.pmv = s.work.pmv := rfl

/-! ### `setPrevMotion` -/

@[simp] theorem State.setPrevMotion_br (m : Motion) : (s.setPrevMotion m).br = s.br := rfl
@[simp] theorem State.setPrevMotion_rdmax (m : Motion) : (s.setPrevMotion m).rdmax = s.rdmax := rfl
@[simp] theorem State.setPrevMotion_seq (m : Motion) : (s.setPrevMotion m).seq = s.seq := rfl
@[simp] theorem State.setPrevMotion_pic (m : Motion) : (s.setPrevMotion m).pic = s.pic := rfl
@[simp] theorem State.setPrevMotion_cfg (m : Motion) : (s.setPrevMotion m).cfg = s.cfg := rfl
@[simp] theorem State.setPrevMotion_hpState (m : Motion) : (s.setPrevMotion m).hpState = s.hpState := rfl
@[simp] theorem State.setPrevMotion_session (m : Motion) : (s.setPrevMotion m).session = s.session := rfl
@[simp] theorem State.setPrevMotion_status (m : Motion) : (s.setPrevMotion m).status = s.status := rfl
@[simp] theorem State.setPrevMotion_qi (m : Motion) : (s.setPrevMotion m).qi = s.qi := rfl
@[simp] theorem State.setPrevMotion_qn (m : Motion) : (s.setPrevMotion m).qn = s.qn := rfl
@[simp] theorem State.setPrevMotion_blk (m : Motion) : (s.setPrevMotion m).blk = s.blk := rfl
@[simp] theorem State.setPrevMotion_frames (m : Motion) : (s.setPrevMotion m).frames = s.frames := rfl
@[simp] theorem State.setPrevMotion_roles (m : Motion) : (s.setPrevMotion m).roles = s.roles := rfl
@[simp] theorem State.setPrevMotion_display (m : Motion) : (s.setPrevMotion m).display = s.display := rfl
@[simp] theorem State.setPrevMotion_commands (m : Motion) : (s.setPrevMotion m).commands = s.commands := rfl
@[simp] theorem State.setPrevMotion_bench (m : Motion) : (s.setPrevMotion m).bench = s.bench := rfl
@[simp] theorem State.setPrevMotion_assembly (m : Motion) : (s.setPrevMotion m).assembly = s.assembly := rfl
@[simp] theorem State.setPrevMotion_rewindable (m : Motion) : (s.setPrevMotion m).rewindable = s.rewindable := rfl
@[simp] theorem State.setPrevMotion_allocDenied (m : Motion) : (s.setPrevMotion m).allocDenied = s.allocDenied := rfl
@[simp] theorem State.setPrevMotion_params (m : Motion) : (s.setPrevMotion m).params = s.params := rfl
@[simp] theorem State.setPrevMotion_draws (m : Motion) : (s.setPrevMotion m).draws = s.draws := rfl
@[simp] theorem State.setPrevMotion_quantizerScale (m : Motion) : (s.setPrevMotion m).work.quantizerScale = s.work.quantizerScale := rfl
@[simp] theorem State.setPrevMotion_dcPred (m : Motion) : (s.setPrevMotion m).work.dcPred = s.work.dcPred := rfl
@[simp] theorem State.setPrevMotion_mba (m : Motion) : (s.setPrevMotion m).work.mba = s.work.mba := rfl
@[simp] theorem State.setPrevMotion_mbType (m : Motion) : (s.setPrevMotion m).work.mbType = s.work.mbType := rfl
@[simp] theorem State.setPrevMotion_cbp (m : Motion) : (s.setPrevMotion m).work.cbp = s.work.cbp := rfl
@[simp] theorem State.setPrevMotion_prevMotion (m : Motion) : (s.setPrevMotion m).work.prevMotion = m := rfl
@[simp] theorem State.setPrevMotion_pmv (m : Motion) : (s.setPrevMotion m).work.pmv = s.work.pmv := rfl

/-! ### `setDcPred` -/

@[simp] theorem State.setDcPred_br (c : Fin 3) (v : BitVec 32) : (s.setDcPred c v).br = s.br := rfl
@[simp] theorem State.setDcPred_rdmax (c : Fin 3) (v : BitVec 32) : (s.setDcPred c v).rdmax = s.rdmax := rfl
@[simp] theorem State.setDcPred_seq (c : Fin 3) (v : BitVec 32) : (s.setDcPred c v).seq = s.seq := rfl
@[simp] theorem State.setDcPred_pic (c : Fin 3) (v : BitVec 32) : (s.setDcPred c v).pic = s.pic := rfl
@[simp] theorem State.setDcPred_cfg (c : Fin 3) (v : BitVec 32) : (s.setDcPred c v).cfg = s.cfg := rfl
@[simp] theorem State.setDcPred_hpState (c : Fin 3) (v : BitVec 32) : (s.setDcPred c v).hpState = s.hpState := rfl
@[simp] theorem State.setDcPred_session (c : Fin 3) (v : BitVec 32) : (s.setDcPred c v).session = s.session := rfl
@[simp] theorem State.setDcPred_status (c : Fin 3) (v : BitVec 32) : (s.setDcPred c v).status = s.status := rfl
@[simp] theorem State.setDcPred_qi (c : Fin 3) (v : BitVec 32) : (s.setDcPred c v).qi = s.qi := rfl
@[simp] theorem State.setDcPred_qn (c : Fin 3) (v : BitVec 32) : (s.setDcPred c v).qn = s.qn := rfl
@[simp] theorem State.setDcPred_blk (c : Fin 3) (v : BitVec 32) : (s.setDcPred c v).blk = s.blk := rfl
@[simp] theorem State.setDcPred_frames (c : Fin 3) (v : BitVec 32) : (s.setDcPred c v).frames = s.frames := rfl
@[simp] theorem State.setDcPred_roles (c : Fin 3) (v : BitVec 32) : (s.setDcPred c v).roles = s.roles := rfl
@[simp] theorem State.setDcPred_display (c : Fin 3) (v : BitVec 32) : (s.setDcPred c v).display = s.display := rfl
@[simp] theorem State.setDcPred_commands (c : Fin 3) (v : BitVec 32) : (s.setDcPred c v).commands = s.commands := rfl
@[simp] theorem State.setDcPred_bench (c : Fin 3) (v : BitVec 32) : (s.setDcPred c v).bench = s.bench := rfl
@[simp] theorem State.setDcPred_assembly (c : Fin 3) (v : BitVec 32) : (s.setDcPred c v).assembly = s.assembly := rfl
@[simp] theorem State.setDcPred_rewindable (c : Fin 3) (v : BitVec 32) : (s.setDcPred c v).rewindable = s.rewindable := rfl
@[simp] theorem State.setDcPred_allocDenied (c : Fin 3) (v : BitVec 32) : (s.setDcPred c v).allocDenied = s.allocDenied := rfl
@[simp] theorem State.setDcPred_params (c : Fin 3) (v : BitVec 32) : (s.setDcPred c v).params = s.params := rfl
@[simp] theorem State.setDcPred_draws (c : Fin 3) (v : BitVec 32) : (s.setDcPred c v).draws = s.draws := rfl
@[simp] theorem State.setDcPred_quantizerScale (c : Fin 3) (v : BitVec 32) : (s.setDcPred c v).work.quantizerScale = s.work.quantizerScale := rfl
@[simp] theorem State.setDcPred_dcPred (c : Fin 3) (v : BitVec 32) : (s.setDcPred c v).work.dcPred = s.work.dcPred.set c v := rfl
@[simp] theorem State.setDcPred_mba (c : Fin 3) (v : BitVec 32) : (s.setDcPred c v).work.mba = s.work.mba := rfl
@[simp] theorem State.setDcPred_mbType (c : Fin 3) (v : BitVec 32) : (s.setDcPred c v).work.mbType = s.work.mbType := rfl
@[simp] theorem State.setDcPred_cbp (c : Fin 3) (v : BitVec 32) : (s.setDcPred c v).work.cbp = s.work.cbp := rfl
@[simp] theorem State.setDcPred_prevMotion (c : Fin 3) (v : BitVec 32) : (s.setDcPred c v).work.prevMotion = s.work.prevMotion := rfl
@[simp] theorem State.setDcPred_pmv (c : Fin 3) (v : BitVec 32) : (s.setDcPred c v).work.pmv = s.work.pmv := rfl

/-! ### `clearDcPred` -/

@[simp] theorem State.clearDcPred_br : (s.clearDcPred).br = s.br := rfl
@[simp] theorem State.clearDcPred_rdmax : (s.clearDcPred).rdmax = s.rdmax := rfl
@[simp] theorem State.clearDcPred_seq : (s.clearDcPred).seq = s.seq := rfl
@[simp] theorem State.clearDcPred_pic : (s.clearDcPred).pic = s.pic := rfl
@[simp] theorem State.clearDcPred_cfg : (s.clearDcPred).cfg = s.cfg := rfl
@[simp] theorem State.clearDcPred_hpState : (s.clearDcPred).hpState = s.hpState := rfl
@[simp] theorem State.clearDcPred_session : (s.clearDcPred).session = s.session := rfl
@[simp] theorem State.clearDcPred_status : (s.clearDcPred).status = s.status := rfl
@[simp] theorem State.clearDcPred_qi : (s.clearDcPred).qi = s.qi := rfl
@[simp] theorem State.clearDcPred_qn : (s.clearDcPred).qn = s.qn := rfl
@[simp] theorem State.clearDcPred_blk : (s.clearDcPred).blk = s.blk := rfl
@[simp] theorem State.clearDcPred_frames : (s.clearDcPred).frames = s.frames := rfl
@[simp] theorem State.clearDcPred_roles : (s.clearDcPred).roles = s.roles := rfl
@[simp] theorem State.clearDcPred_display : (s.clearDcPred).display = s.display := rfl
@[simp] theorem State.clearDcPred_commands : (s.clearDcPred).commands = s.commands := rfl
@[simp] theorem State.clearDcPred_bench : (s.clearDcPred).bench = s.bench := rfl
@[simp] theorem State.clearDcPred_assembly : (s.clearDcPred).assembly = s.assembly := rfl
@[simp] theorem State.clearDcPred_rewindable : (s.clearDcPred).rewindable = s.rewindable := rfl
@[simp] theorem State.clearDcPred_allocDenied : (s.clearDcPred).allocDenied = s.allocDenied := rfl
@[simp] theorem State.clearDcPred_params : (s.clearDcPred).params = s.params := rfl
@[simp] theorem State.clearDcPred_draws : (s.clearDcPred).draws = s.draws := rfl
@[simp] theorem State.clearDcPred_quantizerScale : (s.clearDcPred).work.quantizerScale = s.work.quantizerScale := rfl
@[simp] theorem State.clearDcPred_dcPred : (s.clearDcPred).work.dcPred = Vector.replicate 3 0 := rfl
@[simp] theorem State.clearDcPred_mba : (s.clearDcPred).work.mba = s.work.mba := rfl
@[simp] theorem State.clearDcPred_mbType : (s.clearDcPred).work.mbType = s.work.mbType := rfl
@[simp] theorem State.clearDcPred_cbp : (s.clearDcPred).work.cbp = s.work.cbp := rfl
@[simp] theorem State.clearDcPred_prevMotion : (s.clearDcPred).work.prevMotion = s.work.prevMotion := rfl
@[simp] theorem State.clearDcPred_pmv : (s.clearDcPred).work.pmv = s.work.pmv := rfl

/-! ### `setPmv` -/

@[simp] theorem State.setPmv_br (d : Direction) (c : Axis) (v : Int) : (s.setPmv d c v).br = s.br := rfl
@[simp] theorem State.setPmv_rdmax (d : Direction) (c : Axis) (v : Int) : (s.setPmv d c v).rdmax = s.rdmax := rfl
@[simp] theorem State.setPmv_seq (d : Direction) (c : Axis) (v : Int) : (s.setPmv d c v).seq = s.seq := rfl
@[simp] theorem State.setPmv_pic (d : Direction) (c : Axis) (v : Int) : (s.setPmv d c v).pic = s.pic := rfl
@[simp] theorem State.setPmv_cfg (d : Direction) (c : Axis) (v : Int) : (s.setPmv d c v).cfg = s.cfg := rfl
@[simp] theorem State.setPmv_hpState (d : Direction) (c : Axis) (v : Int) : (s.setPmv d c v).hpState = s.hpState := rfl
@[simp] theorem State.setPmv_session (d : Direction) (c : Axis) (v : Int) : (s.setPmv d c v).session = s.session := rfl
@[simp] theorem State.setPmv_status (d : Direction) (c : Axis) (v : Int) : (s.setPmv d c v).status = s.status := rfl
@[simp] theorem State.setPmv_qi (d : Direction) (c : Axis) (v : Int) : (s.setPmv d c v).qi = s.qi := rfl
@[simp] theorem State.setPmv_qn (d : Direction) (c : Axis) (v : Int) : (s.setPmv d c v).qn = s.qn := rfl
@[simp] theorem State.setPmv_blk (d : Direction) (c : Axis) (v : Int) : (s.setPmv d c v).blk = s.blk := rfl
@[simp] theorem State.setPmv_frames (d : Direction) (c : Axis) (v : Int) : (s.setPmv d c v).frames = s.frames := rfl
@[simp] theorem State.setPmv_roles (d : Direction) (c : Axis) (v : Int) : (s.setPmv d c v).roles = s.roles := rfl
@[simp] theorem State.setPmv_display (d : Direction) (c : Axis) (v : Int) : (s.setPmv d c v).display = s.display := rfl
@[simp] theorem State.setPmv_commands (d : Direction) (c : Axis) (v : Int) : (s.setPmv d c v).commands = s.commands := rfl
@[simp] theorem State.setPmv_bench (d : Direction) (c : Axis) (v : Int) : (s.setPmv d c v).bench = s.bench := rfl
@[simp] theorem State.setPmv_assembly (d : Direction) (c : Axis) (v : Int) : (s.setPmv d c v).assembly = s.assembly := rfl
@[simp] theorem State.setPmv_rewindable (d : Direction) (c : Axis) (v : Int) : (s.setPmv d c v).rewindable = s.rewindable := rfl
@[simp] theorem State.setPmv_allocDenied (d : Direction) (c : Axis) (v : Int) : (s.setPmv d c v).allocDenied = s.allocDenied := rfl
@[simp] theorem State.setPmv_params (d : Direction) (c : Axis) (v : Int) : (s.setPmv d c v).params = s.params := rfl
@[simp] theorem State.setPmv_draws (d : Direction) (c : Axis) (v : Int) : (s.setPmv d c v).draws = s.draws := rfl
@[simp] theorem State.setPmv_quantizerScale (d : Direction) (c : Axis) (v : Int) : (s.setPmv d c v).work.quantizerScale = s.work.quantizerScale := rfl
@[simp] theorem State.setPmv_dcPred (d : Direction) (c : Axis) (v : Int) : (s.setPmv d c v).work.dcPred = s.work.dcPred := rfl
@[simp] theorem State.setPmv_mba (d : Direction) (c : Axis) (v : Int) : (s.setPmv d c v).work.mba = s.work.mba := rfl
@[simp] theorem State.setPmv_mbType (d : Direction) (c : Axis) (v : Int) : (s.setPmv d c v).work.mbType = s.work.mbType := rfl
@[simp] theorem State.setPmv_cbp (d : Direction) (c : Axis) (v : Int) : (s.setPmv d c v).work.cbp = s.work.cbp := rfl
@[simp] theorem State.setPmv_prevMotion (d : Direction) (c : Axis) (v : Int) : (s.setPmv d c v).work.prevMotion = s.work.prevMotion := rfl
@[simp] theorem State.setPmv_pmv (d : Direction) (c : Axis) (v : Int) : (s.setPmv d c v).work.pmv = s.work.pmv.set d c v := rfl

/-! ### `clearForwardPmv` -/

@[simp] theorem State.clearForwardPmv_br : (s.clearForwardPmv).br = s.br := rfl
@[simp] theorem State.clearForwardPmv_rdmax : (s.clearForwardPmv).rdmax = s.rdmax := rfl
@[simp] theorem State.clearForwardPmv_seq : (s.clearForwardPmv).seq = s.seq := rfl
@[simp] theorem State.clearForwardPmv_pic : (s.clearForwardPmv).pic = s.pic := rfl
@[simp] theorem State.clearForwardPmv_cfg : (s.clearForwardPmv).cfg = s.cfg := rfl
@[simp] theorem State.clearForwardPmv_hpState : (s.clearForwardPmv).hpState = s.hpState := rfl
@[simp] theorem State.clearForwardPmv_session : (s.clearForwardPmv).session = s.session := rfl
@[simp] theorem State.clearForwardPmv_status : (s.clearForwardPmv).status = s.status := rfl
@[simp] theorem State.clearForwardPmv_qi : (s.clearForwardPmv).qi = s.qi := rfl
@[simp] theorem State.clearForwardPmv_qn : (s.clearForwardPmv).qn = s.qn := rfl
@[simp] theorem State.clearForwardPmv_blk : (s.clearForwardPmv).blk = s.blk := rfl
@[simp] theorem State.clearForwardPmv_frames : (s.clearForwardPmv).frames = s.frames := rfl
@[simp] theorem State.clearForwardPmv_roles : (s.clearForwardPmv).roles = s.roles := rfl
@[simp] theorem State.clearForwardPmv_display : (s.clearForwardPmv).display = s.display := rfl
@[simp] theorem State.clearForwardPmv_commands : (s.clearForwardPmv).commands = s.commands := rfl
@[simp] theorem State.clearForwardPmv_bench : (s.clearForwardPmv).bench = s.bench := rfl
@[simp] theorem State.clearForwardPmv_assembly : (s.clearForwardPmv).assembly = s.assembly := rfl
@[simp] theorem State.clearForwardPmv_rewindable : (s.clearForwardPmv).rewindable = s.rewindable := rfl
@[simp] theorem State.clearForwardPmv_allocDenied : (s.clearForwardPmv).allocDenied = s.allocDenied := rfl
@[simp] theorem State.clearForwardPmv_params : (s.clearForwardPmv).params = s.params := rfl
@[simp] theorem State.clearForwardPmv_draws : (s.clearForwardPmv).draws = s.draws := rfl
@[simp] theorem State.clearForwardPmv_quantizerScale : (s.clearForwardPmv).work.quantizerScale = s.work.quantizerScale := rfl
@[simp] theorem State.clearForwardPmv_dcPred : (s.clearForwardPmv).work.dcPred = s.work.dcPred := rfl
@[simp] theorem State.clearForwardPmv_mba : (s.clearForwardPmv).work.mba = s.work.mba := rfl
@[simp] theorem State.clearForwardPmv_mbType : (s.clearForwardPmv).work.mbType = s.work.mbType := rfl
@[simp] theorem State.clearForwardPmv_cbp : (s.clearForwardPmv).work.cbp = s.work.cbp := rfl
@[simp] theorem State.clearForwardPmv_prevMotion : (s.clearForwardPmv).work.prevMotion = s.work.prevMotion := rfl
@[simp] theorem State.clearForwardPmv_pmv : (s.clearForwardPmv).work.pmv = { s.work.pmv with forward := ⟨0, 0⟩ } := rfl

/-! ### `clearPmv` -/

@[simp] theorem State.clearPmv_br : (s.clearPmv).br = s.br := rfl
@[simp] theorem State.clearPmv_rdmax : (s.clearPmv).rdmax = s.rdmax := rfl
@[simp] theorem State.clearPmv_seq : (s.clearPmv).seq = s.seq := rfl
@[simp] theorem State.clearPmv_pic : (s.clearPmv).pic = s.pic := rfl
@[simp] theorem State.clearPmv_cfg : (s.clearPmv).cfg = s.cfg := rfl
@[simp] theorem State.clearPmv_hpState : (s.clearPmv).hpState = s.hpState := rfl
@[simp] theorem State.clearPmv_session : (s.clearPmv).session = s.session := rfl
@[simp] theorem State.clearPmv_status : (s.clearPmv).status = s.status := rfl
@[simp] theorem State.clearPmv_qi : (s.clearPmv).qi = s.qi := rfl
@[simp] theorem State.clearPmv_qn : (s.clearPmv).qn = s.qn := rfl
@[simp] theorem State.clearPmv_blk : (s.clearPmv).blk = s.blk := rfl
@[simp] theorem State.clearPmv_frames : (s.clearPmv).frames = s.frames := rfl
@[simp] theorem State.clearPmv_roles : (s.clearPmv).roles = s.roles := rfl
@[simp] theorem State.clearPmv_display : (s.clearPmv).display = s.display := rfl
@[simp] theorem State.clearPmv_commands : (s.clearPmv).commands = s.commands := rfl
@[simp] theorem State.clearPmv_bench : (s.clearPmv).bench = s.bench := rfl
@[simp] theorem State.clearPmv_assembly : (s.clearPmv).assembly = s.assembly := rfl
@[simp] theorem State.clearPmv_rewindable : (s.clearPmv).rewindable = s.rewindable := rfl
@[simp] theorem State.clearPmv_allocDenied : (s.clearPmv).allocDenied = s.allocDenied := rfl
@[simp] theorem State.clearPmv_params : (s.clearPmv).params = s.params := rfl
@[simp] theorem State.clearPmv_draws : (s.clearPmv).draws = s.draws := rfl
@[simp] theorem State.clearPmv_quantizerScale : (s.clearPmv).work.quantizerScale = s.work.quantizerScale := rfl
@[simp] theorem State.clearPmv_dcPred : (s.clearPmv).work.dcPred = s.work.dcPred := rfl
@[simp] theorem State.clearPmv_mba : (s.clearPmv).work.mba = s.work.mba := rfl
@[simp] theorem State.clearPmv_mbType : (s.clearPmv).work.mbType = s.work.mbType := rfl
@[simp] theorem State.clearPmv_cbp : (s.clearPmv).work.cbp = s.work.cbp := rfl
@[simp] theorem State.clearPmv_prevMotion : (s.clearPmv).work.prevMotion = s.work.prevMotion := rfl
@[simp] theorem State.clearPmv_pmv : (s.clearPmv).work.pmv = ⟨⟨0, 0⟩, ⟨0, 0⟩⟩ := rfl

/-! ### `setBlock` -/

@[simp] theorem State.setBlock_br (b : BlockNo) (v : Block) : (s.setBlock b v).br = s.br := rfl
@[simp] theorem State.setBlock_rdmax (b : BlockNo) (v : Block) : (s.setBlock b v).rdmax = s.rdmax := rfl
@[simp] theorem State.setBlock_work (b : BlockNo) (v : Block) : (s.setBlock b v).work = s.work := rfl
@[simp] theorem State.setBlock_seq (b : BlockNo) (v : Block) : (s.setBlock b v).seq = s.seq := rfl
@[simp] theorem State.setBlock_pic (b : BlockNo) (v : Block) : (s.setBlock b v).pic = s.pic := rfl
@[simp] theorem State.setBlock_cfg (b : BlockNo) (v : Block) : (s.setBlock b v).cfg = s.cfg := rfl
@[simp] theorem State.setBlock_hpState (b : BlockNo) (v : Block) : (s.setBlock b v).hpState = s.hpState := rfl
@[simp] theorem State.setBlock_session (b : BlockNo) (v : Block) : (s.setBlock b v).session = s.session := rfl
@[simp] theorem State.setBlock_status (b : BlockNo) (v : Block) : (s.setBlock b v).status = s.status := rfl
@[simp] theorem State.setBlock_qi (b : BlockNo) (v : Block) : (s.setBlock b v).qi = s.qi := rfl
@[simp] theorem State.setBlock_qn (b : BlockNo) (v : Block) : (s.setBlock b v).qn = s.qn := rfl
@[simp] theorem State.setBlock_blk (b : BlockNo) (v : Block) : (s.setBlock b v).blk = s.blk.set b v := rfl
@[simp] theorem State.setBlock_frames (b : BlockNo) (v : Block) : (s.setBlock b v).frames = s.frames := rfl
@[simp] theorem State.setBlock_roles (b : BlockNo) (v : Block) : (s.setBlock b v).roles = s.roles := rfl
@[simp] theorem State.setBlock_display (b : BlockNo) (v : Block) : (s.setBlock b v).display = s.display := rfl
@[simp] theorem State.setBlock_commands (b : BlockNo) (v : Block) : (s.setBlock b v).commands = s.commands := rfl
@[simp] theorem State.setBlock_bench (b : BlockNo) (v : Block) : (s.setBlock b v).bench = s.bench := rfl
@[simp] theorem State.setBlock_assembly (b : BlockNo) (v : Block) : (s.setBlock b v).assembly = s.assembly := rfl
@[simp] theorem State.setBlock_rewindable (b : BlockNo) (v : Block) : (s.setBlock b v).rewindable = s.rewindable := rfl
@[simp] theorem State.setBlock_allocDenied (b : BlockNo) (v : Block) : (s.setBlock b v).allocDenied = s.allocDenied := rfl
@[simp] theorem State.setBlock_params (b : BlockNo) (v : Block) : (s.setBlock b v).params = s.params := rfl
@[simp] theorem State.setBlock_draws (b : BlockNo) (v : Block) : (s.setBlock b v).draws = s.draws := rfl

/-! ### `setBlkEntry` -/

@[simp] theorem State.setBlkEntry_br (b : BlockNo) (k : Nat) (v : Coef) : (s.setBlkEntry b k v).br = s.br := rfl
@[simp] theorem State.setBlkEntry_rdmax (b : BlockNo) (k : Nat) (v : Coef) : (s.setBlkEntry b k v).rdmax = s.rdmax := rfl
@[simp] theorem State.setBlkEntry_work (b : BlockNo) (k : Nat) (v : Coef) : (s.setBlkEntry b k v).work = s.work := rfl
@[simp] theorem State.setBlkEntry_seq (b : BlockNo) (k : Nat) (v : Coef) : (s.setBlkEntry b k v).seq = s.seq := rfl
@[simp] theorem State.setBlkEntry_pic (b : BlockNo) (k : Nat) (v : Coef) : (s.setBlkEntry b k v).pic = s.pic := rfl
@[simp] theorem State.setBlkEntry_cfg (b : BlockNo) (k : Nat) (v : Coef) : (s.setBlkEntry b k v).cfg = s.cfg := rfl
@[simp] theorem State.setBlkEntry_hpState (b : BlockNo) (k : Nat) (v : Coef) : (s.setBlkEntry b k v).hpState = s.hpState := rfl
@[simp] theorem State.setBlkEntry_session (b : BlockNo) (k : Nat) (v : Coef) : (s.setBlkEntry b k v).session = s.session := rfl
@[simp] theorem State.setBlkEntry_status (b : BlockNo) (k : Nat) (v : Coef) : (s.setBlkEntry b k v).status = s.status := rfl
@[simp] theorem State.setBlkEntry_qi (b : BlockNo) (k : Nat) (v : Coef) : (s.setBlkEntry b k v).qi = s.qi := rfl
@[simp] theorem State.setBlkEntry_qn (b : BlockNo) (k : Nat) (v : Coef) : (s.setBlkEntry b k v).qn = s.qn := rfl
@[simp] theorem State.setBlkEntry_blk (b : BlockNo) (k : Nat) (v : Coef) : (s.setBlkEntry b k v).blk = s.blk.set b (s.blk[b].setIfInBounds k v) := rfl
@[simp] theorem State.setBlkEntry_frames (b : BlockNo) (k : Nat) (v : Coef) : (s.setBlkEntry b k v).frames = s.frames := rfl
@[simp] theorem State.setBlkEntry_roles (b : BlockNo) (k : Nat) (v : Coef) : (s.setBlkEntry b k v).roles = s.roles := rfl
@[simp] theorem State.setBlkEntry_display (b : BlockNo) (k : Nat) (v : Coef) : (s.setBlkEntry b k v).display = s.display := rfl
@[simp] theorem State.setBlkEntry_commands (b : BlockNo) (k : Nat) (v : Coef) : (s.setBlkEntry b k v).commands = s.commands := rfl
@[simp] theorem State.setBlkEntry_bench (b : BlockNo) (k : Nat) (v : Coef) : (s.setBlkEntry b k v).bench = s.bench := rfl
@[simp] theorem State.setBlkEntry_assembly (b : BlockNo) (k : Nat) (v : Coef) : (s.setBlkEntry b k v).assembly = s.assembly := rfl
@[simp] theorem State.setBlkEntry_rewindable (b : BlockNo) (k : Nat) (v : Coef) : (s.setBlkEntry b k v).rewindable = s.rewindable := rfl
@[simp] theorem State.setBlkEntry_allocDenied (b : BlockNo) (k : Nat) (v : Coef) : (s.setBlkEntry b k v).allocDenied = s.allocDenied := rfl
@[simp] theorem State.setBlkEntry_params (b : BlockNo) (k : Nat) (v : Coef) : (s.setBlkEntry b k v).params = s.params := rfl
@[simp] theorem State.setBlkEntry_draws (b : BlockNo) (k : Nat) (v : Coef) : (s.setBlkEntry b k v).draws = s.draws := rfl

/-! ### `zeroBlocks` -/

@[simp] theorem State.zeroBlocks_br : (s.zeroBlocks).br = s.br := rfl
@[simp] theorem State.zeroBlocks_rdmax : (s.zeroBlocks).rdmax = s.rdmax := rfl
@[simp] theorem State.zeroBlocks_work : (s.zeroBlocks).work = s.work := rfl
@[simp] theorem State.zeroBlocks_seq : (s.zeroBlocks).seq = s.seq := rfl
@[simp] theorem State.zeroBlocks_pic : (s.zeroBlocks).pic = s.pic := rfl
@[simp] theorem State.zeroBlocks_cfg : (s.zeroBlocks).cfg = s.cfg := rfl
@[simp] theorem State.zeroBlocks_hpState : (s.zeroBlocks).hpState = s.hpState := rfl
@[simp] theorem State.zeroBlocks_session : (s.zeroBlocks).session = s.session := rfl
@[simp] theorem State.zeroBlocks_status : (s.zeroBlocks).status = s.status := rfl
@[simp] theorem State.zeroBlocks_qi : (s.zeroBlocks).qi = s.qi := rfl
@[simp] theorem State.zeroBlocks_qn : (s.zeroBlocks).qn = s.qn := rfl
@[simp] theorem State.zeroBlocks_blk : (s.zeroBlocks).blk = Vector.replicate 6 zeroBlock := rfl
@[simp] theorem State.zeroBlocks_frames : (s.zeroBlocks).frames = s.frames := rfl
@[simp] theorem State.zeroBlocks_roles : (s.zeroBlocks).roles = s.roles := rfl
@[simp] theorem State.zeroBlocks_display : (s.zeroBlocks).display = s.display := rfl
@[simp] theorem State.zeroBlocks_commands : (s.zeroBlocks).commands = s.commands := rfl
@[simp] theorem State.zeroBlocks_bench : (s.zeroBlocks).bench = s.bench := rfl
@[simp] theorem State.zeroBlocks_assembly : (s.zeroBlocks).assembly = s.assembly := rfl
@[simp] theorem State.zeroBlocks_rewindable : (s.zeroBlocks).rewindable = s.rewindable := rfl
@[simp] theorem State.zeroBlocks_allocDenied : (s.zeroBlocks).allocDenied = s.allocDenied := rfl
@[simp] theorem State.zeroBlocks_params : (s.zeroBlocks).params = s.params := rfl
@[simp] theorem State.zeroBlocks_draws : (s.zeroBlocks).draws = s.draws := rfl

/-! ### `discardBlocks` -/

@[simp] theorem State.discardBlocks_br : (s.discardBlocks).br = s.br := rfl
@[simp] theorem State.discardBlocks_rdmax : (s.discardBlocks).rdmax = s.rdmax := rfl
@[simp] theorem State.discardBlocks_work : (s.discardBlocks).work = s.work := rfl
@[simp] theorem State.discardBlocks_seq : (s.discardBlocks).seq = s.seq := rfl
@[simp] theorem State.discardBlocks_pic : (s.discardBlocks).pic = s.pic := rfl
@[simp] theorem State.discardBlocks_cfg : (s.discardBlocks).cfg = s.cfg := rfl
@[simp] theorem State.discardBlocks_hpState : (s.discardBlocks).hpState = s.hpState := rfl
@[simp] theorem State.discardBlocks_session : (s.discardBlocks).session = s.session := rfl
@[simp] theorem State.discardBlocks_status : (s.discardBlocks).status = s.status := rfl
@[simp] theorem State.discardBlocks_qi : (s.discardBlocks).qi = s.qi := rfl
@[simp] theorem State.discardBlocks_qn : (s.discardBlocks).qn = s.qn := rfl
@[simp] theorem State.discardBlocks_blk : (s.discardBlocks).blk = Config.freeBlocks s.draws := rfl
@[simp] theorem State.discardBlocks_frames : (s.discardBlocks).frames = s.frames := rfl
@[simp] theorem State.discardBlocks_roles : (s.discardBlocks).roles = s.roles := rfl
@[simp] theorem State.discardBlocks_display : (s.discardBlocks).display = s.display := rfl
@[simp] theorem State.discardBlocks_commands : (s.discardBlocks).commands = s.commands := rfl
@[simp] theorem State.discardBlocks_bench : (s.discardBlocks).bench = s.bench := rfl
@[simp] theorem State.discardBlocks_assembly : (s.discardBlocks).assembly = s.assembly := rfl
@[simp] theorem State.discardBlocks_rewindable : (s.discardBlocks).rewindable = s.rewindable := rfl
@[simp] theorem State.discardBlocks_allocDenied : (s.discardBlocks).allocDenied = s.allocDenied := rfl
@[simp] theorem State.discardBlocks_params : (s.discardBlocks).params = s.params := rfl
@[simp] theorem State.discardBlocks_draws : (s.discardBlocks).draws = s.draws + 1 := rfl

/-! ### `setHpState` -/

@[simp] theorem State.setHpState_br (v : HpState) : (s.setHpState v).br = s.br := rfl
@[simp] theorem State.setHpState_rdmax (v : HpState) : (s.setHpState v).rdmax = s.rdmax := rfl
@[simp] theorem State.setHpState_work (v : HpState) : (s.setHpState v).work = s.work := rfl
@[simp] theorem State.setHpState_seq (v : HpState) : (s.setHpState v).seq = s.seq := rfl
@[simp] theorem State.setHpState_pic (v : HpState) : (s.setHpState v).pic = s.pic := rfl
@[simp] theorem State.setHpState_cfg (v : HpState) : (s.setHpState v).cfg = s.cfg := rfl
@[simp] theorem State.setHpState_hpState (v : HpState) : (s.setHpState v).hpState = v := rfl
@[simp] theorem State.setHpState_session (v : HpState) : (s.setHpState v).session = s.session := rfl
@[simp] theorem State.setHpState_status (v : HpState) : (s.setHpState v).status = s.status := rfl
@[simp] theorem State.setHpState_qi (v : HpState) : (s.setHpState v).qi = s.qi := rfl
@[simp] theorem State.setHpState_qn (v : HpState) : (s.setHpState v).qn = s.qn := rfl
@[simp] theorem State.setHpState_blk (v : HpState) : (s.setHpState v).blk = s.blk := rfl
@[simp] theorem State.setHpState_frames (v : HpState) : (s.setHpState v).frames = s.frames := rfl
@[simp] theorem State.setHpState_roles (v : HpState) : (s.setHpState v).roles = s.roles := rfl
@[simp] theorem State.setHpState_display (v : HpState) : (s.setHpState v).display = s.display := rfl
@[simp] theorem State.setHpState_commands (v : HpState) : (s.setHpState v).commands = s.commands := rfl
@[simp] theorem State.setHpState_bench (v : HpState) : (s.setHpState v).bench = s.bench := rfl
@[simp] theorem State.setHpState_assembly (v : HpState) : (s.setHpState v).assembly = s.assembly := rfl
@[simp] theorem State.setHpState_rewindable (v : HpState) : (s.setHpState v).rewindable = s.rewindable := rfl
@[simp] theorem State.setHpState_allocDenied (v : HpState) : (s.setHpState v).allocDenied = s.allocDenied := rfl
@[simp] theorem State.setHpState_params (v : HpState) : (s.setHpState v).params = s.params := rfl
@[simp] theorem State.setHpState_draws (v : HpState) : (s.setHpState v).draws = s.draws := rfl

/-! ### `setRet` -/

@[simp] theorem State.setRet_br (v : Ret) : (s.setRet v).br = s.br := rfl
@[simp] theorem State.setRet_rdmax (v : Ret) : (s.setRet v).rdmax = s.rdmax := rfl
@[simp] theorem State.setRet_work (v : Ret) : (s.setRet v).work = s.work := rfl
@[simp] theorem State.setRet_seq (v : Ret) : (s.setRet v).seq = s.seq := rfl
@[simp] theorem State.setRet_pic (v : Ret) : (s.setRet v).pic = s.pic := rfl
@[simp] theorem State.setRet_cfg (v : Ret) : (s.setRet v).cfg = s.cfg := rfl
@[simp] theorem State.setRet_hpState (v : Ret) : (s.setRet v).hpState = s.hpState := rfl
@[simp] theorem State.setRet_session (v : Ret) : (s.setRet v).session = s.session := rfl
@[simp] theorem State.setRet_qi (v : Ret) : (s.setRet v).qi = s.qi := rfl
@[simp] theorem State.setRet_qn (v : Ret) : (s.setRet v).qn = s.qn := rfl
@[simp] theorem State.setRet_blk (v : Ret) : (s.setRet v).blk = s.blk := rfl
@[simp] theorem State.setRet_frames (v : Ret) : (s.setRet v).frames = s.frames := rfl
@[simp] theorem State.setRet_roles (v : Ret) : (s.setRet v).roles = s.roles := rfl
@[simp] theorem State.setRet_display (v : Ret) : (s.setRet v).display = s.display := rfl
@[simp] theorem State.setRet_commands (v : Ret) : (s.setRet v).commands = s.commands := rfl
@[simp] theorem State.setRet_bench (v : Ret) : (s.setRet v).bench = s.bench := rfl
@[simp] theorem State.setRet_assembly (v : Ret) : (s.setRet v).assembly = s.assembly := rfl
@[simp] theorem State.setRet_rewindable (v : Ret) : (s.setRet v).rewindable = s.rewindable := rfl
@[simp] theorem State.setRet_allocDenied (v : Ret) : (s.setRet v).allocDenied = s.allocDenied := rfl
@[simp] theorem State.setRet_params (v : Ret) : (s.setRet v).params = s.params := rfl
@[simp] theorem State.setRet_draws (v : Ret) : (s.setRet v).draws = s.draws := rfl
@[simp] theorem State.setRet_ret (v : Ret) : (s.setRet v).status.ret = v := rfl
@[simp] theorem State.setRet_fault (v : Ret) : (s.setRet v).status.fault = s.status.fault := rfl
@[simp] theorem State.setRet_faultCause (v : Ret) : (s.setRet v).status.faultCause = s.status.faultCause := rfl
@[simp] theorem State.setRet_faultInfo (v : Ret) : (s.setRet v).status.faultInfo = s.status.faultInfo := rfl
@[simp] theorem State.setRet_errstr (v : Ret) : (s.setRet v).status.errstr = s.status.errstr := rfl
@[simp] theorem State.setRet_evCount (v : Ret) : (s.setRet v).status.evCount = s.status.evCount := rfl
@[simp] theorem State.setRet_events (v : Ret) : (s.setRet v).status.events = s.status.events := rfl

/-! ### `deliver` -/

@[simp] theorem State.deliver_br (v : Result) : (s.deliver v).br = s.br := rfl
@[simp] theorem State.deliver_rdmax (v : Result) : (s.deliver v).rdmax = s.rdmax := rfl
@[simp] theorem State.deliver_work (v : Result) : (s.deliver v).work = s.work := rfl
@[simp] theorem State.deliver_seq (v : Result) : (s.deliver v).seq = s.seq := rfl
@[simp] theorem State.deliver_pic (v : Result) : (s.deliver v).pic = s.pic := rfl
@[simp] theorem State.deliver_cfg (v : Result) : (s.deliver v).cfg = s.cfg := rfl
@[simp] theorem State.deliver_hpState (v : Result) : (s.deliver v).hpState = s.hpState := rfl
@[simp] theorem State.deliver_session (v : Result) : (s.deliver v).session = s.session := rfl
@[simp] theorem State.deliver_status (v : Result) : (s.deliver v).status = s.status := rfl
@[simp] theorem State.deliver_qi (v : Result) : (s.deliver v).qi = s.qi := rfl
@[simp] theorem State.deliver_qn (v : Result) : (s.deliver v).qn = s.qn := rfl
@[simp] theorem State.deliver_blk (v : Result) : (s.deliver v).blk = s.blk := rfl
@[simp] theorem State.deliver_frames (v : Result) : (s.deliver v).frames = s.frames := rfl
@[simp] theorem State.deliver_roles (v : Result) : (s.deliver v).roles = s.roles := rfl
@[simp] theorem State.deliver_display (v : Result) : (s.deliver v).display = s.display := rfl
@[simp] theorem State.deliver_commands (v : Result) : (s.deliver v).commands = s.commands := rfl
@[simp] theorem State.deliver_bench (v : Result) : (s.deliver v).bench = s.bench := rfl
@[simp] theorem State.deliver_rewindable (v : Result) : (s.deliver v).rewindable = s.rewindable := rfl
@[simp] theorem State.deliver_allocDenied (v : Result) : (s.deliver v).allocDenied = s.allocDenied := rfl
@[simp] theorem State.deliver_params (v : Result) : (s.deliver v).params = s.params := rfl
@[simp] theorem State.deliver_draws (v : Result) : (s.deliver v).draws = s.draws := rfl
@[simp] theorem State.deliver_increment (v : Result) : (s.deliver v).assembly.increment = s.assembly.increment := rfl
@[simp] theorem State.deliver_motionCode (v : Result) : (s.deliver v).assembly.motionCode = s.assembly.motionCode := rfl
@[simp] theorem State.deliver_matrixIndex (v : Result) : (s.deliver v).assembly.matrixIndex = s.assembly.matrixIndex := rfl
@[simp] theorem State.deliver_result (v : Result) : (s.deliver v).assembly.result = v := rfl

/-! ### `recordFault` -/

@[simp] theorem State.recordFault_br (c : Cause) (info : Nat) : (s.recordFault c info).br = s.br := rfl
@[simp] theorem State.recordFault_rdmax (c : Cause) (info : Nat) : (s.recordFault c info).rdmax = s.rdmax := rfl
@[simp] theorem State.recordFault_work (c : Cause) (info : Nat) : (s.recordFault c info).work = s.work := rfl
@[simp] theorem State.recordFault_seq (c : Cause) (info : Nat) : (s.recordFault c info).seq = s.seq := rfl
@[simp] theorem State.recordFault_pic (c : Cause) (info : Nat) : (s.recordFault c info).pic = s.pic := rfl
@[simp] theorem State.recordFault_cfg (c : Cause) (info : Nat) : (s.recordFault c info).cfg = s.cfg := rfl
@[simp] theorem State.recordFault_hpState (c : Cause) (info : Nat) : (s.recordFault c info).hpState = s.hpState := rfl
@[simp] theorem State.recordFault_session (c : Cause) (info : Nat) : (s.recordFault c info).session = s.session := rfl
@[simp] theorem State.recordFault_qi (c : Cause) (info : Nat) : (s.recordFault c info).qi = s.qi := rfl
@[simp] theorem State.recordFault_qn (c : Cause) (info : Nat) : (s.recordFault c info).qn = s.qn := rfl
@[simp] theorem State.recordFault_blk (c : Cause) (info : Nat) : (s.recordFault c info).blk = s.blk := rfl
@[simp] theorem State.recordFault_frames (c : Cause) (info : Nat) : (s.recordFault c info).frames = s.frames := rfl
@[simp] theorem State.recordFault_roles (c : Cause) (info : Nat) : (s.recordFault c info).roles = s.roles := rfl
@[simp] theorem State.recordFault_display (c : Cause) (info : Nat) : (s.recordFault c info).display = s.display := rfl
@[simp] theorem State.recordFault_commands (c : Cause) (info : Nat) : (s.recordFault c info).commands = s.commands := rfl
@[simp] theorem State.recordFault_bench (c : Cause) (info : Nat) : (s.recordFault c info).bench = s.bench := rfl
@[simp] theorem State.recordFault_assembly (c : Cause) (info : Nat) : (s.recordFault c info).assembly = s.assembly := rfl
@[simp] theorem State.recordFault_rewindable (c : Cause) (info : Nat) : (s.recordFault c info).rewindable = s.rewindable := rfl
@[simp] theorem State.recordFault_allocDenied (c : Cause) (info : Nat) : (s.recordFault c info).allocDenied = s.allocDenied := rfl
@[simp] theorem State.recordFault_params (c : Cause) (info : Nat) : (s.recordFault c info).params = s.params := rfl
@[simp] theorem State.recordFault_draws (c : Cause) (info : Nat) : (s.recordFault c info).draws = s.draws + 1 := rfl
@[simp] theorem State.recordFault_ret (c : Cause) (info : Nat) : (s.recordFault c info).status.ret = .error := rfl
@[simp] theorem State.recordFault_fault (c : Cause) (info : Nat) : (s.recordFault c info).status.fault = true := rfl
@[simp] theorem State.recordFault_faultCause (c : Cause) (info : Nat) : (s.recordFault c info).status.faultCause = c.code := rfl
@[simp] theorem State.recordFault_faultInfo (c : Cause) (info : Nat) : (s.recordFault c info).status.faultInfo = BitVec.ofNat 32 info := rfl
@[simp] theorem State.recordFault_errstr (c : Cause) (info : Nat) : (s.recordFault c info).status.errstr = faultText s.draws := rfl
@[simp] theorem State.recordFault_evCount (c : Cause) (info : Nat) : (s.recordFault c info).status.evCount = s.status.evCount := rfl
@[simp] theorem State.recordFault_events (c : Cause) (info : Nat) : (s.recordFault c info).status.events = s.status.events := rfl

/-! ### `framingEvent` -/

@[simp] theorem State.framingEvent_br (code : Nat) : (s.framingEvent code).br = s.br := rfl
@[simp] theorem State.framingEvent_rdmax (code : Nat) : (s.framingEvent code).rdmax = s.rdmax := rfl
@[simp] theorem State.framingEvent_work (code : Nat) : (s.framingEvent code).work = s.work := rfl
@[simp] theorem State.framingEvent_seq (code : Nat) : (s.framingEvent code).seq = s.seq := rfl
@[simp] theorem State.framingEvent_pic (code : Nat) : (s.framingEvent code).pic = s.pic := rfl
@[simp] theorem State.framingEvent_cfg (code : Nat) : (s.framingEvent code).cfg = s.cfg := rfl
@[simp] theorem State.framingEvent_hpState (code : Nat) : (s.framingEvent code).hpState = s.hpState := rfl
@[simp] theorem State.framingEvent_session (code : Nat) : (s.framingEvent code).session = s.session := rfl
@[simp] theorem State.framingEvent_qi (code : Nat) : (s.framingEvent code).qi = s.qi := rfl
@[simp] theorem State.framingEvent_qn (code : Nat) : (s.framingEvent code).qn = s.qn := rfl
@[simp] theorem State.framingEvent_blk (code : Nat) : (s.framingEvent code).blk = s.blk := rfl
@[simp] theorem State.framingEvent_frames (code : Nat) : (s.framingEvent code).frames = s.frames := rfl
@[simp] theorem State.framingEvent_roles (code : Nat) : (s.framingEvent code).roles = s.roles := rfl
@[simp] theorem State.framingEvent_display (code : Nat) : (s.framingEvent code).display = s.display := rfl
@[simp] theorem State.framingEvent_commands (code : Nat) : (s.framingEvent code).commands = s.commands := rfl
@[simp] theorem State.framingEvent_bench (code : Nat) : (s.framingEvent code).bench = s.bench := rfl
@[simp] theorem State.framingEvent_assembly (code : Nat) : (s.framingEvent code).assembly = s.assembly := rfl
@[simp] theorem State.framingEvent_rewindable (code : Nat) : (s.framingEvent code).rewindable = s.rewindable := rfl
@[simp] theorem State.framingEvent_allocDenied (code : Nat) : (s.framingEvent code).allocDenied = s.allocDenied := rfl
@[simp] theorem State.framingEvent_params (code : Nat) : (s.framingEvent code).params = s.params := rfl
@[simp] theorem State.framingEvent_draws (code : Nat) : (s.framingEvent code).draws = s.draws := rfl
@[simp] theorem State.framingEvent_ret (code : Nat) : (s.framingEvent code).status.ret = s.status.ret := rfl
@[simp] theorem State.framingEvent_fault (code : Nat) : (s.framingEvent code).status.fault = s.status.fault := rfl
@[simp] theorem State.framingEvent_faultCause (code : Nat) : (s.framingEvent code).status.faultCause = s.status.faultCause := rfl
@[simp] theorem State.framingEvent_faultInfo (code : Nat) : (s.framingEvent code).status.faultInfo = s.status.faultInfo := rfl
@[simp] theorem State.framingEvent_errstr (code : Nat) : (s.framingEvent code).status.errstr = s.status.errstr := rfl
@[simp] theorem State.framingEvent_evCount (code : Nat) : (s.framingEvent code).status.evCount = s.status.evCount + 1 := rfl
@[simp] theorem State.framingEvent_events (code : Nat) : (s.framingEvent code).status.events = s.status.events ++ [BitVec.ofNat 32 code] := rfl

/-! ### `setSeqKnown` -/

@[simp] theorem State.setSeqKnown_br (v : Bool) : (s.setSeqKnown v).br = s.br := rfl
@[simp] theorem State.setSeqKnown_rdmax (v : Bool) : (s.setSeqKnown v).rdmax = s.rdmax := rfl
@[simp] theorem State.setSeqKnown_work (v : Bool) : (s.setSeqKnown v).work = s.work := rfl
@[simp] theorem State.setSeqKnown_seq (v : Bool) : (s.setSeqKnown v).seq = { s.seq with seqKnown := v } := rfl
@[simp] theorem State.setSeqKnown_pic (v : Bool) : (s.setSeqKnown v).pic = s.pic := rfl
@[simp] theorem State.setSeqKnown_cfg (v : Bool) : (s.setSeqKnown v).cfg = s.cfg := rfl
@[simp] theorem State.setSeqKnown_hpState (v : Bool) : (s.setSeqKnown v).hpState = s.hpState := rfl
@[simp] theorem State.setSeqKnown_session (v : Bool) : (s.setSeqKnown v).session = s.session := rfl
@[simp] theorem State.setSeqKnown_status (v : Bool) : (s.setSeqKnown v).status = s.status := rfl
@[simp] theorem State.setSeqKnown_qi (v : Bool) : (s.setSeqKnown v).qi = s.qi := rfl
@[simp] theorem State.setSeqKnown_qn (v : Bool) : (s.setSeqKnown v).qn = s.qn := rfl
@[simp] theorem State.setSeqKnown_blk (v : Bool) : (s.setSeqKnown v).blk = s.blk := rfl
@[simp] theorem State.setSeqKnown_frames (v : Bool) : (s.setSeqKnown v).frames = s.frames := rfl
@[simp] theorem State.setSeqKnown_roles (v : Bool) : (s.setSeqKnown v).roles = s.roles := rfl
@[simp] theorem State.setSeqKnown_display (v : Bool) : (s.setSeqKnown v).display = s.display := rfl
@[simp] theorem State.setSeqKnown_commands (v : Bool) : (s.setSeqKnown v).commands = s.commands := rfl
@[simp] theorem State.setSeqKnown_bench (v : Bool) : (s.setSeqKnown v).bench = s.bench := rfl
@[simp] theorem State.setSeqKnown_assembly (v : Bool) : (s.setSeqKnown v).assembly = s.assembly := rfl
@[simp] theorem State.setSeqKnown_rewindable (v : Bool) : (s.setSeqKnown v).rewindable = s.rewindable := rfl
@[simp] theorem State.setSeqKnown_allocDenied (v : Bool) : (s.setSeqKnown v).allocDenied = s.allocDenied := rfl
@[simp] theorem State.setSeqKnown_params (v : Bool) : (s.setSeqKnown v).params = s.params := rfl
@[simp] theorem State.setSeqKnown_draws (v : Bool) : (s.setSeqKnown v).draws = s.draws := rfl

/-! ### `latchMotionCode` -/

@[simp] theorem State.latchMotionCode_br (code : Int) : (s.latchMotionCode code).br = s.br := rfl
@[simp] theorem State.latchMotionCode_rdmax (code : Int) : (s.latchMotionCode code).rdmax = s.rdmax := rfl
@[simp] theorem State.latchMotionCode_work (code : Int) : (s.latchMotionCode code).work = s.work := rfl
@[simp] theorem State.latchMotionCode_seq (code : Int) : (s.latchMotionCode code).seq = s.seq := rfl
@[simp] theorem State.latchMotionCode_pic (code : Int) : (s.latchMotionCode code).pic = s.pic := rfl
@[simp] theorem State.latchMotionCode_cfg (code : Int) : (s.latchMotionCode code).cfg = s.cfg := rfl
@[simp] theorem State.latchMotionCode_hpState (code : Int) : (s.latchMotionCode code).hpState = s.hpState := rfl
@[simp] theorem State.latchMotionCode_session (code : Int) : (s.latchMotionCode code).session = s.session := rfl
@[simp] theorem State.latchMotionCode_status (code : Int) : (s.latchMotionCode code).status = s.status := rfl
@[simp] theorem State.latchMotionCode_qi (code : Int) : (s.latchMotionCode code).qi = s.qi := rfl
@[simp] theorem State.latchMotionCode_qn (code : Int) : (s.latchMotionCode code).qn = s.qn := rfl
@[simp] theorem State.latchMotionCode_blk (code : Int) : (s.latchMotionCode code).blk = s.blk := rfl
@[simp] theorem State.latchMotionCode_frames (code : Int) : (s.latchMotionCode code).frames = s.frames := rfl
@[simp] theorem State.latchMotionCode_roles (code : Int) : (s.latchMotionCode code).roles = s.roles := rfl
@[simp] theorem State.latchMotionCode_display (code : Int) : (s.latchMotionCode code).display = s.display := rfl
@[simp] theorem State.latchMotionCode_commands (code : Int) : (s.latchMotionCode code).commands = s.commands := rfl
@[simp] theorem State.latchMotionCode_bench (code : Int) : (s.latchMotionCode code).bench = s.bench := rfl
@[simp] theorem State.latchMotionCode_rewindable (code : Int) : (s.latchMotionCode code).rewindable = s.rewindable := rfl
@[simp] theorem State.latchMotionCode_allocDenied (code : Int) : (s.latchMotionCode code).allocDenied = s.allocDenied := rfl
@[simp] theorem State.latchMotionCode_params (code : Int) : (s.latchMotionCode code).params = s.params := rfl
@[simp] theorem State.latchMotionCode_draws (code : Int) : (s.latchMotionCode code).draws = s.draws := rfl
@[simp] theorem State.latchMotionCode_increment (code : Int) : (s.latchMotionCode code).assembly.increment = s.assembly.increment := rfl
@[simp] theorem State.latchMotionCode_motionCode (code : Int) : (s.latchMotionCode code).assembly.motionCode = code := rfl
@[simp] theorem State.latchMotionCode_matrixIndex (code : Int) : (s.latchMotionCode code).assembly.matrixIndex = s.assembly.matrixIndex := rfl
@[simp] theorem State.latchMotionCode_result (code : Int) : (s.latchMotionCode code).assembly.result = s.assembly.result := rfl

/-! ### `setMatrixIndex` -/

@[simp] theorem State.setMatrixIndex_br (i : BitVec 6) : (s.setMatrixIndex i).br = s.br := rfl
@[simp] theorem State.setMatrixIndex_rdmax (i : BitVec 6) : (s.setMatrixIndex i).rdmax = s.rdmax := rfl
@[simp] theorem State.setMatrixIndex_work (i : BitVec 6) : (s.setMatrixIndex i).work = s.work := rfl
@[simp] theorem State.setMatrixIndex_seq (i : BitVec 6) : (s.setMatrixIndex i).seq = s.seq := rfl
@[simp] theorem State.setMatrixIndex_pic (i : BitVec 6) : (s.setMatrixIndex i).pic = s.pic := rfl
@[simp] theorem State.setMatrixIndex_cfg (i : BitVec 6) : (s.setMatrixIndex i).cfg = s.cfg := rfl
@[simp] theorem State.setMatrixIndex_hpState (i : BitVec 6) : (s.setMatrixIndex i).hpState = s.hpState := rfl
@[simp] theorem State.setMatrixIndex_session (i : BitVec 6) : (s.setMatrixIndex i).session = s.session := rfl
@[simp] theorem State.setMatrixIndex_status (i : BitVec 6) : (s.setMatrixIndex i).status = s.status := rfl
@[simp] theorem State.setMatrixIndex_qi (i : BitVec 6) : (s.setMatrixIndex i).qi = s.qi := rfl
@[simp] theorem State.setMatrixIndex_qn (i : BitVec 6) : (s.setMatrixIndex i).qn = s.qn := rfl
@[simp] theorem State.setMatrixIndex_blk (i : BitVec 6) : (s.setMatrixIndex i).blk = s.blk := rfl
@[simp] theorem State.setMatrixIndex_frames (i : BitVec 6) : (s.setMatrixIndex i).frames = s.frames := rfl
@[simp] theorem State.setMatrixIndex_roles (i : BitVec 6) : (s.setMatrixIndex i).roles = s.roles := rfl
@[simp] theorem State.setMatrixIndex_display (i : BitVec 6) : (s.setMatrixIndex i).display = s.display := rfl
@[simp] theorem State.setMatrixIndex_commands (i : BitVec 6) : (s.setMatrixIndex i).commands = s.commands := rfl
@[simp] theorem State.setMatrixIndex_bench (i : BitVec 6) : (s.setMatrixIndex i).bench = s.bench := rfl
@[simp] theorem State.setMatrixIndex_rewindable (i : BitVec 6) : (s.setMatrixIndex i).rewindable = s.rewindable := rfl
@[simp] theorem State.setMatrixIndex_allocDenied (i : BitVec 6) : (s.setMatrixIndex i).allocDenied = s.allocDenied := rfl
@[simp] theorem State.setMatrixIndex_params (i : BitVec 6) : (s.setMatrixIndex i).params = s.params := rfl
@[simp] theorem State.setMatrixIndex_draws (i : BitVec 6) : (s.setMatrixIndex i).draws = s.draws := rfl
@[simp] theorem State.setMatrixIndex_increment (i : BitVec 6) : (s.setMatrixIndex i).assembly.increment = s.assembly.increment := rfl
@[simp] theorem State.setMatrixIndex_motionCode (i : BitVec 6) : (s.setMatrixIndex i).assembly.motionCode = s.assembly.motionCode := rfl
@[simp] theorem State.setMatrixIndex_matrixIndex (i : BitVec 6) : (s.setMatrixIndex i).assembly.matrixIndex = i := rfl
@[simp] theorem State.setMatrixIndex_result (i : BitVec 6) : (s.setMatrixIndex i).assembly.result = s.assembly.result := rfl

end

end Sys2Proof.Machine
end

