-- ==== Sys2Proof/Laws/Results.lean ====
section
/-!
SUPPORT. Results that may raise: how they chain and end, what a fault leaves (60_exceptions.md R445, R447), and the reader
operations as they act on the whole state.
-/

namespace Sys2Proof.Machine

/-! ### Chaining -/

@[simp] theorem Res.bind_ok {α β : Type} (a : α) (s : State) (f : α → State → Res β) : (Res.ok a s).bind f = f a s :=
  rfl
@[simp] theorem Res.bind_raised {α β : Type} (c : Cause) (info : Nat) (s : State) (f : α → State → Res β) :
    (Res.raised c info s : Res α).bind f = .raised c info s := rfl
@[simp] theorem Res.bind_stop {α β : Type} (e : Fault) (f : α → State → Res β) :
    (Res.stop e : Res α).bind f = .stop e := rfl
@[simp] theorem Res.map_ok {α β : Type} (a : α) (s : State) (f : α → β) : (Res.ok a s).map f = .ok (f a) s := rfl
@[simp] theorem Res.map_raised {α β : Type} (c : Cause) (info : Nat) (s : State) (f : α → β) :
    (Res.raised c info s : Res α).map f = .raised c info s := rfl
@[simp] theorem Res.map_stop {α β : Type} (e : Fault) (f : α → β) : (Res.stop e : Res α).map f = .stop e := rfl

@[simp] theorem Res.finish_ok {α : Type} (a : α) (s : State) (d : α → State → State) :
    (Res.ok a s).finish d = .next (d a s) := rfl
@[simp] theorem Res.finish_raised {α : Type} (c : Cause) (info : Nat) (s : State) (d : α → State → State) :
    (Res.raised c info s : Res α).finish d = .next (faultEntry c info s) := rfl
@[simp] theorem Res.finish_stop {α : Type} (e : Fault) (d : α → State → State) :
    (Res.stop e : Res α).finish d = .fault e := rfl

@[simp] theorem noResult_eq (u : Unit) (s : State) : noResult u s = s.deliver .nothing := rfl

/-- A chain that ends well ended well at each link. -/
theorem Res.bind_eq_ok {α β : Type} {x : Res α} {f : α → State → Res β} {b : β} {t : State} :
    x.bind f = .ok b t ↔ ∃ a u, x = .ok a u ∧ f a u = .ok b t := by
  cases x <;> simp

/-- A chain raises where one of its links does. -/
theorem Res.bind_eq_raised {α β : Type} {x : Res α} {f : α → State → Res β} {c : Cause} {info : Nat} {t : State} :
    x.bind f = .raised c info t ↔ x = .raised c info t ∨ ∃ a u, x = .ok a u ∧ f a u = .raised c info t := by
  cases x <;> simp

/-- The result of a run: `P` of the value and state when it is ok, `Q` of the cause, information word and state when it
raises; it does not stop. -/
def Res.Meets {α : Type} (x : Res α) (P : α → State → Prop) (Q : Cause → Nat → State → Prop) : Prop :=
  match x with
  | .ok a s => P a s
  | .raised c info s => Q c info s
  | .stop _ => False

@[simp] theorem Res.meets_ok {α : Type} (a : α) (s : State) (P : α → State → Prop) (Q : Cause → Nat → State → Prop) :
    (Res.ok a s).Meets P Q ↔ P a s := Iff.rfl
@[simp] theorem Res.meets_raised {α : Type} (c : Cause) (info : Nat) (s : State) (P : α → State → Prop)
    (Q : Cause → Nat → State → Prop) : (Res.raised c info s : Res α).Meets P Q ↔ Q c info s := Iff.rfl

theorem Res.Meets.bind {α β : Type} {x : Res α} {f : α → State → Res β} {P : α → State → Prop}
    {R : β → State → Prop} {Q : Cause → Nat → State → Prop} (hx : x.Meets P Q)
    (hf : ∀ a s, P a s → (f a s).Meets R Q) : (x.bind f).Meets R Q := by
  cases x with
  | ok a s => exact hf a s hx
  | raised c info s => exact hx
  | stop e => exact hx

theorem Res.Meets.mono {α : Type} {x : Res α} {P P' : α → State → Prop} {Q Q' : Cause → Nat → State → Prop}
    (hx : x.Meets P Q) (hP : ∀ a s, P a s → P' a s) (hQ : ∀ c i s, Q c i s → Q' c i s) : x.Meets P' Q' := by
  cases x with
  | ok a s => exact hP a s hx
  | raised c info s => exact hQ c info s hx
  | stop e => exact hx

/-- An operation that never stops, run as one step, answers a next state. -/
theorem Res.Meets.finish {α : Type} {x : Res α} {P : α → State → Prop} {Q : Cause → Nat → State → Prop}
    (hx : x.Meets P Q) (d : α → State → State) :
    (∃ a s, P a s ∧ x.finish d = .next (d a s)) ∨ ∃ c i s, Q c i s ∧ x.finish d = .next (faultEntry c i s) := by
  cases x with
  | ok a s => exact .inl ⟨a, s, hx, rfl⟩
  | raised c info s => exact .inr ⟨c, info, s, hx, rfl⟩
  | stop e => exact absurd hx id

/-! ### What a fault leaves -/

theorem faultText_length (draw : Nat) : (faultText draw).length ≤ 255 := by
  simp [faultText]

theorem faultText_ne_zero (draw : Nat) : ∀ b ∈ faultText draw, b ≠ 0 := by
  intro b hb
  have := List.mem_of_mem_take hb
  simpa using (List.mem_filter.mp this).2

/-- The codes of the causes run from 1 to 14 (60_exceptions.md R432). -/
theorem Cause.code_range (c : Cause) : c.code ≠ 0 ∧ c.code ≠ 15 := by
  cases c <;> decide

/-- Everything a fault entry changes: the status registers but the event trace, `HP_STATE`, `SESSION` and the count of
draws (R445). -/
theorem faultEntry_eq (c : Cause) (info : Nat) (s : State) :
    faultEntry c info s =
      { s with
        status := (s.recordFault c info).status
        hpState := .searching
        session := if c.sessionFatal then .failed else s.session
        draws := s.draws + 1 } := rfl

@[simp] theorem faultEntry_br (c : Cause) (info : Nat) (s : State) : (faultEntry c info s).br = s.br := rfl
@[simp] theorem faultEntry_work (c : Cause) (info : Nat) (s : State) : (faultEntry c info s).work = s.work := rfl
@[simp] theorem faultEntry_seq (c : Cause) (info : Nat) (s : State) : (faultEntry c info s).seq = s.seq := rfl
@[simp] theorem faultEntry_frames (c : Cause) (info : Nat) (s : State) : (faultEntry c info s).frames = s.frames :=
  rfl
@[simp] theorem faultEntry_roles (c : Cause) (info : Nat) (s : State) : (faultEntry c info s).roles = s.roles := rfl
@[simp] theorem faultEntry_bench (c : Cause) (info : Nat) (s : State) : (faultEntry c info s).bench = s.bench := rfl
@[simp] theorem faultEntry_draws (c : Cause) (info : Nat) (s : State) : (faultEntry c info s).draws = s.draws + 1 :=
  rfl

/-! ### The reader on the whole state -/

@[simp] theorem State.ahead_ahead (s : State) (m n : Nat) : (s.ahead m).ahead n = s.ahead (m + n) := by
  simp [State.ahead, Nat.add_assoc]

@[simp] theorem State.ahead_upcoming (s : State) (m o n : Nat) : (s.ahead m).upcoming o n = s.upcoming (m + o) n := by
  simp [State.ahead, State.upcoming, Nat.add_assoc]

theorem State.ahead_zero {s : State} (h : s.br.InStep) : s.ahead 0 = s := by
  simp only [State.ahead, Nat.add_zero]
  rw [← show s.br = Reader.atBit s.br.source s.br.bitpos from h]

@[simp] theorem State.ahead_inStep (s : State) (n : Nat) : (s.ahead n).br.InStep := Reader.atBit_inStep _ _
@[simp] theorem State.ahead_br (s : State) (n : Nat) : (s.ahead n).br = Reader.atBit s.br.source (s.br.bitpos + n) :=
  rfl
@[simp] theorem State.ahead_work (s : State) (n : Nat) : (s.ahead n).work = s.work := rfl
@[simp] theorem State.ahead_pic (s : State) (n : Nat) : (s.ahead n).pic = s.pic := rfl
@[simp] theorem State.ahead_seq (s : State) (n : Nat) : (s.ahead n).seq = s.seq := rfl
@[simp] theorem State.ahead_blk (s : State) (n : Nat) : (s.ahead n).blk = s.blk := rfl
@[simp] theorem State.ahead_qi (s : State) (n : Nat) : (s.ahead n).qi = s.qi := rfl
@[simp] theorem State.ahead_qn (s : State) (n : Nat) : (s.ahead n).qn = s.qn := rfl
@[simp] theorem State.ahead_frames (s : State) (n : Nat) : (s.ahead n).frames = s.frames := rfl
@[simp] theorem State.ahead_roles (s : State) (n : Nat) : (s.ahead n).roles = s.roles := rfl
@[simp] theorem State.ahead_assembly (s : State) (n : Nat) : (s.ahead n).assembly = s.assembly := rfl
@[simp] theorem State.ahead_params (s : State) (n : Nat) : (s.ahead n).params = s.params := rfl
@[simp] theorem State.ahead_draws (s : State) (n : Nat) : (s.ahead n).draws = s.draws := rfl

theorem State.upcoming_lt (s : State) (o n : Nat) : s.upcoming o n < 2 ^ n := streamBits_lt _ _ _

theorem State.consumeBits_eq {s : State} (h : s.br.InStep) (n : Nat) (hn : n ≤ 32) : s.consumeBits n = s.ahead n := by
  simp only [State.consumeBits, State.ahead, h.consume n hn]

theorem State.peekBits_eq {s : State} (h : s.br.InStep) (n : Nat) (hn : n ≤ 25) : s.peekBits n = s.upcoming 0 n :=
  h.peek_short n hn

theorem State.getBits_eq {s : State} (h : s.br.InStep) (n : Nat) (hn : n ≤ 32) :
    s.getBits n = (s.upcoming 0 n, s.ahead n) := by
  simp only [State.getBits, State.ahead, State.upcoming, h.get n hn, Nat.add_zero]

theorem State.align_eq {s : State} (h : s.br.InStep) {k : Nat} (hk : FirstPrefix s.br.source s.br.bitpos k) :
    s.align = .ok () { s with br := Reader.atBit s.br.source (8 * k) } := by
  simp only [State.align, h.align hk]

theorem State.skipExtra_eq {s : State} (h : s.br.InStep) {n : Nat} (hn : ExtraBytes s.br.source s.br.bitpos n) :
    s.skipExtra = .ok () (s.ahead (9 * n + 1)) := by
  simp only [State.skipExtra, h.skipExtra hn, State.ahead, Nat.add_assoc]

/-- What an operation does that only reads: the cursor moves on and nothing else changes. -/
def State.ReadsTo (s t : State) : Prop := ∃ n, t = s.ahead n

theorem State.ReadsTo.refl {s : State} (h : s.br.InStep) : s.ReadsTo s := ⟨0, (State.ahead_zero h).symm⟩

theorem State.readsTo_ahead (s : State) (n : Nat) : s.ReadsTo (s.ahead n) := ⟨n, rfl⟩

theorem State.ReadsTo.trans {s t u : State} (h : s.ReadsTo t) (g : t.ReadsTo u) : s.ReadsTo u := by
  obtain ⟨m, rfl⟩ := h
  obtain ⟨n, rfl⟩ := g
  exact ⟨m + n, State.ahead_ahead s m n⟩

theorem State.ReadsTo.inStep {s t : State} (h : s.ReadsTo t) : t.br.InStep := by
  obtain ⟨n, rfl⟩ := h
  exact State.ahead_inStep s n

end Sys2Proof.Machine
end

