-- ==== Sys2Proof/Laws/Elements.lean ====
section
/-!
SUPPORT. The elements of the stream: the code tables are prefix codes, `vlc(T)` finds the one entry that matches, and each
element operation reads some bits and changes nothing else, or raises its own fault; none of them stops.
-/

namespace Sys2Proof.Machine

/-! ### The code tables -/

theorem Apart.ne {α : Type} {r q : Row α} (h : Apart r q) (S : List Byte) (pos : Nat)
    (hr : streamBits S pos r.len = r.bits) : streamBits S pos q.len ≠ q.bits := by
  intro hq
  unfold Apart at h
  split at h
  · next le => exact h (by rw [← hq, ← hr]; exact (streamBits_prefix S pos _ _ le).symm)
  · next le => exact h (by rw [← hq, ← hr]; exact (streamBits_prefix S pos _ _ (by omega)).symm)

/-- Bool test of `PrefixCode`, for the kernel to compute. -/
def prefixCodeTest {α : Type} : List (Row α) → Bool
  | [] => true
  | r :: rest =>
    (decide (1 ≤ r.len) && decide (r.len ≤ 16)) &&
      (rest.all fun q =>
        if r.len ≤ q.len then q.bits / 2 ^ (q.len - r.len) != r.bits else r.bits / 2 ^ (r.len - q.len) != q.bits) &&
      prefixCodeTest rest

theorem prefixCode_of_test {α : Type} : ∀ rows : List (Row α), prefixCodeTest rows = true → PrefixCode rows
  | [], _ => ⟨by simp, .nil⟩
  | r :: rest, h => by
    simp only [prefixCodeTest, Bool.and_eq_true, decide_eq_true_eq, List.all_eq_true] at h
    obtain ⟨⟨⟨l1, l2⟩, apart⟩, hr⟩ := h
    obtain ⟨lens, pw⟩ := prefixCode_of_test rest hr
    refine ⟨fun q hq => ?_, .cons (fun q hq => ?_) pw⟩
    · rcases List.mem_cons.mp hq with rfl | hq
      · exact ⟨l1, l2⟩
      · exact lens q hq
    · have := apart q hq
      unfold Apart
      split <;> simp_all

/-- The default tables are legal. -/
theorem defaultTables_legal : Tables.Legal defaultTables where
  mba := prefixCode_of_test _ (by decide)
  increments r hr n e := by
    have key : ∀ r ∈ tMba, (match r.sym with | .increment n => decide (1 ≤ n) | _ => true) = true := by decide
    have := key r hr
    rw [e] at this
    simpa using this
  extensions r hr e := by
    have key : ∀ r ∈ tMba, (match r.sym with
        | .increment _ => true
        | _ => (List.range 32).all fun k => streamBits [] k r.len != r.bits) = true := by decide
    have := key r hr
    intro k hk
    rcases e with e | e <;> rw [e] at this <;> simp only [List.all_eq_true, List.mem_range, bne_iff_ne] at this <;>
      exact this k hk
  mbtI := prefixCode_of_test _ (by decide)
  typesI := by decide
  mbtP := prefixCode_of_test _ (by decide)
  typesP := by decide
  mbtB := prefixCode_of_test _ (by decide)
  typesB := by decide
  cbp := prefixCode_of_test _ (by decide)
  motion := prefixCode_of_test _ (by decide)
  magnitudes := by decide
  dcl := prefixCode_of_test _ (by decide)
  dcc := prefixCode_of_test _ (by decide)
  sizes := by decide
  dct := prefixCode_of_test _ (by decide)
  escape := by decide
  short := by decide
  pairs r hr run mag e := by
    have key : ∀ r ∈ tDct, (match r.sym with
        | .pair run mag => decide (run ≤ 63 ∧ 1 ≤ mag ∧ mag ≤ 255)
        | .escape => true) = true := by decide
    have := key r hr
    rw [e] at this
    simpa using this

/-- The default parameters are legal. -/
theorem defaultParams_legal : Params.Legal defaultParams := ⟨defaultTables_legal, by decide, by decide⟩

theorem State.Decoding.tables {s : State} (h : s.Decoding) : Tables.Legal s.params.tables := h.params.tables

/-- Reading leaves the parameters alone. -/
theorem State.Decoding.ahead {s : State} (h : s.Decoding) (n : Nat) : (s.ahead n).Decoding :=
  ⟨State.ahead_inStep s n, h.params⟩

/-- `ZIGZAG` visits no position twice. -/
theorem State.zigzag_inj {s : State} (h : Params.Legal s.params) {i j : Nat} (hi : i < 64) (hj : j < 64)
    (e : s.zigzag i = s.zigzag j) : i = j := by
  have nodup := h.once
  simp only [State.zigzag, Vector.getElem?_eq_getElem hi, Vector.getElem?_eq_getElem hj, Option.getD_some] at e
  have := (List.nodup_iff_injective_get.mp nodup) (a₁ := ⟨i, by simpa using hi⟩) (a₂ := ⟨j, by simpa using hj⟩)
    (by simpa using Fin.ext e)
  simpa using this

theorem State.zigzag_lt (s : State) (i : Nat) : s.zigzag i < 64 := Fin.isLt _

/-! ### Looking up a code word -/

/-- `vlc(T)` (R270): the entry whose code word begins the upcoming bits; else the fault, with nothing consumed. -/
theorem vlc_meets {α : Type} {rows : List (Row α)} (pc : PrefixCode rows) (t : Table) {s : State} (h : s.br.InStep) :
    (vlc rows t s).Meets (fun v u => ∃ r ∈ rows, s.upcoming 0 r.len = r.bits ∧ v = r.sym ∧ u = s.ahead r.len)
      (fun c i u => (∀ r ∈ rows, s.upcoming 0 r.len ≠ r.bits) ∧ c = .vlcInvalid ∧ i = t.number ∧ u = s) := by
  unfold vlc
  split
  · next r hr =>
    have mem := List.mem_of_find?_eq_some hr
    have len := pc.1 r mem
    have eq := List.find?_some hr
    rw [beq_iff_eq, State.peekBits_eq h _ (by omega)] at eq
    exact ⟨r, mem, eq, rfl, State.consumeBits_eq h _ (by omega)⟩
  · next hn =>
    refine ⟨fun r mem eq => ?_, rfl, rfl, rfl⟩
    have len := pc.1 r mem
    have := List.find?_eq_none.mp hn r mem
    rw [beq_iff_eq, State.peekBits_eq h _ (by omega)] at this
    exact this eq

/-- The matching entry is unique. -/
theorem PrefixCode.unique {α : Type} {rows : List (Row α)} (pc : PrefixCode rows) {s : State} {r q : Row α}
    (hr : r ∈ rows) (hq : q ∈ rows) (er : s.upcoming 0 r.len = r.bits) (eq : s.upcoming 0 q.len = q.bits) :
    r = q := by
  obtain ⟨-, pw⟩ := pc
  induction pw with
  | nil => exact absurd hr List.not_mem_nil
  | cons apart _ ih =>
    rcases List.mem_cons.mp hr with rfl | hr'
    · rcases List.mem_cons.mp hq with rfl | hq'
      · rfl
      · exact absurd eq ((apart q hq').ne _ _ er)
    · rcases List.mem_cons.mp hq with rfl | hq'
      · exact absurd er ((apart r hr').ne _ _ eq)
      · exact ih hr' hq'

/-- A code word of the table that begins the upcoming bits is found. -/
theorem vlc_of_mem {α : Type} {rows : List (Row α)} (pc : PrefixCode rows) (t : Table) {s : State} (h : s.br.InStep)
    {r : Row α} (mem : r ∈ rows) (eq : s.upcoming 0 r.len = r.bits) : vlc rows t s = .ok r.sym (s.ahead r.len) := by
  have m := vlc_meets pc t h
  cases hv : vlc rows t s with
  | ok v u =>
    rw [hv] at m
    obtain ⟨q, hq, eq', rfl, rfl⟩ := m
    rw [pc.unique hq mem eq' eq]
  | raised c i u => rw [hv] at m; exact absurd eq (m.1 r mem)
  | stop e => rw [hv] at m; exact absurd m id

/-! ### What each element operation does -/

/-- The raise of an element that failed somewhere behind `s`: `bits` were consumed, nothing else changed. -/
def RaisesFrom (s : State) (causes : List Cause) (c : Cause) (_ : Nat) (u : State) : Prop := c ∈ causes ∧ s.ReadsTo u

theorem RaisesFrom.trans {s t u : State} {cs : List Cause} {c : Cause} {i : Nat} (h : s.ReadsTo t)
    (g : RaisesFrom t cs c i u) : RaisesFrom s cs c i u := ⟨g.1, h.trans g.2⟩

/-- `vlc(T)`, in the form the other elements use. -/
theorem vlc_reads {α : Type} {rows : List (Row α)} (pc : PrefixCode rows) (t : Table) {s : State} (h : s.br.InStep) :
    (vlc rows t s).Meets (fun v u => (∃ r ∈ rows, v = r.sym) ∧ s.ReadsTo u) (RaisesFrom s [.vlcInvalid]) :=
  (vlc_meets pc t h).mono
    (fun _ _ ⟨r, mem, _, e, eu⟩ => ⟨⟨r, mem, e⟩, r.len, eu⟩)
    (fun _ _ _ ⟨_, ec, _, eu⟩ => ⟨by simp [ec], by rw [eu]; exact .refl h⟩)

/-- No stuffing or escape is read from the fill. -/
theorem Tables.Legal.inside {t : Config.Tables} (legal : Tables.Legal t) {r : Row MbaSymbol} (mem : r ∈ t.mba)
    (go : r.sym = .stuffing ∨ r.sym = .escape) {S : List Byte} {pos : Nat} (bits : streamBits S pos r.len = r.bits) :
    pos < 8 * S.length := by
  by_contra past
  rw [streamBits_past S pos r.len (by omega)] at bits
  exact legal.extensions r mem go _ (Nat.mod_lt _ (by norm_num)) bits

/-- `mbaIncrement()` ends within its bound: every turn that goes on reads a code word that begins before the end of the
source. -/
theorem mbaIncrementFrom_meets (fuel : Nat) : ∀ (inc : Nat) (s : State), s.Decoding →
    8 * s.br.source.length < fuel + s.br.bitpos → 0 < fuel →
    (mbaIncrementFrom fuel inc s).Meets (fun n u => inc + 1 ≤ n ∧ s.ReadsTo u) (RaisesFrom s [.vlcInvalid]) := by
  induction fuel with
  | zero => intro _ _ _ _ h; omega
  | succ fuel ih =>
    intro inc s h bound _
    refine ((vlc_meets h.tables.mba .mba h.reader).mono (Q' := RaisesFrom s [.vlcInvalid]) (fun _ _ hp => hp) ?_).bind ?_
    · rintro c i u ⟨-, rfl, -, rfl⟩
      exact ⟨by simp, .refl h.reader⟩
    · rintro v u ⟨r, mem, bits, rfl, rfl⟩
      have long := (h.tables.mba.1 r mem).1
      have go : r.sym = .stuffing ∨ r.sym = .escape → s.br.bitpos < 8 * s.br.source.length := fun e =>
        h.tables.inside mem e (by simpa only [State.upcoming, Nat.add_zero] using bits)
      cases e : r.sym with
      | increment n =>
        have := h.tables.increments r mem n e
        simp only [Res.meets_ok]
        exact ⟨by omega, s.readsTo_ahead _⟩
      | stuffing =>
        have := go (.inl e)
        exact (ih inc (s.ahead r.len) (h.ahead _) (by simp; omega) (by omega)).mono
          (fun n u ⟨hn, hu⟩ => ⟨hn, (s.readsTo_ahead _).trans hu⟩) (fun _ _ _ g => g.trans (s.readsTo_ahead _))
      | escape =>
        have := go (.inr e)
        exact (ih (inc + 33) (s.ahead r.len) (h.ahead _) (by simp; omega) (by omega)).mono
          (fun n u ⟨hn, hu⟩ => ⟨by omega, (s.readsTo_ahead _).trans hu⟩) (fun _ _ _ g => g.trans (s.readsTo_ahead _))

/-- `mbaIncrement()` (43_macroblock_decoder.md R235): at least 1, or an invalid code word. -/
theorem mbaIncrement_meets {s : State} (h : s.Decoding) :
    (mbaIncrement s).Meets (fun n u => 1 ≤ n ∧ s.ReadsTo u) (RaisesFrom s [.vlcInvalid]) :=
  (mbaIncrementFrom_meets _ 0 s h (by simp only [Reader.loopBound]; omega) (by simp only [Reader.loopBound]; omega)).mono
    (fun _ _ ⟨hn, hu⟩ => ⟨by omega, hu⟩) (fun _ _ _ g => g)

/-- `motionCode()` (46_motion_vectors.md R332): -16 to 16. -/
theorem motionCode_meets {s : State} (h : s.Decoding) :
    (motionCode s).Meets (fun v u => -16 ≤ v ∧ v ≤ 16 ∧ s.ReadsTo u) (RaisesFrom s [.vlcInvalid]) := by
  refine (vlc_reads h.tables.motion .motion h.reader).bind ?_
  rintro mag u ⟨⟨r, mem, rfl⟩, hu⟩
  have := h.tables.magnitudes r mem
  split
  · exact ⟨by omega, by omega, hu⟩
  · rw [State.getBits_eq hu.inStep 1 (by norm_num)]
    refine ⟨?_, ?_, hu.trans (u.readsTo_ahead 1)⟩ <;> (unfold applySign; split <;> omega)

/-- `dcDiff(b)` (45_block_decode_iq.md R301): -255 to 255. -/
theorem dcDiff_meets (b : BlockNo) {s : State} (h : s.Decoding) :
    (dcDiff b s).Meets (fun v u => -255 ≤ v ∧ v ≤ 255 ∧ s.ReadsTo u) (RaisesFrom s [.vlcInvalid]) := by
  have eight := h.tables.sizes
  have sizes : (if b.val < 4 then vlc s.params.tables.dcl .dcl s else vlc s.params.tables.dcc .dcc s).Meets
      (fun v u => v ≤ 8 ∧ s.ReadsTo u) (RaisesFrom s [.vlcInvalid]) := by
    split
    · exact (vlc_reads h.tables.dcl .dcl h.reader).mono
        (fun v u ⟨⟨r, mem, e⟩, hu⟩ => ⟨e ▸ eight r (List.mem_append_left _ mem), hu⟩) (fun _ _ _ g => g)
    · exact (vlc_reads h.tables.dcc .dcc h.reader).mono
        (fun v u ⟨⟨r, mem, e⟩, hu⟩ => ⟨e ▸ eight r (List.mem_append_right _ mem), hu⟩) (fun _ _ _ g => g)
  refine sizes.bind ?_
  rintro size u ⟨le, hu⟩
  split
  · exact ⟨by omega, by omega, hu⟩
  · rw [State.getBits_eq hu.inStep size (by omega)]
    have lt := u.upcoming_lt 0 size
    refine ⟨?_, ?_, hu.trans (u.readsTo_ahead size)⟩ <;>
      · simp only [dcDifferential]
        interval_cases size <;> omega

/-- `escape()` (45_block_decode_iq.md R304): a run up to 63 and a level that is not 0, -256 to 255. -/
theorem escape_meets {s : State} (h : s.br.InStep) :
    (escape s).Meets
      (fun v u => (∃ run level, v = .pair run level ∧ run ≤ 63 ∧ -256 ≤ level ∧ level ≤ 255 ∧ level ≠ 0) ∧ s.ReadsTo u)
      (RaisesFrom s [.escLevelZero]) := by
  have l6 := s.upcoming_lt 0 6
  have l8 := (s.ahead 6).upcoming_lt 0 8
  have l16 := ((s.ahead 6).ahead 8).upcoming_lt 0 8
  unfold escape
  rw [State.getBits_eq h 6 (by norm_num)]
  simp only
  rw [State.getBits_eq (s.ahead_inStep 6) 8 (by norm_num)]
  simp only
  rw [State.getBits_eq ((s.ahead 6).ahead_inStep 8) 8 (by norm_num)]
  generalize (s.ahead 6).upcoming 0 8 = v at *
  generalize ((s.ahead 6).ahead 8).upcoming 0 8 = lo at *
  generalize s.upcoming 0 6 = run at *
  by_cases two : v = 0x00 ∨ v = 0x80
  · rw [if_pos two]
    simp only
    split
    · exact ⟨by simp, (s.readsTo_ahead 6).trans ((State.readsTo_ahead _ 8).trans (State.readsTo_ahead _ 8))⟩
    · next nz =>
      refine ⟨⟨run, _, rfl, by omega, ?_, ?_, nz⟩,
        (s.readsTo_ahead 6).trans ((State.readsTo_ahead _ 8).trans (State.readsTo_ahead _ 8))⟩ <;>
        · unfold escapeLevel; rcases two with rfl | rfl <;> simp <;> omega
  · rw [if_neg two]
    simp only
    split
    · exact ⟨by simp, (s.readsTo_ahead 6).trans (State.readsTo_ahead _ 8)⟩
    · next nz =>
      refine ⟨⟨run, _, rfl, by omega, ?_, ?_, nz⟩, (s.readsTo_ahead 6).trans (State.readsTo_ahead _ 8)⟩ <;>
        · unfold escapeLevel; split <;> (try split) <;> (try split) <;> omega

/-- A pair with its sign bit. -/
theorem signedPair_reads {s : State} (h : s.br.InStep) (run mag : Nat) :
    signedPair run mag s = .ok (.pair run (applySign (s.upcoming 0 1 == 1) mag)) (s.ahead 1) := by
  rw [signedPair, State.getBits_eq h 1 (by norm_num)]

theorem applySign_natAbs (sgn : Bool) (mag : Nat) : (applySign sgn mag).natAbs = mag := by
  unfold applySign; split <;> simp

/-- `coef(first)` (45_block_decode_iq.md R303): end of block, which cannot come first, or a pair. -/
theorem coef_meets (first : Bool) {s : State} (h : s.Decoding) :
    (coef first s).Meets
      (fun v u => ((v = .eob ∧ first = false) ∨
        ∃ run level, v = .pair run level ∧ run ≤ 63 ∧ -256 ≤ level ∧ level ≤ 255 ∧ level ≠ 0) ∧ s.ReadsTo u)
      (RaisesFrom s [.vlcInvalid, .escLevelZero]) := by
  have one : ∀ (u : State) (run mag : Nat), s.ReadsTo u → run ≤ 63 → 1 ≤ mag → mag ≤ 255 →
      (signedPair run mag u).Meets
        (fun v u => ((v = .eob ∧ first = false) ∨
          ∃ run level, v = .pair run level ∧ run ≤ 63 ∧ -256 ≤ level ∧ level ≤ 255 ∧ level ≠ 0) ∧ s.ReadsTo u)
        (RaisesFrom s [.vlcInvalid, .escLevelZero]) := by
    intro u run mag hu h1 h2 h3
    rw [signedPair_reads hu.inStep]
    have := applySign_natAbs (u.upcoming 0 1 == 1) mag
    exact ⟨.inr ⟨run, _, rfl, h1, by omega, by omega, by omega⟩, hu.trans (u.readsTo_ahead 1)⟩
  have esc : ∀ u : State, s.ReadsTo u → (escape u).Meets
        (fun v u => ((v = .eob ∧ first = false) ∨
          ∃ run level, v = .pair run level ∧ run ≤ 63 ∧ -256 ≤ level ∧ level ≤ 255 ∧ level ≠ 0) ∧ s.ReadsTo u)
        (RaisesFrom s [.vlcInvalid, .escLevelZero]) := fun u hu =>
    (escape_meets hu.inStep).mono (fun _ _ ⟨hp, ht⟩ => ⟨.inr hp, hu.trans ht⟩)
      (fun _ _ _ ⟨hc, ht⟩ => ⟨by simp_all, hu.trans ht⟩)
  unfold coef
  split
  · rw [State.consumeBits_eq h.reader 1 (by norm_num)]
    exact one _ 0 1 (s.readsTo_ahead 1) (by norm_num) (by norm_num) (by norm_num)
  · split
    · next hf =>
      rw [State.consumeBits_eq h.reader 2 (by norm_num)]
      exact ⟨.inl ⟨rfl, hf.1⟩, s.readsTo_ahead 2⟩
    · split
      · rw [State.consumeBits_eq h.reader 2 (by norm_num)]
        exact one _ 0 1 (s.readsTo_ahead 2) (by norm_num) (by norm_num) (by norm_num)
      · split
        · rw [State.consumeBits_eq h.reader 6 (by norm_num)]
          exact esc _ (s.readsTo_ahead 6)
        · refine ((vlc_reads h.tables.dct .dct h.reader).mono (fun _ _ => id)
            (fun _ _ _ ⟨hc, ht⟩ => ⟨by simp_all, ht⟩)).bind ?_
          rintro v u ⟨⟨r, mem, rfl⟩, hu⟩
          cases e : r.sym with
          | pair run mag =>
            obtain ⟨h1, h2, h3⟩ := h.tables.pairs r mem run mag e
            exact one u run mag hu h1 h2 h3
          | escape => exact esc u hu

end Sys2Proof.Machine
end

