-- ==== Sys2Proof/Laws/Memory.lean ====
section
/-!
SUPPORT. The frame store: the list of samples stays in canonical form, a read sees the last write, a write leaves every other
sample alone, and no sample is written outside its plane (20_memory.md R93, R95, R105).
-/

namespace Sys2Proof.Machine

/-! ### The memory list -/

/-- A key is above an optional bound. -/
theorem memRises_cons {a : Option Nat} {k : Nat} {v : Byte} {rest : List Host.Cell} :
    memRises a ((k, v) :: rest) = true ↔ (∀ x, a = some x → x < k) ∧ memRises (some k) rest = true := by
  cases a <;> simp [memRises]

/-- Inserting a byte above the bound keeps the list rising above it. -/
theorem memRises_insert (mem : List Host.Cell) (k : Nat) (v : Byte) : ∀ a : Option Nat, memRises a mem = true →
    (∀ x, a = some x → x < k) → memRises a (memInsert mem k v) = true := by
  induction mem with
  | nil => exact fun a _ hk => memRises_cons.mpr ⟨hk, rfl⟩
  | cons c rest ih =>
    intro a h hk
    obtain ⟨j, w⟩ := c
    obtain ⟨h1, h2⟩ := memRises_cons.mp h
    simp only [memInsert]
    split
    · next lt => exact memRises_cons.mpr ⟨hk, memRises_cons.mpr ⟨fun x hx => by cases hx; exact lt, h2⟩⟩
    · split
      · next eq => subst eq; exact memRises_cons.mpr ⟨hk, h2⟩
      · exact memRises_cons.mpr ⟨h1, ih _ h2 (fun x hx => by cases hx; omega)⟩

/-- A write keeps the canonical form. -/
theorem memInsert_wf {mem : List Host.Cell} (h : Memory.wf mem = true) (k : Nat) (v : Byte) :
    Memory.wf (memInsert mem k v) = true := memRises_insert mem k v none h (by simp)

/-- In a list that rises above `a`, nothing is listed at or below `a`. -/
theorem memLookup_below {a k : Nat} {mem : List Host.Cell} (h : memRises (some a) mem = true) (le : k ≤ a) :
    memLookup mem k = none := by
  cases mem with
  | nil => rfl
  | cons c rest =>
    obtain ⟨j, w⟩ := c
    simp only [memRises, Bool.and_eq_true, decide_eq_true_eq] at h
    simp only [memLookup]
    rw [if_neg (by omega), if_pos (by omega)]

/-- A read after a write to the same place gives the byte written. -/
theorem memLookup_insert_same (mem : List Host.Cell) (k : Nat) (v : Byte) :
    memLookup (memInsert mem k v) k = some v := by
  induction mem with
  | nil => simp [memInsert, memLookup]
  | cons c rest ih =>
    obtain ⟨j, w⟩ := c
    simp only [memInsert]
    split
    · simp [memLookup]
    · split
      · simp [memLookup]
      · next nlt ne => simp only [memLookup]; rw [if_neg ne, if_neg nlt, ih]

/-- A write leaves every other place alone. -/
theorem memLookup_insert_other (mem : List Host.Cell) (k : Nat) (v : Byte) {j : Nat} (ne : j ≠ k)
    (h : Memory.wf mem = true) : memLookup (memInsert mem k v) j = memLookup mem j := by
  have key : ∀ (mem : List Host.Cell) (a : Option Nat), memRises a mem = true →
      memLookup (memInsert mem k v) j = memLookup mem j := by
    intro mem
    induction mem with
    | nil =>
      intro _ _
      simp only [memInsert, memLookup]
      rw [if_neg (Ne.symm ne)]
      split <;> rfl
    | cons c rest ih =>
      intro a h
      obtain ⟨i, w⟩ := c
      simp only [memRises, Bool.and_eq_true] at h
      have low : j ≤ i → j ≠ i → memLookup rest j = none := fun h1 _ => memLookup_below h.2 h1
      simp only [memInsert]
      split
      · next lt =>
        simp only [memLookup]
        rw [if_neg (Ne.symm ne)]
        by_cases hjk : j < k
        · rw [if_pos hjk]
          by_cases hij : i = j
          · omega
          · rw [if_neg hij, if_pos (by omega)]
        · rw [if_neg hjk]
      · split
        · next eq =>
          subst eq
          simp only [memLookup]
          rw [if_neg (Ne.symm ne), if_neg (Ne.symm ne)]
        · simp only [memLookup]
          rw [ih _ h.2]
  exact key mem none h

/-- Every key of the list after a write was there before or is the one written. -/
theorem mem_memInsert {mem : List Host.Cell} {k : Nat} {v : Byte} {c : Host.Cell} (h : c ∈ memInsert mem k v) :
    c ∈ mem ∨ c.1 = k := by
  induction mem with
  | nil =>
    simp only [memInsert, List.mem_singleton] at h
    exact .inr (by rw [h])
  | cons d rest ih =>
    obtain ⟨j, w⟩ := d
    simp only [memInsert] at h
    split at h
    · rcases List.mem_cons.mp h with rfl | h
      · exact .inr rfl
      · exact .inl h
    · split at h
      · next eq =>
        rcases List.mem_cons.mp h with rfl | h
        · exact .inr rfl
        · exact .inl (List.mem_cons_of_mem _ h)
      · rcases List.mem_cons.mp h with rfl | h
        · exact .inl List.mem_cons_self
        · rcases ih h with h | h
          · exact .inl (List.mem_cons_of_mem _ h)
          · exact .inr h

/-! ### Samples -/

/-- Two samples share a key only when they are the same sample. -/
theorem sampleAddr_inj {f p g q : Fin 3} {x y u v : Nat} (hx : x < 4096) (hy : y < 4096) (hu : u < 4096) (hv : v < 4096)
    (h : sampleAddr f p x y = sampleAddr g q u v) : f = g ∧ p = q ∧ x = u ∧ y = v := by
  simp only [sampleAddr] at h
  have h1 : x = u := by omega
  have h2 : y = v := by omega
  have hp := p.isLt
  have hq := q.isLt
  refine ⟨Fin.ext ?_, Fin.ext ?_, h1, h2⟩ <;> omega

@[simp] theorem FrameStore.write_width (fs : FrameStore) (f p : Fin 3) (x y : Nat) (v : Byte) :
    (fs.write f p x y v).width = fs.width := rfl
@[simp] theorem FrameStore.write_height (fs : FrameStore) (f p : Fin 3) (x y : Nat) (v : Byte) :
    (fs.write f p x y v).height = fs.height := rfl
@[simp] theorem FrameStore.write_epoch (fs : FrameStore) (f p : Fin 3) (x y : Nat) (v : Byte) :
    (fs.write f p x y v).epoch = fs.epoch := rfl
@[simp] theorem FrameStore.write_inPlane (fs : FrameStore) (f p : Fin 3) (x y : Nat) (v : Byte) (q : Fin 3)
    (u w : Int) : (fs.write f p x y v).inPlane q u w = fs.inPlane q u w := rfl

theorem FrameStore.inPlane_iff (fs : FrameStore) (p : Fin 3) (x y : Nat) :
    fs.inPlane p x y = true ↔ x < fs.planeWidth p ∧ y < fs.planeHeight p := by
  simp only [FrameStore.inPlane, decide_eq_true_eq]
  omega

theorem FrameStore.InOrder.plane_le {fs : FrameStore} {d : Nat} (h : fs.InOrder d) (p : Fin 3) :
    fs.planeWidth p ≤ 4096 ∧ fs.planeHeight p ≤ 4096 := by
  have := h.width
  have := h.height
  simp only [FrameStore.planeWidth, FrameStore.planeHeight]
  split <;> omega

/-- A read after a write to the same sample gives the value written (20_memory.md R93, R105). -/
@[simp] theorem FrameStore.write_sample_same (fs : FrameStore) (f p : Fin 3) (x y : Nat) (v : Byte) :
    (fs.write f p x y v).sample f p x y = v := by
  simp [FrameStore.sample, FrameStore.write, memLookup_insert_same]

/-- A write leaves every other sample alone. -/
theorem FrameStore.write_sample_other {fs : FrameStore} {d : Nat} (h : fs.InOrder d) {f p g q : Fin 3} {x y u w : Nat}
    (v : Byte) (hp : fs.inPlane p x y = true) (hq : fs.inPlane q u w = true) (ne : ¬(g = f ∧ q = p ∧ u = x ∧ w = y)) :
    (fs.write f p x y v).sample g q u w = fs.sample g q u w := by
  rw [FrameStore.inPlane_iff] at hp hq
  have := h.plane_le p
  have := h.plane_le q
  have key : sampleAddr g q u w ≠ sampleAddr f p x y := fun e =>
    ne (sampleAddr_inj (by omega) (by omega) (by omega) (by omega) e)
  simp only [FrameStore.sample, FrameStore.write, memLookup_insert_other _ _ _ key h.canonical]

/-- A write inside its plane keeps the store in order. -/
theorem FrameStore.InOrder.write {fs : FrameStore} {d : Nat} (h : fs.InOrder d) (f p : Fin 3) {x y : Nat} (v : Byte)
    (hp : fs.inPlane p x y = true) : (fs.write f p x y v).InOrder d :=
  ⟨h.width, h.height, h.epoch, memInsert_wf h.canonical _ _, fun c hc => by
    rcases mem_memInsert hc with hc | hc
    · exact h.inside c hc
    · exact ⟨f, p, x, y, hp, hc⟩⟩

theorem FrameStore.InOrder.later {fs : FrameStore} {d e : Nat} (h : fs.InOrder d) (le : d ≤ e) : fs.InOrder e :=
  ⟨h.width, h.height, lt_of_lt_of_le h.epoch le, h.canonical, h.inside⟩

theorem FrameStore.SameAllocation.refl (a : FrameStore) : a.SameAllocation a := ⟨rfl, rfl, rfl⟩

theorem FrameStore.SameAllocation.trans {a b c : FrameStore} (h : a.SameAllocation b) (g : b.SameAllocation c) :
    a.SameAllocation c := ⟨h.1.trans g.1, h.2.1.trans g.2.1, h.2.2.trans g.2.2⟩

theorem FrameStore.SameAllocation.inPlane {a b : FrameStore} (h : a.SameAllocation b) (p : Fin 3) (x y : Int) :
    b.inPlane p x y = a.inPlane p x y := by
  have pw : b.planeWidth p = a.planeWidth p := by simp only [FrameStore.planeWidth, h.1]
  have ph : b.planeHeight p = a.planeHeight p := by simp only [FrameStore.planeHeight, h.2.1]
  simp only [FrameStore.inPlane, pw, ph]

end Sys2Proof.Machine
end

