-- ==== Sys2Proof/Laws/Decoding.lean ====
section
/-!
SUPPORT. What the decoding of a picture can do to the state: `State.DecodesTo` names everything that may change, and each
operation from one block up to the slice loop stays within it and never stops where the kernel runs it
(70_reset_and_hazards.md R490).
-/

namespace Sys2Proof.Machine

/-! ### The relation -/

/-- The range of the predictors (10_state.md R52). -/
def Predictors.InRange (p : Predictors) : Prop := ∀ d c, -2048 ≤ p.get d c ∧ p.get d c ≤ 2046

/-- How a picture's data may change the state: the reader moves on over its source, the working registers, the blocks
and the draws change, samples are written inside their planes, and that is all. -/
structure State.DecodesTo (s t : State) : Prop where
  only : t = { s with br := t.br, work := t.work, blk := t.blk, frames := t.frames, draws := t.draws }
  reader : t.br = Reader.atBit s.br.source t.br.bitpos
  onward : s.br.bitpos ≤ t.br.bitpos
  draws : s.draws ≤ t.draws
  noFrames : s.frames = none → t.frames = none
  frames : ∀ fs, s.frames = some fs → ∃ gs, t.frames = some gs ∧ fs.SameAllocation gs ∧
    (fs.InOrder s.draws → gs.InOrder t.draws)
  predictors : s.work.pmv.InRange → t.work.pmv.InRange

theorem State.DecodesTo.refl {s : State} (h : s.br.InStep) : s.DecodesTo s :=
  ⟨rfl, h, le_rfl, le_rfl, id, fun fs e => ⟨fs, e, .refl fs, id⟩, id⟩

theorem State.DecodesTo.inStep {s t : State} (h : s.DecodesTo t) : t.br.InStep := by
  have := h.reader
  rw [Reader.InStep]
  conv_rhs => rw [this]
  rw [Reader.atBit_source]
  exact this

theorem State.DecodesTo.source {s t : State} (h : s.DecodesTo t) : t.br.source = s.br.source := by
  rw [h.reader, Reader.atBit_source]

theorem State.DecodesTo.trans {s t u : State} (h : s.DecodesTo t) (g : t.DecodesTo u) : s.DecodesTo u where
  only := by rw [g.only, h.only]
  reader := by rw [g.reader, h.source]; rfl
  onward := h.onward.trans g.onward
  draws := h.draws.trans g.draws
  noFrames e := g.noFrames (h.noFrames e)
  frames fs e := by
    obtain ⟨gs, eg, sg, og⟩ := h.frames fs e
    obtain ⟨ks, ek, sk, ok⟩ := g.frames gs eg
    exact ⟨ks, ek, sg.trans sk, fun o => ok (og o)⟩
  predictors p := g.predictors (h.predictors p)

theorem State.DecodesTo.seq {s t : State} (h : s.DecodesTo t) : t.seq = s.seq := by rw [h.only]
theorem State.DecodesTo.pic {s t : State} (h : s.DecodesTo t) : t.pic = s.pic := by rw [h.only]
theorem State.DecodesTo.roles {s t : State} (h : s.DecodesTo t) : t.roles = s.roles := by rw [h.only]
theorem State.DecodesTo.cfg {s t : State} (h : s.DecodesTo t) : t.cfg = s.cfg := by rw [h.only]
theorem State.DecodesTo.hpState {s t : State} (h : s.DecodesTo t) : t.hpState = s.hpState := by rw [h.only]
theorem State.DecodesTo.session {s t : State} (h : s.DecodesTo t) : t.session = s.session := by rw [h.only]
theorem State.DecodesTo.status {s t : State} (h : s.DecodesTo t) : t.status = s.status := by rw [h.only]
theorem State.DecodesTo.bench {s t : State} (h : s.DecodesTo t) : t.bench = s.bench := by rw [h.only]

theorem State.DecodesTo.params {s t : State} (h : s.DecodesTo t) : t.params = s.params := by rw [h.only]

/-- Decoding goes on where it could before: the parameters stay. -/
theorem State.DecodesTo.decoding {s t : State} (d : s.DecodesTo t) (h : s.Decoding) : t.Decoding :=
  ⟨d.inStep, by rw [d.params]; exact h.params⟩

/-- Reading alone. -/
theorem State.ReadsTo.decodesTo {s t : State} (h : s.ReadsTo t) : s.DecodesTo t := by
  obtain ⟨n, rfl⟩ := h
  exact ⟨rfl, rfl, by simp, le_rfl, id, fun fs e => ⟨fs, e, .refl fs, id⟩, id⟩

theorem State.decodesTo_ahead (s : State) (n : Nat) : s.DecodesTo (s.ahead n) := (s.readsTo_ahead n).decodesTo

/-- A change of working registers that keeps the predictors in range. -/
theorem State.decodesTo_work {s : State} (h : s.br.InStep) (w : Working)
    (p : s.work.pmv.InRange → w.pmv.InRange) : s.DecodesTo { s with work := w } :=
  ⟨rfl, h, le_rfl, le_rfl, id, fun fs e => ⟨fs, e, .refl fs, id⟩, p⟩

/-- A change of blocks. -/
theorem State.decodesTo_blk {s : State} (h : s.br.InStep) (b : Vector Block 6) : s.DecodesTo { s with blk := b } :=
  ⟨rfl, h, le_rfl, le_rfl, id, fun fs e => ⟨fs, e, .refl fs, id⟩, id⟩

theorem State.decodesTo_setBlkEntry {s : State} (h : s.br.InStep) (b : BlockNo) (k : Nat) (v : Coef) :
    s.DecodesTo (s.setBlkEntry b k v) := State.decodesTo_blk h _

theorem State.decodesTo_setBlock {s : State} (h : s.br.InStep) (b : BlockNo) (v : Block) :
    s.DecodesTo (s.setBlock b v) := State.decodesTo_blk h _

theorem State.decodesTo_setDcPred {s : State} (h : s.br.InStep) (c : Fin 3) (v : BitVec 32) :
    s.DecodesTo (s.setDcPred c v) := State.decodesTo_work h _ id

theorem State.decodesTo_discardBlocks {s : State} (h : s.br.InStep) : s.DecodesTo s.discardBlocks :=
  ⟨rfl, h, le_rfl, by simp, id, fun fs e => ⟨fs, e, .refl fs, fun o => o.later (by simp)⟩, id⟩

/-- A free value is drawn. -/
theorem State.decodesTo_draw {s : State} (h : s.br.InStep) : s.DecodesTo { s with draws := s.draws + 1 } :=
  ⟨rfl, h, le_rfl, Nat.le_succ _, id, fun fs e => ⟨fs, e, .refl fs, fun o => o.later (Nat.le_succ _)⟩, id⟩

/-- The outcome of an operation on picture data: it goes on within the relation, or raises within it. -/
def Res.Decodes {α : Type} (x : Res α) (s : State) (P : α → State → Prop) : Prop :=
  x.Meets (fun a t => s.DecodesTo t ∧ P a t) (fun _ _ t => s.DecodesTo t)

theorem Res.Decodes.bind {α β : Type} {x : Res α} {f : α → State → Res β} {s : State} {P : α → State → Prop}
    {R : β → State → Prop} (hx : x.Decodes s P) (hf : ∀ a t, s.DecodesTo t → P a t → (f a t).Decodes t R) :
    (x.bind f).Decodes s R :=
  Res.Meets.bind hx fun a t ⟨d, p⟩ =>
    (hf a t d p).mono (fun _ _ ⟨e, r⟩ => ⟨d.trans e, r⟩) (fun _ _ _ e => d.trans e)

theorem Res.Decodes.mono {α : Type} {x : Res α} {s : State} {P Q : α → State → Prop} (hx : x.Decodes s P)
    (h : ∀ a t, s.DecodesTo t → P a t → Q a t) : x.Decodes s Q :=
  Res.Meets.mono hx (fun a t ⟨d, p⟩ => ⟨d, h a t d p⟩) (fun _ _ _ d => d)

theorem Res.Decodes.after {α : Type} {x : Res α} {s t : State} {P : α → State → Prop} (d : s.DecodesTo t)
    (hx : x.Decodes t P) : x.Decodes s P :=
  Res.Meets.mono hx (fun _ _ ⟨e, p⟩ => ⟨d.trans e, p⟩) (fun _ _ _ e => d.trans e)

theorem Res.decodes_ok {α : Type} {a : α} {s t : State} {P : α → State → Prop} (d : s.DecodesTo t) (p : P a t) :
    (Res.ok a t).Decodes s P := ⟨d, p⟩

theorem Res.decodes_raised {α : Type} {c : Cause} {i : Nat} {s t : State} {P : α → State → Prop} (d : s.DecodesTo t) :
    (Res.raised c i t : Res α).Decodes s P := d

/-- An element operation is one of them. -/
theorem Res.Meets.decodes {α : Type} {x : Res α} {s : State} {P : α → State → Prop} {cs : List Cause}
    (hx : x.Meets P (RaisesFrom s cs)) (h : ∀ a t, P a t → s.ReadsTo t) : x.Decodes s P :=
  hx.mono (fun a t p => ⟨(h a t p).decodesTo, p⟩) (fun _ _ _ g => g.2.decodesTo)

/-! ### Blocks -/

/-- The coefficient loop ends within its 65 turns: the index grows with every pair (45_block_decode_iq.md R308). -/
theorem coefLoop_decodes (intra : Bool) (b : BlockNo) (fuel : Nat) : ∀ (next : Nat) (first : Bool) (s : State),
    s.Decoding → 64 < fuel + next → 0 < fuel →
    (coefLoop intra b fuel next first s).Decodes s fun _ t => t.work = s.work := by
  induction fuel with
  | zero => intro _ _ _ _ _ h; omega
  | succ fuel ih =>
    intro next first s h bound _
    refine Res.Decodes.bind (P := fun v t => s.ReadsTo t)
      (((coef_meets first h).decodes fun _ _ p => p.2).mono fun _ _ _ p => p.2) ?_
    intro v t _ rt
    have wt : t.work = s.work := by obtain ⟨n, rfl⟩ := rt; rfl
    cases v with
    | eob => exact Res.decodes_ok (.refl rt.inStep) wt
    | pair run level =>
      simp only
      split
      · exact Res.decodes_raised (.refl rt.inStep)
      · next le =>
        have step := State.decodesTo_setBlkEntry rt.inStep b (t.zigzag (next + run))
          (BitVec.ofInt 16 (t.dequantise intra (t.zigzag (next + run)) level))
        exact ((ih (next + run + 1) false _ (step.decoding (rt.decodesTo.decoding h)) (by omega) (by omega)).mono fun _ _ _ p => p.trans wt).after step

/-- `IQ_INTRA_DC` (R302). -/
theorem intraDc_decodes (b : BlockNo) {s : State} (h : s.Decoding) :
    (intraDc b s).Decodes s fun _ t => t.work = { s.work with dcPred := t.work.dcPred } := by
  refine Res.Decodes.bind (P := fun v t => s.ReadsTo t)
    (((dcDiff_meets b h).decodes fun _ _ p => p.2.2).mono fun _ _ _ p => p.2.2) ?_
  rintro v t - ⟨n, rfl⟩
  refine Res.decodes_ok ?_ rfl
  have first := State.decodesTo_setDcPred (State.ahead_inStep s n) (component b)
    ((s.ahead n).work.dcPred[component b] + BitVec.ofInt 32 v)
  exact first.trans (State.decodesTo_setBlkEntry first.inStep _ _ _)

/-- `intraBlock(b)` (R305). -/
theorem intraBlock_decodes (b : BlockNo) {s : State} (h : s.Decoding) :
    (intraBlock b s).Decodes s fun _ t => t.work = { s.work with dcPred := t.work.dcPred } :=
  (intraDc_decodes b h).bind fun _ t d p =>
    (coefLoop_decodes true b 65 1 false t (d.decoding h) (by omega) (by omega)).mono fun _ u _ q => by rw [q]; exact p

/-- `interBlock(b)` (R306). -/
theorem interBlock_decodes (b : BlockNo) {s : State} (h : s.Decoding) :
    (interBlock b s).Decodes s fun _ t => t.work = { s.work with dcPred := t.work.dcPred } :=
  (coefLoop_decodes false b 65 0 true s h (by omega) (by omega)).mono fun _ t _ p => by rw [p]

/-! ### Vectors -/

theorem Predictors.get_set (p : Predictors) (d e : Direction) (c a : Axis) (v : Int) :
    (p.set d c v).get e a = if e = d ∧ a = c then v else p.get e a := by
  cases d <;> cases e <;> cases c <;> cases a <;> rfl

/-- A reconstructed component is in the range of the predictors whatever predictor in that range it started from
(46_motion_vectors.md R336, R337). -/
theorem reconstructVector_inRange {pred code : Int} {rangeSize residual : Nat} (fullPel : Bool)
    (hp : -2048 ≤ pred ∧ pred ≤ 2046) (hc : -16 ≤ code ∧ code ≤ 16) (hr : rangeSize ≤ 6)
    (hres : residual < 2 ^ rangeSize) :
    -2048 ≤ reconstructVector pred code rangeSize residual fullPel ∧
      reconstructVector pred code rangeSize residual fullPel ≤ 2046 := by
  have size : (motionDelta code rangeSize residual : Int) ≤ 16 * 2 ^ rangeSize ∨ code = 0 := by
    by_cases z : code = 0
    · exact .inr z
    · refine .inl ?_
      have : code.natAbs - 1 ≤ 15 := by omega
      have : (code.natAbs - 1) * 2 ^ rangeSize ≤ 15 * 2 ^ rangeSize := Nat.mul_le_mul_right _ this
      have : motionDelta code rangeSize residual ≤ 16 * 2 ^ rangeSize := by unfold motionDelta; omega
      exact_mod_cast this
  have pos : 0 ≤ (motionDelta code rangeSize residual : Int) := by positivity
  have lim : (1 : Int) ≤ 2 ^ rangeSize ∧ (2 : Int) ^ rangeSize ≤ 64 := by interval_cases rangeSize <;> norm_num
  unfold reconstructVector wrapVector half
  generalize (motionDelta code rangeSize residual : Int) = m at *
  generalize (2 : Int) ^ rangeSize = l at *
  cases fullPel <;> simp only [if_true, if_false, Bool.false_eq_true] <;> split <;> try split
  all_goals (try split) <;> (try split) <;> omega

/-- `decodeMotionVector` into its predictor (46_motion_vectors.md R339): a fault leaves the predictor alone. -/
theorem decodeComponent_decodes (d : Direction) (c : Axis) {rangeSize : Nat} (hr : rangeSize ≤ 6) (fullPel : Bool)
    {s : State} (h : s.Decoding) :
    (decodeComponent d c rangeSize fullPel s).Decodes s fun v t =>
      t.work = { s.work with pmv := s.work.pmv.set d c v } := by
  have key : (decodeMotionVector (s.work.pmv.get d c) rangeSize fullPel s).Meets
      (fun v t => s.ReadsTo t ∧ (s.work.pmv.InRange → -2048 ≤ v ∧ v ≤ 2046)) (RaisesFrom s [.vlcInvalid]) := by
    refine (motionCode_meets h).bind ?_
    rintro code t ⟨h1, h2, rt⟩
    split
    · next z =>
      refine ⟨rt, fun p => reconstructVector_inRange fullPel (p d c) (by omega) hr ?_⟩
      exact Nat.two_pow_pos _
    · rw [State.getBits_eq rt.inStep rangeSize (by omega)]
      exact ⟨rt.trans (t.readsTo_ahead _), fun p =>
        reconstructVector_inRange fullPel (p d c) ⟨h1, h2⟩ hr (t.upcoming_lt 0 rangeSize)⟩
  refine Res.Decodes.bind (key.decodes fun _ _ p => p.1) ?_
  rintro v t - ⟨⟨n, rfl⟩, range⟩
  refine Res.decodes_ok (State.decodesTo_work (State.ahead_inStep s n) _ fun p e a => ?_) rfl
  rw [Predictors.get_set]
  split
  · exact range p
  · exact p e a

/-- Both components of one direction. -/
theorem decodeVector_decodes (d : Direction) {code : BitVec 3} (hc : code ≠ 0) (fullPel : Bool) {s : State}
    (h : s.Decoding) :
    (decodeVector d code fullPel s).Decodes s fun _ t => t.work = { s.work with pmv := t.work.pmv } := by
  have small : code.toNat - 1 ≤ 6 := by have := code.isLt; omega
  rw [decodeVector, if_neg hc]
  refine (decodeComponent_decodes d .x small fullPel h).bind fun _ t dt pt => ?_
  refine (decodeComponent_decodes d .y small fullPel (dt.decoding h)).bind fun _ u du pu => ?_
  exact Res.decodes_ok (.refl du.inStep) (by rw [pu, pt])

/-! ### Writing samples -/

/-- A macroblock position in the picture: every sample of the macroblock is in its plane (20_memory.md R95). -/
theorem FrameStore.inPlane_of_macroblock {fs : FrameStore} {mbX mbY : Nat} (h : fs.hasMacroblock mbX mbY = true)
    {p : Fin 3} {x y : Nat} (m : inMacroblock p mbX mbY x y) : fs.inPlane p x y = true := by
  simp only [FrameStore.hasMacroblock, decide_eq_true_eq] at h
  rw [FrameStore.inPlane_iff]
  unfold inMacroblock at m
  simp only [FrameStore.planeWidth, FrameStore.planeHeight]
  split at m <;> split <;> omega

theorem FrameStore.SameAllocation.hasMacroblock {a b : FrameStore} (h : a.SameAllocation b) (mbX mbY : Nat) :
    b.hasMacroblock mbX mbY = a.hasMacroblock mbX mbY := by
  simp only [FrameStore.hasMacroblock, h.1, h.2.1]

/-- What writing samples of one macroblock of `cur` does to a store. -/
structure FrameStore.WritesMacroblock (a b : FrameStore) (cur : Fin 3) (mbX mbY : Nat) : Prop where
  same : a.SameAllocation b
  order : ∀ d, a.InOrder d → b.InOrder d
  outside : ∀ d, a.InOrder d → a.AgreeOutside b cur mbX mbY

theorem FrameStore.WritesMacroblock.refl (a : FrameStore) (cur : Fin 3) (mbX mbY : Nat) :
    a.WritesMacroblock a cur mbX mbY := ⟨.refl a, fun _ o => o, fun _ _ _ _ _ _ _ _ => rfl⟩

theorem FrameStore.WritesMacroblock.trans {a b c : FrameStore} {cur : Fin 3} {mbX mbY : Nat}
    (h : a.WritesMacroblock b cur mbX mbY) (g : b.WritesMacroblock c cur mbX mbY) :
    a.WritesMacroblock c cur mbX mbY where
  same := h.same.trans g.same
  order d o := g.order d (h.order d o)
  outside d o f p x y hp ne := by
    rw [g.outside d (h.order d o) f p x y (by rw [h.same.inPlane]; exact hp) ne]
    exact h.outside d o f p x y hp ne

theorem FrameStore.writesMacroblock_write {fs : FrameStore} {mbX mbY : Nat} (h : fs.hasMacroblock mbX mbY = true)
    (cur p : Fin 3) {x y : Nat} (m : inMacroblock p mbX mbY x y) (v : Byte) :
    fs.WritesMacroblock (fs.write cur p x y v) cur mbX mbY where
  same := ⟨rfl, rfl, rfl⟩
  order _ o := o.write cur p v (FrameStore.inPlane_of_macroblock h m)
  outside _ o f q u w hp ne := by
    refine FrameStore.write_sample_other o v (FrameStore.inPlane_of_macroblock h m) hp ?_
    rintro ⟨rfl, rfl, rfl, rfl⟩
    exact ne ⟨rfl, m⟩

theorem mem_area {n : Nat} {ij : Nat × Nat} (h : ij ∈ area n) : ij.1 < n ∧ ij.2 < n := by
  simp only [area, List.mem_flatMap, List.mem_range, List.mem_map] at h
  obtain ⟨j, hj, i, hi, rfl⟩ := h
  exact ⟨hi, hj⟩

/-- `read` draws at most once and `fetch` at most four times, never backwards. -/
theorem FrameStore.read_draws (fs : FrameStore) (d : Nat) (f p : Fin 3) (x y : Int) : d ≤ (fs.read d f p x y).2 := by
  unfold FrameStore.read; split <;> simp

theorem FrameStore.fetch_draws (fs : FrameStore) (par : Config.Params) (d : Nat) (r p : Fin 3) (x y : Int)
    (hx hy : Bool) : d ≤ (fs.fetch par d r p x y hx hy).2 := by
  unfold FrameStore.fetch
  cases hx <;> cases hy <;> simp only
  · exact fs.read_draws _ _ _ _ _
  · exact (fs.read_draws _ _ _ _ _).trans (fs.read_draws _ _ _ _ _)
  · exact (fs.read_draws _ _ _ _ _).trans (fs.read_draws _ _ _ _ _)
  · exact (fs.read_draws _ _ _ _ _).trans
      ((fs.read_draws _ _ _ _ _).trans ((fs.read_draws _ _ _ _ _).trans (fs.read_draws _ _ _ _ _)))

/-- One pass writes samples of its macroblock only, and draws only onward. -/
theorem predictPlane_writes {mbX mbY : Nat} {cur : Fin 3} (par : Config.Params) (avg sub : Bool) (r : Fin 3)
    (q : PlanePass)
    (fits : ∀ i j, i < q.size → j < q.size → inMacroblock q.plane mbX mbY (q.x0 + i) (q.y0 + j))
    (m : FrameStore × Nat) (h : m.1.hasMacroblock mbX mbY = true) :
    m.1.WritesMacroblock (predictPlane par avg sub r cur m q).1 cur mbX mbY ∧
      m.2 ≤ (predictPlane par avg sub r cur m q).2 := by
  unfold predictPlane
  have key : ∀ (l : List (Nat × Nat)) (m : FrameStore × Nat), (∀ ij ∈ l, ij.1 < q.size ∧ ij.2 < q.size) →
      m.1.hasMacroblock mbX mbY = true →
      m.1.WritesMacroblock (l.foldl (predictSample par avg sub r cur q) m).1 cur mbX mbY ∧
        m.2 ≤ (l.foldl (predictSample par avg sub r cur q) m).2 := by
    intro l
    induction l with
    | nil => intro m _ _; exact ⟨.refl _ _ _ _, le_rfl⟩
    | cons ij rest ih =>
      intro m hl hm
      have hij := hl ij List.mem_cons_self
      have step : m.1.WritesMacroblock (predictSample par avg sub r cur q m ij).1 cur mbX mbY :=
        FrameStore.writesMacroblock_write hm _ _ (fits _ _ hij.1 hij.2) _
      have dr : m.2 ≤ (predictSample par avg sub r cur q m ij).2 := m.1.fetch_draws _ _ _ _ _ _ _ _
      obtain ⟨w, e⟩ := ih _ (fun x hx => hl x (List.mem_cons_of_mem _ hx))
        (by rw [step.same.hasMacroblock]; exact hm)
      exact ⟨step.trans w, dr.trans e⟩
  exact key _ m (fun ij hij => mem_area hij) h

theorem planePasses_fit (mbX mbY : Nat) (dx dy : Int) : ∀ q ∈ planePasses mbX mbY dx dy,
    ∀ i j, i < q.size → j < q.size → inMacroblock q.plane mbX mbY (q.x0 + i) (q.y0 + j) := by
  intro q hq i j hi hj
  simp only [planePasses, List.mem_cons, List.not_mem_nil, or_false] at hq
  rcases hq with rfl | rfl | rfl <;> simp only [inMacroblock] at * <;> simp <;> omega

/-- All passes of a prediction. -/
theorem predictPlanes_writes {mbX mbY : Nat} {cur : Fin 3} (par : Config.Params) (avg sub : Bool)
    (r : Fin 3) (l : List PlanePass)
    (fits : ∀ q ∈ l, ∀ i j, i < q.size → j < q.size → inMacroblock q.plane mbX mbY (q.x0 + i) (q.y0 + j)) :
    ∀ m : FrameStore × Nat, m.1.hasMacroblock mbX mbY = true →
      m.1.WritesMacroblock (l.foldl (predictPlane par avg sub r cur) m).1 cur mbX mbY ∧
        m.2 ≤ (l.foldl (predictPlane par avg sub r cur) m).2 := by
  induction l with
  | nil => intro m _; exact ⟨.refl _ _ _ _, le_rfl⟩
  | cons q rest ih =>
    intro m hm
    obtain ⟨w, d⟩ := predictPlane_writes par avg sub r q (fits q List.mem_cons_self) m hm (cur := cur)
    obtain ⟨w', d'⟩ := ih (fun x hx => fits x (List.mem_cons_of_mem _ hx)) _
      (by rw [w.same.hasMacroblock]; exact hm)
    exact ⟨w.trans w', d.trans d'⟩

/-- A store that an operation leaves in place of the old one. -/
theorem State.decodesTo_frames {s : State} (h : s.br.InStep) {fs gs : FrameStore} {cur : Fin 3} {mbX mbY d : Nat}
    (e : s.frames = some fs) (w : fs.WritesMacroblock gs cur mbX mbY) (le : s.draws ≤ d) :
    s.DecodesTo { s with frames := some gs, draws := d } :=
  ⟨rfl, h, le_rfl, le, by rw [e]; simp, fun ks ek => by
    rw [e] at ek
    cases ek
    exact ⟨gs, rfl, w.same, fun o => (w.order _ o).later le⟩, id⟩

theorem State.withTarget_eq {s : State} {fs : FrameStore} {cur : Fin 3} {mbX mbY : Nat} (h : s.Targets fs cur mbX mbY)
    (f : FrameStore → Fin 3 → Res Unit) : s.withTarget mbX mbY f = f fs cur := by
  obtain ⟨e1, e2, h1, h2⟩ := h
  simp only [State.withTarget, e1, e2]
  rw [if_pos (by simp only [FrameStore.hasMacroblock, decide_eq_true_eq]; exact ⟨h1, h2⟩)]

theorem State.Targets.hasMacroblock {s : State} {fs : FrameStore} {cur : Fin 3} {mbX mbY : Nat}
    (h : s.Targets fs cur mbX mbY) : fs.hasMacroblock mbX mbY = true := by
  simp only [FrameStore.hasMacroblock, decide_eq_true_eq]
  exact h.2.2

/-- The target stays one while a picture is decoded. -/
theorem State.Targets.after {s t : State} {fs : FrameStore} {cur : Fin 3} {mbX mbY : Nat} (h : s.Targets fs cur mbX mbY)
    (d : s.DecodesTo t) : ∃ gs, t.Targets gs cur mbX mbY := by
  obtain ⟨e1, e2, h1, h2⟩ := h
  obtain ⟨gs, eg, sg, -⟩ := d.frames fs e1
  exact ⟨gs, eg, by rw [d.roles]; exact e2, by rw [← sg.1]; exact h1, by rw [← sg.2.1]; exact h2⟩

/-- `formPrediction` and `formAvgPrediction` (48_prediction_recon.md R372, R379) at a position in the picture. -/
theorem predict_eq {s : State} {fs : FrameStore} {cur : Fin 3} {mbX mbY : Nat} (h : s.Targets fs cur mbX mbY) (avg : Bool)
    (ref : Direction) (dx dy : Int) :
    ∃ gs d, predict avg ref mbX mbY dx dy s = .ok () { s with frames := some gs, draws := d } ∧
      fs.WritesMacroblock gs cur mbX mbY ∧ s.draws ≤ d := by
  obtain ⟨w, d⟩ := predictPlanes_writes s.params avg (if avg then s.reconAvgSubpixel else s.reconSubpixel) (s.reference ref) _
    (planePasses_fit mbX mbY dx dy) (fs, s.draws) h.hasMacroblock (cur := cur)
  exact ⟨_, _, State.withTarget_eq h _, w, d⟩

theorem predict_decodes {s : State} (hs : s.br.InStep) {fs : FrameStore} {cur : Fin 3} {mbX mbY : Nat}
    (h : s.Targets fs cur mbX mbY) (avg : Bool) (ref : Direction) (dx dy : Int) :
    (predict avg ref mbX mbY dx dy s).Decodes s fun _ t => t.work = s.work := by
  obtain ⟨gs, d, e, w, le⟩ := predict_eq h avg ref dx dy
  rw [e]
  exact Res.decodes_ok (State.decodesTo_frames hs h.1 w le) rfl

/-- `predictB` (43_macroblock_decoder.md R251). -/
theorem predictB_decodes {s : State} (hs : s.br.InStep) {fs : FrameStore} {cur : Fin 3} {mbX mbY : Nat}
    (h : s.Targets fs cur mbX mbY) (m : Motion) :
    (predictB mbX mbY m s).Decodes s fun _ t => t.work = s.work := by
  unfold predictB
  split
  · refine (predict_decodes hs h false .forward _ _).bind fun _ t d p => ?_
    obtain ⟨gs, g⟩ := h.after d
    split
    · exact (predict_decodes d.inStep g true .backward _ _).mono fun _ _ _ q => q.trans p
    · exact Res.decodes_ok (.refl d.inStep) p
  · split
    · exact predict_decodes hs h false .backward _ _
    · exact Res.decodes_raised (.refl hs)

/-- The plane and origin of a block lie in its macroblock (48_prediction_recon.md R387). -/
theorem blockOrigin_fits (b : BlockNo) (mbX mbY : Nat) {i j : Nat} (hi : i < 8) (hj : j < 8) :
    inMacroblock (blockOrigin b mbX mbY).1 mbX mbY ((blockOrigin b mbX mbY).2.1 + i) ((blockOrigin b mbX mbY).2.2 + j) := by
  unfold blockOrigin
  split
  · next lt => simp only [inMacroblock, if_true]; omega
  · have : component b ≠ 0 := by unfold component; split <;> [omega; split <;> decide]
    simp only [inMacroblock, if_neg this]
    omega

theorem tileBlock_writes {fs : FrameStore} {mbX mbY : Nat} (h : fs.hasMacroblock mbX mbY = true) (intra : Bool)
    (blk : Block) (cur : Fin 3) (b : BlockNo) : fs.WritesMacroblock (tileBlock intra blk cur b mbX mbY fs) cur mbX mbY := by
  unfold tileBlock
  have key : ∀ (l : List (Nat × Nat)) (fs : FrameStore), (∀ ij ∈ l, ij.1 < 8 ∧ ij.2 < 8) →
      fs.hasMacroblock mbX mbY = true →
      fs.WritesMacroblock (l.foldl (tileSample intra blk cur (blockOrigin b mbX mbY).1 (blockOrigin b mbX mbY).2.1
        (blockOrigin b mbX mbY).2.2) fs) cur mbX mbY := by
    intro l
    induction l with
    | nil => intro fs _ _; exact .refl _ _ _ _
    | cons ij rest ih =>
      intro fs hl hm
      have hij := hl ij List.mem_cons_self
      have step := FrameStore.writesMacroblock_write hm cur _ (blockOrigin_fits b mbX mbY hij.1 hij.2)
        (toSample ((if intra then 128 else ((fs.sample cur (blockOrigin b mbX mbY).1
          ((blockOrigin b mbX mbY).2.1 + ij.1) ((blockOrigin b mbX mbY).2.2 + ij.2)).toNat : Int)) + residualAt blk ij))
      exact step.trans (ih _ (fun x hx => hl x (List.mem_cons_of_mem _ hx)) (by rw [step.same.hasMacroblock]; exact hm))
  exact key _ fs (fun ij hij => mem_area hij) h

/-- `putIntraBlock` and `addInterBlock` (48_prediction_recon.md R385, R386). -/
theorem tile_decodes {s : State} (hs : s.br.InStep) {fs : FrameStore} {cur : Fin 3} {mbX mbY : Nat}
    (h : s.Targets fs cur mbX mbY) (intra : Bool) (b : BlockNo) :
    (tile intra b mbX mbY s).Decodes s fun _ t => t.work = s.work := by
  rw [tile, State.withTarget_eq h]
  exact Res.decodes_ok (State.decodesTo_frames hs h.1 (tileBlock_writes h.hasMacroblock intra _ cur b) le_rfl) rfl

end Sys2Proof.Machine
end

