-- ==== Sys2Proof/Laws/Picture.lean ====
section
/-!
SUPPORT. Macroblocks, slices and the data of a picture: in the state that the checks of `CMD_DECODE_NEXT` leave, none of them
stops, and what they change is `State.DecodesTo` (43_macroblock_decoder.md; 70_reset_and_hazards.md R490).
-/

namespace Sys2Proof.Machine

/-- What `CMD_DECODE_NEXT` has made sure of before a picture's data (49_picture_buffers_host.md R417). -/
structure State.Ready (s : State) : Prop where
  type : s.pic.pictType = 1 ∨ s.pic.pictType = 2 ∨ s.pic.pictType = 3
  forward : s.pic.pictType ≠ 1 → s.pic.forwardCode ≠ 0
  backward : s.pic.pictType = 3 → s.pic.backwardCode ≠ 0
  grid : 0 < s.seq.mbCols
  target : ∃ fs cur, s.frames = some fs ∧ s.roles.cur = some cur ∧ fs.width = 16 * s.seq.mbCols ∧
    fs.height = 16 * s.seq.mbRows

theorem State.Ready.after {s t : State} (h : s.Ready) (d : s.DecodesTo t) : t.Ready := by
  obtain ⟨ty, fw, bw, gr, fs, cur, e1, e2, e3, e4⟩ := h
  obtain ⟨gs, eg, sg, -⟩ := d.frames fs e1
  rw [← d.pic] at ty fw bw
  rw [← d.seq] at gr e3 e4
  exact ⟨ty, fw, bw, gr, gs, cur, eg, by rw [d.roles]; exact e2, by rw [← sg.1]; exact e3, by rw [← sg.2.1]; exact e4⟩

/-- The position of an address in the picture (10_state.md R28), and that a macroblock may be written there. -/
theorem State.Ready.position {s : State} (h : s.Ready) {a : Nat} (lt : a < s.seq.mbCols * s.seq.mbRows) :
    s.gridPosition a = ((a % s.seq.mbCols, a / s.seq.mbCols), s) ∧
      ∃ fs cur, s.Targets fs cur (a % s.seq.mbCols) (a / s.seq.mbCols) := by
  obtain ⟨fs, cur, e1, e2, e3, e4⟩ := h.target
  refine ⟨by rw [State.gridPosition, if_neg (by have := h.grid; omega)], fs, cur, e1, e2, ?_, ?_⟩
  · have := Nat.mod_lt a h.grid
    omega
  · have := Nat.div_lt_of_lt_mul lt
    omega

/-- Changes of working registers, as the sequencer makes them. -/
theorem Predictors.inRange_zero : Predictors.InRange ⟨⟨0, 0⟩, ⟨0, 0⟩⟩ := by
  intro d c; cases d <;> cases c <;> decide

theorem Predictors.InRange.clearForward {p : Predictors} (h : p.InRange) : Predictors.InRange { p with forward := ⟨0, 0⟩ } := by
  intro d c
  cases d
  · cases c <;> (constructor <;> simp [Predictors.get])
  · have := h .backward c
    cases c <;> exact this

theorem State.decodesTo_afterIntra {s : State} (h : s.br.InStep) : s.DecodesTo (afterIntra s) := by
  unfold afterIntra
  split
  · exact State.decodesTo_work h _ fun p => p.clearForward
  · split
    · exact State.decodesTo_work h _ fun _ => Predictors.inRange_zero
    · exact State.decodesTo_work h _ id

@[simp] theorem afterIntra_mba (s : State) : (afterIntra s).work.mba = s.work.mba := by
  unfold afterIntra
  split
  · rfl
  · split <;> rfl

/-! ### One macroblock -/

theorem macroblockType_decodes {s : State} (h : s.Decoding) (ready : s.Ready) :
    (macroblockType s).Decodes s fun t u =>
      u.work = { s.work with mbType := t } ∧
        (hasForward t = true → s.pic.pictType ≠ 1) ∧ (hasBackward t = true → s.pic.pictType = 3) := by
  have key : (if s.pic.pictType = 1 then vlc s.params.tables.mbtI .mbtI s
      else if s.pic.pictType = 2 then vlc s.params.tables.mbtP .mbtP s
      else if s.pic.pictType = 3 then vlc s.params.tables.mbtB .mbtB s
      else .stop .noTypeTable : Res (BitVec 5)).Meets
        (fun t u => ((hasForward t = true → s.pic.pictType ≠ 1) ∧ (hasBackward t = true → s.pic.pictType = 3)) ∧
          s.ReadsTo u) (RaisesFrom s [.vlcInvalid]) := by
    rcases ready.type with e | e | e <;> simp only [e]
    · refine (vlc_reads h.tables.mbtI .mbtI h.reader).mono ?_ (fun _ _ _ g => g)
      rintro t u ⟨⟨r, mem, rfl⟩, rt⟩
      obtain ⟨-, f, b⟩ := h.tables.typesI r mem
      exact ⟨⟨by simp [f], by simp [b]⟩, rt⟩
    · refine (vlc_reads h.tables.mbtP .mbtP h.reader).mono ?_ (fun _ _ _ g => g)
      rintro t u ⟨⟨r, mem, rfl⟩, rt⟩
      exact ⟨⟨fun _ => by decide, by simp [h.tables.typesP r mem]⟩, rt⟩
    · refine (vlc_reads h.tables.mbtB .mbtB h.reader).mono ?_ (fun _ _ _ g => g)
      rintro t u ⟨⟨r, mem, rfl⟩, rt⟩
      exact ⟨⟨fun _ => by decide, fun _ => by decide⟩, rt⟩
  refine Res.Decodes.bind (key.decodes fun _ _ p => p.2) ?_
  rintro t u d ⟨p, n, rfl⟩
  exact Res.decodes_ok (State.decodesTo_work d.inStep _ id) ⟨rfl, p⟩

theorem macroblockQuant_decodes (t : BitVec 5) {s : State} (h : s.br.InStep) :
    (macroblockQuant t s).Decodes s fun _ u => u.work.mba = s.work.mba := by
  unfold macroblockQuant
  split
  · rw [State.getBits_eq h 5 (by norm_num)]
    have d : s.DecodesTo ((s.ahead 5).setQuantizerScale (BitVec.ofNat 5 (s.upcoming 0 5))) :=
      (s.decodesTo_ahead 5).trans (State.decodesTo_work (s.ahead_inStep 5) _ id)
    simp only
    split
    · exact Res.decodes_raised d
    · exact Res.decodes_ok d rfl
  · exact Res.decodes_ok (.refl h) rfl

theorem macroblockVectors_decodes (t : BitVec 5) {s : State} (h : s.Decoding)
    (hf : hasForward t = true → s.pic.forwardCode ≠ 0) (hb : hasBackward t = true → s.pic.backwardCode ≠ 0) :
    (macroblockVectors t s).Decodes s fun _ u => u.work.mba = s.work.mba := by
  have fw : (forwardVector t s).Decodes s fun _ u => u.work.mba = s.work.mba := by
    unfold forwardVector
    split
    · next e => exact (decodeVector_decodes .forward (hf e) _ h).mono fun _ _ _ p => by rw [p]
    · exact Res.decodes_ok (.refl h.reader) rfl
  refine fw.bind fun _ u d p => ?_
  unfold backwardVector
  split
  · next e =>
    exact (decodeVector_decodes .backward (by rw [d.pic]; exact hb e) _ (d.decoding h)).mono fun _ _ _ q => by
      rw [q]; exact p
  · exact Res.decodes_ok (.refl d.inStep) p

theorem macroblockPattern_decodes (t : BitVec 5) {s : State} (h : s.Decoding) :
    (macroblockPattern t s).Decodes s fun _ u => u.work.mba = s.work.mba := by
  unfold macroblockPattern
  split
  · exact Res.decodes_ok (State.decodesTo_work h.reader _ id) rfl
  · split
    · unfold codedPattern
      refine Res.Decodes.bind (P := fun _ u => u.work.mba = s.work.mba) (Res.Decodes.bind
        ((vlc_reads h.tables.cbp .cbp h.reader).decodes fun _ _ p => p.2) ?_) fun _ u d p => Res.decodes_ok (.refl d.inStep) p
      rintro v u d ⟨-, n, rfl⟩
      exact Res.decodes_ok (State.decodesTo_work d.inStep _ id) rfl
    · exact Res.decodes_ok (State.decodesTo_work h.reader _ id) rfl

/-- For each coded block in order, an operation that decodes and keeps `MBA`. -/
theorem codedBlocks_decodes {f : BlockNo → State → Res Unit} {J : State → Prop}
    (hf : ∀ b s, s.br.InStep → J s → (f b s).Decodes s fun _ u => u.work.mba = s.work.mba)
    (hJ : ∀ s t, s.DecodesTo t → J s → J t) : ∀ (l : List BlockNo) (s : State), s.br.InStep → J s →
    (codedBlocks f l s).Decodes s fun _ u => u.work.mba = s.work.mba := by
  intro l
  induction l with
  | nil => intro s h _; exact Res.decodes_ok (.refl h) rfl
  | cons b rest ih =>
    intro s h j
    unfold codedBlocks
    have one : (if isCoded s.work.cbp b then f b s else .ok () s : Res Unit).Decodes s
        fun _ u => u.work.mba = s.work.mba := by
      split
      · exact hf b s h j
      · exact Res.decodes_ok (.refl h) rfl
    exact one.bind fun _ u d p => (ih u d.inStep (hJ s u d j)).mono fun _ _ _ q => q.trans p

/-- The parsing of a macroblock (43_macroblock_decoder.md R240). -/
theorem parseMacroblock_decodes {s : State} (h : s.Decoding) (ready : s.Ready) :
    (parseMacroblock s).Decodes s fun _ u => u.work.mba = s.work.mba := by
  refine (macroblockType_decodes h ready).bind fun t u d ⟨hw, hf, hb⟩ => ?_
  have m0 : u.work.mba = s.work.mba := by rw [hw]
  have hu := d.decoding h
  refine (macroblockQuant_decodes t d.inStep).bind fun _ v e mv => ?_
  have ready' := (ready.after d).after e
  have pic : v.pic = s.pic := e.pic.trans d.pic
  refine (macroblockVectors_decodes t (e.decoding hu) (fun x => ready'.forward (by rw [pic]; exact hf x))
    (fun x => ready'.backward (by rw [pic]; exact hb x))).bind fun _ w g mw => ?_
  refine (macroblockPattern_decodes t (g.decoding (e.decoding hu))).bind fun _ x k mx => ?_
  have zero : x.DecodesTo x.zeroBlocks := State.decodesTo_blk k.inStep _
  refine Res.Decodes.after zero ?_
  refine (codedBlocks_decodes (J := State.Decoding) (fun b s _ h => ?_) (fun _ _ d h => d.decoding h) allBlocks x.zeroBlocks
    zero.inStep (zero.decoding (k.decoding (g.decoding (e.decoding hu))))).bind fun _ y l my => Res.decodes_ok (.refl l.inStep) ?_
  · split
    · exact (intraBlock_decodes b h).mono fun _ _ _ p => by rw [p]
    · exact (interBlock_decodes b h).mono fun _ _ _ p => by rw [p]
  · rw [my, State.zeroBlocks_work, mx, mw, mv, m0]

/-- The prediction of a non-intra macroblock (R249 to R252). -/
theorem predictMacroblock_decodes (t : BitVec 5) {s : State} (h : s.br.InStep) {fs : FrameStore} {cur : Fin 3}
    {mbX mbY : Nat} (tgt : s.Targets fs cur mbX mbY) :
    (predictMacroblock t mbX mbY s).Decodes s fun _ u => u.work.mba = s.work.mba := by
  have d0 : s.DecodesTo s.clearDcPred := State.decodesTo_work h _ id
  unfold predictMacroblock
  simp only
  refine Res.Decodes.after d0 ?_
  split
  · have d1 : s.clearDcPred.DecodesTo (if hasForward t then s.clearDcPred else s.clearDcPred.clearForwardPmv) := by
      split
      · exact .refl d0.inStep
      · exact State.decodesTo_work d0.inStep _ fun p => p.clearForward
    have mba : (if hasForward t then s.clearDcPred else s.clearDcPred.clearForwardPmv).work.mba = s.work.mba := by
      split <;> rfl
    obtain ⟨gs, g⟩ := tgt.after (d0.trans d1)
    exact ((predict_decodes d1.inStep g false .forward _ _).mono fun _ _ _ p => by rw [p]; exact mba).after d1
  · obtain ⟨gs, g⟩ := tgt.after d0
    refine (predictB_decodes d0.inStep g (motionOf t)).bind fun _ u d p =>
      Res.decodes_ok (State.decodesTo_work d.inStep _ id) ?_
    rw [State.setPrevMotion_mba, p]
    rfl

/-- One coded block: IDCT, then put or added (R253). -/
theorem reconstructBlock_decodes (intra : Bool) (b : BlockNo) {s : State} (h : s.br.InStep) {fs : FrameStore}
    {cur : Fin 3} {mbX mbY : Nat} (tgt : s.Targets fs cur mbX mbY) :
    (reconstructBlock intra mbX mbY b s).Decodes s fun _ u => u.work.mba = s.work.mba := by
  have d := State.decodesTo_setBlock h b (idct s.blk[b])
  obtain ⟨gs, g⟩ := tgt.after d
  exact ((tile_decodes d.inStep g intra b).mono fun _ _ _ p => by rw [p]; rfl).after d

/-- `macroblock()` (R240) at an address in the picture. -/
theorem macroblock_decodes {s : State} (h : s.Decoding) (ready : s.Ready)
    (lt : s.work.mba < s.seq.mbCols * s.seq.mbRows) :
    (macroblock s).Decodes s fun _ u => u.work.mba = s.work.mba := by
  refine (parseMacroblock_decodes h ready).bind fun t u d mu => ?_
  have ready' := ready.after d
  obtain ⟨pos, fs, cur, tgt⟩ := ready'.position (a := u.work.mba) (by rw [mu, d.seq]; exact lt)
  unfold reconstructMacroblock
  simp only [pos]
  have first : (if hasIntra t then .ok () (afterIntra u)
      else predictMacroblock t (u.work.mba % u.seq.mbCols) (u.work.mba / u.seq.mbCols) u : Res Unit).Decodes u
        fun _ v => v.work.mba = u.work.mba := by
    split
    · exact Res.decodes_ok (State.decodesTo_afterIntra d.inStep) (afterIntra_mba u)
    · exact predictMacroblock_decodes t d.inStep tgt
  refine first.bind fun _ v e mv => ?_
  obtain ⟨gs, g⟩ := tgt.after e
  refine (codedBlocks_decodes
    (J := fun s => ∃ fs, s.Targets fs cur (u.work.mba % u.seq.mbCols) (u.work.mba / u.seq.mbCols))
    (fun b s h ⟨_, tg⟩ => reconstructBlock_decodes _ b h tg) (fun s t d ⟨_, tg⟩ => tg.after d) allBlocks v e.inStep
    ⟨gs, g⟩).bind fun _ w k mw => Res.decodes_ok (State.decodesTo_discardBlocks k.inStep) ?_
  rw [State.discardBlocks_work, mw, mv, mu]

/-! ### Skipped macroblocks and the loops -/

theorem skippedMacroblock_decodes {s : State} (h : s.br.InStep) (ready : s.Ready) {a : Nat}
    (lt : a < s.seq.mbCols * s.seq.mbRows) :
    (skippedMacroblock a s).Decodes s fun _ u => u.work.mba = s.work.mba := by
  obtain ⟨pos, fs, cur, tgt⟩ := ready.position lt
  unfold skippedMacroblock
  rcases ready.type with e | e | e <;> simp only [e]
  · exact Res.decodes_raised (.refl h)
  · have d0 : s.DecodesTo s.clearDcPred := State.decodesTo_work h _ id
    have d1 : s.clearDcPred.DecodesTo s.clearDcPred.clearForwardPmv :=
      State.decodesTo_work d0.inStep _ fun p => p.clearForward
    have d := d0.trans d1
    obtain ⟨gs, g⟩ := tgt.after d
    simp only [skipP, pos]
    exact ((predict_decodes d.inStep g false .forward _ _).mono fun _ _ _ p => by rw [p]; rfl).after d
  · have d : s.DecodesTo s.clearDcPred := State.decodesTo_work h _ id
    obtain ⟨gs, g⟩ := tgt.after d
    simp only [skipB, pos]
    exact ((predictB_decodes d.inStep g s.work.prevMotion).mono fun _ _ _ p => by rw [p]; rfl).after d

theorem skipRun_decodes (n : Nat) : ∀ (a : Nat) (s : State), s.br.InStep → s.Ready →
    (skipRun (s.seq.mbCols * s.seq.mbRows) n a s).Decodes s fun ended u => ended = false → u.work.mba = s.work.mba := by
  induction n with
  | zero => intro a s h _; exact Res.decodes_ok (.refl h) fun _ => rfl
  | succ n ih =>
    intro a s h ready
    unfold skipRun
    split
    · exact Res.decodes_ok (State.decodesTo_work h _ id) (by simp)
    · next lt =>
      refine (skippedMacroblock_decodes h ready (by omega)).bind fun _ u d p => ?_
      have := ih (a + 1) u d.inStep (ready.after d)
      rw [d.seq] at this
      exact this.mono fun _ _ _ q e => (q e).trans p

/-- The macroblock loop ends within its bound: the address grows with every turn (R238). -/
theorem macroblockLoop_decodes (fuel : Nat) : ∀ s : State, s.Decoding → s.Ready →
    s.seq.mbCols * s.seq.mbRows < fuel + s.work.mba → 0 < fuel →
    (macroblockLoop (s.seq.mbCols * s.seq.mbRows) fuel s).Decodes s fun _ _ => True := by
  induction fuel with
  | zero => intro _ _ _ _ h; omega
  | succ fuel ih =>
    intro s h ready bound _
    unfold macroblockLoop
    split
    · exact Res.decodes_ok (.refl h.reader) trivial
    · next lt =>
      refine (macroblock_decodes h ready (by omega)).bind fun _ u d mu => ?_
      split
      · exact Res.decodes_ok (State.decodesTo_work d.inStep _ id) trivial
      · split
        · exact Res.decodes_ok (.refl d.inStep) trivial
        · next lt' =>
          refine Res.Decodes.bind ((mbaIncrement_meets (d.decoding h)).decodes fun _ _ p => p.2) fun inc v e ⟨hi, hr⟩ => ?_
          have mv : v.work.mba = u.work.mba := by obtain ⟨n, rfl⟩ := hr; rfl
          have sv : v.seq = s.seq := e.seq.trans d.seq
          have skip := skipRun_decodes (inc - 1) (v.work.mba + 1) v e.inStep (ready.after (d.trans e))
          rw [sv] at skip
          refine skip.bind fun ended w g hw => ?_
          cases ended with
          | true => exact Res.decodes_ok (.refl g.inStep) trivial
          | false =>
            have mw := hw rfl
            simp only [Bool.false_eq_true, if_false]
            have step : w.DecodesTo (w.setMba (w.work.mba + inc)) := State.decodesTo_work g.inStep _ id
            have sw : (w.setMba (w.work.mba + inc)).seq = s.seq := g.seq.trans sv
            have := ih (w.setMba (w.work.mba + inc)) (step.decoding (g.decoding (e.decoding (d.decoding h))))
              (ready.after ((d.trans e).trans (g.trans step))) (by rw [sw, State.setMba_mba]; omega) (by omega)
            rw [sw] at this
            exact this.after step

theorem sliceQuant_decodes {s : State} (h : s.br.InStep) : (sliceQuant s).Decodes s fun _ _ => True := by
  unfold sliceQuant
  rw [State.getBits_eq h 5 (by norm_num)]
  have d : s.DecodesTo ((s.ahead 5).setQuantizerScale (BitVec.ofNat 5 (s.upcoming 0 5))) :=
    (s.decodesTo_ahead 5).trans (State.decodesTo_work (s.ahead_inStep 5) _ id)
  simp only
  split
  · exact Res.decodes_raised d
  · exact Res.decodes_ok d trivial

theorem State.skipExtra_decodes {s : State} (h : s.br.InStep) : s.skipExtra.Decodes s fun _ t => s.ReadsTo t := by
  obtain ⟨n, hn, -⟩ := exists_extraBytes s.br.source s.br.bitpos
  rw [State.skipExtra_eq h hn]
  exact Res.decodes_ok (s.decodesTo_ahead _) (s.readsTo_ahead _)

/-- `slice(total)` behind its start code, in a row from 1 on (R232 to R234). -/
theorem sliceBody_decodes {row : Nat} (hr : row ≠ 0) {s : State} (h : s.Decoding) (ready : s.Ready) :
    (sliceBody row (s.seq.mbCols * s.seq.mbRows) s).Decodes s fun _ _ => True := by
  have d0 : s.DecodesTo (sliceResets s) := State.decodesTo_work h.reader _ fun _ => Predictors.inRange_zero
  unfold sliceBody
  refine Res.Decodes.after d0 ?_
  refine (sliceQuant_decodes d0.inStep).bind fun _ u d _ => ?_
  refine (State.skipExtra_decodes d.inStep).bind fun _ v e _ => ?_
  refine Res.Decodes.bind ((mbaIncrement_meets ((d0.trans (d.trans e)).decoding h)).decodes fun _ _ p => p.2) fun inc w g _ => ?_
  rw [State.firstAddress, if_neg hr]
  have step : w.DecodesTo (w.setMba ((row - 1) * w.seq.mbCols + inc - 1)) := State.decodesTo_work g.inStep _ id
  have total := ((d0.trans d).trans (e.trans g)).trans step
  have := macroblockLoop_decodes (s.seq.mbCols * s.seq.mbRows + 1) _ (total.decoding h) (ready.after total)
    (by rw [total.seq]; omega) (by omega)
  rw [total.seq] at this
  exact this.after step

/-- Where a slice code lies, the source has not ended: the only start code of the fill is `0x000001B7`. -/
theorem startCode_in_fill (S : List Byte) {k : Nat} (hp : prefixAt S k) (past : S.length ≤ k) :
    streamBits S (8 * k) 32 = 0x000001B7 := by
  have key : ∀ j, j < 4 → streamBits [] (8 * j) 24 = 1 → streamBits [] (8 * j) 32 = 0x000001B7 := by decide
  rw [prefixAt, streamBits_past S _ _ (by omega)] at hp
  rw [streamBits_past S _ _ (by omega)]
  have e : (8 * k - 8 * S.length) % 32 = 8 * ((k - S.length) % 4) := by omega
  rw [e] at hp ⊢
  exact key _ (Nat.mod_lt _ (by norm_num)) hp

/-- The slice loop ends within its bound: each slice code begins before the end of the source (R230). -/
theorem pictureDataFrom_decodes (fuel : Nat) : ∀ s : State, s.Decoding → s.Ready →
    8 * s.br.source.length < fuel + s.br.bitpos → 0 < fuel →
    (pictureDataFrom (s.seq.mbCols * s.seq.mbRows) fuel s).Decodes s fun _ _ => True := by
  induction fuel with
  | zero => intro _ _ _ _ h; omega
  | succ fuel ih =>
    intro s h ready bound _
    obtain ⟨k, hk, -⟩ := exists_firstPrefix s.br.source s.br.bitpos
    unfold pictureDataFrom
    rw [State.align_eq h.reader hk, Res.bind_ok]
    have d : s.DecodesTo { s with br := Reader.atBit s.br.source (8 * k) } :=
      ⟨rfl, rfl, hk.1, le_rfl, id, fun fs e => ⟨fs, e, .refl fs, id⟩, id⟩
    generalize hs' : ({ s with br := Reader.atBit s.br.source (8 * k) } : State) = s' at d ⊢
    have pos : s'.br.bitpos = 8 * k := by rw [← hs']; rfl
    have src : s'.br.source = s.br.source := by rw [← hs']; rfl
    have code : s'.peekBits 32 = streamBits s.br.source (8 * k) 32 := by
      have := d.inStep.peek_aligned 32 le_rfl (by rw [pos]; omega)
      rw [pos, src] at this
      exact this
    refine Res.Decodes.after d ?_
    simp only [code]
    split
    · exact Res.decodes_ok (.refl d.inStep) trivial
    · next range =>
      have inside : k < s.br.source.length := by
        by_contra past
        have := startCode_in_fill s.br.source hk.2.1 (by omega)
        omega
      unfold sliceDecode
      rw [State.getBits_eq d.inStep 32 le_rfl]
      have get : s'.upcoming 0 32 = streamBits s.br.source (8 * k) 32 := by
        rw [State.upcoming, pos, src, Nat.add_zero]
      have e := s'.decodesTo_ahead 32
      have row : s'.upcoming 0 32 % 256 ≠ 0 := by rw [get]; omega
      have := sliceBody_decodes row ((d.trans e).decoding h) (ready.after (d.trans e))
      rw [(d.trans e).seq] at this
      simp only
      refine Res.Decodes.after e (this.bind fun ending u g _ => ?_)
      cases ending with
      | done => exact Res.decodes_ok (.refl g.inStep) trivial
      | sliceEnd =>
        have total := (d.trans e).trans g
        have far : s'.br.bitpos + 32 ≤ u.br.bitpos := g.onward
        have same : u.br.source = s.br.source := total.source
        have start : s.br.bitpos ≤ 8 * k := hk.1
        have go := ih u (total.decoding h) (ready.after total) (by rw [same]; omega) (by omega)
        rw [total.seq] at go
        exact go

end Sys2Proof.Machine
end

