-- ==== Sys2Proof/Laws/Header.lean ====
section
/-!
SUPPORT. The header parser: `State.HeaderTo` names everything that headers and their search may change, and each operation
from one field up to `nextHeader` stays within it; the search ends within its bound (42_header_parser.md;
70_reset_and_hazards.md R490).
-/

namespace Sys2Proof.Machine

/-- The frame store agrees with the sizes of a known sequence (10_state.md R41, R72). -/
def State.Sized (s : State) : Prop :=
  s.seq.seqKnown = true → ∃ fs, s.frames = some fs ∧ fs.width = s.seq.codedWidth ∧
    fs.height = s.seq.codedHeight ∧ s.seq.codedWidth = 16 * s.seq.mbCols ∧ s.seq.codedHeight = 16 * s.seq.mbRows

/-- How headers may change the state. -/
structure State.HeaderTo (s t : State) : Prop where
  only : t = { s with br := t.br, seq := t.seq, pic := t.pic, hpState := t.hpState, status := t.status, qi := t.qi
                      qn := t.qn, frames := t.frames, draws := t.draws }
  status : t.status = { s.status with evCount := t.status.evCount, events := t.status.events }
  counted : s.status.evCount = s.status.events.length → t.status.evCount = t.status.events.length
  reader : t.br = Reader.atBit s.br.source t.br.bitpos
  onward : s.br.bitpos ≤ t.br.bitpos
  draws : s.draws ≤ t.draws
  frames : (∀ fs, s.frames = some fs → fs.InOrder s.draws) → ∀ fs, t.frames = some fs → fs.InOrder t.draws
  allocated : (s.seq.seqKnown = true → s.frames ≠ none) → t.seq.seqKnown = true → t.frames ≠ none
  sized : s.Sized → t.Sized

theorem State.HeaderTo.inStep {s t : State} (h : s.HeaderTo t) : t.br.InStep := by
  have := h.reader
  rw [Reader.InStep]
  conv_rhs => rw [this]
  rw [Reader.atBit_source]
  exact this

theorem State.HeaderTo.source {s t : State} (h : s.HeaderTo t) : t.br.source = s.br.source := by
  rw [h.reader, Reader.atBit_source]

theorem State.HeaderTo.refl {s : State} (h : s.br.InStep) : s.HeaderTo s :=
  ⟨rfl, rfl, id, h, le_rfl, le_rfl, id, id, id⟩

theorem State.HeaderTo.trans {s t u : State} (h : s.HeaderTo t) (g : t.HeaderTo u) : s.HeaderTo u where
  only := by rw [g.only, h.only]
  status := by rw [g.status, h.status]
  counted e := g.counted (h.counted e)
  reader := by rw [g.reader, h.source]; rfl
  onward := h.onward.trans g.onward
  draws := h.draws.trans g.draws
  frames e := g.frames (h.frames e)
  allocated e := g.allocated (h.allocated e)
  sized e := g.sized (h.sized e)

theorem State.HeaderTo.roles {s t : State} (h : s.HeaderTo t) : t.roles = s.roles := by rw [h.only]
theorem State.HeaderTo.work {s t : State} (h : s.HeaderTo t) : t.work = s.work := by rw [h.only]
theorem State.HeaderTo.session {s t : State} (h : s.HeaderTo t) : t.session = s.session := by rw [h.only]
theorem State.HeaderTo.params {s t : State} (h : s.HeaderTo t) : t.params = s.params := by rw [h.only]
theorem State.HeaderTo.bench {s t : State} (h : s.HeaderTo t) : t.bench = s.bench := by rw [h.only]

/-- Reading alone. -/
theorem State.headerTo_ahead (s : State) (n : Nat) : s.HeaderTo (s.ahead n) :=
  ⟨rfl, rfl, id, rfl, by simp, le_rfl, id, id, id⟩

/-- A change of sequence registers that leaves `seq_known` and, while it is set, the sizes derived from it. -/
theorem State.headerTo_seq {s : State} (h : s.br.InStep) (q : SequenceRegs) (k : q.seqKnown = s.seq.seqKnown)
    (d : s.seq.seqKnown = true → q.codedWidth = s.seq.codedWidth ∧ q.codedHeight = s.seq.codedHeight ∧
      q.mbCols = s.seq.mbCols ∧ q.mbRows = s.seq.mbRows) : s.HeaderTo { s with seq := q } where
  only := rfl
  status := rfl
  counted := id
  reader := h
  onward := le_rfl
  draws := le_rfl
  frames := id
  allocated e := by simp only [k]; exact e
  sized e := by
    intro known
    have known' : s.seq.seqKnown = true := k ▸ known
    obtain ⟨d1, d2, d3, d4⟩ := d known'
    simp only [d1, d2, d3, d4]
    exact e known'

/-- A change of picture registers. -/
theorem State.headerTo_pic {s : State} (h : s.br.InStep) (p : PictureRegs) : s.HeaderTo { s with pic := p } :=
  ⟨rfl, rfl, id, h, le_rfl, le_rfl, id, id, id⟩

/-- A change of the matrices. -/
theorem State.headerTo_matrices {s : State} (h : s.br.InStep) (qi qn : Vector Byte 64) :
    s.HeaderTo { s with qi := qi, qn := qn } := ⟨rfl, rfl, id, h, le_rfl, le_rfl, id, id, id⟩

theorem State.headerTo_setHpState {s : State} (h : s.br.InStep) (v : HpState) : s.HeaderTo (s.setHpState v) :=
  ⟨rfl, rfl, id, h, le_rfl, le_rfl, id, id, id⟩

theorem State.headerTo_framingEvent {s : State} (h : s.br.InStep) (code : Nat) : s.HeaderTo (s.framingEvent code) :=
  ⟨rfl, rfl, fun e => by simp [State.framingEvent, e], h, le_rfl, le_rfl, id, id, id⟩

/-! ### Matrices -/

/-- The 64 entries of a matrix, and where the reader then stands: entry `i` is byte `i` of the stream. -/
theorem readMatrix_eq (l : List Nat) : ∀ (m : Vector Byte 64) (s : State), s.br.InStep →
    (readMatrix l m s).2 = s.ahead (8 * l.length) := by
  induction l with
  | nil => intro m s h; exact (State.ahead_zero h).symm
  | cons i rest ih =>
    intro m s h
    rw [readMatrix, State.getBits_eq h 8 (by norm_num), ih _ _ (State.ahead_inStep s 8), State.ahead_ahead]
    congr 1
    simp only [List.length_cons]
    ring

/-- The reader after one half of `loadMatrices`. -/
theorem loadMatrix_state (old default : Vector Byte 64) {s : State} (h : s.br.InStep) :
    (loadMatrix old default s).2 = s.ahead (if s.upcoming 0 1 = 1 then 1 + 8 * 64 else 1) := by
  unfold loadMatrix
  rw [State.getBits_eq h 1 (by norm_num)]
  split
  · rw [readMatrix_eq _ _ _ (State.ahead_inStep s 1), State.ahead_ahead, List.length_range]
  · rfl

/-- The entries that the stream brings over a matrix: number `i` at raster position `ZIGZAG[i]`, the others kept (R210). -/
theorem readMatrix_get (n : Nat) : ∀ (k : Nat) (m : Vector Byte 64) (s : State), s.Decoding → k + n ≤ 64 →
    ∀ i, i < 64 → (readMatrix (List.range' k n) m s).1[s.zigzag i]? =
      if k ≤ i ∧ i < k + n then some (BitVec.ofNat 8 (s.upcoming (8 * (i - k)) 8)) else m[s.zigzag i]? := by
  induction n with
  | zero => intro k m s _ _ i _; rw [if_neg (by omega)]; rfl
  | succ n ih =>
    intro k m s h le i hi
    rw [List.range'_succ, readMatrix, State.getBits_eq h.reader 8 (by norm_num)]
    have d : (s.ahead 8).Decoding := ⟨s.ahead_inStep 8, h.params⟩
    have z : (s.ahead 8).zigzag = s.zigzag := rfl
    have r := ih (k + 1) (m.setIfInBounds (s.zigzag k) (BitVec.ofNat 8 (s.upcoming 0 8))) (s.ahead 8) d (by omega) i hi
    rw [z] at r
    rw [r, State.ahead_upcoming]
    by_cases e : i = k
    · subst e
      rw [if_neg (by omega), if_pos (by omega), Vector.getElem?_setIfInBounds, if_pos rfl, if_pos (s.zigzag_lt i), Nat.sub_self]
    · by_cases b : k ≤ i ∧ i < k + (n + 1)
      · rw [if_pos (by omega), if_pos b]
        congr 3
        omega
      · rw [if_neg (by omega), if_neg b, Vector.getElem?_setIfInBounds,
          if_neg fun c => e (State.zigzag_inj h.params hi (by omega) c.symm)]

/-- One half of `loadMatrices` (R210): the matrix it leaves, and the bits it takes. -/
theorem loadMatrix_eq (old default : Vector Byte 64) {s : State} (h : s.Decoding) :
    ∃ m, s.LeavesMatrix 0 default m ∧ loadMatrix old default s = (m, s.ahead (s.matrixBits 0)) := by
  refine ⟨(loadMatrix old default s).1, fun i hi => ?_, Prod.ext rfl ?_⟩
  · unfold loadMatrix
    rw [State.getBits_eq h.reader 1 (by norm_num)]
    split
    · have r := readMatrix_get 64 0 old (s.ahead 1) ⟨s.ahead_inStep 1, h.params⟩ (by omega) i hi
      rw [← List.range_eq_range'] at r
      refine r.trans ?_
      rw [if_pos (by omega), State.ahead_upcoming]
      rfl
    · rfl
  · rw [loadMatrix_state old default h.reader]
    unfold State.matrixBits
    split <;> rfl

/-- `loadMatrices()` (R210). -/
theorem loadMatrices_eq {s : State} (h : s.Decoding) : ∃ qi qn, s.LeavesMatrix 0 s.params.defIntra qi ∧
    s.LeavesMatrix (s.matrixBits 0) (Vector.replicate 64 16) qn ∧
    loadMatrices s = { s.ahead (s.matrixBits 0 + s.matrixBits (s.matrixBits 0)) with qi := qi, qn := qn } := by
  obtain ⟨qi, li, ei⟩ := loadMatrix_eq s.qi s.params.defIntra h
  have d : State.Decoding { s.ahead (s.matrixBits 0) with qi := qi } := ⟨s.ahead_inStep _, h.params⟩
  obtain ⟨qn, ln, en⟩ := loadMatrix_eq s.qn defInter d
  have up : ∀ o n, State.upcoming { s.ahead (s.matrixBits 0) with qi := qi } o n = s.upcoming (s.matrixBits 0 + o) n :=
    fun o n => State.ahead_upcoming s (s.matrixBits 0) o n
  refine ⟨qi, qn, li, fun i hi => ?_, ?_⟩
  · have r := ln i hi
    simp only [up, Nat.add_zero, Nat.zero_add] at r
    rw [show s.matrixBits 0 + 1 + 8 * i = s.matrixBits 0 + (1 + 8 * i) by omega]
    exact r
  · have b : State.matrixBits { s.ahead (s.matrixBits 0) with qi := qi } 0 = s.matrixBits (s.matrixBits 0) := by
      rw [State.matrixBits, up]
      rfl
    rw [b] at en
    rw [← State.ahead_ahead, loadMatrices, ei]
    show (match loadMatrix s.qn defInter { s.ahead (s.matrixBits 0) with qi := qi } with
      | (qn, s) => { s with qn := qn }) = _
    rw [en]
    rfl

theorem loadMatrices_headerTo {s : State} (h : s.br.InStep) : s.HeaderTo (loadMatrices s) := by
  unfold loadMatrices
  have e1 := loadMatrix_state s.qi s.params.defIntra h
  generalize loadMatrix s.qi s.params.defIntra s = r1 at e1 ⊢
  obtain ⟨q1, s1⟩ := r1
  simp only at e1
  subst e1
  simp only
  generalize (if s.upcoming 0 1 = 1 then 1 + 8 * 64 else 1) = n1
  have d1 : s.HeaderTo { s.ahead n1 with qi := q1 } :=
    (s.headerTo_ahead n1).trans (State.headerTo_matrices (s.ahead_inStep n1) q1 s.qn)
  have e2 := loadMatrix_state ({ s.ahead n1 with qi := q1 } : State).qn defInter d1.inStep
  generalize loadMatrix ({ s.ahead n1 with qi := q1 } : State).qn defInter { s.ahead n1 with qi := q1 } = r2 at e2 ⊢
  obtain ⟨q2, s2⟩ := r2
  simp only at e2
  subst e2
  simp only
  have d2 := State.headerTo_ahead { s.ahead n1 with qi := q1 } (if State.upcoming { s.ahead n1 with qi := q1 } 0 1 = 1 then 1 + 8 * 64 else 1)
  exact (d1.trans d2).trans (State.headerTo_matrices d2.inStep q1 q2)

/-! ### Headers -/

/-- The outcome of a header operation: it goes on within the relation, or raises within it, and never stops. -/
def Res.Heads {α : Type} (x : Res α) (s : State) (P : α → State → Prop) : Prop :=
  x.Meets (fun a t => s.HeaderTo t ∧ P a t) (fun _ _ t => s.HeaderTo t)

theorem Res.Heads.bind {α β : Type} {x : Res α} {f : α → State → Res β} {s : State} {P : α → State → Prop}
    {R : β → State → Prop} (hx : x.Heads s P) (hf : ∀ a t, s.HeaderTo t → P a t → (f a t).Heads t R) :
    (x.bind f).Heads s R :=
  Res.Meets.bind hx fun a t ⟨d, p⟩ =>
    (hf a t d p).mono (fun _ _ ⟨e, r⟩ => ⟨d.trans e, r⟩) (fun _ _ _ e => d.trans e)

theorem Res.Heads.mono {α : Type} {x : Res α} {s : State} {P Q : α → State → Prop} (hx : x.Heads s P)
    (h : ∀ a t, s.HeaderTo t → P a t → Q a t) : x.Heads s Q :=
  Res.Meets.mono hx (fun a t ⟨d, p⟩ => ⟨d, h a t d p⟩) (fun _ _ _ d => d)

theorem Res.Heads.after {α : Type} {x : Res α} {s t : State} {P : α → State → Prop} (d : s.HeaderTo t)
    (hx : x.Heads t P) : x.Heads s P :=
  Res.Meets.mono hx (fun _ _ ⟨e, p⟩ => ⟨d.trans e, p⟩) (fun _ _ _ e => d.trans e)

theorem Res.heads_ok {α : Type} {a : α} {s t : State} {P : α → State → Prop} (d : s.HeaderTo t) (p : P a t) :
    (Res.ok a t).Heads s P := ⟨d, p⟩

theorem Res.heads_raised {α : Type} {c : Cause} {i : Nat} {s t : State} {P : α → State → Prop} (d : s.HeaderTo t) :
    (Res.raised c i t : Res α).Heads s P := d

/-- The first 62 bits of a sequence header, each field in its register (R208; 30_encoding.md R123). -/
theorem sequenceFields_eq {s : State} (h : s.br.InStep) :
    sequenceFields s =
      { s.ahead 62 with
        seq :=
          { s.seq with
            horizontalSize := BitVec.ofNat 12 (s.upcoming 0 12)
            verticalSize := BitVec.ofNat 12 (s.upcoming 12 12)
            aspectRatioCode := BitVec.ofNat 4 (s.upcoming 24 4)
            frameRateCode := BitVec.ofNat 4 (s.upcoming 28 4)
            bitRateValue := BitVec.ofNat 18 (s.upcoming 32 18)
            vbvBufferSize := BitVec.ofNat 10 (s.upcoming 51 10)
            constrainedParametersFlag := s.upcoming 61 1 == 1 } } := by
  unfold sequenceFields
  simp only [State.getBits_eq h 12 (by norm_num), State.getBits_eq (State.ahead_inStep _ _) 12 (by norm_num),
    State.getBits_eq (State.ahead_inStep _ _) 4 (by norm_num), State.getBits_eq (State.ahead_inStep _ _) 18 (by norm_num),
    State.getBits_eq (State.ahead_inStep _ _) 10 (by norm_num), State.getBits_eq (State.ahead_inStep _ _) 1 (by norm_num),
    State.consumeBits_eq (State.ahead_inStep _ _) 1 (by norm_num), State.ahead_ahead, State.ahead_upcoming]
  rfl

theorem codedSize_mod (n : Nat) : codedSize n % 16 = 0 := by
  unfold codedSize
  omega

theorem codedSize_range {n : Nat} (pos : 0 < n) (lt : n < 4096) : 16 ≤ codedSize n ∧ codedSize n ≤ 4096 := by
  unfold codedSize
  omega

/-- Looking at a matrix half, its length or the fields from further on (R208, R210). -/
theorem State.leavesMatrix_ahead {s : State} {n o : Nat} {d m : Vector Byte 64} :
    (s.ahead n).LeavesMatrix o d m ↔ s.LeavesMatrix (n + o) d m := by
  unfold State.LeavesMatrix
  simp only [State.ahead_upcoming, Nat.add_assoc]
  rfl

theorem State.matrixBits_ahead {s : State} {n o : Nat} : (s.ahead n).matrixBits o = s.matrixBits (n + o) := by
  simp only [State.matrixBits, State.ahead_upcoming]

/-- `sequenceHeader()` once the sequence is known (R209, R210): 62 bits passed over, both matrices left as the flags say. -/
theorem sequenceHeader_repeated {s : State} (h : s.Decoding) (known : s.seq.seqKnown = true) :
    ∃ qi qn, s.LeavesMatrix 62 s.params.defIntra qi ∧
      s.LeavesMatrix (62 + s.matrixBits 62) (Vector.replicate 64 16) qn ∧
      sequenceHeader s = .ok () { s.ahead (62 + s.matrixBits 62 + s.matrixBits (62 + s.matrixBits 62)) with
        qi := qi, qn := qn } := by
  obtain ⟨qi, qn, a, b, e⟩ := loadMatrices_eq (s := s.ahead 62) ⟨s.ahead_inStep _, h.params⟩
  rw [State.leavesMatrix_ahead] at a b
  simp only [State.matrixBits_ahead, Nat.add_zero] at a b e
  refine ⟨qi, qn, a, b, ?_⟩
  rw [sequenceHeader, if_pos known, State.consumeBits_eq h.reader 32 le_rfl,
    State.consumeBits_eq (s.ahead_inStep 32) 30 (by norm_num), State.ahead_ahead, e, State.ahead_ahead, ← Nat.add_assoc]

theorem codedSize_roundUp (n : Nat) : codedSize n = roundUp16 n := by
  unfold codedSize roundUp16
  split <;> omega

/-- `sequenceHeader()` while no sequence is known (R208, R216), up to its matrices. -/
theorem sequenceHeader_first {s : State} (h : s.br.InStep) (unknown : s.seq.seqKnown = false) {width height : Nat}
    (ew : width = s.upcoming 0 12) (eh : height = s.upcoming 12 12) :
    sequenceHeader s =
      if width = 0 ∨ height = 0 then
        .raised .seqParam (width * 2 ^ 12 + height) { s.ahead 62 with seq := s.sequenceRegs 0 }
      else if (roundUp16 width, roundUp16 height) ∈ s.allocDenied then
        .raised .alloc (roundUp16 width * 2 ^ 16 + roundUp16 height)
          { s.ahead 62 with seq := { (s.sequenceRegs 0).known with seqKnown := false } }
      else
        .ok () (loadMatrices
          { s.ahead 62 with
            seq := (s.sequenceRegs 0).known
            frames := some ⟨roundUp16 width, roundUp16 height, s.draws, []⟩
            draws := s.draws + 1 }) := by
  have f : sequenceFields s = { s.ahead 62 with seq := s.sequenceRegs 0 } := by
    rw [sequenceFields_eq h]
    simp only [State.sequenceRegs, Nat.zero_add]
  have e1 : (s.sequenceRegs 0).horizontalSize.toNat = width := ew ▸ Nat.mod_eq_of_lt (s.upcoming_lt 0 12)
  have e2 : (s.sequenceRegs 0).verticalSize.toNat = height := eh ▸ Nat.mod_eq_of_lt (s.upcoming_lt 12 12)
  have z1 : (s.sequenceRegs 0).horizontalSize = 0 ↔ width = 0 := by
    rw [← e1]; exact ⟨fun e => by rw [e]; rfl, fun e => BitVec.eq_of_toNat_eq e⟩
  have z2 : (s.sequenceRegs 0).verticalSize = 0 ↔ height = 0 := by
    rw [← e2]; exact ⟨fun e => by rw [e]; rfl, fun e => BitVec.eq_of_toNat_eq e⟩
  rw [sequenceHeader, if_neg (by simp [unknown]), firstSequenceHeader, f]
  simp only [z1, z2, e1, e2]
  split
  · rfl
  · have dz : deriveSizes ({ s.ahead 62 with seq := s.sequenceRegs 0 } : State) =
        { s.ahead 62 with seq := { (s.sequenceRegs 0).known with seqKnown := s.seq.seqKnown } } := by
      simp only [deriveSizes, codedSize_roundUp]
      rfl
    rw [dz]
    simp only [State.allocate, State.allocOk, SequenceRegs.known, e1, e2, State.setSeqKnown, State.ahead, unknown]
    by_cases m : (roundUp16 width, roundUp16 height) ∈ s.allocDenied <;> simp [m]

/-- `sequenceHeader()` (R208 to R210): it never stops. -/
theorem sequenceHeader_heads {s : State} (h : s.br.InStep) :
    (sequenceHeader s).Heads s fun _ _ => True := by
  unfold sequenceHeader
  split
  · rw [State.consumeBits_eq h 32 le_rfl, State.consumeBits_eq (s.ahead_inStep 32) 30 (by norm_num), State.ahead_ahead]
    have d := (s.headerTo_ahead 62).trans (loadMatrices_headerTo (s.ahead_inStep 62))
    exact Res.heads_ok d trivial
  · next unknown =>
    have unknown : s.seq.seqKnown = false := by simpa using unknown
    unfold firstSequenceHeader
    have d : s.HeaderTo (sequenceFields s) := by
      rw [sequenceFields_eq h]
      exact (s.headerTo_ahead 62).trans (State.headerTo_seq (s.ahead_inStep 62) _ rfl fun _ => ⟨rfl, rfl, rfl, rfl⟩)
    have unknown' : (sequenceFields s).seq.seqKnown = false := by rw [sequenceFields_eq h]; exact unknown
    generalize sequenceFields s = u at d unknown' ⊢
    simp only
    split
    · exact Res.heads_raised d
    · next sizes =>
      push Not at sizes
      have d2 : u.HeaderTo (deriveSizes u) :=
        State.headerTo_seq d.inStep _ rfl fun e => by rw [unknown'] at e; exact absurd e (by decide)
      unfold State.allocate
      split
      · have d3 : (deriveSizes u).HeaderTo
            ({ deriveSizes u with
                frames := some ⟨(deriveSizes u).seq.codedWidth, (deriveSizes u).seq.codedHeight, u.draws, []⟩
                draws := u.draws + 1 }.setSeqKnown true) := by
          have hw := codedSize_range (n := u.seq.horizontalSize.toNat) (by
            have := sizes.1; rcases Nat.eq_zero_or_pos u.seq.horizontalSize.toNat with e | e
            · exact absurd (BitVec.eq_of_toNat_eq e) this
            · exact e) (by have := u.seq.horizontalSize.isLt; omega)
          have hv := codedSize_range (n := u.seq.verticalSize.toNat) (by
            have := sizes.2; rcases Nat.eq_zero_or_pos u.seq.verticalSize.toNat with e | e
            · exact absurd (BitVec.eq_of_toNat_eq e) this
            · exact e) (by have := u.seq.verticalSize.isLt; omega)
          refine ⟨rfl, rfl, id, d2.inStep, le_rfl, Nat.le_succ _, fun _ fs e => ?_, fun _ _ => by simp [State.setSeqKnown],
            fun _ _ => ⟨_, rfl, rfl, rfl, ?_, ?_⟩⟩
          · simp only [State.setSeqKnown, Option.some.injEq] at e
            subst e
            exact ⟨⟨codedSize_mod _, hw⟩, ⟨codedSize_mod _, hv⟩, Nat.lt_succ_self _, rfl, by simp⟩
          · have := codedSize_mod u.seq.horizontalSize.toNat
            simp only [State.setSeqKnown, deriveSizes]
            omega
          · have := codedSize_mod u.seq.verticalSize.toNat
            simp only [State.setSeqKnown, deriveSizes]
            omega
        have d4 := ((d.trans d2).trans d3).trans (loadMatrices_headerTo d3.inStep)
        exact Res.heads_ok d4 trivial
      · exact Res.heads_raised (d.trans d2)

theorem gopHeader_headerTo {s : State} (h : s.br.InStep) : s.HeaderTo (gopHeader s) := by
  rw [gopHeader, State.consumeBits_eq h 27 (by norm_num)]
  exact s.headerTo_ahead 27

theorem forwardFields_eq {s : State} (h : s.br.InStep) :
    forwardFields s =
      { s.ahead 4 with
        pic := { s.pic with fullPelForward := s.upcoming 0 1 == 1, forwardCode := BitVec.ofNat 3 (s.upcoming 1 3) } } := by
  simp only [forwardFields, State.getBits_eq h 1 (by norm_num), State.getBits_eq (State.ahead_inStep _ _) 3 (by norm_num),
    State.ahead_ahead, State.ahead_upcoming]
  rfl

theorem backwardFields_eq {s : State} (h : s.br.InStep) :
    backwardFields s =
      { s.ahead 4 with
        pic := { s.pic with fullPelBackward := s.upcoming 0 1 == 1, backwardCode := BitVec.ofNat 3 (s.upcoming 1 3) } } := by
  simp only [backwardFields, State.getBits_eq h 1 (by norm_num), State.getBits_eq (State.ahead_inStep _ _) 3 (by norm_num),
    State.ahead_ahead, State.ahead_upcoming]
  rfl

/-- The fixed fields of a picture header, each in its register (R212; 30_encoding.md R125). -/
theorem pictureFields_eq {s : State} (h : s.br.InStep) :
    pictureFields s =
      { s.ahead (pictureFieldBits (s.upcoming 10 3)) with pic := s.pictureRegs 0 } := by
  have i : ∀ n (p : PictureRegs), ({ s.ahead n with pic := p } : State).br.InStep := fun n _ => State.ahead_inStep s n
  have step : ∀ p : PictureRegs,
      State.consumeBits ({ s.ahead (10 + 3) with pic := p } : State) 16 = { s.ahead 29 with pic := p } := by
    intro p
    rw [State.consumeBits_eq (s := { s.ahead (10 + 3) with pic := p }) (i 13 p) 16 (by norm_num)]
    simp [State.ahead, Nat.add_assoc]
  unfold pictureFields
  simp only [State.consumeBits_eq h 10 (by norm_num), State.getBits_eq (State.ahead_inStep _ _) 3 (by norm_num),
    State.ahead_ahead, State.ahead_upcoming, Nat.add_zero]
  simp only [step]
  by_cases e2 : s.upcoming 10 3 = 2
  · rw [if_neg (by omega), if_pos (Or.inl e2), forwardFields_eq (i 29 _)]
    simp [State.ahead, State.upcoming, pictureFieldBits, State.pictureRegs, Nat.add_assoc] at e2 ⊢
    simp [e2]
  · by_cases e3 : s.upcoming 10 3 = 3
    · rw [if_pos e3, if_pos (Or.inr e3), forwardFields_eq (i 29 _), backwardFields_eq]
      swap
      · exact State.ahead_inStep _ _
      simp [State.ahead, State.upcoming, pictureFieldBits, State.pictureRegs, Nat.add_assoc] at e3 ⊢
      simp [e3]
    · rw [if_neg e3, if_neg (by omega)]
      simp [State.ahead, State.upcoming, pictureFieldBits, State.pictureRegs] at e2 e3 ⊢
      simp [e2, e3]

theorem pictureFields_headerTo {s : State} (h : s.br.InStep) : s.HeaderTo (pictureFields s) := by
  rw [pictureFields_eq h]
  exact (s.headerTo_ahead _).trans (State.headerTo_pic (State.ahead_inStep _ _) _)

/-- `pictureHeader()` (R212): it never stops and never raises. -/
theorem pictureHeader_heads {s : State} (h : s.br.InStep) : (pictureHeader s).Heads s fun _ _ => True := by
  have d := pictureFields_headerTo h
  obtain ⟨n, hn, -⟩ := exists_extraBytes (pictureFields s).br.source (pictureFields s).br.bitpos
  rw [pictureHeader, State.skipExtra_eq d.inStep hn]
  exact Res.heads_ok (d.trans (State.headerTo_ahead _ _)) trivial

/-! ### The search -/

/-- What a search for a header leaves in `HP_STATE` (R204, R206). -/
def HeaderEnd.parser (e : HeaderEnd) : HpState :=
  match e with
  | .picture => .pictureReady
  | .endOfSequence => .sequenceEnded

/-- The search loop ends within its bound: every header and every event begins before the end of the source (R200). -/
theorem nextHeaderFrom_heads (fuel : Nat) : ∀ s : State, s.br.InStep → 8 * s.br.source.length < fuel + s.br.bitpos →
    0 < fuel → (nextHeaderFrom fuel s).Heads s fun e t => t.hpState = e.parser := by
  induction fuel with
  | zero => intro _ _ _ h; omega
  | succ fuel ih =>
    intro s h bound _
    obtain ⟨k, hk, -⟩ := exists_firstPrefix s.br.source s.br.bitpos
    have start : s.br.bitpos ≤ 8 * k := hk.1
    unfold nextHeaderFrom resynchronise
    rw [State.align_eq h hk, Res.bind_ok]
    have d : s.HeaderTo { s with br := Reader.atBit s.br.source (8 * k) } :=
      ⟨rfl, rfl, id, rfl, hk.1, le_rfl, id, id, id⟩
    generalize hs' : ({ s with br := Reader.atBit s.br.source (8 * k) } : State) = s' at d ⊢
    have pos : s'.br.bitpos = 8 * k := by rw [← hs']; rfl
    have src : s'.br.source = s.br.source := by rw [← hs']; rfl
    have code : s'.upcoming 0 32 = streamBits s.br.source (8 * k) 32 := by
      rw [State.upcoming, pos, src, Nat.add_zero]
    refine Res.Heads.after d (Res.Heads.after (s'.headerTo_ahead 32) ?_)
    rw [State.getBits_eq d.inStep 32 le_rfl]
    simp only [code]
    have inside : streamBits s.br.source (8 * k) 32 ≠ 0x000001B7 → k < s.br.source.length := by
      intro ne
      by_contra past
      exact ne (startCode_in_fill s.br.source hk.2.1 (by omega))
    -- the turns that go on with the search
    have next : ∀ u : State, (s'.ahead 32).HeaderTo u → streamBits s.br.source (8 * k) 32 ≠ 0x000001B7 →
        (nextHeaderFrom fuel u).Heads u fun e t => t.hpState = e.parser := by
      intro u g ne
      have far : s'.br.bitpos + 32 ≤ u.br.bitpos := g.onward
      have same : u.br.source = s.br.source := g.source.trans src
      have := inside ne
      exact ih u g.inStep (by rw [same]; omega) (by omega)
    have i := s'.ahead_inStep 32
    split
    · next e =>
      refine (sequenceHeader_heads i).bind fun _ u g _ => ?_
      have g2 := State.headerTo_setHpState g.inStep .sequenceSeen
      exact Res.Heads.after g2 (next _ (g.trans g2) (by rw [e]; decide))
    · split
      · next e =>
        have g := gopHeader_headerTo i
        have g2 := State.headerTo_setHpState g.inStep .gopSeen
        exact Res.Heads.after (g.trans g2) (next _ (g.trans g2) (by rw [e]; decide))
      · split
        · refine (pictureHeader_heads i).bind fun _ u g _ => ?_
          exact Res.heads_ok (State.headerTo_setHpState g.inStep _) rfl
        · split
          · exact Res.heads_ok (State.headerTo_setHpState i _) rfl
          · next ne =>
            have g := State.headerTo_framingEvent i (streamBits s.br.source (8 * k) 32)
            exact Res.Heads.after g (next _ g ne)

/-- `nextHeader()` (R200) ends at a picture or at a sequence end code, or raises. -/
theorem nextHeader_heads {s : State} (h : s.br.InStep) : (nextHeader s).Heads s fun e t => t.hpState = e.parser :=
  nextHeaderFrom_heads _ s h (by simp only [Reader.loopBound]; omega) (by simp only [Reader.loopBound]; omega)

end Sys2Proof.Machine
end

