-- ==== Sys2Proof/Laws/Invariants.lean ====
section
/-!
SUPPORT. How the parts of a step keep `StepInv` and `KernelInv`: picture data, headers, faults, results, and the body of
`CMD_DECODE_NEXT` (70_reset_and_hazards.md R489, R490).
-/

namespace Sys2Proof.Machine

/-! ### What keeps `StepInv` -/

theorem StepInv.decodesTo {s t : State} (h : StepInv s) (d : s.DecodesTo t) : StepInv t where
  reader := d.inStep
  params := by rw [d.params]; exact h.params
  roles := by rw [d.roles]; exact h.roles
  frames := by
    intro gs e
    cases hf : s.frames with
    | none => rw [d.noFrames hf] at e; exact absurd e (by simp)
    | some fs =>
      obtain ⟨ks, ek, -, ok⟩ := d.frames fs hf
      rw [ek, Option.some.injEq] at e
      exact e ▸ ok (h.frames fs hf)
  allocated := by
    intro e
    rw [d.seq] at e
    cases hf : s.frames with
    | none => exact absurd hf (h.allocated e)
    | some fs =>
      obtain ⟨ks, ek, -⟩ := d.frames fs hf
      rw [ek]
      simp
  eventCount := by rw [d.status]; exact h.eventCount
  message := by rw [d.status]; exact h.message
  cause := by rw [d.status]; exact h.cause
  predictors := d.predictors h.predictors

theorem StepInv.headerTo {s t : State} (h : StepInv s) (d : s.HeaderTo t) : StepInv t where
  reader := d.inStep
  params := by rw [d.params]; exact h.params
  roles := by rw [d.roles]; exact h.roles
  frames := d.frames h.frames
  allocated := d.allocated h.allocated
  eventCount := d.counted h.eventCount
  message := by rw [d.status]; exact h.message
  cause := by rw [d.status]; exact h.cause
  predictors := by rw [d.work]; exact h.predictors

/-- A fault or a refused command keeps it (60_exceptions.md R445, R447). -/
theorem StepInv.recordFault {s : State} (h : StepInv s) (c : Cause) (info : Nat) : StepInv (s.recordFault c info) where
  reader := h.reader
  params := h.params
  roles := h.roles
  frames fs e := (h.frames fs e).later (Nat.le_succ _)
  allocated := h.allocated
  eventCount := h.eventCount
  message := ⟨faultText_length _, faultText_ne_zero _⟩
  cause := ⟨c.code_range.2, by
    constructor
    · exact fun _ => c.code_range.1
    · exact fun _ => rfl⟩
  predictors := h.predictors

theorem StepInv.faultEntry {s : State} (h : StepInv s) (c : Cause) (info : Nat) :
    StepInv (Machine.faultEntry c info s) :=
  { h.recordFault c info with }

/-- What the rules that decode rely on. -/
theorem StepInv.decoding {s : State} (h : StepInv s) : s.Decoding := ⟨h.reader, h.params⟩

/-- A change of state that `StepInv` does not speak of. -/
theorem StepInv.congr {s t : State} (h : StepInv s) (br : t.br = s.br) (params : t.params = s.params) (roles : t.roles = s.roles)
    (frames : t.frames = s.frames) (seq : t.seq.seqKnown = s.seq.seqKnown) (evCount : t.status.evCount = s.status.evCount)
    (events : t.status.events = s.status.events) (errstr : t.status.errstr = s.status.errstr)
    (fault : t.status.fault = s.status.fault) (cause : t.status.faultCause = s.status.faultCause)
    (pmv : t.work.pmv = s.work.pmv) (draws : t.draws = s.draws) : StepInv t where
  reader := by rw [br]; exact h.reader
  params := by rw [params]; exact h.params
  roles := by rw [roles]; exact h.roles
  frames := by rw [frames, draws]; exact h.frames
  allocated := by rw [frames, seq]; exact h.allocated
  eventCount := by rw [evCount, events]; exact h.eventCount
  message := by rw [errstr]; exact h.message
  cause := by rw [fault, cause]; exact h.cause
  predictors := by rw [pmv]; exact h.predictors

theorem StepInv.deliver {s : State} (h : StepInv s) (v : Result) : StepInv (s.deliver v) :=
  h.congr rfl rfl rfl rfl rfl rfl rfl rfl rfl rfl rfl rfl

theorem StepInv.ahead {s : State} (h : StepInv s) (n : Nat) : StepInv (s.ahead n) := h.decodesTo (s.decodesTo_ahead n)

theorem StepInv.consumeBits {s : State} (h : StepInv s) (n : Nat) (hn : n ≤ 32) : StepInv (s.consumeBits n) := by
  rw [State.consumeBits_eq h.reader n hn]
  exact h.ahead n

theorem StepInv.framingEvent {s : State} (h : StepInv s) (code : Nat) : StepInv (s.framingEvent code) :=
  h.headerTo (State.headerTo_framingEvent h.reader code)

theorem StepInv.setHpState {s : State} (h : StepInv s) (v : HpState) : StepInv (s.setHpState v) :=
  h.headerTo (State.headerTo_setHpState h.reader v)

/-- A header operation, run as one step, keeps the invariant. -/
theorem StepInv.finishHeader {α : Type} {x : Res α} {s t : State} {P : α → State → Prop} {deliver : α → State → State}
    (h : StepInv s) (hx : x.Heads s P) (hd : ∀ a u, StepInv u → StepInv (deliver a u))
    (e : x.finish deliver = .next t) : StepInv t := by
  cases x with
  | ok a u =>
    simp only [Res.finish_ok, Host.Outcome.next.injEq] at e
    exact e ▸ hd a u (h.headerTo hx.1)
  | raised c i u =>
    simp only [Res.finish_raised, Host.Outcome.next.injEq] at e
    exact e ▸ (h.headerTo hx).faultEntry c i
  | stop f => simp at e

/-! ### Operations run alone

A single step may stop where the kernel's own sequence never runs it; where it goes on, it stays within
`State.DecodesTo`. -/

/-- Whatever the operation answers, it stays within the relation. -/
def Res.Keeps {α : Type} (x : Res α) (s : State) : Prop :=
  match x with
  | .ok _ t => s.DecodesTo t
  | .raised _ _ t => s.DecodesTo t
  | .stop _ => True

theorem Res.Decodes.keeps {α : Type} {x : Res α} {s : State} {P : α → State → Prop} (h : x.Decodes s P) :
    x.Keeps s := by
  cases x with
  | ok a t => exact h.1
  | raised c i t => exact h
  | stop e => trivial

theorem Res.Keeps.bind {α β : Type} {x : Res α} {f : α → State → Res β} {s : State} (hx : x.Keeps s)
    (hf : ∀ a t, s.DecodesTo t → (f a t).Keeps t) : (x.bind f).Keeps s := by
  cases x with
  | ok a t =>
    have := hf a t hx
    simp only [Res.bind_ok]
    revert this
    cases f a t with
    | ok b u => exact fun g => State.DecodesTo.trans hx g
    | raised c i u => exact fun g => State.DecodesTo.trans hx g
    | stop e => exact id
  | raised c i t => exact hx
  | stop e => trivial

theorem Res.Keeps.after {α : Type} {x : Res α} {s t : State} (d : s.DecodesTo t) (hx : x.Keeps t) : x.Keeps s := by
  cases x with
  | ok a u => exact d.trans hx
  | raised c i u => exact d.trans hx
  | stop e => trivial

theorem Res.keeps_ok {α : Type} {a : α} {s t : State} (d : s.DecodesTo t) : (Res.ok a t).Keeps s := d

/-- An operation that keeps the relation, run as one step, keeps the invariant. -/
theorem StepInv.finish {α : Type} {x : Res α} {s t : State} {deliver : α → State → State} (h : StepInv s)
    (k : x.Keeps s) (hd : ∀ a u, StepInv u → StepInv (deliver a u)) (e : x.finish deliver = .next t) : StepInv t := by
  cases x with
  | ok a u =>
    simp only [Res.finish_ok, Host.Outcome.next.injEq] at e
    exact e ▸ hd a u (h.decodesTo k)
  | raised c i u =>
    simp only [Res.finish_raised, Host.Outcome.next.injEq] at e
    exact e ▸ (h.decodesTo k).faultEntry c i
  | stop f => simp at e

theorem predict_keeps {s : State} (h : s.br.InStep) (avg : Bool) (ref : Direction) (mbX mbY : Nat) (dx dy : Int) :
    (predict avg ref mbX mbY dx dy s).Keeps s := by
  cases hf : s.frames with
  | none => rw [predict, State.withTarget, hf]; trivial
  | some fs =>
    cases hc : s.roles.cur with
    | none => rw [predict, State.withTarget, hf, hc]; trivial
    | some cur =>
      by_cases fits : fs.hasMacroblock mbX mbY = true
      · have := fits
        simp only [FrameStore.hasMacroblock, decide_eq_true_eq] at this
        exact (predict_decodes h ⟨hf, hc, this.1, this.2⟩ avg ref dx dy).keeps
      · rw [predict, State.withTarget, hf, hc]
        simp only [fits]
        trivial

theorem tile_keeps {s : State} (h : s.br.InStep) (intra : Bool) (b : BlockNo) (mbX mbY : Nat) :
    (tile intra b mbX mbY s).Keeps s := by
  cases hf : s.frames with
  | none => rw [tile, State.withTarget, hf]; trivial
  | some fs =>
    cases hc : s.roles.cur with
    | none => rw [tile, State.withTarget, hf, hc]; trivial
    | some cur =>
      by_cases fits : fs.hasMacroblock mbX mbY = true
      · have := fits
        simp only [FrameStore.hasMacroblock, decide_eq_true_eq] at this
        exact (tile_decodes h ⟨hf, hc, this.1, this.2⟩ intra b).keeps
      · rw [tile, State.withTarget, hf, hc]
        simp only [fits]
        trivial

theorem predictB_keeps {s : State} (h : s.br.InStep) (mbX mbY : Nat) (m : Motion) : (predictB mbX mbY m s).Keeps s := by
  unfold predictB
  split
  · refine (predict_keeps h false .forward _ _ _ _).bind fun _ u d => ?_
    split
    · exact predict_keeps d.inStep true .backward _ _ _ _
    · exact Res.keeps_ok (.refl d.inStep)
  · split
    · exact predict_keeps h false .backward _ _ _ _
    · exact State.DecodesTo.refl h

theorem macroblockType_keeps {s : State} (h : s.Decoding) : (macroblockType s).Keeps s := by
  unfold macroblockType
  refine Res.Keeps.bind ?_ fun t u d => Res.keeps_ok (State.decodesTo_work d.inStep _ id)
  split
  · exact ((vlc_reads h.tables.mbtI .mbtI h.reader).decodes fun _ _ p => p.2).keeps
  · split
    · exact ((vlc_reads h.tables.mbtP .mbtP h.reader).decodes fun _ _ p => p.2).keeps
    · split
      · exact ((vlc_reads h.tables.mbtB .mbtB h.reader).decodes fun _ _ p => p.2).keeps
      · trivial

theorem decodeVector_keeps {s : State} (h : s.Decoding) (d : Direction) (code : BitVec 3) (fullPel : Bool) :
    (decodeVector d code fullPel s).Keeps s := by
  by_cases e : code = 0
  · rw [decodeVector, if_pos e]; trivial
  · exact (decodeVector_decodes d e fullPel h).keeps

theorem forwardVector_keeps (t : BitVec 5) {s : State} (h : s.Decoding) : (forwardVector t s).Keeps s := by
  unfold forwardVector
  split
  · exact decodeVector_keeps h _ _ _
  · exact Res.keeps_ok (.refl h.reader)

theorem backwardVector_keeps (t : BitVec 5) {s : State} (h : s.Decoding) : (backwardVector t s).Keeps s := by
  unfold backwardVector
  split
  · exact decodeVector_keeps h _ _ _
  · exact Res.keeps_ok (.refl h.reader)

theorem macroblockVectors_keeps (t : BitVec 5) {s : State} (h : s.Decoding) : (macroblockVectors t s).Keeps s :=
  (forwardVector_keeps t h).bind fun _ _ d => backwardVector_keeps t (d.decoding h)

theorem codedBlocks_keeps {f : BlockNo → State → Res Unit} (hf : ∀ b s, s.Decoding → (f b s).Keeps s) :
    ∀ (l : List BlockNo) (s : State), s.Decoding → (codedBlocks f l s).Keeps s := by
  intro l
  induction l with
  | nil => intro s h; exact Res.keeps_ok (.refl h.reader)
  | cons b rest ih =>
    intro s h
    unfold codedBlocks
    refine Res.Keeps.bind ?_ fun _ u d => ih u (d.decoding h)
    split
    · exact hf b s h
    · exact Res.keeps_ok (.refl h.reader)

theorem parseMacroblock_keeps {s : State} (h : s.Decoding) : (parseMacroblock s).Keeps s := by
  refine (macroblockType_keeps h).bind fun t u d => ?_
  refine (macroblockQuant_decodes t d.inStep).keeps.bind fun _ v e => ?_
  refine (macroblockVectors_keeps t (e.decoding (d.decoding h))).bind fun _ w g => ?_
  refine (macroblockPattern_decodes t ((d.trans (e.trans g)).decoding h)).keeps.bind fun _ x k => ?_
  have zero : x.DecodesTo x.zeroBlocks := State.decodesTo_blk k.inStep _
  refine Res.Keeps.after zero ((codedBlocks_keeps (fun b s h => ?_) allBlocks _ ((((d.trans e).trans (g.trans k)).trans zero).decoding h)).bind fun _ y l =>
    Res.keeps_ok (.refl l.inStep))
  split
  · exact (intraBlock_decodes b h).keeps
  · exact (interBlock_decodes b h).keeps

theorem predictMacroblock_keeps (t : BitVec 5) {s : State} (h : s.br.InStep) (mbX mbY : Nat) :
    (predictMacroblock t mbX mbY s).Keeps s := by
  have d0 : s.DecodesTo s.clearDcPred := State.decodesTo_work h _ id
  unfold predictMacroblock
  simp only
  refine Res.Keeps.after d0 ?_
  split
  · have d1 : s.clearDcPred.DecodesTo (if hasForward t then s.clearDcPred else s.clearDcPred.clearForwardPmv) := by
      split
      · exact .refl d0.inStep
      · exact State.decodesTo_work d0.inStep _ fun p => p.clearForward
    exact Res.Keeps.after d1 (predict_keeps d1.inStep false .forward _ _ _ _)
  · exact (predictB_keeps d0.inStep _ _ _).bind fun _ u d => Res.keeps_ok (State.decodesTo_work d.inStep _ id)

theorem State.decodesTo_gridPosition {s : State} (h : s.br.InStep) (a : Nat) : s.DecodesTo (s.gridPosition a).2 := by
  unfold State.gridPosition
  split
  · exact State.decodesTo_draw h
  · exact .refl h

theorem reconstructMacroblock_keeps (t : BitVec 5) {s : State} (h : s.Decoding) : (reconstructMacroblock t s).Keeps s := by
  have d := State.decodesTo_gridPosition h.reader s.work.mba
  unfold reconstructMacroblock
  generalize s.gridPosition s.work.mba = r at d ⊢
  refine Res.Keeps.after d (Res.Keeps.bind ?_ fun _ v e =>
    (codedBlocks_keeps (fun b s h => ?_) allBlocks v ((d.trans e).decoding h)).bind fun _ w g =>
      Res.keeps_ok (State.decodesTo_discardBlocks g.inStep))
  · split
    · exact Res.keeps_ok (State.decodesTo_afterIntra d.inStep)
    · exact predictMacroblock_keeps t d.inStep _ _
  · exact Res.Keeps.after (State.decodesTo_setBlock h.reader b (idct s.blk[b]))
      (tile_keeps (s := s.setBlock b _) h.reader _ _ _ _)

theorem macroblock_keeps {s : State} (h : s.Decoding) : (macroblock s).Keeps s :=
  (parseMacroblock_keeps h).bind fun t _ d => reconstructMacroblock_keeps t (d.decoding h)

theorem skipP_keeps {s : State} (h : s.br.InStep) (a : Nat) : (skipP a s).Keeps s := by
  have d := State.decodesTo_gridPosition h a
  unfold skipP
  generalize s.gridPosition a = r at d ⊢
  have d0 : r.2.DecodesTo r.2.clearDcPred := State.decodesTo_work d.inStep _ id
  have d1 : r.2.clearDcPred.DecodesTo r.2.clearDcPred.clearForwardPmv :=
    State.decodesTo_work d0.inStep _ fun p => p.clearForward
  exact Res.Keeps.after (d.trans (d0.trans d1)) (predict_keeps d1.inStep false .forward _ _ _ _)

theorem skipB_keeps {s : State} (h : s.br.InStep) (a : Nat) : (skipB a s).Keeps s := by
  have d := State.decodesTo_gridPosition h a
  unfold skipB
  generalize s.gridPosition a = r at d ⊢
  have d0 : r.2.DecodesTo r.2.clearDcPred := State.decodesTo_work d.inStep _ id
  exact Res.Keeps.after (d.trans d0) (predictB_keeps d0.inStep _ _ _)

theorem skippedMacroblock_keeps {s : State} (h : s.br.InStep) (a : Nat) : (skippedMacroblock a s).Keeps s := by
  unfold skippedMacroblock
  split
  · exact State.DecodesTo.refl h
  · split
    · exact skipP_keeps h a
    · split
      · exact skipB_keeps h a
      · trivial

theorem skipRun_keeps (total n : Nat) : ∀ (a : Nat) (s : State), s.br.InStep → (skipRun total n a s).Keeps s := by
  induction n with
  | zero => intro a s h; exact Res.keeps_ok (.refl h)
  | succ n ih =>
    intro a s h
    unfold skipRun
    split
    · exact Res.keeps_ok (State.decodesTo_work h _ id)
    · exact (skippedMacroblock_keeps h a).bind fun _ u d => ih (a + 1) u d.inStep

theorem macroblockLoop_keeps (total fuel : Nat) : ∀ s : State, s.Decoding → (macroblockLoop total fuel s).Keeps s := by
  induction fuel with
  | zero => intro s _; trivial
  | succ fuel ih =>
    intro s h
    unfold macroblockLoop
    split
    · exact Res.keeps_ok (.refl h.reader)
    · refine (macroblock_keeps h).bind fun _ u d => ?_
      split
      · exact Res.keeps_ok (State.decodesTo_work d.inStep _ id)
      · split
        · exact Res.keeps_ok (.refl d.inStep)
        · refine Res.Keeps.bind ((mbaIncrement_meets (d.decoding h)).decodes fun _ _ p => p.2).keeps fun inc v e => ?_
          refine (skipRun_keeps _ _ _ v e.inStep).bind fun ended w g => ?_
          split
          · exact Res.keeps_ok (.refl g.inStep)
          · have step : w.DecodesTo (w.setMba (w.work.mba + inc)) := State.decodesTo_work g.inStep _ id
            exact Res.Keeps.after step (ih _ ((d.trans (e.trans (g.trans step))).decoding h))

theorem State.decodesTo_firstAddress {s : State} (h : s.br.InStep) (row inc : Nat) :
    s.DecodesTo (s.firstAddress row inc).2 := by
  unfold State.firstAddress
  split
  · split
    · exact .refl h
    · exact State.decodesTo_draw h
  · exact .refl h

theorem sliceBody_keeps (row total : Nat) {s : State} (h : s.Decoding) : (sliceBody row total s).Keeps s := by
  have d0 : s.DecodesTo (sliceResets s) := State.decodesTo_work h.reader _ fun _ => Predictors.inRange_zero
  unfold sliceBody
  refine Res.Keeps.after d0 ((sliceQuant_decodes d0.inStep).keeps.bind fun _ u d =>
    (State.skipExtra_decodes d.inStep).keeps.bind fun _ v e => ?_)
  refine Res.Keeps.bind ((mbaIncrement_meets ((d0.trans (d.trans e)).decoding h)).decodes fun _ _ p => p.2).keeps fun inc w g => ?_
  have first := State.decodesTo_firstAddress g.inStep row inc
  have step : w.DecodesTo ((w.firstAddress row inc).2.setMba (w.firstAddress row inc).1) :=
    first.trans (State.decodesTo_work first.inStep _ id)
  exact Res.Keeps.after step (macroblockLoop_keeps _ _ _ ((d0.trans (d.trans (e.trans (g.trans step)))).decoding h))

theorem sliceDecode_keeps (total : Nat) {s : State} (h : s.Decoding) : (sliceDecode total s).Keeps s := by
  unfold sliceDecode
  rw [State.getBits_eq h.reader 32 le_rfl]
  exact Res.Keeps.after (s.decodesTo_ahead 32) (sliceBody_keeps _ _ ((s.decodesTo_ahead 32).decoding h))

theorem State.align_keeps {s : State} (h : s.br.InStep) : s.align.Keeps s := by
  obtain ⟨k, hk, -⟩ := exists_firstPrefix s.br.source s.br.bitpos
  rw [State.align_eq h hk]
  exact ⟨rfl, rfl, hk.1, le_rfl, id, fun fs e => ⟨fs, e, .refl fs, id⟩, id⟩

theorem pictureDataFrom_keeps (total fuel : Nat) : ∀ s : State, s.Decoding → (pictureDataFrom total fuel s).Keeps s := by
  induction fuel with
  | zero => intro s _; trivial
  | succ fuel ih =>
    intro s h
    unfold pictureDataFrom
    refine (State.align_keeps h.reader).bind fun _ u d => ?_
    simp only
    split
    · exact Res.keeps_ok (.refl d.inStep)
    · refine (sliceDecode_keeps total (d.decoding h)).bind fun ending v e => ?_
      cases ending with
      | done => exact Res.keeps_ok (.refl e.inStep)
      | sliceEnd => exact ih v ((d.trans e).decoding h)

/-! ### `CMD_DECODE_NEXT` -/

/-- The invariant inside a command: that of a step, and the frame store of a known sequence has its sizes. -/
structure DecodeInv (s : State) : Prop extends StepInv s where
  sized : s.Sized

theorem DecodeInv.headerTo {s t : State} (h : DecodeInv s) (d : s.HeaderTo t) : DecodeInv t :=
  { h.toStepInv.headerTo d with sized := d.sized h.sized }

theorem DecodeInv.decodesTo {s t : State} (h : DecodeInv s) (d : s.DecodesTo t) : DecodeInv t :=
  { h.toStepInv.decodesTo d with
    sized := by
      intro known
      rw [d.seq] at known ⊢
      obtain ⟨fs, e, p⟩ := h.sized known
      obtain ⟨gs, eg, sg, -⟩ := d.frames fs e
      exact ⟨gs, eg, by rw [← sg.1]; exact p.1, by rw [← sg.2.1]; exact p.2.1, p.2.2⟩ }

/-- What the checks behind a picture header leave: the state that the picture's data needs (R213 to R215). -/
theorem pictureChecks_ready {s t : State} (h : DecodeInv s) (e : pictureChecks s = .ok () t) :
    t = s ∧ ∀ cur, State.Ready { s with roles := { s.roles with cur := some cur } } := by
  unfold pictureChecks at e
  simp only at e
  split at e
  · simp at e
  · next known =>
    split at e
    · simp at e
    · next ty =>
      split at e
      · simp at e
      · next fw =>
        split at e
        · simp at e
        · next bw =>
          simp only [Res.ok.injEq, true_and] at e
          refine ⟨e.symm, fun cur => ?_⟩
          have known : s.seq.seqKnown = true := by simpa using known
          obtain ⟨fs, ef, w, hgt, cw, ch⟩ := h.sized known
          have o := h.frames fs ef
          have ty' : s.pic.pictType = 1 ∨ s.pic.pictType = 2 ∨ s.pic.pictType = 3 := by
            by_contra no
            exact ty ⟨fun x => no (.inl x), fun x => no (.inr (.inl x)), fun x => no (.inr (.inr x))⟩
          refine ⟨ty', fun n => ?_, fun n z => bw ⟨n, z⟩, ?_, fs, cur, ef, rfl, ?_, ?_⟩
          · intro z
            exact fw ⟨ty'.resolve_left n, z⟩
          · have := o.width.2.1
            show 0 < s.seq.mbCols
            omega
          · show fs.width = 16 * s.seq.mbCols
            omega
          · show fs.height = 16 * s.seq.mbRows
            omega

/-- A check behind a picture header changes nothing, whether it raises or not. -/
theorem pictureChecks_meets (s : State) :
    (pictureChecks s).Meets (fun _ t => t = s) (fun _ _ t => t = s) := by
  unfold pictureChecks
  simp only
  repeat' split
  all_goals rfl

theorem StepInv.setRoles {s : State} (h : StepInv s) (r : Roles)
    (p : r.aux = 2 ∧ r.fwd ≠ 2 ∧ r.bwd ≠ 2 ∧ r.fwd ≠ r.bwd) : StepInv { s with roles := r } :=
  { h with roles := p }

theorem StepInv.rotateRef {s : State} (h : StepInv s) : StepInv (Machine.rotateRef s) :=
  h.setRoles _ ⟨h.roles.1, h.roles.2.2.1, h.roles.2.1, h.roles.2.2.2.symm⟩

theorem StepInv.selectAux {s : State} (h : StepInv s) : StepInv (Machine.selectAux s) := h.setRoles _ h.roles

theorem StepInv.selectDisplay {s : State} (h : StepInv s) : StepInv (Machine.selectDisplay s) := h.setRoles _ h.roles

/-- The state before a picture's data: the target buffer is chosen. -/
theorem pictureTarget {s : State} (h : DecodeInv s)
    (ready : ∀ cur, State.Ready { s with roles := { s.roles with cur := some cur } }) {t : State}
    (e : t = if s.pic.pictType = 3 then selectAux s else rotateRef s) :
    DecodeInv t ∧ t.Ready ∧ t.session = s.session ∧ t.bench = s.bench := by
  subst e
  split
  · exact ⟨{ h.toStepInv.selectAux with sized := h.sized }, ready s.roles.aux, rfl, rfl⟩
  · obtain ⟨ty, fw, bw, gr, fs, cur, e1, -, e3, e4⟩ := ready s.roles.fwd
    exact ⟨{ h.toStepInv.rotateRef with sized := h.sized }, ⟨ty, fw, bw, gr, fs, s.roles.fwd, e1, rfl, e3, e4⟩, rfl, rfl⟩

theorem pictureData_decodes {s : State} (h : s.Decoding) (ready : s.Ready) : (pictureData s).Decodes s fun _ _ => True :=
  pictureDataFrom_decodes _ s h ready (by simp only [Reader.loopBound]; omega) (by simp only [Reader.loopBound]; omega)

/-- The body of `CMD_DECODE_NEXT` never stops (70_reset_and_hazards.md R490). It ends searching or at the end of the
sequence, or raises, and leaves the session and the bench. -/
theorem decodePicture_meets {s : State} (h : DecodeInv s) :
    (decodePicture s).Meets
      (fun _ t => DecodeInv t ∧ t.session = s.session ∧ t.bench = s.bench ∧
        (t.hpState = .searching ∨ t.hpState = .sequenceEnded))
      (fun _ _ t => DecodeInv t ∧ t.session = s.session ∧ t.bench = s.bench) := by
  unfold decodePicture
  refine Res.Meets.bind (P := fun e t => s.HeaderTo t ∧ t.hpState = e.parser)
    (Res.Meets.mono (nextHeader_heads h.reader) (fun _ _ p => p) fun _ _ _ d => ⟨h.headerTo d, d.session, d.bench⟩) ?_
  rintro e t ⟨d, p⟩
  have ht := h.headerTo d
  cases e with
  | endOfSequence =>
    refine ⟨?_, d.session, d.bench, .inr p⟩
    exact { ht.toStepInv.congr (t := t.setRet .eof) rfl rfl rfl rfl rfl rfl rfl rfl rfl rfl rfl rfl with sized := ht.sized }
  | picture =>
    have checks := pictureChecks_meets t
    cases hc : pictureChecks t with
    | stop f => rw [hc] at checks; exact absurd checks id
    | raised c i u =>
      rw [hc] at checks
      have : u = t := checks
      subst this
      exact ⟨ht, d.session, d.bench⟩
    | ok _ u =>
      rw [hc] at checks
      have : u = t := checks
      subst this
      obtain ⟨-, ready⟩ := pictureChecks_ready ht hc
      simp only [Res.bind_ok]
      generalize hv : (if u.pic.pictType = 3 then selectAux u else rotateRef u) = v
      obtain ⟨hi, hr, hs, hb⟩ := pictureTarget ht ready hv.symm
      refine Res.Meets.bind (P := fun _ w => v.DecodesTo w)
        (Res.Meets.mono (pictureData_decodes hi.decoding hr) (fun _ _ x => x.1) fun _ _ w x => ?_) fun _ w x => ?_
      · exact ⟨hi.decodesTo x, x.session.trans (hs.trans d.session), x.bench.trans (hb.trans d.bench)⟩
      · have hw := hi.decodesTo x
        refine ⟨?_, x.session.trans (hs.trans d.session), x.bench.trans (hb.trans d.bench), .inl rfl⟩
        exact { hw.toStepInv.selectDisplay.congr (t := (emitDisplay ((selectDisplay w).setHpState .searching)).setRet .ok)
          rfl rfl rfl rfl rfl rfl rfl rfl rfl rfl rfl rfl with sized := hw.sized }

/-! ### Opening a session -/

/-- The state that `CMD_OPEN` leaves meets `KernelInv` but for what it takes over (10_state.md R70). -/
theorem StepInv.openSession (cfg : BitVec 8) {s : State} (params : Params.Legal s.params) :
    StepInv (Machine.openSession cfg s) where
  reader := by
    show s.br.rewind.InStep
    rw [Reader.rewind_eq]
    exact Reader.atBit_inStep _ _
  params := params
  roles := ⟨rfl, by simp [Machine.openSession, State.reset], by simp [Machine.openSession, State.reset],
    by simp [Machine.openSession, State.reset]⟩
  frames _ e := absurd e (by simp [Machine.openSession, State.reset])
  allocated e := absurd e (by simp [Machine.openSession, State.reset])
  eventCount := rfl
  message := ⟨by simp [Machine.openSession, State.reset], by simp [Machine.openSession, State.reset]⟩
  cause := ⟨by simp [Machine.openSession, State.reset], by simp [Machine.openSession, State.reset]⟩
  predictors := Predictors.inRange_zero

end Sys2Proof.Machine
end

