-- ==== Sys2Proof/Laws/Fixes.lean ====
section
/-!
SUPPORT. What operations keep, whatever they answer and in whatever state: `Res.Fixes`. With it, the macroblock loop
without its bound (43_macroblock_decoder.md R238).
-/

namespace Sys2Proof.Machine

/-- Whatever the operation answers, a view of the state keeps its value. -/
def Res.Fixes {α γ : Type} (x : Res α) (g : State → γ) (s : State) : Prop :=
  match x with
  | .ok _ t | .raised _ _ t => g t = g s
  | .stop _ => True

theorem Res.Fixes.bind {α β γ : Type} {x : Res α} {f : α → State → Res β} {g : State → γ} {s : State} (hx : x.Fixes g s)
    (hf : ∀ a t, (f a t).Fixes g t) : (x.bind f).Fixes g s := by
  cases x with
  | ok a t =>
    have := hf a t
    simp only [Res.bind_ok]
    revert this
    cases f a t with
    | ok b u | raised c i u => exact fun h => Eq.trans h hx
    | stop e => exact id
  | raised c i t => exact hx
  | stop e => trivial

theorem Res.Fixes.ite {α γ : Type} {p : Prop} [Decidable p] {x y : Res α} {g : State → γ} {s : State}
    (hx : x.Fixes g s) (hy : y.Fixes g s) : (if p then x else y).Fixes g s := by
  split
  · exact hx
  · exact hy

theorem Res.Fixes.from {α γ : Type} {x : Res α} {g : State → γ} {s t : State} (h : x.Fixes g t) (e : g t = g s) :
    x.Fixes g s := by
  cases x with
  | ok a u | raised c i u => exact Eq.trans h e
  | stop e => trivial

/-- A view made from one that keeps its value. -/
theorem Res.Fixes.map {α γ δ : Type} {x : Res α} {g : State → γ} {s : State} (h : x.Fixes g s) (f : γ → δ) :
    x.Fixes (fun s => f (g s)) s := by
  cases x with
  | ok a u | raised c i u => exact congrArg f h
  | stop e => trivial

/-- What the decoding of a block keeps: `cbp`, `MBA`, the free draws and the operands of single steps. -/
def State.blockView (s : State) : BitVec 6 × Nat × Nat × Assembly := (s.work.cbp, s.work.mba, s.draws, s.assembly)

/-- What all parsing of a macroblock keeps: `MBA`, the free draws and the operands of single steps. -/
def State.parsed (s : State) : Nat × Nat × Assembly := s.blockView.2

theorem vlc_fixes {α : Type} (rows : List (Row α)) (t : Table) (s : State) : (vlc rows t s).Fixes State.blockView s := by
  unfold vlc
  split <;> rfl

theorem vlc_parsed {α : Type} (rows : List (Row α)) (t : Table) (s : State) : (vlc rows t s).Fixes State.parsed s :=
  (vlc_fixes rows t s).map Prod.snd

theorem macroblockType_fixes (s : State) : (macroblockType s).Fixes State.parsed s := by
  unfold macroblockType
  refine Res.Fixes.bind ?_ fun _ _ => rfl
  exact .ite (vlc_parsed ..) (.ite (vlc_parsed ..) (.ite (vlc_parsed ..) trivial))

theorem macroblockQuant_fixes (t : BitVec 5) (s : State) : (macroblockQuant t s).Fixes State.parsed s :=
  .ite (.ite rfl rfl) rfl

theorem decodeComponent_fixes (d : Direction) (c : Axis) (n : Nat) (fullPel : Bool) (s : State) :
    (decodeComponent d c n fullPel s).Fixes State.parsed s := by
  refine Res.Fixes.bind (Res.Fixes.bind (Res.Fixes.bind (vlc_parsed ..) fun _ _ => .ite rfl rfl) fun _ _ => .ite rfl rfl)
    fun _ _ => rfl

theorem decodeVector_fixes (d : Direction) (code : BitVec 3) (fullPel : Bool) (s : State) :
    (decodeVector d code fullPel s).Fixes State.parsed s :=
  .ite trivial ((decodeComponent_fixes ..).bind fun _ _ => (decodeComponent_fixes ..).bind fun _ _ => rfl)

theorem macroblockVectors_fixes (t : BitVec 5) (s : State) : (macroblockVectors t s).Fixes State.parsed s :=
  Res.Fixes.bind (.ite (decodeVector_fixes ..) rfl) fun _ _ => .ite (decodeVector_fixes ..) rfl

theorem codedPattern_fixes (s : State) : (codedPattern s).Fixes State.parsed s := (vlc_parsed ..).bind fun _ _ => rfl

theorem macroblockPattern_fixes (t : BitVec 5) (s : State) : (macroblockPattern t s).Fixes State.parsed s :=
  .ite rfl (.ite ((codedPattern_fixes s).bind fun _ _ => rfl) rfl)

theorem coef_fixes (first : Bool) (s : State) : (coef first s).Fixes State.blockView s := by
  have esc : ∀ s, (escape s).Fixes State.blockView s := by
    intro s
    simp only [escape]
    refine .ite ?_ ?_ <;> (split <;> rfl)
  refine .ite rfl (.ite rfl (.ite rfl (.ite (esc _) ((vlc_fixes ..).bind fun v t => ?_))))
  cases v with
  | pair run mag => rfl
  | escape => exact esc t

theorem coefLoop_fixes (intra : Bool) (b : BlockNo) (fuel : Nat) : ∀ (next : Nat) (first : Bool) (s : State),
    (coefLoop intra b fuel next first s).Fixes State.blockView s := by
  induction fuel with
  | zero => intro _ _ _; trivial
  | succ fuel ih =>
    intro next first s
    refine (coef_fixes first s).bind fun r t => ?_
    cases r with
    | eob => rfl
    | pair run level => exact .ite rfl ((ih _ _ _).from rfl)

theorem intraBlock_fixes (b : BlockNo) (s : State) : (intraBlock b s).Fixes State.blockView s := by
  refine Res.Fixes.bind (Res.Fixes.bind (Res.Fixes.bind (.ite (vlc_fixes ..) (vlc_fixes ..)) fun _ _ => .ite rfl rfl)
    fun _ _ => rfl) fun _ t => coefLoop_fixes ..

theorem interBlock_fixes (b : BlockNo) (s : State) : (interBlock b s).Fixes State.blockView s := coefLoop_fixes ..

theorem codedBlocks_fixes {γ : Type} {f : BlockNo → State → Res Unit} {g : State → γ}
    (hf : ∀ b s, (f b s).Fixes g s) : ∀ (l : List BlockNo) (s : State), (codedBlocks f l s).Fixes g s
  | [], _ => rfl
  | _ :: rest, _ => Res.Fixes.bind (.ite (hf ..) rfl) fun _ _ => codedBlocks_fixes hf rest _

theorem mbaIncrement_fixes (s : State) : (mbaIncrement s).Fixes State.parsed s := by
  have key : ∀ (fuel inc : Nat) (s : State), (mbaIncrementFrom fuel inc s).Fixes State.parsed s := by
    intro fuel
    induction fuel with
    | zero => intro _ _; trivial
    | succ fuel ih =>
      intro inc s
      refine (vlc_parsed ..).bind fun v t => ?_
      cases v with
      | stuffing => exact ih _ _
      | escape => exact ih _ _
      | increment n => rfl
  exact key ..

theorem parseMacroblock_fixes (s : State) : (parseMacroblock s).Fixes State.parsed s := by
  refine (macroblockType_fixes s).bind fun t u => (macroblockQuant_fixes t u).bind fun _ u =>
    (macroblockVectors_fixes t u).bind fun _ u => (macroblockPattern_fixes t u).bind fun _ u => ?_
  refine Res.Fixes.bind (Res.Fixes.from (codedBlocks_fixes (fun b s => ?_) _ _) rfl) fun _ _ => rfl
  split
  · exact (intraBlock_fixes b s).map Prod.snd
  · exact (interBlock_fixes b s).map Prod.snd

/-- What reconstruction keeps: `cbp`, `MBA` and the operands of single steps. -/
def State.kept (s : State) : BitVec 6 × Nat × Assembly := (s.work.cbp, s.work.mba, s.assembly)

theorem withTarget_fixes (s : State) (mbX mbY : Nat) (f : FrameStore → Fin 3 → Res Unit)
    (hf : ∀ fs cur, (f fs cur).Fixes State.kept s) : (s.withTarget mbX mbY f).Fixes State.kept s := by
  unfold State.withTarget
  split
  · trivial
  · trivial
  · exact .ite (hf ..) trivial

theorem predict_fixes (avg : Bool) (ref : Direction) (mbX mbY : Nat) (dx dy : Int) (s : State) :
    (predict avg ref mbX mbY dx dy s).Fixes State.kept s := withTarget_fixes _ _ _ _ fun _ _ => rfl

theorem predictB_fixes (mbX mbY : Nat) (m : Motion) (s : State) :
    (predictB mbX mbY m s).Fixes State.kept s :=
  .ite ((predict_fixes ..).bind fun _ _ => .ite (predict_fixes ..) rfl) (.ite (predict_fixes ..) rfl)

theorem tile_fixes (intra : Bool) (b : BlockNo) (mbX mbY : Nat) (s : State) :
    (tile intra b mbX mbY s).Fixes State.kept s := withTarget_fixes _ _ _ _ fun _ _ => rfl

theorem afterIntra_kept (s : State) : (afterIntra s).kept = s.kept := by
  unfold afterIntra
  split
  · rfl
  · split <;> rfl

theorem gridPosition_fixes (s : State) (a : Nat) : (s.gridPosition a).2.kept = s.kept := by
  unfold State.gridPosition
  split <;> rfl

theorem reconstructMacroblock_fixes (t : BitVec 5) (s : State) :
    (reconstructMacroblock t s).Fixes State.kept s := by
  refine Res.Fixes.from (Res.Fixes.bind ?_ fun _ _ => Res.Fixes.bind (codedBlocks_fixes (fun b s => ?_) _ _) fun _ _ => rfl)
    (gridPosition_fixes s s.work.mba)
  · refine .ite (afterIntra_kept _) ?_
    refine .ite ((predict_fixes ..).from ?_) (Res.Fixes.from ((predictB_fixes ..).bind fun _ _ => rfl) rfl)
    show (if hasForward t = true then _ else _ : State).kept = _
    split <;> rfl
  · exact Res.Fixes.from (tile_fixes ..) rfl

/-- A macroblock keeps `MBA`. -/
theorem macroblock_fixes (s : State) : (macroblock s).Fixes (fun s => s.work.mba) s :=
  Res.Fixes.bind ((parseMacroblock_fixes s).map fun v => v.1) fun t u => (reconstructMacroblock_fixes t u).map fun v => v.2.1

theorem skippedMacroblock_fixes (a : Nat) (s : State) : (skippedMacroblock a s).Fixes State.kept s := by
  have g := gridPosition_fixes s a
  exact .ite rfl (.ite ((predict_fixes ..).from g) (.ite ((predictB_fixes ..).from g) trivial))

/-! ### The macroblock loop -/

theorem skips_keeps (n : Nat) : ∀ (a : Nat) (s : State), s.br.InStep → (skips n a s).Keeps s := by
  induction n with
  | zero => intro a s h; exact Res.keeps_ok (.refl h)
  | succ n ih => intro a s h; exact (skippedMacroblock_keeps h a).bind fun _ u d => ih (a + 1) u d.inStep

theorem skips_fixes (n : Nat) : ∀ (a : Nat) (s : State), (skips n a s).Fixes State.kept s := by
  induction n with
  | zero => intro a s; rfl
  | succ n ih => intro a s; exact (skippedMacroblock_fixes a s).bind fun _ u => ih (a + 1) u

/-- A run of skipped macroblocks inside the picture. -/
theorem skipRun_eq (total n : Nat) : ∀ (a : Nat) (s : State), a + n ≤ total →
    skipRun total n a s = (skips n a s).bind fun _ s => .ok false s := by
  induction n with
  | zero => intro a s _; rfl
  | succ n ih =>
    intro a s le
    rw [skipRun, if_neg (by omega), skips]
    cases skippedMacroblock a s with
    | ok _ u => simp only [Res.bind_ok]; exact ih (a + 1) u (by omega)
    | raised c i u => rfl
    | stop e => rfl

/-- A run of skipped macroblocks that reaches the end of the picture. -/
theorem skipRun_past (total n : Nat) : ∀ (a : Nat) (s : State), a ≤ total → total < a + n →
    skipRun total n a s = (skips (total - a) a s).bind fun _ s => .ok true (s.setMba total) := by
  induction n with
  | zero => intro a s _ _; omega
  | succ n ih =>
    intro a s le lt
    rw [skipRun]
    split
    · have : a = total := by omega
      subst this
      rw [Nat.sub_self]
      rfl
    · obtain ⟨k, hk⟩ : ∃ k, total - a = k + 1 := ⟨total - a - 1, by omega⟩
      rw [hk, skips]
      cases skippedMacroblock a s with
      | ok _ u =>
        simp only [Res.bind_ok]
        rw [ih (a + 1) u (by omega) (by omega)]
        congr 2
        omega
      | raised c i u => rfl
      | stop e => rfl

/-- The bounded loop comes to what the loop without a bound gives. -/
theorem loopGives_eq {total : Nat} {s : State} {r : Res SliceEnd} (g : LoopGives total s r) : s.Decoding →
    ∀ fuel, 0 < fuel → total < fuel + s.work.mba → macroblockLoop total fuel s = r := by
  have mb : ∀ {s u : State}, macroblock s = .ok () u → s.Decoding → u.work.mba = s.work.mba ∧ u.Decoding := by
    intro s u e h
    have f := macroblock_fixes s
    have k := macroblock_keeps h
    rw [e] at f k
    exact ⟨f, State.DecodesTo.decoding k h⟩
  have mi : ∀ {u v : State} {inc : Nat}, mbaIncrement u = .ok inc v → u.Decoding →
      v.work.mba = u.work.mba ∧ v.Decoding ∧ 1 ≤ inc := by
    intro u v inc e h
    have m := mbaIncrement_meets h
    rw [e] at m
    obtain ⟨i, n, rfl⟩ := m
    exact ⟨rfl, (u.decodesTo_ahead n).decoding h, i⟩
  have zr : ∀ {u : State}, u.Decoding → u.peekBits 23 = u.upcoming 0 23 := fun h => State.peekBits_eq h.reader 23 (by omega)
  induction g with
  | past s le =>
    intro h fuel pos bound
    obtain ⟨f, rfl⟩ : ∃ f, fuel = f + 1 := ⟨fuel - 1, by omega⟩
    rw [macroblockLoop, if_pos le]
  | raises s c info t lt e =>
    intro h fuel pos bound
    obtain ⟨f, rfl⟩ : ∃ f, fuel = f + 1 := ⟨fuel - 1, by omega⟩
    rw [macroblockLoop, if_neg (by omega), e]
    rfl
  | last s u le e =>
    intro h fuel pos bound
    obtain ⟨f, rfl⟩ : ∃ f, fuel = f + 1 := ⟨fuel - 1, by omega⟩
    obtain ⟨m, d⟩ := mb e h
    rw [macroblockLoop, if_neg (by omega), e, Res.bind_ok, if_pos (by omega), m, le]
    rfl
  | zeros s u lt e z =>
    intro h fuel pos bound
    obtain ⟨f, rfl⟩ : ∃ f, fuel = f + 1 := ⟨fuel - 1, by omega⟩
    obtain ⟨m, d⟩ := mb e h
    rw [macroblockLoop, if_neg (by omega), e, Res.bind_ok, if_neg (by omega), zr d, if_pos z]
  | noIncrement s u c info t lt e z i =>
    intro h fuel pos bound
    obtain ⟨f, rfl⟩ : ∃ f, fuel = f + 1 := ⟨fuel - 1, by omega⟩
    obtain ⟨m, d⟩ := mb e h
    rw [macroblockLoop, if_neg (by omega), e, Res.bind_ok, if_neg (by omega), zr d, if_neg z, i]
    rfl
  | skipRaises s u v inc c info t lt e z i sk =>
    intro h fuel pos bound
    obtain ⟨f, rfl⟩ : ∃ f, fuel = f + 1 := ⟨fuel - 1, by omega⟩
    obtain ⟨m, d⟩ := mb e h
    obtain ⟨m', d', ge⟩ := mi i d
    rw [macroblockLoop, if_neg (by omega), e, Res.bind_ok, if_neg (by omega), zr d, if_neg z, i, Res.bind_ok, m', m]
    by_cases le : s.work.mba + 1 + (inc - 1) ≤ total
    · rw [skipRun_eq _ _ _ _ le]
      rw [Nat.min_eq_left (by omega)] at sk
      rw [sk]
      rfl
    · rw [skipRun_past _ _ _ _ (by omega) (by omega)]
      rw [Nat.min_eq_right (by omega)] at sk
      rw [show total - (s.work.mba + 1) = total - s.work.mba - 1 by omega, sk]
      rfl
  | skippedAll s u v w inc lt e z i past sk =>
    intro h fuel pos bound
    obtain ⟨f, rfl⟩ : ∃ f, fuel = f + 1 := ⟨fuel - 1, by omega⟩
    obtain ⟨m, d⟩ := mb e h
    obtain ⟨m', d', ge⟩ := mi i d
    rw [macroblockLoop, if_neg (by omega), e, Res.bind_ok, if_neg (by omega), zr d, if_neg z, i, Res.bind_ok, m', m,
      skipRun_past _ _ _ _ (by omega) (by omega), show total - (s.work.mba + 1) = total - s.work.mba - 1 by omega, sk]
    rfl
  | further s u v w inc r lt e z i le sk _ ih =>
    intro h fuel pos bound
    obtain ⟨f, rfl⟩ : ∃ f, fuel = f + 1 := ⟨fuel - 1, by omega⟩
    obtain ⟨m, d⟩ := mb e h
    obtain ⟨m', d', ge⟩ := mi i d
    have fx := skips_fixes (inc - 1) (s.work.mba + 1) v
    have kp := skips_keeps (inc - 1) (s.work.mba + 1) v d'.reader
    rw [sk] at fx kp
    have mw : w.work.mba = s.work.mba := by rw [show w.work.mba = v.work.mba from congrArg (fun v => v.2.1) fx, m', m]
    have dw : w.Decoding := State.DecodesTo.decoding kp d'
    rw [macroblockLoop, if_neg (by omega), e, Res.bind_ok, if_neg (by omega), zr d, if_neg z, i, Res.bind_ok, m', m,
      skipRun_eq _ _ _ _ (by omega), sk]
    simp only [Res.bind_ok, Bool.false_eq_true, if_false]
    rw [mw]
    exact ih ⟨dw.reader, dw.params⟩ f (by omega) (by show total < f + (s.work.mba + inc); omega)

end Sys2Proof.Machine
end

