-- ==== Sys2Proof/Laws/Coefficients.lean ====
section
/-!
SUPPORT. Coefficients and increments by the codes that lie in the stream: each code of a pair is read as that pair, each
fault where its code lies (45_block_decode_iq.md R303 to R308; 43_macroblock_decoder.md R235).
-/

namespace Sys2Proof.Machine

/-! ### One coefficient -/

theorem State.upcoming_split (s : State) (o m n : Nat) : s.upcoming o (m + n) = s.upcoming o m * 2 ^ n + s.upcoming (o + m) n := by
  simp only [State.upcoming, streamBits_add, Nat.add_assoc]

/-- The sign bit of a level, applied to its magnitude. -/
theorem sign_eq (level : Int) : applySign ((decide (level < 0)).toNat == 1) level.natAbs = level := by
  unfold applySign
  by_cases n : level < 0
  · simp only [n, decide_true, Bool.toNat_true]
    show -(level.natAbs : Int) = level
    omega
  · simp only [n, decide_false, Bool.toNat_false]
    show (level.natAbs : Int) = level
    omega

/-- A code word of `T_DCT` with a pair (R303). -/
theorem coef_row {s : State} (h : s.Decoding) (first : Bool) {r : Row DctSymbol} {run mag : Nat}
    (mem : r ∈ s.params.tables.dct) (e : r.sym = .pair run mag) (hb : s.upcoming 0 r.len = r.bits) :
    coef first s = signedPair run mag (s.ahead r.len) := by
  have len := h.tables.dct.1 r mem
  have sh := h.tables.short r mem
  obtain ⟨k, hk⟩ : ∃ k, r.len = 1 + k := ⟨r.len - 1, by omega⟩
  have one : s.upcoming 0 1 = 0 := by
    have := State.upcoming_split s 0 1 k
    rw [← hk, hb] at this
    have lt := s.upcoming_lt (0 + 1) k
    rw [hk, Nat.add_sub_cancel_left] at sh
    have l1 := s.upcoming_lt 0 1
    by_contra ne
    have : s.upcoming 0 1 = 1 := by omega
    simp only [this] at *
    omega
  have two : s.upcoming 0 2 < 2 := by
    have x := State.upcoming_split s 0 1 1
    have := s.upcoming_lt (0 + 1) 1
    simp only [Nat.reduceAdd, Nat.reducePow] at *
    omega
  have esc : s.upcoming 0 6 ≠ 1 := by
    intro x
    have := h.tables.dct.unique mem h.tables.escape hb x
    rw [this] at e; simp at e
  have v := vlc_of_mem h.tables.dct .dct h.reader mem hb
  unfold coef
  simp only [State.peekBits_eq h.reader 1 (by omega), State.peekBits_eq h.reader 2 (by omega), State.peekBits_eq h.reader 6 (by omega)]
  rw [if_neg (by omega), if_neg (by omega), if_neg (by omega), if_neg (by omega), v, Res.bind_ok, e]

/-- `escape()` by the bits it reads (R304). -/
theorem escape_eq {s : State} (h : s.br.InStep) : escape s =
    if s.upcoming 6 8 = 0 ∨ s.upcoming 6 8 = 0x80 then
      (if escapeLevel (s.upcoming 6 8) (s.upcoming 14 8) = 0 then .raised .escLevelZero (s.upcoming 0 6) (s.ahead 22)
        else .ok (.pair (s.upcoming 0 6) (escapeLevel (s.upcoming 6 8) (s.upcoming 14 8))) (s.ahead 22))
    else .ok (.pair (s.upcoming 0 6) (escapeLevel (s.upcoming 6 8) 0)) (s.ahead 14) := by
  unfold escape
  simp only [State.getBits_eq h 6 (by omega), State.getBits_eq (s.ahead_inStep 6) 8 (by omega), State.ahead_ahead,
    State.ahead_upcoming]
  split
  · simp only [State.getBits_eq (s.ahead_inStep _) 8 (by omega), State.ahead_ahead, State.ahead_upcoming]
  · next h =>
    have l := s.upcoming_lt 6 8
    simp only [Nat.add_zero] at h ⊢
    have nz : ∀ lo, escapeLevel (s.upcoming 6 8) lo = escapeLevel (s.upcoming 6 8) 0 ∧ escapeLevel (s.upcoming 6 8) lo ≠ 0 := by
      intro lo
      have h0 : ¬s.upcoming 6 8 = 0 := fun x => h (.inl x)
      have h1 : ¬s.upcoming 6 8 = 0x80 := fun x => h (.inr x)
      simp only [escapeLevel, h0, h1, if_false]
      refine ⟨trivial, ?_⟩
      simp only [Nat.reducePow] at l
      split <;> omega
    rw [if_neg (nz 0).2]

/-- Behind the escape code word comes `escape()`. -/
theorem coef_escape {s : State} (h : s.Decoding) (first : Bool) (e : s.upcoming 0 6 = 1) :
    coef first s = escape (s.ahead 6) := by
  have a := State.upcoming_split s 0 1 5
  have b := State.upcoming_split s 0 2 4
  have l1 := s.upcoming_lt (0 + 1) 5
  have l2 := s.upcoming_lt (0 + 2) 4
  simp only [Nat.reduceAdd, Nat.reducePow] at a b
  unfold coef
  simp only [State.peekBits_eq h.reader 1 (by omega), State.peekBits_eq h.reader 2 (by omega), State.peekBits_eq h.reader 6 (by omega),
    State.consumeBits_eq h.reader 6 (by omega)]
  rw [if_neg (by omega), if_neg (by omega), if_neg (by omega), if_pos e]

/-- A pair by any of its codes. -/
theorem coef_pair {s : State} (h : s.Decoding) {first : Bool} {run : Nat} {level : Int} {c : Code}
    (cp : CodesPair s.params.tables.dct first run level c) (hb : s.upcoming 0 c.len = c.bits) :
    coef first s = .ok (.pair run level) (s.ahead c.len) := by
  obtain ⟨nz, ⟨r, mem, sym, rfl⟩ | ⟨rfl, mag, rfl⟩ | ⟨hr, lo, hi, rfl⟩ | ⟨hr, lo, hi, rfl⟩ | ⟨hr, lo, hi, rfl⟩⟩ := cp
  · simp only at hb ⊢
    have sp := State.upcoming_split s 0 r.len 1
    have l1 := s.upcoming_lt (0 + r.len) 1
    rw [hb] at sp
    have sg : s.upcoming 0 r.len = r.bits ∧ s.upcoming r.len 1 = (decide (level < 0)).toNat := by
      rw [Nat.zero_add] at sp l1
      have : (decide (level < 0)).toNat ≤ 1 := Bool.toNat_le _
      omega
    rw [coef_row h first mem sym sg.1, signedPair_reads (s.ahead_inStep _), State.ahead_upcoming, Nat.add_zero, sg.2, State.ahead_ahead]
    rw [sign_eq]
  · cases first <;> simp only [Bool.false_eq_true, if_false, if_true] at hb ⊢
    · have sp := State.upcoming_split s 0 2 1
      have l1 := s.upcoming_lt (0 + 2) 1
      have : (decide (level < 0)).toNat ≤ 1 := Bool.toNat_le _
      simp only [Nat.reduceAdd, Nat.zero_add, Nat.reducePow] at *
      unfold coef
      simp only [State.peekBits_eq h.reader 1 (by omega), State.peekBits_eq h.reader 2 (by omega), State.consumeBits_eq h.reader 2 (by omega)]
      rw [if_neg (by simp), if_neg (by omega), if_pos (by constructor <;> first | trivial | omega), signedPair_reads (s.ahead_inStep _), State.ahead_upcoming, Nat.add_zero, State.ahead_ahead]
      have : s.upcoming 2 1 = (decide (level < 0)).toNat := by omega
      rw [this]
      have sg := sign_eq level
      rw [mag] at sg
      rw [sg]
    · have sp := State.upcoming_split s 0 1 1
      have l1 := s.upcoming_lt (0 + 1) 1
      have : (decide (level < 0)).toNat ≤ 1 := Bool.toNat_le _
      simp only [Nat.reduceAdd, Nat.zero_add, Nat.reducePow] at *
      unfold coef
      simp only [State.peekBits_eq h.reader 1 (by omega), State.consumeBits_eq h.reader 1 (by omega)]
      rw [if_pos (by constructor <;> first | trivial | omega), signedPair_reads (s.ahead_inStep _), State.ahead_upcoming, Nat.add_zero, State.ahead_ahead]
      have : s.upcoming 1 1 = (decide (level < 0)).toNat := by omega
      rw [this]
      have sg := sign_eq level
      rw [mag] at sg
      rw [sg]
  · have a := State.upcoming_split s 0 6 14
    have b := State.upcoming_split s 6 6 8
    have l1 := s.upcoming_lt 6 14
    have l2 := s.upcoming_lt 6 6
    have l3 := s.upcoming_lt 12 8
    simp only [Nat.reduceAdd, Nat.zero_add, Nat.reducePow] at *
    rw [coef_escape h first (by omega), escape_eq (s.ahead_inStep 6)]
    simp only [State.ahead_upcoming, State.ahead_ahead, Nat.add_zero, Nat.reduceAdd]
    have r6 : s.upcoming 6 6 = run := by omega
    have v8 : s.upcoming 12 8 = (level % 256).toNat := by omega
    rw [if_neg (by omega), r6, v8]
    congr 2
    unfold escapeLevel
    rw [if_neg (by omega), if_neg (by omega)]
    split <;> omega
  · have a := State.upcoming_split s 0 6 22
    have b := State.upcoming_split s 6 6 16
    have c := State.upcoming_split s 12 8 8
    have l1 := s.upcoming_lt 6 22
    have l2 := s.upcoming_lt 6 6
    have l3 := s.upcoming_lt 12 16
    have l4 := s.upcoming_lt 20 8
    simp only [Nat.reduceAdd, Nat.zero_add, Nat.reducePow] at *
    rw [coef_escape h first (by omega), escape_eq (s.ahead_inStep 6)]
    simp only [State.ahead_upcoming, State.ahead_ahead, Nat.add_zero, Nat.reduceAdd]
    have r6 : s.upcoming 6 6 = run := by omega
    have v8 : s.upcoming 12 8 = 0 := by omega
    have w8 : s.upcoming 20 8 = level.toNat := by omega
    have lv : escapeLevel 0 level.toNat = level := by unfold escapeLevel; rw [if_pos rfl]; omega
    rw [if_pos (.inl v8), r6, v8, w8, lv, if_neg nz]
  · have a := State.upcoming_split s 0 6 22
    have b := State.upcoming_split s 6 6 16
    have c := State.upcoming_split s 12 8 8
    have l1 := s.upcoming_lt 6 22
    have l2 := s.upcoming_lt 6 6
    have l3 := s.upcoming_lt 12 16
    have l4 := s.upcoming_lt 20 8
    simp only [Nat.reduceAdd, Nat.zero_add, Nat.reducePow] at *
    rw [coef_escape h first (by omega), escape_eq (s.ahead_inStep 6)]
    simp only [State.ahead_upcoming, State.ahead_ahead, Nat.add_zero, Nat.reduceAdd]
    have r6 : s.upcoming 6 6 = run := by omega
    have v8 : s.upcoming 12 8 = 0x80 := by omega
    have w8 : s.upcoming 20 8 = (level + 256).toNat := by omega
    have lv : escapeLevel 0x80 (level + 256).toNat = level := by unfold escapeLevel; rw [if_neg (by decide), if_pos rfl]; omega
    rw [if_pos (.inr v8), r6, v8, w8, lv, if_neg nz]

/-- The end of block. -/
theorem coef_eob {s : State} (h : s.Decoding) (e : s.upcoming 0 2 = 2) : coef false s = .ok .eob (s.ahead 2) := by
  unfold coef
  simp only [State.peekBits_eq h.reader 1 (by omega), State.peekBits_eq h.reader 2 (by omega), State.consumeBits_eq h.reader 2 (by omega)]
  rw [if_neg (by simp), if_pos (by simpa using e)]

/-- Where no coefficient lies. -/
theorem coef_raises {s : State} (h : s.Decoding) (first : Bool) {cause : Cause} {info used : Nat} (r : s.CoefRaises 0 cause info used) :
    coef first s = .raised cause info (s.ahead used) := by
  obtain ⟨one, none, rfl, rfl, rfl⟩ | ⟨run, hr, e, rfl, rfl, rfl⟩ := r
  · have a := State.upcoming_split s 0 1 1
    have l := s.upcoming_lt (0 + 1) 1
    have esc : s.upcoming 0 6 ≠ 1 := none _ h.tables.escape
    simp only [Nat.reduceAdd, Nat.reducePow] at a l
    unfold coef
    simp only [State.peekBits_eq h.reader 1 (by omega), State.peekBits_eq h.reader 2 (by omega), State.peekBits_eq h.reader 6 (by omega)]
    rw [if_neg (by omega), if_neg (by omega), if_neg (by omega), if_neg (by omega), State.ahead_zero h.reader]
    have m := vlc_meets h.tables.dct .dct h.reader
    cases hv : vlc s.params.tables.dct .dct s with
    | ok v u => rw [hv] at m; obtain ⟨q, hq, eq, _⟩ := m; exact absurd eq (none q hq)
    | raised c i u => rw [hv] at m; obtain ⟨_, rfl, rfl, rfl⟩ := m; rfl
    | stop f => rw [hv] at m; exact absurd m id
  · have a := State.upcoming_split s 0 6 22
    have b := State.upcoming_split s 6 6 16
    have c := State.upcoming_split s 12 8 8
    have l1 := s.upcoming_lt 6 22
    have l2 := s.upcoming_lt 6 6
    have l3 := s.upcoming_lt 12 16
    have l4 := s.upcoming_lt 20 8
    simp only [Nat.reduceAdd, Nat.zero_add, Nat.reducePow] at *
    rw [coef_escape h first (by omega), escape_eq (s.ahead_inStep 6)]
    simp only [State.ahead_upcoming, State.ahead_ahead, Nat.add_zero, Nat.reduceAdd]
    have r6 : s.upcoming 6 6 = info := by omega
    have v8 : s.upcoming 12 8 = 0 := by omega
    have w8 : s.upcoming 20 8 = 0 := by omega
    rw [if_pos (.inl v8), r6, v8, w8, if_pos (by decide)]

/-! ### Codes one behind the other -/

theorem State.holds_append (s : State) (a b : List Code) : ∀ o, s.Holds o (a ++ b) ↔ s.Holds o a ∧ s.Holds (o + bitCount a) b := by
  induction a with
  | nil => intro o; simp [State.Holds, bitCount]
  | cons c rest ih => intro o; simp only [List.cons_append, State.Holds, ih, bitCount, Nat.add_assoc, and_assoc]

theorem State.ahead_holds (s : State) (n : Nat) (cs : List Code) : ∀ o, (s.ahead n).Holds o cs ↔ s.Holds (n + o) cs := by
  induction cs with
  | nil => intro o; rfl
  | cons c rest ih => intro o; simp only [State.Holds, State.ahead_upcoming, ih, Nat.add_assoc]

theorem State.holds_congr {s t : State} (e : s.br = t.br) (cs : List Code) : ∀ o, s.Holds o cs ↔ t.Holds o cs := by
  induction cs with
  | nil => intro o; rfl
  | cons c rest ih => intro o; simp only [State.Holds, State.upcoming, e, ih]

/-! ### Blocks -/

theorem oddSat_eq (z : Config.OddifyZero) (m : Nat) : oddSat z m = oddMagnitude z m := by
  unfold oddSat oddMagnitude
  by_cases h : m = 0
  · subst h; cases z <;> simp
  · rw [if_neg h, if_neg h]
    obtain ⟨k, hk | hk⟩ := Nat.even_or_odd' m
    · have : (m - 1) ||| 1 = m - 1 := by
        have : m - 1 = 2 * (k - 1) + 1 := by omega
        rw [this]
        apply Nat.eq_of_testBit_eq
        intro i
        rw [Nat.testBit_or]
        cases i with
        | zero => simp [Nat.testBit_zero]
        | succ i => simp [Nat.testBit_succ]
      rw [this, if_pos (by omega), Nat.min_comm]
    · have : (m - 1) ||| 1 = m := by
        have h1 : m - 1 = 2 * k := by omega
        rw [h1, hk]
        apply Nat.eq_of_testBit_eq
        intro i
        rw [Nat.testBit_or]
        cases i with
        | zero => simp [Nat.testBit_zero]
        | succ i => simp [Nat.testBit_succ]; congr 1; omega
      rw [this, if_neg (by omega), Nat.min_comm]

/-- The coefficient that a pair leaves. -/
def stored (s : State) (intra : Bool) (q : Nat × Int) : Coef := BitVec.ofInt 16 (s.dequantise intra (s.zigzag q.1) q.2)

theorem State.placesPairs_iff (s : State) (intra : Bool) (pairs : List (Nat × Int)) (old blk : Block) :
    s.PlacesPairs intra pairs old blk ↔
      (∀ q ∈ pairs, blk[s.zigzag q.1]? = some (stored s intra q)) ∧
      (∀ k, k < 64 → (∀ q ∈ pairs, s.zigzag q.1 ≠ k) → blk[k]? = old[k]?) := by
  unfold State.PlacesPairs
  refine and_congr (forall₂_congr fun q _ => ?_) Iff.rfl
  have lt := s.zigzag_lt q.1
  cases intra <;> simp only [Bool.false_eq_true, if_false, if_true, Vector.getElem?_eq_getElem lt, stored, State.dequantise, dqIntra, dqInter, oddSat_eq, Option.some.injEq, exists_eq_left', Option.getD_some, applySign, withSignOf, decide_eq_true_eq]

theorem pairIndexes_ge (ps : List (Nat × Int)) : ∀ next, ∀ q ∈ pairIndexes next ps, next ≤ q.1 := by
  induction ps with
  | nil => intro next q h; simp [pairIndexes] at h
  | cons p rest ih =>
    obtain ⟨run, level⟩ := p
    intro next q h
    rcases List.mem_cons.mp h with rfl | h
    · simp
    · have := ih _ q h; omega

/-- There are no more pairs than indexes. -/
theorem pairIndexes_length (ps : List (Nat × Int)) : ∀ next, (∀ q ∈ pairIndexes next ps, q.1 ≤ 63) → next ≤ 64 → next + ps.length ≤ indexAfter next ps ∧ indexAfter next ps ≤ 64 := by
  induction ps with
  | nil => intro next _ h; exact ⟨le_rfl, h⟩
  | cons p rest ih =>
    obtain ⟨run, level⟩ := p
    intro next h le
    have h0 := h (next + run, level) (by simp [pairIndexes])
    have := ih (next + run + 1) (fun q hq => h q (by simp [pairIndexes, hq])) (by simp only at h0; omega)
    simp only [indexAfter, List.length_cons]
    omega

/-- The coefficient loop over some pairs: each is stored at the raster position of its index (R305, R306). -/
theorem coefLoop_pairs (intra : Bool) (b : BlockNo) (ps : List (Nat × Int)) : ∀ (cs : List Code) (next fuel : Nat) (first : Bool) (s : State),
    s.Decoding → CodePairs s.params.tables.dct first ps cs → s.Holds 0 cs → (∀ q ∈ pairIndexes next ps, q.1 ≤ 63) →
    ∃ blk, s.PlacesPairs intra (pairIndexes next ps) s.blk[b] blk ∧
      coefLoop intra b (fuel + ps.length) next first s =
        coefLoop intra b fuel (indexAfter next ps) (first && ps.isEmpty) { s.ahead (bitCount cs) with blk := s.blk.set b blk } := by
  induction ps with
  | nil =>
    intro cs next fuel first s h cp _ _
    cases cs with
    | nil =>
      refine ⟨s.blk[b], ⟨by simp [pairIndexes], fun _ _ _ => rfl⟩, ?_⟩
      simp only [List.length_nil, Nat.add_zero, indexAfter, List.isEmpty_nil, Bool.and_true, bitCount]
      rw [State.ahead_zero h.reader]
      congr 1
      have : s.blk.set b s.blk[b] = s.blk := by simp
      rw [this]
    | cons => exact absurd cp id
  | cons p ps ih =>
    obtain ⟨run, level⟩ := p
    intro cs next fuel first s h cp hold bound
    cases cs with
    | nil => exact absurd cp id
    | cons c cs =>
      obtain ⟨cp1, cp2⟩ := cp
      obtain ⟨hb, hrest⟩ := hold
      have e := coef_pair h cp1 hb
      have b0 : next + run ≤ 63 := bound (next + run, level) (by simp [pairIndexes])
      set u : State := (s.ahead c.len).setBlkEntry b (s.zigzag (next + run)) (stored s intra (next + run, level)) with hu
      have du : u.Decoding := ⟨State.ahead_inStep s c.len, h.params⟩
      obtain ⟨blk, pl, eq⟩ := ih cs (next + run + 1) fuel false u du cp2
        (by rw [State.holds_congr (s := u) (t := s.ahead c.len) rfl, State.ahead_holds]; simpa using hrest)
        (fun q hq => bound q (by simp [pairIndexes, hq]))
      refine ⟨blk, ?_, ?_⟩
      · rw [State.placesPairs_iff] at pl ⊢
        obtain ⟨p1, p2⟩ := pl
        have zz : ∀ i, u.zigzag i = s.zigzag i := fun _ => rfl
        have st : ∀ q, stored u intra q = stored s intra q := fun _ => rfl
        have ub : u.blk[b] = s.blk[b].setIfInBounds (s.zigzag (next + run)) (stored s intra (next + run, level)) := by
          show (s.blk.set b _)[b] = _
          simp
        refine ⟨fun q hq => ?_, fun k hk hn => ?_⟩
        · rcases List.mem_cons.mp hq with rfl | hq
          · have := p2 (s.zigzag (next + run)) (s.zigzag_lt _) (fun q hq z => by
              rw [zz] at z
              have ge := pairIndexes_ge _ _ q hq
              have le := bound q (by simp [pairIndexes, hq])
              have := State.zigzag_inj h.params (by omega) (by omega) z
              omega)
            rw [this, ub]
            simp [s.zigzag_lt]
          · have := p1 q hq
            rwa [zz, st] at this
        · rw [p2 k hk (fun q hq => hn q (by simp [pairIndexes, hq])), ub]
          have := hn (next + run, level) (by simp [pairIndexes])
          simp only at this
          rw [Vector.getElem?_setIfInBounds_ne this]
      · rw [List.length_cons, ← Nat.add_assoc, coefLoop, e, Res.bind_ok]
        simp only
        rw [if_neg (by omega)]
        have : coefLoop intra b (fuel + ps.length) (next + run + 1) false
            ((s.ahead c.len).setBlkEntry b (State.zigzag (s.ahead c.len) (next + run)) (BitVec.ofInt 16 (State.dequantise (s.ahead c.len) intra (State.zigzag (s.ahead c.len) (next + run)) level))) =
            coefLoop intra b (fuel + ps.length) (next + run + 1) false u := rfl
        rw [this, eq]
        simp only [indexAfter, List.isEmpty_cons, Bool.and_false, Bool.false_and]
        congr 1
        have l : u.ahead (bitCount cs) = { (s.ahead (bitCount (c :: cs))) with blk := u.blk } := by
          rw [hu, bitCount]
          simp only [State.setBlkEntry, State.setBlock, State.ahead, Nat.add_assoc, Reader.atBit_source, Reader.atBit_bitpos]
        rw [l]
        have : u.blk.set b blk = s.blk.set b blk := by
          show (s.blk.set b _).set b blk = _
          simp
        rw [this]

/-- The coefficient loop at the end of block. -/
theorem coefLoop_end {intra : Bool} {b : BlockNo} {fuel next : Nat} {s : State} (h : s.Decoding) (e : s.upcoming 0 2 = 2) :
    coefLoop intra b (fuel + 1) next false s = .ok () (s.ahead 2) := by
  rw [coefLoop, coef_eob h e]; rfl

/-- The coefficient loop at a fault. -/
theorem coefLoop_raises {intra : Bool} {b : BlockNo} {fuel next : Nat} {first : Bool} {s : State} (h : s.Decoding)
    {cause : Cause} {info used : Nat} (r : s.PairRaises b first next 0 cause info used) :
    coefLoop intra b (fuel + 1) next first s = .raised cause info (s.ahead used) := by
  rcases r with r | ⟨run, level, c, cp, hb, past, rfl, rfl, rfl⟩
  · rw [coefLoop, coef_raises h first r]; rfl
  · rw [coefLoop, coef_pair h cp hb, Res.bind_ok]
    simp only
    rw [if_pos past]

theorem State.PairRaises.ahead {s : State} {b : BlockNo} {first : Bool} {next o : Nat} {cause : Cause} {info used : Nat} {blk : Vector Block 6} {w : Working}
    (r : s.PairRaises b first next o cause info used) : State.PairRaises { s.ahead o with blk := blk, work := w } b first next 0 cause info used := by
  have up : ∀ n, State.upcoming { s.ahead o with blk := blk, work := w } 0 n = s.upcoming o n := by
    intro n; show (s.ahead o).upcoming 0 n = _; rw [State.ahead_upcoming, Nat.add_zero]
  unfold State.PairRaises State.CoefRaises at *
  simp only [up]
  exact r

/-! ### Stuffing and escapes -/

/-- A run of stuffing and escapes: each escape adds 33 (43_macroblock_decoder.md R235). -/
theorem mbaIncrementFrom_run (fuel : Nat) : ∀ (run : List (Row MbaSymbol)) (acc : Nat) (s : State), s.Decoding →
    (∀ r ∈ run, r ∈ s.params.tables.mba ∧ (r.sym = .stuffing ∨ r.sym = .escape)) → s.Holds 0 (run.map rowCode) →
    mbaIncrementFrom (fuel + run.length) acc s =
      mbaIncrementFrom fuel (acc + 33 * (run.map Row.sym).count .escape) (s.ahead (bitCount (run.map rowCode))) := by
  intro run
  induction run with
  | nil => intro acc s h _ _; simp [bitCount, State.ahead_zero h.reader]
  | cons r rest ih =>
    intro acc s h hr hold
    obtain ⟨mem, sym⟩ := hr r (by simp)
    obtain ⟨hb, hrest⟩ := hold
    rw [List.length_cons, ← Nat.add_assoc, mbaIncrementFrom, vlc_of_mem h.tables.mba .mba h.reader mem hb, Res.bind_ok]
    have := fun acc => ih acc (s.ahead r.len) (h.ahead r.len) (fun q hq => hr q (by simp [hq])) (by rw [State.ahead_holds]; simpa [rowCode] using hrest)
    rcases sym with e | e <;> rw [e] <;> simp only [this, State.ahead_ahead, List.map_cons, bitCount, rowCode, e]
    · simp
    · congr 1
      simp
      omega

/-- No such run is longer than the stream has bits. -/
theorem mbaRun_length {s : State} (h : s.Decoding) : ∀ (run : List (Row MbaSymbol)) (o : Nat),
    (∀ r ∈ run, r ∈ s.params.tables.mba ∧ (r.sym = .stuffing ∨ r.sym = .escape)) → s.Holds o (run.map rowCode) →
    run = [] ∨ o + run.length ≤ 8 * s.br.source.length := by
  intro run
  induction run with
  | nil => intro _ _ _; exact .inl rfl
  | cons r rest ih =>
    intro o hr hold
    obtain ⟨mem, sym⟩ := hr r (by simp)
    obtain ⟨hb, hrest⟩ := hold
    have len := (h.tables.mba.1 r mem).1
    have ins := h.tables.inside mem sym hb
    right
    rcases ih (o + r.len) (fun q hq => hr q (by simp [hq])) hrest with rfl | x
    · simp; omega
    · simp only [List.length_cons]; omega

end Sys2Proof.Machine
end

