-- ==== Sys2Proof/Laws/Sequences.lean ====
section
/-!
SUPPORT. A macroblock as the sequence of its unit operations (43_macroblock_decoder.md R240): what it says of an operation
inside the macroblock that the unit operation, run alone, completes or takes a fault.
-/

namespace Sys2Proof.Machine

theorem sequence_append {R : Instr → State → State → Prop} (l m : List Instr) : ∀ s t,
    Sequence R (l ++ m) s t ↔ ∃ u, Sequence R l s u ∧ Sequence R m u t := by
  induction l with
  | nil => intro s t; simp [Sequence]
  | cons i rest ih =>
    intro s t
    simp only [List.cons_append, Sequence, ih]
    constructor
    · rintro ⟨u, h, v, a, b⟩; exact ⟨v, ⟨u, h, a⟩, b⟩
    · rintro ⟨v, ⟨u, h, a⟩, b⟩; exact ⟨u, h, v, a, b⟩

theorem sequenceRaises_append (l m : List Instr) : ∀ s v,
    SequenceRaises (l ++ m) s v ↔ SequenceRaises l s v ∨ ∃ u, Sequence Parses l s u ∧ SequenceRaises m u v := by
  induction l with
  | nil => intro s v; simp [Sequence, SequenceRaises]
  | cons i rest ih =>
    intro s v
    simp only [List.cons_append, Sequence, SequenceRaises, ih]
    constructor
    · rintro (h | ⟨u, h, a | ⟨w, b, c⟩⟩)
      · exact .inl (.inl h)
      · exact .inl (.inr ⟨u, h, a⟩)
      · exact .inr ⟨w, ⟨u, h, b⟩, c⟩
    · rintro ((h | ⟨u, h, a⟩) | ⟨w, ⟨u, h, b⟩, c⟩)
      · exact .inl h
      · exact .inr ⟨u, h, .inl a⟩
      · exact .inr ⟨u, h, .inr ⟨w, b, c⟩⟩

/-- A state is known from its delivery of a result, if the operands of single steps are kept. -/
theorem State.of_answering {u t : State} {r r' : Result} (e : u.deliver r = t.answering r') (a : u.assembly = t.assembly) :
    t = u := by
  have : ({ u.deliver r with assembly := u.assembly } : State) = { t.answering r' with assembly := u.assembly } := by
    rw [e]
  rw [show ({ u.deliver r with assembly := u.assembly } : State) = u from rfl] at this
  rw [a] at this
  exact this.symm

/-- A parsing operation that completes is one that ended well. -/
theorem Parses.ok {α : Type} {i : Instr} {s t : State} {x : Res α} {d : α → Result} (p : Parses i s t)
    (e : exec i s = x.finish fun a s => s.deliver (d a)) (f : x.Fixes State.parsed s) : ∃ a, x = .ok a t := by
  obtain ⟨⟨r, er, as⟩, dr⟩ := p
  rw [e] at er
  cases x with
  | ok a u =>
    simp only [Res.finish_ok, Host.Outcome.next.injEq] at er
    have ua : u.assembly = s.assembly := congrArg (fun v => v.2.2) f
    exact ⟨a, by rw [State.of_answering er (ua.trans as.symm)]⟩
  | raised c i u =>
    simp only [Res.finish_raised, Host.Outcome.next.injEq] at er
    have ud : u.draws = s.draws := congrArg (fun v => v.2.1) f
    have := congrArg State.draws er
    simp only [faultEntry_draws, State.answering] at this
    omega
  | stop e => simp at er

/-- A parsing operation that takes a fault is one that raised it. -/
theorem Raises.raised {α : Type} {i : Instr} {s v : State} {x : Res α} {d : α → Result} (p : Raises i s v)
    (e : exec i s = x.finish fun a s => s.deliver (d a)) (f : x.Fixes State.parsed s) :
    ∃ c info u, x = .raised c info u ∧ v = faultEntry c info u := by
  obtain ⟨er, c, info, w, rfl, dr⟩ := p
  rw [e] at er
  cases x with
  | ok a u =>
    simp only [Res.finish_ok, Host.Outcome.next.injEq] at er
    have ud : u.draws = s.draws := congrArg (fun v => v.2.1) f
    have := congrArg State.draws er
    simp only [faultEntry_draws, State.deliver] at this
    omega
  | raised c i u =>
    simp only [Res.finish_raised, Host.Outcome.next.injEq] at er
    exact ⟨c, i, u, rfl, er.symm⟩
  | stop e => simp at er

/-- An operation that raises nothing and completes ended well. -/
theorem Does.ok {α : Type} {i : Instr} {s t : State} {x : Res α} {d : α → Result} (p : Does i s t)
    (e : exec i s = x.finish fun a s => s.deliver (d a)) (f : x.Fixes State.kept s) (nr : ∀ c i u, x ≠ .raised c i u) :
    ∃ a, x = .ok a t := by
  obtain ⟨r, er, as⟩ := p
  rw [e] at er
  cases x with
  | ok a u =>
    simp only [Res.finish_ok, Host.Outcome.next.injEq] at er
    have ua : u.assembly = s.assembly := congrArg (fun v => v.2.2) f
    exact ⟨a, by rw [State.of_answering er (ua.trans as.symm)]⟩
  | raised c i u => exact absurd rfl (nr c i u)
  | stop e => simp at er

/-! ### Scale, vectors, pattern -/

theorem macroblockQuantizerScale_exec (q : BitVec 5) (s : State) : exec (.macroblockQuantizerScale q) s =
    (scaleField q 1 s).finish fun _ s => s.deliver .nothing := rfl

theorem scaleField_fixes (q : BitVec 5) (s : State) : (scaleField q 1 s).Fixes State.parsed s := .ite rfl rfl

theorem macroblockQuant_eq {s : State} (h : s.br.InStep) (t : BitVec 5) (e : hasQuant t = true) :
    macroblockQuant t s = scaleField (BitVec.ofNat 5 (s.upcoming 0 5)) 1 s := by
  have lt := s.upcoming_lt 0 5
  rw [macroblockQuant, if_pos e, State.getBits_eq h 5 (by norm_num)]
  simp only [scaleField, State.consumeBits_eq h 5 (by norm_num)]
  have : (BitVec.ofNat 5 (s.upcoming 0 5) = 0) ↔ s.upcoming 0 5 = 0 := by
    rw [← BitVec.toNat_inj]
    simp
    omega
  simp only [this]

theorem scaleOps_ok {a b : State} (h : a.br.InStep) {t : BitVec 5} (p : Sequence Parses (a.scaleOps t) a b) :
    macroblockQuant t a = .ok () b := by
  unfold State.scaleOps at p
  split at p
  · next e =>
    obtain ⟨u, pu, rfl⟩ := p
    obtain ⟨_, x⟩ := pu.ok (macroblockQuantizerScale_exec _ _) (scaleField_fixes _ _)
    rw [macroblockQuant_eq h t e, x]
  · next e =>
    obtain rfl : b = a := p
    rw [macroblockQuant, if_neg e]

theorem scaleOps_raised {a v : State} (h : a.br.InStep) {t : BitVec 5} (p : SequenceRaises (a.scaleOps t) a v) :
    ∃ c info u, macroblockQuant t a = .raised c info u ∧ v = faultEntry c info u := by
  unfold State.scaleOps at p
  split at p
  · next e =>
    rcases p with p | ⟨_, _, p⟩
    · rw [macroblockQuant_eq h t e]
      exact p.raised (macroblockQuantizerScale_exec _ _) (scaleField_fixes _ _)
    · exact absurd p id
  · exact absurd p id

theorem rangeCode_sub : ∀ {code : BitVec 3}, code ≠ 0 → (code - 1).toNat = code.toNat - 1 := by decide


theorem decodeVector_ok {d : Direction} {code : BitVec 3} {fp : Bool} (hc : code ≠ 0) {a b : State}
    (p : Sequence Parses [.mvrDecode d .x (code - 1) fp, .mvrDecode d .y (code - 1) fp] a b) :
    decodeVector d code fp a = .ok () b := by
  obtain ⟨u, pu, w, pw, rfl⟩ := p
  obtain ⟨_, x⟩ := pu.ok (x := decodeComponent d .x (code - 1).toNat fp a) (d := .motion) rfl (decodeComponent_fixes ..)
  obtain ⟨_, y⟩ := pw.ok (x := decodeComponent d .y (code - 1).toNat fp u) (d := .motion) rfl (decodeComponent_fixes ..)
  have : (code - 1).toNat = code.toNat - 1 := rangeCode_sub hc
  rw [decodeVector, if_neg hc, ← this, x, Res.bind_ok, y, Res.bind_ok]

theorem decodeVector_raised {d : Direction} {code : BitVec 3} {fp : Bool} (hc : code ≠ 0) {a v : State}
    (p : SequenceRaises [.mvrDecode d .x (code - 1) fp, .mvrDecode d .y (code - 1) fp] a v) :
    ∃ c info u, decodeVector d code fp a = .raised c info u ∧ v = faultEntry c info u := by
  have : (code - 1).toNat = code.toNat - 1 := rangeCode_sub hc
  rw [decodeVector, if_neg hc, ← this]
  rcases p with p | ⟨u, pu, p | ⟨_, _, p⟩⟩
  · obtain ⟨c, i, w, x, rfl⟩ :=
      p.raised (x := decodeComponent d .x (code - 1).toNat fp a) (d := .motion) rfl (decodeComponent_fixes ..)
    exact ⟨c, i, w, by rw [x]; rfl, rfl⟩
  · obtain ⟨_, x⟩ := pu.ok (x := decodeComponent d .x (code - 1).toNat fp a) (d := .motion) rfl (decodeComponent_fixes ..)
    obtain ⟨c, i, w, y, rfl⟩ :=
      p.raised (x := decodeComponent d .y (code - 1).toNat fp u) (d := .motion) rfl (decodeComponent_fixes ..)
    exact ⟨c, i, w, by rw [x, Res.bind_ok, y]; rfl, rfl⟩
  · exact absurd p id

theorem forwardVector_ok {t : BitVec 5} {a b : State} {code : BitVec 3} {fp : Bool} (pc : a.pic.forwardCode = code)
    (pf : a.pic.fullPelForward = fp) (hc : hasForward t = true → code ≠ 0)
    (p : Sequence Parses (if hasForward t then
      [.mvrDecode .forward .x (code - 1) fp, .mvrDecode .forward .y (code - 1) fp] else []) a b) : forwardVector t a = .ok () b := by
  unfold forwardVector
  split at p
  · next e => rw [if_pos e, pc, pf]; exact decodeVector_ok (hc e) p
  · next e => obtain rfl : b = a := p; rw [if_neg e]

theorem forwardVector_raised {t : BitVec 5} {a v : State} {code : BitVec 3} {fp : Bool} (pc : a.pic.forwardCode = code)
    (pf : a.pic.fullPelForward = fp) (hc : hasForward t = true → code ≠ 0)
    (p : SequenceRaises (if hasForward t then
      [.mvrDecode .forward .x (code - 1) fp, .mvrDecode .forward .y (code - 1) fp] else []) a v) :
    ∃ c info u, forwardVector t a = .raised c info u ∧ v = faultEntry c info u := by
  unfold forwardVector
  split at p
  · next e => rw [if_pos e, pc, pf]; exact decodeVector_raised (hc e) p
  · exact absurd p id

theorem backwardVector_ok {t : BitVec 5} {a b : State} {code : BitVec 3} {fp : Bool} (pc : a.pic.backwardCode = code)
    (pf : a.pic.fullPelBackward = fp) (hc : hasBackward t = true → code ≠ 0)
    (p : Sequence Parses (if hasBackward t then
      [.mvrDecode .backward .x (code - 1) fp, .mvrDecode .backward .y (code - 1) fp] else []) a b) :
    backwardVector t a = .ok () b := by
  unfold backwardVector
  split at p
  · next e => rw [if_pos e, pc, pf]; exact decodeVector_ok (hc e) p
  · next e => obtain rfl : b = a := p; rw [if_neg e]

theorem backwardVector_raised {t : BitVec 5} {a v : State} {code : BitVec 3} {fp : Bool} (pc : a.pic.backwardCode = code)
    (pf : a.pic.fullPelBackward = fp) (hc : hasBackward t = true → code ≠ 0)
    (p : SequenceRaises (if hasBackward t then
      [.mvrDecode .backward .x (code - 1) fp, .mvrDecode .backward .y (code - 1) fp] else []) a v) :
    ∃ c info u, backwardVector t a = .raised c info u ∧ v = faultEntry c info u := by
  unfold backwardVector
  split at p
  · next e => rw [if_pos e, pc, pf]; exact decodeVector_raised (hc e) p
  · exact absurd p id

theorem macroblockPattern_ok (t : BitVec 5) (s b : State) (p : Sequence Parses (if hasPattern t && !hasIntra t then [.vldCbp] else []) s b) :
    macroblockPattern t s = .ok () { b with work := { b.work with cbp := if hasIntra t then 63 else if hasPattern t then b.work.cbp else 0 } } := by
  unfold macroblockPattern
  cases hi : hasIntra t <;> cases hp : hasPattern t <;> simp only [hi, hp] at p ⊢ <;>
    simp only [Bool.and_true, Bool.and_false, Bool.not_true, Bool.not_false, Bool.false_eq_true, if_true, if_false] at p ⊢
  · obtain rfl : b = s := p; rfl
  · obtain ⟨u, pu, rfl⟩ := p
    obtain ⟨v, x⟩ := pu.ok (x := codedPattern s) (d := fun v => .symbol (.cbp v)) rfl (codedPattern_fixes s)
    rw [x]; rfl
  · obtain rfl : b = s := p; rfl
  · obtain rfl : b = s := p; rfl

theorem macroblockPattern_raised (t : BitVec 5) (s v : State) (p : SequenceRaises (if hasPattern t && !hasIntra t then [.vldCbp] else []) s v) :
    ∃ c info u, macroblockPattern t s = .raised c info u ∧ v = faultEntry c info u := by
  split at p
  · next e =>
    simp only [Bool.and_eq_true, Bool.not_eq_true'] at e
    rcases p with p | ⟨_, _, p⟩
    · obtain ⟨c, i, w, x, rfl⟩ := p.raised (x := codedPattern s) (d := fun v => .symbol (.cbp v)) rfl (codedPattern_fixes s)
      exact ⟨c, i, w, by rw [macroblockPattern, e.2, if_neg (by simp), if_pos e.1, x]; rfl, rfl⟩
    · exact absurd p id
  · exact absurd p id

/-! ### Coded blocks -/

/-- The coded blocks one after the other. -/
theorem codedBlocks_ok (f : BlockNo → State → Res Unit) (op : BlockNo → Instr)
    (ex : ∀ b s, exec (op b) s = (f b s).finish fun _ s => s.deliver .nothing)
    (fx : ∀ b s, (f b s).Fixes State.blockView s) (cbp : BitVec 6) (l : List BlockNo) : ∀ s t, s.work.cbp = cbp →
    Sequence Parses ((l.filter (isCoded cbp)).map op) s t → codedBlocks f l s = .ok () t := by
  induction l with
  | nil => intro s t _ p; obtain rfl : t = s := p; rfl
  | cons b rest ih =>
    intro s t e p
    rw [codedBlocks, e]
    by_cases c : isCoded cbp b = true
    · rw [List.filter_cons_of_pos (by simpa using c), List.map_cons] at p
      obtain ⟨u, pu, pr⟩ := p
      obtain ⟨_, x⟩ := pu.ok (ex b s) ((fx b s).map Prod.snd)
      have := fx b s
      rw [x] at this
      rw [if_pos c, x, Res.bind_ok]
      exact ih u t ((congrArg Prod.fst this).trans e) pr
    · rw [List.filter_cons_of_neg (by simpa using c)] at p
      rw [if_neg c, Res.bind_ok]
      exact ih s t e p

theorem codedBlocks_raised (f : BlockNo → State → Res Unit) (op : BlockNo → Instr)
    (ex : ∀ b s, exec (op b) s = (f b s).finish fun _ s => s.deliver .nothing)
    (fx : ∀ b s, (f b s).Fixes State.blockView s) (cbp : BitVec 6) (l : List BlockNo) : ∀ s v, s.work.cbp = cbp →
    SequenceRaises ((l.filter (isCoded cbp)).map op) s v →
    ∃ c info u, codedBlocks f l s = .raised c info u ∧ v = faultEntry c info u := by
  induction l with
  | nil => intro s v _ p; exact absurd p id
  | cons b rest ih =>
    intro s v e p
    rw [codedBlocks, e]
    by_cases c : isCoded cbp b = true
    · rw [List.filter_cons_of_pos (by simpa using c), List.map_cons] at p
      rcases p with p | ⟨u, pu, pr⟩
      · obtain ⟨c', i, w, x, rfl⟩ := p.raised (ex b s) ((fx b s).map Prod.snd)
        exact ⟨c', i, w, by rw [if_pos c, x]; rfl, rfl⟩
      · obtain ⟨_, x⟩ := pu.ok (ex b s) ((fx b s).map Prod.snd)
        have := fx b s
        rw [x] at this
        rw [if_pos c, x, Res.bind_ok]
        exact ih u v ((congrArg Prod.fst this).trans e) pr
    · rw [List.filter_cons_of_neg (by simpa using c)] at p
      rw [if_neg c, Res.bind_ok]
      exact ih s v e p

/-! ### Prediction and residual -/

/-- A predictor in its range survives 16 bits. -/
theorem predictor_toInt {v : Int} (h : -2048 ≤ v ∧ v ≤ 2046) : (BitVec.ofInt 16 v).toInt = v := by
  rw [BitVec.toInt_ofInt, Int.bmod_def]
  norm_num
  omega

theorem hpiForm_ok {d : Direction} {X Y : BitVec 8} {v : MotionVector} {a b : State} (hx : -2048 ≤ v.x ∧ v.x ≤ 2046)
    (hy : -2048 ≤ v.y ∧ v.y ≤ 2046)
    (p : Does (.hpiForm d X Y (BitVec.ofInt 16 v.x) (BitVec.ofInt 16 v.y)) a b) :
    formPrediction d X.toNat Y.toNat v a = .ok () b := by
  obtain ⟨_, x⟩ := p.ok (x := formPrediction d X.toNat Y.toNat v a) (d := fun _ => .nothing)
    (by show (formPrediction d X.toNat Y.toNat ⟨(BitVec.ofInt 16 v.x).toInt, (BitVec.ofInt 16 v.y).toInt⟩ a).finish noResult = _
        rw [predictor_toInt hx, predictor_toInt hy]; rfl)
    (predict_fixes ..) (by
      intro c i u
      simp only [formPrediction, predict, State.withTarget]
      split
      · simp
      · simp
      · split <;> simp)
  exact x

theorem hpiFormAvg_ok {d : Direction} {X Y : BitVec 8} {v : MotionVector} {a b : State} (hx : -2048 ≤ v.x ∧ v.x ≤ 2046)
    (hy : -2048 ≤ v.y ∧ v.y ≤ 2046)
    (p : Does (.hpiFormAvg d X Y (BitVec.ofInt 16 v.x) (BitVec.ofInt 16 v.y)) a b) :
    formAvgPrediction d X.toNat Y.toNat v a = .ok () b := by
  obtain ⟨_, x⟩ := p.ok (x := formAvgPrediction d X.toNat Y.toNat v a) (d := fun _ => .nothing)
    (by show (formAvgPrediction d X.toNat Y.toNat ⟨(BitVec.ofInt 16 v.x).toInt, (BitVec.ofInt 16 v.y).toInt⟩ a).finish noResult = _
        rw [predictor_toInt hx, predictor_toInt hy]; rfl)
    (predict_fixes ..) (by
      intro c i u
      simp only [formAvgPrediction, predict, State.withTarget]
      split
      · simp
      · simp
      · split <;> simp)
  exact x

theorem predict_work {avg : Bool} {ref : Direction} {mbX mbY : Nat} {dx dy : Int} {s t : State}
    (e : predict avg ref mbX mbY dx dy s = .ok () t) : t.work = s.work ∧ t.pic = s.pic := by
  unfold predict State.withTarget at e
  split at e
  · simp at e
  · simp at e
  · split at e
    · simp only [Res.ok.injEq, true_and] at e
      rw [← e]
      exact ⟨rfl, rfl⟩
    · simp at e

theorem residualOps_ok (intra : Bool) (X Y : BitVec 8) (cbp : BitVec 6) (l : List BlockNo) : ∀ s t, s.work.cbp = cbp →
    Sequence Does ((l.filter (isCoded cbp)).flatMap fun b => [.idctBlock b, if intra then .mbtPutIntra b X Y else .mbtAddInter b X Y]) s t →
    codedBlocks (reconstructBlock intra X.toNat Y.toNat) l s = .ok () t := by
  induction l with
  | nil => intro s t _ p; obtain rfl : t = s := p; rfl
  | cons b rest ih =>
    intro s t e p
    rw [codedBlocks, e]
    by_cases c : isCoded cbp b = true
    · rw [List.filter_cons_of_pos (by simpa using c), List.flatMap_cons] at p
      obtain ⟨u, ⟨r, ed, ea⟩, w, pw, pr⟩ := p
      have hu : u = s.setBlock b (idct s.blk[b]) := by
        have : exec (.idctBlock b) s = .next ((s.setBlock b (idct s.blk[b])).deliver .nothing) := rfl
        rw [this, Host.Outcome.next.injEq] at ed
        exact State.of_answering ed (by rw [ea]; rfl)
      subst hu
      have tl : tile intra b X.toNat Y.toNat (s.setBlock b (idct s.blk[b])) = .ok () w := by
        obtain ⟨_, x⟩ := pw.ok (x := tile intra b X.toNat Y.toNat (s.setBlock b (idct s.blk[b]))) (d := fun _ => .nothing)
          (by cases intra <;> rfl) (tile_fixes ..) (by
            intro c i u
            simp only [tile, State.withTarget]
            split
            · simp
            · simp
            · split <;> simp)
        exact x
      rw [if_pos c]
      show ((tile intra b X.toNat Y.toNat (s.setBlock b (idct s.blk[b]))).bind _) = _
      have fx := tile_fixes intra b X.toNat Y.toNat (s.setBlock b (idct s.blk[b]))
      rw [tl] at fx ⊢
      rw [Res.bind_ok]
      exact ih w t ((congrArg Prod.fst fx).trans e) pr
    · rw [List.filter_cons_of_neg (by simpa using c)] at p
      rw [if_neg c, Res.bind_ok]
      exact ih s t e p

theorem vldMbtype_exec (s : State) : exec .vldMbtype s = (macroblockType s).finish fun t s => s.deliver (.symbol (.mbType t)) := rfl

theorem macroblockType_ok {s a : State} (p : Parses .vldMbtype s a) : macroblockType s = .ok a.work.mbType a := by
  obtain ⟨t, x⟩ := p.ok (d := fun t => .symbol (.mbType t)) (vldMbtype_exec s) (macroblockType_fixes s)
  have y := x
  rw [macroblockType, Res.bind_eq_ok] at y
  obtain ⟨t', u, _, z⟩ := y
  simp only [Res.ok.injEq] at z
  rw [x, ← z.2, ← z.1]
  rfl

/-- The parsing of a macroblock whose head completes (R240). -/
theorem parseMacroblock_ok {s a b : State} {t : BitVec 5} (hs : s.Decoding) (ha : macroblockType s = .ok t a)
    (hf : hasForward t = true → s.pic.forwardCode ≠ 0) (hb : hasBackward t = true → s.pic.backwardCode ≠ 0)
    (hd : Sequence Parses (a.headOps t) a b) : a.Decoding ∧ a.pic = s.pic ∧
    (parseMacroblock s = (codedBlocks (if hasIntra t then intraBlock else interBlock) allBlocks (b.beforeBlocks t)).bind
      fun _ s => .ok t s) ∧ s.DecodesTo b := by
  have k := macroblockType_keeps hs
  rw [ha] at k
  have ka : s.DecodesTo a := k
  have da := ka.decoding hs
  unfold State.headOps at hd
  rw [sequence_append, ] at hd
  obtain ⟨b3, hd, h4⟩ := hd
  rw [sequence_append] at hd
  obtain ⟨b2, hd, h3⟩ := hd
  rw [sequence_append] at hd
  obtain ⟨b1, h1, h2⟩ := hd
  have e1 := scaleOps_ok da.reader h1
  have k1 := (macroblockQuant_decodes t da.reader).keeps
  rw [e1] at k1
  have k1 : a.DecodesTo b1 := k1
  have p1 : b1.pic = a.pic := k1.pic
  have e2 : forwardVector t b1 = .ok () b2 := forwardVector_ok (by rw [p1]) (by rw [p1]) (by rw [ka.pic]; exact hf) h2
  have k2 : b1.DecodesTo b2 := by
    have := forwardVector_keeps t (k1.decoding da)
    rw [e2] at this; exact this
  have p2 : b2.pic = a.pic := k2.pic.trans p1
  have e3 : backwardVector t b2 = .ok () b3 := backwardVector_ok (by rw [p2]) (by rw [p2]) (by rw [ka.pic]; exact hb) h3
  have k3 : b2.DecodesTo b3 := by
    have := backwardVector_keeps t ((k1.trans k2).decoding da)
    rw [e3] at this; exact this
  have e4 := macroblockPattern_ok t b3 b h4
  have k4 := (macroblockPattern_decodes t ((k1.trans (k2.trans k3)).decoding da)).keeps
  rw [e4] at k4
  refine ⟨da, ka.pic, ?_, ?_⟩
  · unfold parseMacroblock
    rw [ha, Res.bind_ok, e1, Res.bind_ok, macroblockVectors, e2, Res.bind_ok, e3, Res.bind_ok, e4, Res.bind_ok]
    rfl
  · have kb : b3.DecodesTo b := by
      have : b3.DecodesTo { b with work := { b.work with cbp := if hasIntra t then 63 else if hasPattern t then b.work.cbp else 0 } } := k4
      exact (this.trans (State.decodesTo_work this.inStep b.work id))
    exact ((ka.trans k1).trans (k2.trans k3)).trans kb

/-- A fault in the head of a macroblock is that of the macroblock. -/
theorem seqMacroblock_headRaises {s a v : State} {t : BitVec 5} (hs : s.Decoding) (ha : macroblockType s = .ok t a)
    (hf : hasForward t = true → s.pic.forwardCode ≠ 0) (hb : hasBackward t = true → s.pic.backwardCode ≠ 0)
    (hd : SequenceRaises (a.headOps t) a v) : exec .seqMacroblock s = .next v := by
  have k := macroblockType_keeps hs
  rw [ha] at k
  have ka : s.DecodesTo a := k
  have da := ka.decoding hs
  suffices h : ∃ c info u, parseMacroblock s = .raised c info u ∧ v = faultEntry c info u by
    obtain ⟨c, i, u, e, rfl⟩ := h
    show ((parseMacroblock s).bind _).finish _ = _
    rw [e]; rfl
  unfold parseMacroblock
  rw [ha, Res.bind_ok]
  unfold State.headOps at hd
  rw [sequenceRaises_append] at hd
  simp only [sequenceRaises_append, sequence_append] at hd
  rcases hd with ((h | ⟨b1, h1, h⟩) | ⟨b2, ⟨b1, h1, h2⟩, h⟩) | ⟨b3, ⟨b2, ⟨b1, h1, h2⟩, h3⟩, h⟩
  · obtain ⟨c, i, u, e, rfl⟩ := scaleOps_raised da.reader h
    exact ⟨c, i, u, by rw [e]; rfl, rfl⟩
  all_goals
    have e1 := scaleOps_ok da.reader h1
    have k1 := (macroblockQuant_decodes t da.reader).keeps
    rw [e1] at k1
    have k1 : a.DecodesTo b1 := k1
    have p1 : b1.pic = a.pic := k1.pic
    rw [e1, Res.bind_ok, macroblockVectors]
  · obtain ⟨c, i, u, e, rfl⟩ := forwardVector_raised (by rw [p1]) (by rw [p1]) (by rw [ka.pic]; exact hf) h
    exact ⟨c, i, u, by rw [e]; rfl, rfl⟩
  all_goals
    have e2 : forwardVector t b1 = .ok () b2 := forwardVector_ok (by rw [p1]) (by rw [p1]) (by rw [ka.pic]; exact hf) h2
    have p2 : b2.pic = a.pic := by
      have := forwardVector_keeps t (k1.decoding da)
      rw [e2] at this; exact (State.DecodesTo.pic this).trans p1
    rw [e2, Res.bind_ok]
  · obtain ⟨c, i, u, e, rfl⟩ := backwardVector_raised (by rw [p2]) (by rw [p2]) (by rw [ka.pic]; exact hb) h
    exact ⟨c, i, u, by rw [e]; rfl, rfl⟩
  · have e3 : backwardVector t b2 = .ok () b3 := backwardVector_ok (by rw [p2]) (by rw [p2]) (by rw [ka.pic]; exact hb) h3
    obtain ⟨c, i, u, e, rfl⟩ := macroblockPattern_raised t b3 v h
    exact ⟨c, i, u, by rw [e3, Res.bind_ok, e]; rfl, rfl⟩

theorem seqMacroblock_forwardStop {s a b : State} {t : BitVec 5} (hs : s.Decoding) (ha : macroblockType s = .ok t a)
    (h : Sequence Parses (a.scaleOps t) a b) (hf : hasForward t = true) (z : s.pic.forwardCode = 0) :
    exec .seqMacroblock s = .fault .noRangeSize := by
  have k := macroblockType_keeps hs
  rw [ha] at k
  have ka : s.DecodesTo a := k
  have da := ka.decoding hs
  have e1 := scaleOps_ok da.reader h
  have k1 := (macroblockQuant_decodes t da.reader).keeps
  rw [e1] at k1
  have p1 : b.pic = s.pic := (State.DecodesTo.pic k1).trans ka.pic
  show ((parseMacroblock s).bind _).finish _ = _
  unfold parseMacroblock
  rw [ha, Res.bind_ok, e1, Res.bind_ok, macroblockVectors, forwardVector, if_pos hf, p1, decodeVector, if_pos z]
  rfl

theorem seqMacroblock_backwardStop {s a b : State} {t : BitVec 5} (hs : s.Decoding) (ha : macroblockType s = .ok t a)
    (hf : hasForward t = true → s.pic.forwardCode ≠ 0)
    (h : Sequence Parses (a.scaleOps t ++ a.forwardOps t) a b) (hb : hasBackward t = true) (z : s.pic.backwardCode = 0) :
    exec .seqMacroblock s = .fault .noRangeSize := by
  have k := macroblockType_keeps hs
  rw [ha] at k
  have ka : s.DecodesTo a := k
  have da := ka.decoding hs
  rw [sequence_append] at h
  obtain ⟨b1, h1, h2⟩ := h
  have e1 := scaleOps_ok da.reader h1
  have k1 := (macroblockQuant_decodes t da.reader).keeps
  rw [e1] at k1
  have k1 : a.DecodesTo b1 := k1
  have p1 : b1.pic = a.pic := k1.pic
  have e2 : forwardVector t b1 = .ok () b := forwardVector_ok (by rw [p1]) (by rw [p1]) (by rw [ka.pic]; exact hf) h2
  have p2 : b.pic = s.pic := by
    have := forwardVector_keeps t (k1.decoding da)
    rw [e2] at this; exact (State.DecodesTo.pic this).trans (p1.trans ka.pic)
  show ((parseMacroblock s).bind _).finish _ = _
  unfold parseMacroblock
  rw [ha, Res.bind_ok, e1, Res.bind_ok, macroblockVectors, e2, Res.bind_ok, backwardVector, if_pos hb, p2, decodeVector, if_pos z]
  rfl

/-! ### The whole macroblock -/

/-- The reconstruction of a macroblock by its unit operations (R248 to R253). -/
theorem reconstructMacroblock_ok {d e f g : State} {t : BitVec 5} {X Y : BitVec 8} (inv : StepInv d)
    (ty : d.pic.pictType = 1 ∨ d.pic.pictType = 2 ∨ d.pic.pictType = 3)
    (n1 : d.pic.pictType = 1 → hasIntra t = true)
    (n3 : d.pic.pictType = 3 → hasIntra t = true ∨ hasForward t = true ∨ hasBackward t = true)
    (gp : d.gridPosition d.work.mba = ((X.toNat, Y.toNat), e))
    (pf : Sequence Does ((e.beforePrediction t).predictionOps t X Y) (e.beforePrediction t) f)
    (pg : Sequence Does ((f.afterPrediction t).residualOps t X Y) (f.afterPrediction t) g) :
    reconstructMacroblock t d = .ok () g.discardBlocks := by
  have ew : e.work = d.work ∧ e.pic = d.pic ∧ d.DecodesTo e := by
    have := State.decodesTo_gridPosition inv.reader d.work.mba
    have w : (d.gridPosition d.work.mba).2.work = d.work := by unfold State.gridPosition; split <;> rfl
    have p : (d.gridPosition d.work.mba).2.pic = d.pic := by unfold State.gridPosition; split <;> rfl
    rw [gp] at this w p
    exact ⟨w, p, this⟩
  have einv : StepInv e := inv.decodesTo ew.2.2
  have pm := einv.predictors
  unfold reconstructMacroblock
  rw [gp]
  simp only
  have first : (if hasIntra t then .ok () (afterIntra e) else predictMacroblock t X.toNat Y.toNat e : Res Unit) =
      .ok () (f.afterPrediction t) := by
    cases hi : hasIntra t
    · simp only [Bool.false_eq_true, if_false]
      unfold predictMacroblock
      simp only [State.predictionOps, hi, Bool.false_eq_true, if_false] at pf
      have bp : (e.beforePrediction t).pic = e.pic := rfl
      rcases ty with ty | ty | ty
      · rw [n1 ty] at hi; simp at hi
      · have ty' : e.pic.pictType = 2 := by rw [ew.2.1]; exact ty
        rw [bp, if_pos ty'] at pf
        obtain ⟨u, pu, rfl⟩ := pf
        have st : (e.beforePrediction t) = (if hasForward t then e.clearDcPred else e.clearDcPred.clearForwardPmv) := by
          cases hfw : hasForward t <;> simp [State.beforePrediction, hi, hfw, ty', State.clearDcPred, State.clearForwardPmv]
        have rng : ∀ c, -2048 ≤ (e.beforePrediction t).work.pmv.get .forward c ∧ (e.beforePrediction t).work.pmv.get .forward c ≤ 2046 := by
          intro c
          rw [st]
          split
          · exact pm .forward c
          · cases c <;> (constructor <;> simp [Predictors.get, State.clearForwardPmv])
        have := hpiForm_ok (rng .x) (rng .y) pu
        have dp : e.clearDcPred.pic = e.pic := rfl
        simp only [dp, ty', if_true]
        rw [← st, this, State.afterPrediction, if_neg]
        rintro ⟨_, x⟩
        rw [(predict_work this).2, bp, ty'] at x
        simp at x
      · have ty' : e.pic.pictType = 3 := by rw [ew.2.1]; exact ty
        rw [bp, if_neg (by rw [ty']; decide)] at pf
        have st : (e.beforePrediction t) = e.clearDcPred := by
          simp [State.beforePrediction, hi, ty', State.clearDcPred]
        have dp : e.clearDcPred.pic = e.pic := rfl
        rw [if_neg (by rw [dp, ty']; decide)]
        rw [st] at pf
        have fin : f.pic = e.pic → (Res.ok () f).bind (fun _ s => Res.ok () (s.setPrevMotion (motionOf t))) = .ok () (f.afterPrediction t) := by
          intro pe
          rw [State.afterPrediction, if_pos ⟨hi, by rw [pe]; exact ty'⟩]
          rfl
        have rng : ∀ dd c, -2048 ≤ e.clearDcPred.work.pmv.get dd c ∧ e.clearDcPred.work.pmv.get dd c ≤ 2046 := pm
        unfold predictB motionOf
        cases hfw : hasForward t <;> cases hbw : hasBackward t <;> simp only [hfw, hbw] at pf ⊢ <;>
          simp only [Bool.false_eq_true, if_true, if_false]
        · rcases n3 ty with h | h | h <;> simp_all
        · obtain ⟨u, pu, rfl⟩ := pf
          have := hpiForm_ok (rng .backward .x) (rng .backward .y) pu
          rw [this]
          simpa [motionOf, hfw, hbw] using fin (predict_work this).2
        · obtain ⟨u, pu, rfl⟩ := pf
          have := hpiForm_ok (rng .forward .x) (rng .forward .y) pu
          rw [this]
          simpa [motionOf, hfw, hbw] using fin (predict_work this).2
        · obtain ⟨u, pu, w, pw, rfl⟩ := pf
          have x := hpiForm_ok (rng .forward .x) (rng .forward .y) pu
          rw [x]
          simp only [Res.bind_ok]
          have wk := predict_work x
          rw [wk.1]
          have y := hpiFormAvg_ok (rng .backward .x) (rng .backward .y) pw
          rw [y]
          simpa [motionOf, hfw, hbw] using fin ((predict_work y).2.trans wk.2)
    · simp only [if_true]
      simp only [State.predictionOps, hi, if_true] at pf
      obtain rfl : f = e.beforePrediction t := pf
      rw [State.afterPrediction, if_neg (by simp [hi])]
      simp only [State.beforePrediction, hi, if_true, afterIntra]
      congr 1
      split
      · simp [State.setPrevMotion, State.clearForwardPmv, *]
      · split
        · simp [State.setPrevMotion, State.clearPmv, *]
        · simp [State.setPrevMotion, *]
  rw [first, Res.bind_ok]
  have := residualOps_ok (hasIntra t) X Y (f.afterPrediction t).work.cbp allBlocks (f.afterPrediction t) g rfl pg
  rw [this]
  rfl

end Sys2Proof.Machine
end

