-- ==== Sys2Proof/Tests/Slice0.lean ====
section
/-!
SUPPORT. The model's own tests. Each expected value comes from the spec: the encodings of its opcode table, the examples
of its rules, or the vectors of 95_test_vectors.md; the comment names the source. The last part shows, for every obligation
with hypotheses, a concrete state and operands that meet them.
-/

namespace Sys2Proof.Tests

open Sys2Proof Sys2Proof.Machine

/-! ### Small states -/

/-- Bytes from numbers. -/
def octetList (l : List Nat) : List Byte := l.map (BitVec.ofNat 8)

/-- The state after reset over a stream, `pos` bits consumed. -/
def onStream (l : List Nat) (pos : Nat) : State := { State.reset with br := Reader.atBit (octetList l) pos }

/-- The state after reset over a stream of `n` bits, the first most significant. -/
def onBits (n v : Nat) : State :=
  onStream ((List.range ((n + 7) / 8)).map fun i => v * 2 ^ (8 * ((n + 7) / 8) - n) / 2 ^ (8 * ((n + 7) / 8 - 1 - i)) % 256) 0

/-- An open session over a stream with a known sequence of one macroblock, in an I-picture with quantiser scale 1 that
is written to buffer 0. -/
def inPicture (l : List Nat) (pos : Nat) : State :=
  { onStream l pos with
    session := .opened
    seq :=
      { State.reset.seq with
        codedWidth := 16, codedHeight := 16, mbCols := 1, mbRows := 1, seqKnown := true }
    pic := { State.reset.pic with pictType := 1 }
    work := { State.reset.work with quantizerScale := 1 }
    frames := some ⟨16, 16, 0, []⟩
    roles := { State.reset.roles with cur := some 0 }
    draws := 1 }

/-- The next state of an instruction, if it answers one. -/
def after (i : Instr) (s : State) : Option State :=
  match exec i s with
  | .next t => some t
  | .fault _ | .refused _ => none

/-- What an instruction delivers. -/
def delivers (i : Instr) (s : State) : Option Result := (after i s).map fun t => t.assembly.result

/-- The cause and information word an instruction leaves, if it takes a fault. -/
def faultOf (i : Instr) (s : State) : Option (Nat × Nat) :=
  (after i s).bind fun t => if t.status.fault then some (t.status.faultCause.toNat, t.status.faultInfo.toNat) else none

/-- The cursor after an instruction. -/
def cursor (i : Instr) (s : State) : Option Nat := (after i s).map fun t => t.br.bitpos

/-- The accumulator, its count, the position and the bytes pulled. -/
def readerOf (i : Instr) (s : State) : Option (Nat × Int × Nat × Nat) :=
  (after i s).map fun t => (t.br.bfr.toNat, t.br.incnt, t.br.bitpos, t.br.srcPos)

/-- Entry `k` of block `b` after an instruction. -/
def entryAfter (i : Instr) (s : State) (b : BlockNo) (k : Fin 64) : Option Int := (after i s).map fun t => t.blk[b][k].toInt

/-- A state with one coefficient written to block 0. -/
def withCoef (s : State) (k : Nat) (v : Int) : State := s.setBlkEntry 0 k (BitVec.ofInt 16 v)

/-! ### Ill-formed terms -/

/-- Every check of `Instr.check` refuses a term outside its range. -/
theorem test_ill_formed_terms_are_refused : ∀ i ∈ ([
    .cmdUndefined 1, .cmdUndefined 5, .scSlice 0, .scSlice 0xB0, .scUnrecognised 0xAF, .scUnrecognised 0xB3,
    .scUnrecognised 0xB7, .scUnrecognised 0xB8, .motionResidual 0 0, .motionResidual 7 0, .motionResidual 2 4,
    .dctDcDifferential 0 0, .dctDcDifferential 9 0, .dctDcDifferential 3 8, .brPeek 0, .brPeek 33, .brConsume 33,
    .brGet 33, .iqIntraAc 0 1 1, .iqIntraAc 1 0 1, .iqInter 0 1 1, .iqInter 1 0 1, .mvrDecode .forward .x 7 false,
    .coefEscape20 3 0, .coefEscape20 3 0x80] : List Instr), i.check = false := by decide

/-- The terms at the ends of those ranges are well-formed. -/
theorem test_terms_at_the_ends_are_well_formed : ∀ i ∈ ([
    .cmdUndefined 0, .cmdUndefined 6, .scSlice 1, .scSlice 0xAF, .scUnrecognised 0xB0, .scUnrecognised 0xFF,
    .motionResidual 1 1, .motionResidual 6 63, .dctDcDifferential 1 1, .dctDcDifferential 8 255, .brPeek 1, .brPeek 32,
    .brConsume 0, .brConsume 32, .brGet 32, .iqIntraAc (-1) 31 0, .iqInter 1 1 255, .mvrDecode .forward .x 6 false,
    .coefEscape20 63 0x7F, .coefEscape20 0 0x81] : List Instr), i.check = true := by decide

/-- An ill-formed word is refused by name: a zero peek, an unknown table, a word of `T_MBA` that is none. -/
theorem test_decoder_refuses : decode .unitOp (bytesWindow [0x11, 0xFF]) = none ∧ decode .unitOp (bytesWindow [0x20, 9]) = none ∧
    decode .unitOp (bytesWindow [0x17]) = none ∧ decode (.vlc .mba) (0b00000000 * 2 ^ 56) = none := by decide

/-- The matrix registers and the memory after reset: the default matrix, nothing listed. -/
theorem test_reset_memory_is_canonical : Memory.wf ((State.reset.frames.map FrameStore.mem).getD []) = true := by decide

/-! ### Decoding -/

/-- Host commands (30_encoding.md R133), each word written out from the encoding the opcode table gives its row. -/
theorem test_decode_commands : ∀ r ∈ ([
    (0b00000001_00000011 * 2 ^ 48, .cmdOpen 0b00000011),
    (0b00000010 * 2 ^ 56, .cmdReset),
    (0b00000011 * 2 ^ 56, .cmdDecodeNext),
    (0b00000100 * 2 ^ 56, .cmdGetFrame),
    (0b00000101 * 2 ^ 56, .cmdClose),
    (0b00000000 * 2 ^ 56, .cmdUndefined 0),
    (0b00000110 * 2 ^ 56, .cmdUndefined 6),
    (0b11111111 * 2 ^ 56, .cmdUndefined 0xFF)] : List (Nat × Instr)), decode .command r.1 = some r.2 := by decide

/-- Start codes (30_encoding.md R121), each word written out from the encoding the opcode table gives its row. -/
theorem test_decode_start_codes : ∀ r ∈ ([
    (0b00000000000000000000000100000000 * 2 ^ 32, .scPicture),
    (0b00000000000000000000000100000001 * 2 ^ 32, .scSlice 0x01),
    (0b00000000000000000000000110101111 * 2 ^ 32, .scSlice 0xAF),
    (0b00000000000000000000000110110011 * 2 ^ 32, .scSequenceHeader),
    (0b00000000000000000000000110110111 * 2 ^ 32, .scSequenceEnd),
    (0b00000000000000000000000110111000 * 2 ^ 32, .scGroup),
    (0b00000000000000000000000110110000 * 2 ^ 32, .scUnrecognised 0xB0),
    (0b00000000000000000000000110110101 * 2 ^ 32, .scUnrecognised 0xB5),
    (0b00000000000000000000000111111111 * 2 ^ 32, .scUnrecognised 0xFF)] : List (Nat × Instr)), decode .startCode r.1 = some r.2 := by decide

/-- Fields (30_encoding.md R123 to R130), each word written out from the encoding the opcode table gives its row. -/
theorem test_decode_fields : ∀ r ∈ ([
    (.field .horizontalSize, 0b110110011100 * 2 ^ 52, .horizontalSize 0b110110011100),
    (.field .verticalSize, 0b110110011100 * 2 ^ 52, .verticalSize 0b110110011100),
    (.field .aspectRatioCode, 0b1101 * 2 ^ 60, .aspectRatioCode 0b1101),
    (.field .frameRateCode, 0b1101 * 2 ^ 60, .frameRateCode 0b1101),
    (.field .bitRateValue, 0b110110011100010110 * 2 ^ 46, .bitRateValue 0b110110011100010110),
    (.field .markerBit, 0b1 * 2 ^ 63, .markerBit true),
    (.field .vbvBufferSize, 0b1101100111 * 2 ^ 54, .vbvBufferSize 0b1101100111),
    (.field .constrainedParametersFlag, 0b1 * 2 ^ 63, .constrainedParametersFlag true),
    (.field .loadIntraQuantizerMatrix, 0b1 * 2 ^ 63, .loadIntraQuantizerMatrix true),
    (.field .intraQuantizerMatrixEntry, 0b11011001 * 2 ^ 56, .intraQuantizerMatrixEntry 0b11011001),
    (.field .loadNonIntraQuantizerMatrix, 0b1 * 2 ^ 63, .loadNonIntraQuantizerMatrix true),
    (.field .nonIntraQuantizerMatrixEntry, 0b11011001 * 2 ^ 56, .nonIntraQuantizerMatrixEntry 0b11011001),
    (.field .sequenceHeaderSkip, 0b11011001110001011011100101101001110110010110100111001101100111 * 2 ^ 2, .sequenceHeaderSkip 0b11011001110001011011100101101001110110010110100111001101100111),
    (.field .gopTimeCodeAndFlags, 0b110110011100010110111001011 * 2 ^ 37, .gopTimeCodeAndFlags 0b110110011100010110111001011),
    (.field .temporalReference, 0b1101100111 * 2 ^ 54, .temporalReference 0b1101100111),
    (.field .pictureCodingType, 0b110 * 2 ^ 61, .pictureCodingType 0b110),
    (.field .vbvDelay, 0b1101100111000101 * 2 ^ 48, .vbvDelay 0b1101100111000101),
    (.field .fullPelForwardVector, 0b1 * 2 ^ 63, .fullPelForwardVector true),
    (.field .forwardFCode, 0b110 * 2 ^ 61, .forwardFCode 0b110),
    (.field .fullPelBackwardVector, 0b1 * 2 ^ 63, .fullPelBackwardVector true),
    (.field .backwardFCode, 0b110 * 2 ^ 61, .backwardFCode 0b110),
    (.field .extraInformationPicture, 0b111011001 * 2 ^ 55, .extraInformationPicture 0b11011001),
    (.field .extraBitPictureEnd, 0b0 * 2 ^ 63, .extraBitPictureEnd),
    (.field .sliceQuantizerScale, 0b11011 * 2 ^ 59, .sliceQuantizerScale 0b11011),
    (.field .extraInformationSlice, 0b111011001 * 2 ^ 55, .extraInformationSlice 0b11011001),
    (.field .extraBitSliceEnd, 0b0 * 2 ^ 63, .extraBitSliceEnd),
    (.field .macroblockQuantizerScale, 0b11011 * 2 ^ 59, .macroblockQuantizerScale 0b11011),
    (.field (.motionResidual 3), 0b101 * 2 ^ 61, .motionResidual 3 0b101),
    (.field (.dctDcDifferential 4), 0b0110 * 2 ^ 60, .dctDcDifferential 4 0b0110)] : List (Channel × Nat × Instr)),
    decode r.1 r.2.1 = some r.2.2 := by decide

/-- Code words of `T_MBA` (44_vlc_decoder.md R271), each word written out from the encoding the opcode table gives its
row. -/
theorem test_decode_table_mba : ∀ r ∈ ([
    (0b1 * 2 ^ 63, .mbaInc1),
    (0b011 * 2 ^ 61, .mbaInc2),
    (0b010 * 2 ^ 61, .mbaInc3),
    (0b0011 * 2 ^ 60, .mbaInc4),
    (0b0010 * 2 ^ 60, .mbaInc5),
    (0b00011 * 2 ^ 59, .mbaInc6),
    (0b00010 * 2 ^ 59, .mbaInc7),
    (0b0000111 * 2 ^ 57, .mbaInc8),
    (0b0000110 * 2 ^ 57, .mbaInc9),
    (0b00001011 * 2 ^ 56, .mbaInc10),
    (0b00001010 * 2 ^ 56, .mbaInc11),
    (0b00001001 * 2 ^ 56, .mbaInc12),
    (0b00001000 * 2 ^ 56, .mbaInc13),
    (0b00000111 * 2 ^ 56, .mbaInc14),
    (0b00000110 * 2 ^ 56, .mbaInc15),
    (0b0000010111 * 2 ^ 54, .mbaInc16),
    (0b0000010110 * 2 ^ 54, .mbaInc17),
    (0b0000010101 * 2 ^ 54, .mbaInc18),
    (0b0000010100 * 2 ^ 54, .mbaInc19),
    (0b0000010011 * 2 ^ 54, .mbaInc20),
    (0b0000010010 * 2 ^ 54, .mbaInc21),
    (0b00000100011 * 2 ^ 53, .mbaInc22),
    (0b00000100010 * 2 ^ 53, .mbaInc23),
    (0b00000100001 * 2 ^ 53, .mbaInc24),
    (0b00000100000 * 2 ^ 53, .mbaInc25),
    (0b00000011111 * 2 ^ 53, .mbaInc26),
    (0b00000011110 * 2 ^ 53, .mbaInc27),
    (0b00000011101 * 2 ^ 53, .mbaInc28),
    (0b00000011100 * 2 ^ 53, .mbaInc29),
    (0b00000011011 * 2 ^ 53, .mbaInc30),
    (0b00000011010 * 2 ^ 53, .mbaInc31),
    (0b00000011001 * 2 ^ 53, .mbaInc32),
    (0b00000011000 * 2 ^ 53, .mbaInc33),
    (0b00000001111 * 2 ^ 53, .mbaStuffing),
    (0b00000001000 * 2 ^ 53, .mbaEscape)] : List (Nat × Instr)), decode (.vlc .mba) r.1 = some r.2 := by decide

/-- Code words of `T_MBT_I` (R272), each word written out from the encoding the opcode table gives its row. -/
theorem test_decode_table_mbt_i : ∀ r ∈ ([
    (0b1 * 2 ^ 63, .mbtIIntra),
    (0b01 * 2 ^ 62, .mbtIQuantIntra)] : List (Nat × Instr)), decode (.vlc .mbtI) r.1 = some r.2 := by decide

/-- Code words of `T_MBT_P` (R273), each word written out from the encoding the opcode table gives its row. -/
theorem test_decode_table_mbt_p : ∀ r ∈ ([
    (0b1 * 2 ^ 63, .mbtPForwardPattern),
    (0b01 * 2 ^ 62, .mbtPPattern),
    (0b001 * 2 ^ 61, .mbtPForward),
    (0b00011 * 2 ^ 59, .mbtPIntra),
    (0b00010 * 2 ^ 59, .mbtPQuantForwardPattern),
    (0b00001 * 2 ^ 59, .mbtPQuantPattern),
    (0b000001 * 2 ^ 58, .mbtPQuantIntra)] : List (Nat × Instr)), decode (.vlc .mbtP) r.1 = some r.2 := by decide

/-- Code words of `T_MBT_B` (R274), each word written out from the encoding the opcode table gives its row. -/
theorem test_decode_table_mbt_b : ∀ r ∈ ([
    (0b10 * 2 ^ 62, .mbtBForwardBackward),
    (0b11 * 2 ^ 62, .mbtBForwardBackwardPattern),
    (0b010 * 2 ^ 61, .mbtBBackward),
    (0b011 * 2 ^ 61, .mbtBBackwardPattern),
    (0b0010 * 2 ^ 60, .mbtBForward),
    (0b0011 * 2 ^ 60, .mbtBForwardPattern),
    (0b00011 * 2 ^ 59, .mbtBIntra),
    (0b00010 * 2 ^ 59, .mbtBQuantForwardBackwardPattern),
    (0b000011 * 2 ^ 58, .mbtBQuantForwardPattern),
    (0b000010 * 2 ^ 58, .mbtBQuantBackwardPattern),
    (0b000001 * 2 ^ 58, .mbtBQuantIntra)] : List (Nat × Instr)), decode (.vlc .mbtB) r.1 = some r.2 := by decide

/-- Code words of `T_CBP` (R275), each word written out from the encoding the opcode table gives its row. -/
theorem test_decode_table_cbp_a : ∀ r ∈ ([
    (0b111 * 2 ^ 61, .cbp60),
    (0b1101 * 2 ^ 60, .cbp4),
    (0b1100 * 2 ^ 60, .cbp8),
    (0b1011 * 2 ^ 60, .cbp16),
    (0b1010 * 2 ^ 60, .cbp32),
    (0b10011 * 2 ^ 59, .cbp12),
    (0b10010 * 2 ^ 59, .cbp48),
    (0b10001 * 2 ^ 59, .cbp20),
    (0b10000 * 2 ^ 59, .cbp40),
    (0b01111 * 2 ^ 59, .cbp28),
    (0b01110 * 2 ^ 59, .cbp44),
    (0b01101 * 2 ^ 59, .cbp52),
    (0b01100 * 2 ^ 59, .cbp56),
    (0b01011 * 2 ^ 59, .cbp1),
    (0b01010 * 2 ^ 59, .cbp61),
    (0b01001 * 2 ^ 59, .cbp2),
    (0b01000 * 2 ^ 59, .cbp62),
    (0b001111 * 2 ^ 58, .cbp24),
    (0b001110 * 2 ^ 58, .cbp36),
    (0b001101 * 2 ^ 58, .cbp3),
    (0b001100 * 2 ^ 58, .cbp63),
    (0b0010111 * 2 ^ 57, .cbp5),
    (0b0010110 * 2 ^ 57, .cbp9),
    (0b0010101 * 2 ^ 57, .cbp17),
    (0b0010100 * 2 ^ 57, .cbp33),
    (0b0010011 * 2 ^ 57, .cbp6),
    (0b0010010 * 2 ^ 57, .cbp10),
    (0b0010001 * 2 ^ 57, .cbp18),
    (0b0010000 * 2 ^ 57, .cbp34),
    (0b00011111 * 2 ^ 56, .cbp7),
    (0b00011110 * 2 ^ 56, .cbp11),
    (0b00011101 * 2 ^ 56, .cbp19),
    (0b00011100 * 2 ^ 56, .cbp35),
    (0b00011011 * 2 ^ 56, .cbp13),
    (0b00011010 * 2 ^ 56, .cbp49),
    (0b00011001 * 2 ^ 56, .cbp21)] : List (Nat × Instr)), decode (.vlc .cbp) r.1 = some r.2 := by decide

/-- Code words of `T_CBP` (R275), each word written out from the encoding the opcode table gives its row. -/
theorem test_decode_table_cbp_b : ∀ r ∈ ([
    (0b00011000 * 2 ^ 56, .cbp41),
    (0b00010111 * 2 ^ 56, .cbp14),
    (0b00010110 * 2 ^ 56, .cbp50),
    (0b00010101 * 2 ^ 56, .cbp22),
    (0b00010100 * 2 ^ 56, .cbp42),
    (0b00010011 * 2 ^ 56, .cbp15),
    (0b00010010 * 2 ^ 56, .cbp51),
    (0b00010001 * 2 ^ 56, .cbp23),
    (0b00010000 * 2 ^ 56, .cbp43),
    (0b00001111 * 2 ^ 56, .cbp25),
    (0b00001110 * 2 ^ 56, .cbp37),
    (0b00001101 * 2 ^ 56, .cbp26),
    (0b00001100 * 2 ^ 56, .cbp38),
    (0b00001011 * 2 ^ 56, .cbp29),
    (0b00001010 * 2 ^ 56, .cbp45),
    (0b00001001 * 2 ^ 56, .cbp53),
    (0b00001000 * 2 ^ 56, .cbp57),
    (0b00000111 * 2 ^ 56, .cbp30),
    (0b00000110 * 2 ^ 56, .cbp46),
    (0b00000101 * 2 ^ 56, .cbp54),
    (0b00000100 * 2 ^ 56, .cbp58),
    (0b000000111 * 2 ^ 55, .cbp31),
    (0b000000110 * 2 ^ 55, .cbp47),
    (0b000000101 * 2 ^ 55, .cbp55),
    (0b000000100 * 2 ^ 55, .cbp59),
    (0b000000011 * 2 ^ 55, .cbp27),
    (0b000000010 * 2 ^ 55, .cbp39)] : List (Nat × Instr)), decode (.vlc .cbp) r.1 = some r.2 := by decide

/-- Code words of `T_MOTION` (R276), each word written out from the encoding the opcode table gives its row. -/
theorem test_decode_table_motion : ∀ r ∈ ([
    (0b1 * 2 ^ 63, .motionMag0),
    (0b01_0 * 2 ^ 61, .motionMag1 false),
    (0b001_1 * 2 ^ 60, .motionMag2 true),
    (0b0001_0 * 2 ^ 59, .motionMag3 false),
    (0b000011_1 * 2 ^ 57, .motionMag4 true),
    (0b0000101_0 * 2 ^ 56, .motionMag5 false),
    (0b0000100_1 * 2 ^ 56, .motionMag6 true),
    (0b0000011_0 * 2 ^ 56, .motionMag7 false),
    (0b000001011_1 * 2 ^ 54, .motionMag8 true),
    (0b000001010_0 * 2 ^ 54, .motionMag9 false),
    (0b000001001_1 * 2 ^ 54, .motionMag10 true),
    (0b0000010001_0 * 2 ^ 53, .motionMag11 false),
    (0b0000010000_1 * 2 ^ 53, .motionMag12 true),
    (0b0000001111_0 * 2 ^ 53, .motionMag13 false),
    (0b0000001110_1 * 2 ^ 53, .motionMag14 true),
    (0b0000001101_0 * 2 ^ 53, .motionMag15 false),
    (0b0000001100_1 * 2 ^ 53, .motionMag16 true)] : List (Nat × Instr)), decode (.vlc .motion) r.1 = some r.2 := by decide

/-- Code words of `T_DCL` (R277), each word written out from the encoding the opcode table gives its row. -/
theorem test_decode_table_dcl : ∀ r ∈ ([
    (0b100 * 2 ^ 61, .dcSizeLuma0),
    (0b00 * 2 ^ 62, .dcSizeLuma1),
    (0b01 * 2 ^ 62, .dcSizeLuma2),
    (0b101 * 2 ^ 61, .dcSizeLuma3),
    (0b110 * 2 ^ 61, .dcSizeLuma4),
    (0b1110 * 2 ^ 60, .dcSizeLuma5),
    (0b11110 * 2 ^ 59, .dcSizeLuma6),
    (0b111110 * 2 ^ 58, .dcSizeLuma7),
    (0b1111110 * 2 ^ 57, .dcSizeLuma8)] : List (Nat × Instr)), decode (.vlc .dcl) r.1 = some r.2 := by decide

/-- Code words of `T_DCC` (R278), each word written out from the encoding the opcode table gives its row. -/
theorem test_decode_table_dcc : ∀ r ∈ ([
    (0b00 * 2 ^ 62, .dcSizeChroma0),
    (0b01 * 2 ^ 62, .dcSizeChroma1),
    (0b10 * 2 ^ 62, .dcSizeChroma2),
    (0b110 * 2 ^ 61, .dcSizeChroma3),
    (0b1110 * 2 ^ 60, .dcSizeChroma4),
    (0b11110 * 2 ^ 59, .dcSizeChroma5),
    (0b111110 * 2 ^ 58, .dcSizeChroma6),
    (0b1111110 * 2 ^ 57, .dcSizeChroma7),
    (0b11111110 * 2 ^ 56, .dcSizeChroma8)] : List (Nat × Instr)), decode (.vlc .dcc) r.1 = some r.2 := by decide

/-- Code words of `T_DCT` (R279 to R282), each word written out from the encoding the opcode table gives its row. -/
theorem test_decode_table_dct_a : ∀ r ∈ ([
    (0b011_0 * 2 ^ 60, .coefR1L1 false),
    (0b0100_1 * 2 ^ 59, .coefR0L2 true),
    (0b0101_0 * 2 ^ 59, .coefR2L1 false),
    (0b00101_1 * 2 ^ 58, .coefR0L3 true),
    (0b00111_0 * 2 ^ 58, .coefR3L1 false),
    (0b00110_1 * 2 ^ 58, .coefR4L1 true),
    (0b000110_0 * 2 ^ 57, .coefR1L2 false),
    (0b000111_1 * 2 ^ 57, .coefR5L1 true),
    (0b000101_0 * 2 ^ 57, .coefR6L1 false),
    (0b000100_1 * 2 ^ 57, .coefR7L1 true),
    (0b0000110_0 * 2 ^ 56, .coefR0L4 false),
    (0b0000100_1 * 2 ^ 56, .coefR2L2 true),
    (0b0000111_0 * 2 ^ 56, .coefR8L1 false),
    (0b0000101_1 * 2 ^ 56, .coefR9L1 true),
    (0b00100110_0 * 2 ^ 55, .coefR0L5 false),
    (0b00100001_1 * 2 ^ 55, .coefR0L6 true),
    (0b00100101_0 * 2 ^ 55, .coefR1L3 false),
    (0b00100100_1 * 2 ^ 55, .coefR3L2 true),
    (0b00100111_0 * 2 ^ 55, .coefR10L1 false),
    (0b00100011_1 * 2 ^ 55, .coefR11L1 true),
    (0b00100010_0 * 2 ^ 55, .coefR12L1 false),
    (0b00100000_1 * 2 ^ 55, .coefR13L1 true),
    (0b0000001010_0 * 2 ^ 53, .coefR0L7 false),
    (0b0000001100_1 * 2 ^ 53, .coefR1L4 true),
    (0b0000001011_0 * 2 ^ 53, .coefR2L3 false),
    (0b0000001111_1 * 2 ^ 53, .coefR4L2 true),
    (0b0000001001_0 * 2 ^ 53, .coefR5L2 false),
    (0b0000001110_1 * 2 ^ 53, .coefR14L1 true),
    (0b0000001101_0 * 2 ^ 53, .coefR15L1 false),
    (0b0000001000_1 * 2 ^ 53, .coefR16L1 true),
    (0b000000011101_0 * 2 ^ 51, .coefR0L8 false),
    (0b000000011000_1 * 2 ^ 51, .coefR0L9 true),
    (0b000000010011_0 * 2 ^ 51, .coefR0L10 false),
    (0b000000010000_1 * 2 ^ 51, .coefR0L11 true),
    (0b000000011011_0 * 2 ^ 51, .coefR1L5 false),
    (0b000000010100_1 * 2 ^ 51, .coefR2L4 true)] : List (Nat × Instr)), decode (.vlc .coefNext) r.1 = some r.2 := by decide

/-- Code words of `T_DCT` (R279 to R282), each word written out from the encoding the opcode table gives its row. -/
theorem test_decode_table_dct_b : ∀ r ∈ ([
    (0b000000011100_0 * 2 ^ 51, .coefR3L3 false),
    (0b000000010010_1 * 2 ^ 51, .coefR4L3 true),
    (0b000000011110_0 * 2 ^ 51, .coefR6L2 false),
    (0b000000010101_1 * 2 ^ 51, .coefR7L2 true),
    (0b000000010001_0 * 2 ^ 51, .coefR8L2 false),
    (0b000000011111_1 * 2 ^ 51, .coefR17L1 true),
    (0b000000011010_0 * 2 ^ 51, .coefR18L1 false),
    (0b000000011001_1 * 2 ^ 51, .coefR19L1 true),
    (0b000000010111_0 * 2 ^ 51, .coefR20L1 false),
    (0b000000010110_1 * 2 ^ 51, .coefR21L1 true),
    (0b0000000011010_0 * 2 ^ 50, .coefR0L12 false),
    (0b0000000011001_1 * 2 ^ 50, .coefR0L13 true),
    (0b0000000011000_0 * 2 ^ 50, .coefR0L14 false),
    (0b0000000010111_1 * 2 ^ 50, .coefR0L15 true),
    (0b0000000010110_0 * 2 ^ 50, .coefR1L6 false),
    (0b0000000010101_1 * 2 ^ 50, .coefR1L7 true),
    (0b0000000010100_0 * 2 ^ 50, .coefR2L5 false),
    (0b0000000010011_1 * 2 ^ 50, .coefR3L4 true),
    (0b0000000010010_0 * 2 ^ 50, .coefR5L3 false),
    (0b0000000010001_1 * 2 ^ 50, .coefR9L2 true),
    (0b0000000010000_0 * 2 ^ 50, .coefR10L2 false),
    (0b0000000011111_1 * 2 ^ 50, .coefR22L1 true),
    (0b0000000011110_0 * 2 ^ 50, .coefR23L1 false),
    (0b0000000011101_1 * 2 ^ 50, .coefR24L1 true),
    (0b0000000011100_0 * 2 ^ 50, .coefR25L1 false),
    (0b0000000011011_1 * 2 ^ 50, .coefR26L1 true),
    (0b00000000011111_0 * 2 ^ 49, .coefR0L16 false),
    (0b00000000011110_1 * 2 ^ 49, .coefR0L17 true),
    (0b00000000011101_0 * 2 ^ 49, .coefR0L18 false),
    (0b00000000011100_1 * 2 ^ 49, .coefR0L19 true),
    (0b00000000011011_0 * 2 ^ 49, .coefR0L20 false),
    (0b00000000011010_1 * 2 ^ 49, .coefR0L21 true),
    (0b00000000011001_0 * 2 ^ 49, .coefR0L22 false),
    (0b00000000011000_1 * 2 ^ 49, .coefR0L23 true),
    (0b00000000010111_0 * 2 ^ 49, .coefR0L24 false),
    (0b00000000010110_1 * 2 ^ 49, .coefR0L25 true)] : List (Nat × Instr)), decode (.vlc .coefNext) r.1 = some r.2 := by decide

/-- Code words of `T_DCT` (R279 to R282), each word written out from the encoding the opcode table gives its row. -/
theorem test_decode_table_dct_c : ∀ r ∈ ([
    (0b00000000010101_0 * 2 ^ 49, .coefR0L26 false),
    (0b00000000010100_1 * 2 ^ 49, .coefR0L27 true),
    (0b00000000010011_0 * 2 ^ 49, .coefR0L28 false),
    (0b00000000010010_1 * 2 ^ 49, .coefR0L29 true),
    (0b00000000010001_0 * 2 ^ 49, .coefR0L30 false),
    (0b00000000010000_1 * 2 ^ 49, .coefR0L31 true),
    (0b000000000011000_0 * 2 ^ 48, .coefR0L32 false),
    (0b000000000010111_1 * 2 ^ 48, .coefR0L33 true),
    (0b000000000010110_0 * 2 ^ 48, .coefR0L34 false),
    (0b000000000010101_1 * 2 ^ 48, .coefR0L35 true),
    (0b000000000010100_0 * 2 ^ 48, .coefR0L36 false),
    (0b000000000010011_1 * 2 ^ 48, .coefR0L37 true),
    (0b000000000010010_0 * 2 ^ 48, .coefR0L38 false),
    (0b000000000010001_1 * 2 ^ 48, .coefR0L39 true),
    (0b000000000010000_0 * 2 ^ 48, .coefR0L40 false),
    (0b000000000011111_1 * 2 ^ 48, .coefR1L8 true),
    (0b000000000011110_0 * 2 ^ 48, .coefR1L9 false),
    (0b000000000011101_1 * 2 ^ 48, .coefR1L10 true),
    (0b000000000011100_0 * 2 ^ 48, .coefR1L11 false),
    (0b000000000011011_1 * 2 ^ 48, .coefR1L12 true),
    (0b000000000011010_0 * 2 ^ 48, .coefR1L13 false),
    (0b000000000011001_1 * 2 ^ 48, .coefR1L14 true),
    (0b0000000000010011_0 * 2 ^ 47, .coefR1L15 false),
    (0b0000000000010010_1 * 2 ^ 47, .coefR1L16 true),
    (0b0000000000010001_0 * 2 ^ 47, .coefR1L17 false),
    (0b0000000000010000_1 * 2 ^ 47, .coefR1L18 true),
    (0b0000000000010100_0 * 2 ^ 47, .coefR6L3 false),
    (0b0000000000011010_1 * 2 ^ 47, .coefR11L2 true),
    (0b0000000000011001_0 * 2 ^ 47, .coefR12L2 false),
    (0b0000000000011000_1 * 2 ^ 47, .coefR13L2 true),
    (0b0000000000010111_0 * 2 ^ 47, .coefR14L2 false),
    (0b0000000000010110_1 * 2 ^ 47, .coefR15L2 true),
    (0b0000000000010101_0 * 2 ^ 47, .coefR16L2 false),
    (0b0000000000011111_1 * 2 ^ 47, .coefR27L1 true),
    (0b0000000000011110_0 * 2 ^ 47, .coefR28L1 false),
    (0b0000000000011101_1 * 2 ^ 47, .coefR29L1 true)] : List (Nat × Instr)), decode (.vlc .coefNext) r.1 = some r.2 := by decide

/-- Code words of `T_DCT` (R279 to R282), each word written out from the encoding the opcode table gives its row. -/
theorem test_decode_table_dct_d : ∀ r ∈ ([
    (.vlc .coefNext, 0b0000000000011100_0 * 2 ^ 47, .coefR30L1 false),
    (.vlc .coefNext, 0b0000000000011011_1 * 2 ^ 47, .coefR31L1 true),
    (.vlc .coefNext, 0b11_1 * 2 ^ 61, .coefNextR0L1 true),
    (.vlc .coefNext, 0b10 * 2 ^ 62, .eob),
    (.vlc .coefNext, 0b000001_101101_10010110 * 2 ^ 44, .coefEscape20 0b101101 0b10010110),
    (.vlc .coefNext, 0b000001_101101_00000000_01101001 * 2 ^ 36, .coefEscape28 0b101101 false 0b01101001),
    (.vlc .coefNext, 0b000001_011010_10000000_10010110 * 2 ^ 36, .coefEscape28 0b011010 true 0b10010110),
    (.vlc .coefFirst, 0b1_0 * 2 ^ 62, .coefFirstR0L1 false)] : List (Channel × Nat × Instr)),
    decode r.1 r.2.1 = some r.2.2 := by decide

/-- Unit operations: the codes of 30_encoding.md R134, with operand bytes as log 3 lays them out. -/
theorem test_decode_unit_operations_a : ∀ r ∈ ([
    ([0b00010000], .brReset),
    ([0b00010001, 0x0B], .brPeek 12),
    ([0b00010010, 0x07], .brConsume 7),
    ([0b00010011], .brConsume1),
    ([0b00010100], .brRefill),
    ([0b00010101, 0x20], .brGet 32),
    ([0b00010110], .brAlignSc),
    ([0b00100000, 0x08], .vldCode .dct),
    ([0b00100001], .vldMbaInc),
    ([0b00100010], .vldMbtype),
    ([0b00100011], .vldCbp),
    ([0b00100100], .vldMotionCode),
    ([0b00100101, 0x05], .vldDcDiff 5),
    ([0b00100110, 0x01], .vldCoef true),
    ([0b00100111], .vldEscape),
    ([0b00110000, 0x04], .iqIntraDc 4),
    ([0b00110001, 0x01, 0xFC, 0x07, 0x10], .iqIntraAc (-3) 8 16),
    ([0b00110010, 0x00, 0x01, 0x03, 0x10], .iqInter 2 4 16),
    ([0b00110011, 0x89, 0xAB, 0xCD, 0xEF], .iqOddsat 0x89ABCDEF),
    ([0b01000000, 0x01, 0x01, 0x06, 0x01], .mvrDecode .backward .y 6 true),
    ([0b01010000, 0x03, 0x07], .idctRow 3 7)] : List (List Byte × Instr)),
    decode .unitOp (bytesWindow r.1) = some r.2 := by decide

/-- Unit operations: the codes of 30_encoding.md R134, with operand bytes as log 3 lays them out. -/
theorem test_decode_unit_operations_b : ∀ r ∈ ([
    ([0b01010001, 0x05, 0x02], .idctCol 5 2),
    ([0b01010010, 0x02], .idctBlock 2),
    ([0b01100000, 0x00, 0x12, 0x34, 0xFF, 0xFD, 0x00, 0x05], .hpiForm .forward 0x12 0x34 (-3) 5),
    ([0b01100001, 0x01, 0x12, 0x34, 0x00, 0x05, 0xFF, 0xFD], .hpiFormAvg .backward 0x12 0x34 5 (-3)),
    ([0b01110000, 0x04, 0x12, 0x34], .mbtPutIntra 4 0x12 0x34),
    ([0b01110001, 0x03, 0x12, 0x34], .mbtAddInter 3 0x12 0x34),
    ([0b01110010, 0x01, 0x23], .mbtSkipP 0x0123),
    ([0b01110011, 0x45, 0x67], .mbtSkipB 0x4567),
    ([0b10000000], .seqNextHeader),
    ([0b10000001], .seqSequenceHeader),
    ([0b10000010], .seqGopHeader),
    ([0b10000011], .seqPictureHeader),
    ([0b10000100], .seqPictureData),
    ([0b10000101, 0x01, 0x23, 0x45], .seqSlice 0x012345),
    ([0b10000110], .seqMacroblock),
    ([0b10000111, 0x01], .seqIntraBlock 1),
    ([0b10001000, 0x05], .seqInterBlock 5),
    ([0b10010000, 0x0A, 0x08], .pbmAlloc 10 8),
    ([0b10010001], .pbmRotateRef),
    ([0b10010010], .pbmSelectAux),
    ([0b10010011], .pbmGetFrame)] : List (List Byte × Instr)),
    decode .unitOp (bytesWindow r.1) = some r.2 := by decide
/-! ### Bitstream reader (40_bit_reader.md) -/

/-- R172: `Bfr = 0x12345678`. -/
theorem test_peek : delivers (.brPeek 12) (onStream [0x12, 0x34, 0x56, 0x78, 0x9A] 0) = some (.bits 0x123) ∧
    delivers (.brPeek 32) (onStream [0x12, 0x34, 0x56, 0x78, 0x9A] 0) = some (.bits 0x12345678) := by decide

/-- R173: the second of two `consumeBits(4)`. -/
theorem test_consume_pulls_a_byte : readerOf (.brConsume 4) (onStream [0x12, 0x34, 0x56, 0x78, 0x9A, 0xBC] 4) =
    some (0x3456789A, 32, 8, 5) := by decide

/-- R175: a negative count. -/
theorem test_consume_unseen_bits : readerOf (.brConsume 32) (onStream [0x1A, 0x2B, 0x3C, 0x00, 0x4D, 0x5E, 0x6F, 0x78] 7) =
    some (0xAF37BC00, 25, 39, 8) := by decide

/-- R174. -/
theorem test_consume1 : readerOf .brConsume1 (onStream [0x12, 0x34, 0x56, 0x78, 0x9A] 8) = some (0x68ACF134, 31, 9, 5) := by
  decide

/-- R176. -/
theorem test_get : delivers (.brGet 16) (onStream [0x12, 0x34, 0x56, 0x78, 0x9A, 0xBC, 0xDE, 0xF0] 32) =
    some (.bits 0x9ABC) ∧
    readerOf (.brGet 16) (onStream [0x56, 0x78, 0x9A, 0xBC, 0xDE, 0xF0] 0) = some (0x9ABCDEF0, 32, 16, 6) := by decide

/-- R177: `AB CD 00 00 00 01 B3 55` from inside the first byte; the prefix begins at byte 3. -/
theorem test_align : cursor .brAlignSc (onStream [0xAB, 0xCD, 0x00, 0x00, 0x00, 0x01, 0xB3, 0x55] 3) = some 24 := by decide

/-- R177, 20_memory.md R81: with no byte left the fill gives the end code. -/
theorem test_align_at_the_end : readerOf .brAlignSc (onStream [0xAB] 3) = some (0x000001B7, 32, 8, 5) := by decide

/-! ### Code words and blocks (43, 44, 45) -/

/-- 43_macroblock_decoder.md R235. -/
theorem test_mba_escape_and_stuffing :
    delivers .vldMbaInc (onBits 12 0b00000001000_1) = some (.increment 34) ∧
    delivers .vldMbaInc (onBits 14 0b00000001111_010) = some (.increment 3) := by decide

/-- 44_vlc_decoder.md R270. -/
theorem test_vld_code : delivers (.vldCode .mba) (onBits 3 0b011) = some (.symbol (.mba (.increment 2))) ∧
    faultOf (.vldCode .dcl) (onBits 7 0b1111111) = some (1, 7) := by decide

/-- 43_macroblock_decoder.md R241 in a B-picture: `0001 0` is 30 (95_test_vectors.md 3.1). -/
theorem test_mbtype : (after .vldMbtype { onBits 5 0b00010 with pic := { State.reset.pic with pictType := 3 } }).map
    (fun t => (t.work.mbType, t.br.bitpos)) = some (30, 5) := by decide

/-- 43_macroblock_decoder.md R246: `0000 0001 0` is 39 (95_test_vectors.md 3.1). -/
theorem test_cbp : (after .vldCbp (onBits 9 0b000000010)).map (fun t => t.work.cbp) = some 39 := by decide

/-- 46_motion_vectors.md R332. -/
theorem test_motion_code : delivers .vldMotionCode (onBits 5 0b0001_1) = some (.motion (-3)) ∧
    delivers .vldMotionCode (onBits 11 0b0000001100_0) = some (.motion 16) := by decide

/-- 45_block_decode_iq.md R301. -/
theorem test_dc_differential : delivers (.vldDcDiff 0) (onBits 6 0b101_011) = some (.dcDiff (-4)) ∧
    delivers (.vldDcDiff 5) (onBits 16 0b11111110_10000000) = some (.dcDiff 128) := by decide

/-- 45_block_decode_iq.md R303. -/
theorem test_coef : delivers (.vldCoef true) (onBits 2 0b10) = some (.coef (.pair 0 1)) ∧
    delivers (.vldCoef false) (onBits 17 0b0000000000011111_1) = some (.coef (.pair 27 (-1))) := by decide

/-- 45_block_decode_iq.md R304, behind the escape code word. -/
theorem test_escape : delivers .vldEscape (onBits 22 0b111111_00000000_10000000) = some (.coef (.pair 63 128)) ∧
    faultOf .vldEscape (onBits 22 0b000101_00000000_00000000) = some (8, 5) := by decide

/-- 45_block_decode_iq.md R302: from 0, +10 gives predictor 10 and coefficient 80. -/
theorem test_intra_dc : (after (.iqIntraDc 3) (onBits 7 0b110_1010)).map
    (fun t => (t.work.dcPred[0].toInt, t.blk[3][0].toInt)) = some (10, 80) := by decide

/-- 45_block_decode_iq.md R309, R310. -/
theorem test_dequantiser : delivers (.iqIntraAc (-3) 6 16) State.reset = some (.dequantised (-35)) ∧
    delivers (.iqInter 2 4 16) State.reset = some (.dequantised 19) := by decide

/-- 45_block_decode_iq.md R311: a magnitude of 0 by `ODDIFY_ZERO`, and saturation. -/
theorem test_oddsat : delivers (.iqOddsat 0) { State.reset with params := { defaultParams with oddifyZero := .stayZero } } = some (.dequantised 0) ∧
    delivers (.iqOddsat 39525) State.reset = some (.dequantised 2047) := by decide

/-- 45_block_decode_iq.md R305. -/
theorem test_intra_block : entryAfter (.seqIntraBlock 0) { onBits 11 0b100_001010_10 with
      work := { State.reset.work with quantizerScale := 6 } } 0 1 = some 35 ∧
    cursor (.seqIntraBlock 0) (onBits 11 0b100_001010_10) = some 11 := by decide

/-- 45_block_decode_iq.md R306, R307. -/
theorem test_inter_block : entryAfter (.seqInterBlock 2) { onBits 7 0b01000_10 with
      work := { State.reset.work with quantizerScale := 4 } } 2 0 = some 19 ∧
    faultOf (.seqInterBlock 2) (onBits 22 0b11_000001_111111_00000001) = some (2, 2) := by decide

/-! ### Motion vectors (46) and the transform (47) -/

/-- R333: full-pel parity of a code of 0; R334 to R336: 7 and +10 (code 2, residual 1 of 3 bits) wrap at 16 with
`rangeSize = 0`. -/
theorem test_motion_vector :
    ((after (.mvrDecode .forward .x 0 true) ((onBits 1 0b1).setPmv .forward .x (-5))).map fun t => t.work.pmv.forward.x) =
      some (-6) ∧
    ((after (.mvrDecode .backward .y 0 false) ((onBits 4 0b001_0).setPmv .backward .y 15)).map fun t =>
      t.work.pmv.backward.y) = some (-15) := by decide

/-- R357: `BLK[0] = 80` gives 10 everywhere. -/
theorem test_idct_dc : entryAfter (.idctBlock 0) (withCoef State.reset 0 80) 0 63 = some 10 := by decide +kernel

/-- R357: `BLK[0] = 80, BLK[1] = 35` gives rows (16, 15, 13, 11, 9, 7, 5, 4). -/
theorem test_idct_row_of_two : (after (.idctBlock 0) (withCoef (withCoef State.reset 0 80) 1 35)).map
    (fun t => (List.range 8).map fun i => (t.blk[0][8 + i]?.getD 0).toInt) = some [16, 15, 13, 11, 9, 7, 5, 4] := by decide +kernel

/-- R357: `BLK[8] = 35` gives row `j` constant, (6, 5, 3, 1, -1, -3, -5, -6). -/
theorem test_idct_column_of_one : (after (.idctBlock 0) (withCoef State.reset 8 35)).map
    (fun t => (List.range 8).map fun j => (t.blk[0][8 * j + 3]?.getD 0).toInt) = some [6, 5, 3, 1, -1, -3, -5, -6] := by
  decide +kernel

/-! ### Prediction and reconstruction (48) -/

/-- R375, R376, R379, R373: averages round up, chroma vectors are halved toward zero. -/
theorem test_averages : avg2 .standard 100 103 = 102 ∧ avg2 .standard 100 101 = 101 ∧ avg4 .standard 1 2 3 4 = 3 ∧
    tdiv2 (-3) = -1 ∧ half (-3) = -2 := by decide

/-- R385: residuals 127, -128 and -256. -/
theorem test_put_intra : ((after (.mbtPutIntra 4 0 0) { inPicture [] 0 with
      blk := Vector.replicate 6 (((zeroBlock.set 0 127).set 1 (-128)).set 8 (-256)) }).bind fun t => t.frames.map fun fs =>
    [fs.sample 0 1 0 0, fs.sample 0 1 1 0, fs.sample 0 1 0 1, fs.sample 0 1 7 7]) = some [255, 0, 0, 128] := by decide

/-- R386: 200 and 100 give 255, 5 and -9 give 0, 100 and -3 give 97. -/
theorem test_add_inter : ((after (.mbtAddInter 0 0 0) { inPicture [] 0 with
      frames := some (((FrameStore.mk 16 16 0 []).write 0 0 0 0 200).write 0 0 1 0 5 |>.write 0 0 2 0 100)
      blk := Vector.replicate 6 (((zeroBlock.set 0 100).set 1 (-9)).set 2 (-3)) }).bind fun t => t.frames.map fun fs =>
    [fs.sample 0 0 0 0, fs.sample 0 0 1 0, fs.sample 0 0 2 0]) = some [255, 0, 97] := by decide

/-- R374, R376: a fetch at a half position in both directions. -/
theorem test_fetch : ((((FrameStore.mk 16 16 0 []).write 1 0 3 5 10).write 1 0 4 5 20 |>.write 1 0 3 6 30 |>.write 1 0 4 6
    41).fetch defaultParams 0 1 0 3 5 true true) = (25, 0) := by decide

/-- 43_macroblock_decoder.md R256, 60_exceptions.md R446: no direction to repeat. -/
theorem test_skip_b_without_motion : faultOf (.mbtSkipB 0) (inPicture [] 0) = some (12, 0) := by decide

/-! ### Headers (42), slices (43) -/

/-- R208: `01 00 10 13 FF FF E0 A0` is 16 by 1 ... here with the matrix flags 0: sizes 16 and 1 round to 16. -/
theorem test_sequence_header : (after .seqSequenceHeader (onStream [0x01, 0x00, 0x10, 0x13, 0xFF, 0xFF, 0xE0, 0xA0] 0)).map
    (fun t => (t.seq.horizontalSize.toNat, t.seq.verticalSize.toNat, t.seq.mbCols, t.seq.mbRows, t.seq.seqKnown, t.br.bitpos)) =
    some (16, 16, 1, 1, true, 64) := by decide

/-- R216: a size of 0. -/
theorem test_sequence_header_without_size : faultOf .seqSequenceHeader (onStream [0x00, 0x00, 0x10, 0, 0, 0, 0, 0] 0) =
    some (11, 16) := by decide

/-- R212: `00 57 FF F8 80` is a P-picture with `forward_code` 1. -/
theorem test_picture_header : (after .seqPictureHeader (onStream [0x00, 0x57, 0xFF, 0xF8, 0x80] 0)).map
    (fun t => (t.pic.pictType, t.pic.fullPelForward, t.pic.forwardCode, t.br.bitpos)) = some (2, false, 1, 34) := by decide

/-- R211, R203: `00 00 01 B8 00 00 00 40`. -/
theorem test_group : (after .scGroup (onStream [0x00, 0x00, 0x01, 0xB8, 0x00, 0x00, 0x00, 0x40] 0)).map
    (fun t => (t.hpState, t.br.bitpos)) = some (.gopSeen, 59) := by decide

/-- R205: an unrecognised code is counted, then the fill ends the search (R206). -/
theorem test_next_header : (after .seqNextHeader (onStream [0x00, 0x00, 0x01, 0xB5, 0x12] 0)).map
    (fun t => (t.status.evCount, t.status.events, t.hpState)) = some (1, [0x000001B5], .sequenceEnded) := by decide

/-- 43_macroblock_decoder.md R232: a scale of 0. -/
theorem test_slice_scale : faultOf (.seqSlice 1) (inPicture [0x00, 0x00, 0x01, 0x01, 0x00] 0) = some (3, 0) := by decide

/-- 43_macroblock_decoder.md R233 in row 0, one macroblock column: an increment of 3 gives `(0 - 1) * 1 + 3 - 1`. -/
theorem test_slice_row_zero :
    (after (.seqSlice 0) (inPicture [0x00, 0x00, 0x01, 0x00, 0x19, 0x00] 0)).map (·.work.mba) = some 1 := by decide

/-- 30_encoding.md R130: a motion residual behind its code, `((2 - 1) << 2) + 3 + 1`, negative. -/
theorem test_motion_residual : delivers (.motionResidual 2 3) ((onBits 2 0b11).latchMotionCode (-2)) = some (.motion (-8)) := by
  decide

/-- 42_header_parser.md R210, 10_state.md R63: the fourth matrix entry goes to raster position 16. -/
theorem test_matrix_entry : ((after (.intraQuantizerMatrixEntry 99) ((onBits 8 99).setMatrixIndex 3)).map fun t =>
    (t.qi[16], t.assembly.matrixIndex)) = some (99, 4) := by decide

/-- 20_memory.md R86: four bits into the stream `00 00 00 10 1F` there is no start code, though its bits lie there. -/
theorem test_start_code_off_a_byte : (match step { onStream [0x00, 0x00, 0x00, 0x10, 0x1F] 4 with bench := [.startCode] } with
    | .refused r => decide (r = .notUnderCursor)
    | .next _ | .fault _ => false) = true ∧
    (onStream [0x00, 0x00, 0x00, 0x10, 0x1F] 4).upcoming 0 32 = 0x00000101 := by decide

/-- 10_state.md R40, 42_header_parser.md R209: once the sequence is known a field of its header is passed over. -/
theorem test_sequence_field : (after (.horizontalSize 7) (onStream [0, 0x70] 0)).map (fun t => t.seq.horizontalSize) = some 7 ∧
    (after (.horizontalSize 7) (inPicture [0, 0x70] 0)).map (fun t => (t.seq.horizontalSize, t.br.bitpos)) = some (0, 12) := by
  decide

/-! ### Picture buffers, commands, faults (49, 60) -/

/-- R401: the first I-picture gives `FWD = 1`, `BWD = CUR = 0`. -/
theorem test_rotate : (after .pbmRotateRef State.reset).map (fun t => t.roles) = some ⟨1, 0, 2, some 0, none⟩ := by decide

/-- 10_state.md R70, 49_picture_buffers_host.md R411: the reader after `CMD_OPEN`; bits 7:2 of the argument are ignored.
-/
theorem test_open : (match step { onStream [0x00, 0x00, 0x01, 0xB3, 0x01] 9 with commands := [0x01, 0xFE, 0x03] } with
    | .next t => decide (t.br = ⟨octetList [0x00, 0x00, 0x01, 0xB3, 0x01], 4, 0x000001B3, 32, 0, false⟩ ∧ t.cfg = 0b10 ∧
        t.hpState = .searching ∧ t.session = .opened ∧ t.frames = none ∧ t.commands = [0x03])
    | .fault _ | .refused _ => false) = true := by decide

/-- R410, R416: `CMD_DECODE_NEXT` in a closed session. -/
theorem test_bad_command : faultOf .cmdDecodeNext State.reset = some (13, 3) := by decide

/-- R417, 42_header_parser.md R206: an empty stream gives `EOF`. -/
theorem test_decode_next_on_no_stream : (after .cmdDecodeNext { onStream [] 0 with session := .opened }).map
    (fun t => (t.status.ret, t.status.fault, t.hpState)) = some (.eof, false, .sequenceEnded) := by decide

/-- R417, R213: a picture before any sequence header. -/
theorem test_decode_next_without_sequence : (after .cmdDecodeNext { onStream [0, 0, 1, 0, 0x00, 0x0F, 0xFF, 0xF8] 0 with
    session := .opened }).map (fun t => (t.status.ret, t.status.faultCause, t.session, t.roles)) =
    some (.error, 5, .opened, State.reset.roles) := by decide

/-- R400, 42_header_parser.md R208: a denied allocation is session-fatal. -/
theorem test_alloc_denied : (after (.pbmAlloc 0 1) { State.reset with allocDenied := [(16, 32)], session := .opened }).map
    (fun t => (t.session, t.status.faultCause, t.status.faultInfo, t.frames)) =
    some (.failed, 6, 16 * 2 ^ 16 + 32, none) := by decide

/-- The table word of a row, presented after reset, is what step runs. -/
theorem test_fetch_word : decodeTableWord 8 0x86 = some .seqMacroblock ∧
    (State.reset.withFetchWord 8 0x05).commands = [5] := by decide

/-! ### Witnesses: for every obligation with hypotheses, a state and operands that meet them -/

/-- `State.Holds` as a test. -/
def holdsTest (s : State) (o : Nat) : List Code → Bool
  | [] => true
  | c :: rest => decide (s.upcoming o c.len = c.bits) && holdsTest s (o + c.len) rest

theorem holds_of_test {s : State} {cs : List Code} : ∀ {o : Nat}, holdsTest s o cs = true → s.Holds o cs := by
  induction cs with
  | nil => exact fun _ => trivial
  | cons c rest ih =>
    intro o h
    obtain ⟨a, b⟩ := Bool.and_eq_true_iff.mp h
    exact ⟨of_decide_eq_true a, ih b⟩

/-- `FirstPrefix` as a test. -/
def firstPrefixTest (S : List Byte) (pos k : Nat) : Bool :=
  decide (pos ≤ 8 * k ∧ streamBits S (8 * k) 24 = 1 ∧ ∀ j, j < k → pos ≤ 8 * j → streamBits S (8 * j) 24 ≠ 1)

theorem firstPrefix_of_test {S : List Byte} {pos k : Nat} (h : firstPrefixTest S pos k = true) : FirstPrefix S pos k :=
  let ⟨a, b, c⟩ := of_decide_eq_true h
  ⟨a, b, fun j p l => c j l p⟩

/-- The instruction answers a next state. -/
theorem next_of_after {i : Instr} {s : State} (h : (after i s).isSome = true) : ∃ t, exec i s = .next t := by
  unfold after at h
  split at h
  · exact ⟨_, ‹_›⟩
  all_goals cases h

/-- How an operation of the slice layer ended: 0 `DONE`, 1 `SLICE_END`, 2 raised, 3 stopped. -/
def endOf (x : Res SliceEnd) : Nat :=
  match x with
  | .ok .done _ => 0
  | .ok .sliceEnd _ => 1
  | .raised _ _ _ => 2
  | .stop _ => 3

theorem done_of_endOf {x : Res SliceEnd} (h : endOf x = 0) : ∃ t, x = .ok .done t := by
  unfold endOf at h; split at h <;> first | exact ⟨_, rfl⟩ | cases h

theorem sliceEnd_of_endOf {x : Res SliceEnd} (h : endOf x = 1) : ∃ t, x = .ok .sliceEnd t := by
  unfold endOf at h; split at h <;> first | exact ⟨_, rfl⟩ | cases h

/-- What lies in the state after some operations, each of which completes. -/
def runOps : List Instr → State → State
  | [], s => s
  | i :: rest, s =>
    match exec i s with
    | .next t => runOps rest { t with assembly := s.assembly }
    | .fault _ | .refused _ => s

/-- Each of some operations completes and leaves the assembly; a quiet one draws no free value. -/
def completes (quiet : Bool) : List Instr → State → Bool
  | [], _ => true
  | i :: rest, s =>
    match exec i s with
    | .next t => decide (t.assembly = { s.assembly with result := t.assembly.result }) && (!quiet || decide (t.draws = s.draws)) &&
        completes quiet rest { t with assembly := s.assembly }
    | .fault _ | .refused _ => false

theorem does_of_completes {quiet : Bool} : ∀ {l : List Instr} {s : State}, completes quiet l s = true →
    Sequence (fun i s t => Does i s t ∧ (quiet = true → t.draws = s.draws)) l s (runOps l s)
  | [], _, _ => rfl
  | i :: rest, s, h => by
    unfold completes at h
    unfold runOps
    split at h
    · next t e =>
      obtain ⟨⟨a, d⟩, r⟩ := (Bool.and_eq_true_iff.mp h).imp_left Bool.and_eq_true_iff.mp
      refine ⟨{ t with assembly := s.assembly }, ⟨⟨t.assembly.result, ?_, rfl⟩, fun q => ?_⟩, does_of_completes r⟩
      · rw [e]
        show _ = Host.Outcome.next { t with assembly := { s.assembly with result := t.assembly.result } }
        rw [← of_decide_eq_true a]
      · subst q
        simpa using d
    all_goals cases h

theorem sequence_mono {R Q : Instr → State → State → Prop} (m : ∀ i s t, R i s t → Q i s t) :
    ∀ {l : List Instr} {s t : State}, Sequence R l s t → Sequence Q l s t
  | [], _, _, h => h
  | _ :: _, _, _, ⟨u, a, b⟩ => ⟨u, m _ _ _ a, sequence_mono m b⟩

theorem parses_of_completes {l : List Instr} {s : State} (h : completes true l s = true) : Sequence Parses l s (runOps l s) :=
  sequence_mono (fun _ _ _ h => ⟨h.1, h.2 rfl⟩) (does_of_completes h)

theorem runs_of_completes {l : List Instr} {s : State} (h : completes false l s = true) : Sequence Does l s (runOps l s) :=
  sequence_mono (fun _ _ _ h => h.1) (does_of_completes h)

theorem raised_of_endOf {x : Res SliceEnd} (h : endOf x = 2) : ∃ c info t, x = .raised c info t := by
  unfold endOf at h; split at h <;> first | exact ⟨_, _, _, rfl⟩ | cases h

/-- How an operation without a result ended: 0 normally, 2 raised, 3 stopped. -/
def endOfUnit (x : Res Unit) : Nat :=
  match x with
  | .ok _ _ => 0
  | .raised _ _ _ => 2
  | .stop _ => 3

/-- How the header search ended: 0 at the end, 1 at a picture, 2 raised, 3 stopped. -/
def endOfHeader (x : Res HeaderEnd) : Nat :=
  match x with
  | .ok .endOfSequence _ => 0
  | .ok .picture _ => 1
  | .raised _ _ _ => 2
  | .stop _ => 3

/-- The state an operation leaves where it ends normally. -/
def leaves {α : Type} (x : Res α) (s : State) : State :=
  match x with
  | .ok _ t => t
  | .raised _ _ _ | .stop _ => s

theorem picture_of_endOfHeader {x : Res HeaderEnd} {s : State} (h : endOfHeader x = 1) : x = .ok .picture (leaves x s) := by
  unfold endOfHeader at h; split at h <;> first | rfl | cases h

theorem end_of_endOfHeader {x : Res HeaderEnd} {s : State} (h : endOfHeader x = 0) : x = .ok .endOfSequence (leaves x s) := by
  unfold endOfHeader at h; split at h <;> first | rfl | cases h

theorem raised_of_endOfHeader {x : Res HeaderEnd} (h : endOfHeader x = 2) : ∃ c info t, x = .raised c info t := by
  unfold endOfHeader at h; split at h <;> first | exact ⟨_, _, _, rfl⟩ | cases h

/-- The increment of a result, if it has one. -/
def incrementOf (x : Res Nat) : Option Nat :=
  match x with
  | .ok n _ => some n
  | .raised _ _ _ | .stop _ => none

theorem ok_of_incrementOf {x : Res Nat} {n : Nat} {s : State} (h : incrementOf x = some n) : x = .ok n (leaves x s) := by
  unfold incrementOf at h; split at h <;> first | (cases h; rfl) | cases h

theorem raised_of_endOfIncrement {x : Res Nat} (h : (match x with | .raised _ _ _ => true | .ok _ _ | .stop _ => false) = true) :
    ∃ c info t, x = .raised c info t := by
  split at h <;> first | exact ⟨_, _, _, rfl⟩ | cases h

theorem ok_of_unit {x : Res Unit} {s : State} (h : endOfUnit x = 0) : x = .ok () (leaves x s) := by
  unfold endOfUnit at h; split at h <;> first | rfl | cases h

theorem ok_of_endOfUnit {x : Res Unit} (h : endOfUnit x = 0) : ∃ t, x = .ok () t := by
  unfold endOfUnit at h; split at h <;> first | exact ⟨_, rfl⟩ | cases h

theorem raised_of_endOfUnit {x : Res Unit} (h : endOfUnit x = 2) : ∃ c info t, x = .raised c info t := by
  unfold endOfUnit at h; split at h <;> first | exact ⟨_, _, _, rfl⟩ | cases h

theorem decoding_of {s : State} (h : s.br.InStep) (e : s.params = defaultParams) : s.Decoding := ⟨h, e ▸ defaultParams_legal⟩

theorem inOrder_small : (FrameStore.mk 16 16 0 []).InOrder 1 where
  width := by decide
  height := by decide
  epoch := by decide
  canonical := rfl
  inside := by simp

theorem stepInv_inPicture (l : List Nat) (pos : Nat) : StepInv (inPicture l pos) where
  reader := rfl
  params := defaultParams_legal
  roles := (by decide : (2 : Fin 3) = 2 ∧ (0 : Fin 3) ≠ 2 ∧ (1 : Fin 3) ≠ 2 ∧ (0 : Fin 3) ≠ 1)
  frames := fun fs h => by cases h; exact inOrder_small
  allocated := fun _ h => nomatch h
  eventCount := rfl
  message := ⟨(by decide : (0 : Nat) ≤ 255), fun _ h => nomatch h⟩
  cause := ⟨(by decide : (0 : BitVec 4) ≠ 15), ⟨(fun h => nomatch h), fun h => absurd rfl h⟩⟩
  predictors := fun d c => by cases d <;> cases c <;> exact (by decide : (-2048 : Int) ≤ 0 ∧ (0 : Int) ≤ 2046)

/-- The same with other predictors and directions. -/
theorem stepInv_moved (l : List Nat) (pos : Nat) (m : Motion) : StepInv { inPicture l pos with
    work := { (inPicture l pos).work with prevMotion := m, pmv := ⟨⟨-2048, 2046⟩, ⟨3, -3⟩⟩ } } where
  reader := rfl
  params := defaultParams_legal
  roles := (by decide : (2 : Fin 3) = 2 ∧ (0 : Fin 3) ≠ 2 ∧ (1 : Fin 3) ≠ 2 ∧ (0 : Fin 3) ≠ 1)
  frames := fun fs h => by cases h; exact inOrder_small
  allocated := fun _ h => nomatch h
  eventCount := rfl
  message := ⟨(by decide : (0 : Nat) ≤ 255), fun _ h => nomatch h⟩
  cause := ⟨(by decide : (0 : BitVec 4) ≠ 15), ⟨(fun h => nomatch h), fun h => absurd rfl h⟩⟩
  predictors := fun d c => by cases d <;> cases c <;> simp [Predictors.get]

/-- The same state with no macroblock grid. -/
def withoutGrid (s : State) : State := { s with seq := { s.seq with mbCols := 0 } }

theorem stepInv_withoutGrid {s : State} (h : StepInv s) : StepInv (withoutGrid s) where
  reader := h.reader
  params := h.params
  roles := h.roles
  frames := h.frames
  allocated := h.allocated
  eventCount := h.eventCount
  message := h.message
  cause := h.cause
  predictors := h.predictors

theorem withoutGrid_position (s : State) (fs : FrameStore) (a : BitVec 16) (hf : s.frames = some fs) (hw : fs.width = 16)
    (hh : fs.height = 16) : ∃ t, (withoutGrid s).gridPosition a.toNat = ((0, 0), t) := by
  have e : (withoutGrid s).freePosition = (0, 0) := by
    simp [State.freePosition, withoutGrid, hf, hw, hh, Nat.mod_one]
  exact ⟨_, (if_pos rfl).trans (by rw [e])⟩

/-- The same in a B-picture with range codes 1, or others, written to `AUX`. -/
def inB (l : List Nat) (f b : BitVec 3) : State :=
  { inPicture l 0 with
    pic := ⟨3, false, f, false, b⟩
    roles := { State.reset.roles with cur := some 2 } }

theorem stepInv_inB (l : List Nat) (f b : BitVec 3) : StepInv (inB l f b) where
  reader := rfl
  params := defaultParams_legal
  roles := (by decide : (2 : Fin 3) = 2 ∧ (0 : Fin 3) ≠ 2 ∧ (1 : Fin 3) ≠ 2 ∧ (0 : Fin 3) ≠ 1)
  frames := fun fs h => by cases h; exact inOrder_small
  allocated := fun _ h => nomatch h
  eventCount := rfl
  message := ⟨(by decide : (0 : Nat) ≤ 255), fun _ h => nomatch h⟩
  cause := ⟨(by decide : (0 : BitVec 4) ≠ 15), ⟨(fun h => nomatch h), fun h => absurd rfl h⟩⟩
  predictors := fun d c => by cases d <;> cases c <;> exact (by decide : (-2048 : Int) ≤ 0 ∧ (0 : Int) ≤ 2046)

theorem position_small {s : State} (h : s.seq.mbCols = 1) : s.gridPosition 0 = ((0, 0), s) := by simp [State.gridPosition, h]

theorem position_at_zero {s : State} (h : s.seq.mbCols = 1) (e : s.work.mba = 0) : s.gridPosition s.work.mba = ((0, 0), s) := by
  rw [e]
  exact position_small h

theorem loop_raises {total : Nat} {s : State} (lt : s.work.mba < total) (h : endOfUnit (macroblock s) = 2) :
    ∃ c info x, LoopGives total s (.raised c info x) := by
  obtain ⟨c, info, x, e⟩ := raised_of_endOfUnit h
  exact ⟨c, info, x, .raises _ _ _ _ lt e⟩

/-- The registers a slice header with scale `q` leaves. -/
def sliced (s : State) (q : BitVec 5) : State :=
  { s with
    work :=
      { s.work with
        quantizerScale := q
        dcPred := Vector.replicate 3 0
        pmv := ⟨⟨0, 0⟩, ⟨0, 0⟩⟩
        prevMotion := ⟨false, false⟩ } }

theorem targets_inPicture (l : List Nat) (pos : Nat) : (inPicture l pos).Targets ⟨16, 16, 0, []⟩ 0 0 0 :=
  ⟨rfl, rfl, by decide, by decide⟩

theorem kernelInv_inPicture (l : List Nat) (pos : Nat) : KernelInv (inPicture l pos) where
  toStepInv := stepInv_inPicture l pos
  noBench := rfl
  parser := .inl rfl
  closed := fun h => nomatch h
  sized := fun _ => ⟨_, rfl, rfl, rfl, rfl, rfl⟩

/-- 10_state.md R28 gives no position while `mb_cols` is 0: the macroblock lies somewhere inside the picture (20_memory.md
R95), and the skip completes. -/
theorem test_skip_without_grid : ∃ t, exec (.mbtSkipP 9) (withoutGrid (inPicture [] 0)) = .next t := by
  obtain ⟨t, e⟩ := withoutGrid_position (inPicture [] 0) _ 9 rfl rfl rfl
  have e' : t = { withoutGrid (inPicture [] 0) with draws := 2 } := (congrArg Prod.snd e).symm
  have k : exec (.mbtSkipP 9) (withoutGrid (inPicture [] 0)) =
      (formPrediction .forward 0 0 ⟨0, 0⟩ t.clearDcPred.clearForwardPmv).finish noResult := by
    show (skipP (9 : BitVec 16).toNat _).finish noResult = _
    unfold skipP
    rw [e]
  rw [k, e']
  exact ⟨_, rfl⟩

/-! Fetching and encoding -/

theorem witness_StepRunsDecodedInstruction :
    (∃ s : State, s.bench = [.unitOp [0x86]] ∧ (BenchItem.unitOp [0x86] = .startCode → s.br.bitpos % 8 = 0) ∧
      decode (BenchItem.channel (.unitOp [0x86])) (BenchItem.window (.unitOp [0x86]) s) = some .seqMacroblock) ∧
    (∃ s : State, s.bench = [.startCode] ∧ s.br.bitpos % 8 = 0 ∧
      decode (BenchItem.channel .startCode) (BenchItem.window .startCode s) = some (.scSlice 0x1F)) ∧
    (∃ s : State, s.bench = [.startCode] ∧ s.br.bitpos % 8 ≠ 0) ∧
    (∃ s : State, s.bench = [] ∧ s.commands = [0xFF] ∧ (0xFF : Byte) ≠ 0x01) ∧
    (∃ s : State, s.bench = [] ∧ s.commands = [0x01, 0x03]) ∧ (∃ s : State, s.bench = [] ∧ s.commands = [0x01]) :=
  ⟨⟨{ State.reset with bench := [.unitOp [0x86]] }, rfl, (fun h => nomatch h), by decide⟩,
    ⟨{ onStream [0, 0, 0, 1, 0x1F] 8 with bench := [.startCode] }, rfl, rfl, by decide⟩,
    ⟨{ onStream [0, 0, 0, 1, 0x1F] 7 with bench := [.startCode] }, rfl, by decide⟩,
    ⟨{ State.reset with commands := [0xFF] }, rfl, rfl, by decide⟩,
    ⟨{ State.reset with commands := [0x01, 0x03] }, rfl, rfl⟩, ⟨{ State.reset with commands := [0x01] }, rfl, rfl⟩⟩

/-- A code word inside a byte, a start code at a byte boundary, a unit operation. -/
theorem witness_StepRunsInstructionUnderCursor :
    ((Instr.coefR1L1 true).check = true ∧ benchItem (.coefR1L1 true) = some (.vlc .coefNext) ∧
      { onBits 4 0b0111 with bench := [.vlc .coefNext] }.bench = .vlc .coefNext :: [] ∧
      { onBits 4 0b0111 with bench := [.vlc .coefNext] }.br.InStep ∧
      { onBits 4 0b0111 with bench := [.vlc .coefNext] }.Shows (.coefR1L1 true)) ∧
    ((Instr.scSlice 0xAF).check = true ∧ benchItem (.scSlice 0xAF) = some .startCode ∧
      (onStream [0, 0, 0, 1, 0xAF] 8).Shows (.scSlice 0xAF)) ∧
    (benchItem (.brGet 32) = some (.unitOp [0x15, 0x20]) ∧ State.reset.Shows (.brGet 32)) :=
  ⟨⟨rfl, rfl, rfl, rfl, (by decide : (onBits 4 0b0111).upcoming 0 4 = 7)⟩,
    ⟨rfl, rfl, rfl, (by decide : (onStream [0, 0, 0, 1, 0xAF] 8).upcoming 0 32 = 0x1AF)⟩, by decide, trivial⟩

theorem witness_DecodeInvertsEncode :
    (Instr.coefEscape28 63 true 255).check = true ∧ 2 ^ 36 - 1 < 2 ^ (64 - (encode (.coefEscape28 63 true 255)).len) := by decide

theorem witness_DecodeIsExact : 0x86 * 2 ^ 56 + 5 < 2 ^ 64 ∧ decode .unitOp (0x86 * 2 ^ 56 + 5) = some .seqMacroblock := by decide

theorem witness_InvalidCodeWordsRaise : 2 ^ 64 - 1 < 2 ^ 64 ∧
    { onBits 7 0b1111111 with bench := [.vlc .dcl] }.bench = .vlc .dcl :: [] ∧
    { onBits 7 0b1111111 with bench := [.vlc .dcl] }.br.InStep ∧ (⟨7, 0b1111111⟩ : Code) ∈ invalidPrefixes .dcl ∧
    { onBits 7 0b1111111 with bench := [.vlc .dcl] }.upcoming 0 7 = 0b1111111 := ⟨by decide, rfl, rfl, by decide, by decide⟩

/-- The codes next to those that 30_encoding.md R134 assigns. -/
theorem witness_UnassignedOperationsAreRefused :
    ∀ b ∈ ([0x00, 0x0F, 0x17, 0x1F, 0x28, 0x2F, 0x34, 0x3F, 0x41, 0x4F, 0x53, 0x5F, 0x62, 0x6F, 0x74, 0x7F, 0x89, 0x8F, 0x94,
      0xFF] : List Byte),
    { State.reset with bench := [.unitOp [b, 3]] }.bench = .unitOp (b :: [3]) :: [] ∧
    b.toNat ∉ [0x10, 0x11, 0x12, 0x13, 0x14, 0x15, 0x16, 0x20, 0x21, 0x22, 0x23, 0x24, 0x25, 0x26, 0x27, 0x30, 0x31,
        0x32, 0x33, 0x40, 0x50, 0x51, 0x52, 0x60, 0x61, 0x70, 0x71, 0x72, 0x73, 0x80, 0x81, 0x82, 0x83, 0x84, 0x85,
        0x86, 0x87, 0x88, 0x90, 0x91, 0x92, 0x93] := by decide

/-! Bitstream reader -/

theorem witness_PeekConsumeAndGet : (onStream [1, 2, 3, 4, 5] 7).br.InStep ∧ (1 : BitVec 6).toNat ≤ 32 - 7 % 8 ∧
    32 - (onStream [1, 2, 3, 4, 5] 7).br.bitpos % 8 < (26 : BitVec 6).toNat ∧ (26 : BitVec 6).toNat ≤ 32 ∧
    (32 : BitVec 6).toNat ≤ 32 ∧ 32 < (33 : BitVec 6).toNat := ⟨rfl, by decide, by decide, by decide, by decide, by decide⟩

theorem witness_AlignRefillAndReset : (onStream [1, 2, 3] 5).br.InStep ∧
    Reader.Filling ⟨octetList [0x1A, 0x2B, 0x3C, 0x00, 0x4D], 4, 0, -7, 39, false⟩ ∧
    Reader.Filling ⟨octetList [0x1A, 0x2B], 4, 0x1A2B0000, 32, 0, true⟩ :=
  ⟨rfl, ⟨by decide, by decide, by decide, by decide, by decide⟩, ⟨by decide, by decide, by decide, by decide, by decide⟩⟩

/-! Code words and fields as single steps -/

theorem witness_MbaCodeWords : channel .mbaInc33 = .vlc .mba ∧ channel .mbaStuffing = .vlc .mba ∧ State.reset.br.InStep :=
  ⟨rfl, rfl, by unfold Reader.InStep; decide⟩

theorem witness_TypeAndPatternCodeWords : channel .mbtIIntra = .vlc .mbtI ∧ channel .mbtPIntra = .vlc .mbtP ∧
    channel .mbtBIntra = .vlc .mbtB ∧ channel .cbp39 = .vlc .cbp ∧ (onStream [] 0).br.InStep := ⟨rfl, rfl, rfl, rfl, rfl⟩

theorem witness_MotionAndSizeCodeWords : channel .motionMag0 = .vlc .motion ∧ channel (.motionMag16 true) = .vlc .motion ∧
    channel .dcSizeLuma8 = .vlc .dcl ∧ channel .dcSizeChroma8 = .vlc .dcc ∧ (onStream [] 0).br.InStep :=
  ⟨rfl, rfl, rfl, rfl, rfl⟩

theorem witness_CoefficientCodeWords : channel (.coefFirstR0L1 true) = .vlc .coefFirst ∧
    channel (.coefR31L1 false) = .vlc .coefNext ∧ Instr.coefR31L1 false ≠ .eob ∧ (onStream [] 0).br.InStep ∧
    (0x7F : BitVec 8) ≠ 0 ∧ (0x7F : BitVec 8) ≠ 0x80 ∧ (0x81 : BitVec 8) ≠ 0x80 ∧ ¬((false : Bool) = false ∧ (1 : BitVec 8) = 0) :=
  ⟨rfl, rfl, by decide, rfl, by decide, by decide, by decide, by decide⟩

/-- With the sequence unknown and known. -/
theorem witness_HeaderFields : (onStream [1, 2] 3).br.InStep ∧ (∃ m, Instr.markerBit true = .markerBit m ∧ 1 = 1) ∧
    (onStream [1, 2] 3).seq.seqKnown = false ∧ (inPicture [1, 2] 3).br.InStep ∧ (inPicture [1, 2] 3).seq.seqKnown = true :=
  ⟨rfl, ⟨_, rfl, rfl⟩, rfl, rfl, rfl⟩

theorem witness_MatrixFields : (onStream [1, 2] 3).br.InStep ∧ (63 : Nat) < 64 := ⟨rfl, by decide⟩

theorem witness_ScaleFields : (onStream [1, 2] 3).br.InStep ∧ (31 : BitVec 5) ≠ 0 := ⟨rfl, by decide⟩

theorem witness_ResidualAndDifferentialFields : (onStream [1, 2] 3).br.InStep ∧
    ((onStream [1, 2] 3).latchMotionCode (-16)).assembly.motionCode ≠ 0 ∧ (onStream [1, 2] 3).assembly.motionCode = 0 ∧
    1 ≤ (8 : BitVec 4).toNat ∧ (8 : BitVec 4).toNat ≤ 8 ∧ (255 : BitVec 8).toNat < 2 ^ (8 : BitVec 4).toNat :=
  ⟨rfl, by decide, by decide, by decide, by decide, by decide⟩

/-! Headers -/

theorem witness_StartCodesWithoutFields : (onStream [] 0).br.InStep ∧ (onStream [] 0).hpState ≠ .pictureReady :=
  ⟨rfl, by decide⟩

/-- A P-picture header with one byte of extra information, alone and behind its start code. -/
theorem witness_PictureHeader : (onStream [0x00, 0x57, 0xFF, 0xF8, 0xD5, 0x40] 0).br.InStep ∧
    ExtraBytes (octetList [0x00, 0x57, 0xFF, 0xF8, 0xD5, 0x40]) (0 + pictureFieldBits
      ((onStream [0x00, 0x57, 0xFF, 0xF8, 0xD5, 0x40] 0).upcoming 10 3)) 1 ∧
    ExtraBytes (octetList [0, 0, 1, 0, 0x00, 0x57, 0xFF, 0xF8, 0xD5, 0x40]) (0 + 32 + pictureFieldBits
      ((onStream [0, 0, 1, 0, 0x00, 0x57, 0xFF, 0xF8, 0xD5, 0x40] 0).upcoming 42 3)) 1 :=
  ⟨rfl, ⟨by decide, by decide⟩, ⟨by decide, by decide⟩⟩

/-- Sizes 4095 by 1, allowed and denied, with the intra matrix loaded; width 0; height 0. -/
theorem witness_FirstSequenceHeader : (onStream [0xFF, 0xF0, 0x01, 0x13, 0, 0, 0, 0x02] 0).Decoding ∧
    (onStream [0xFF, 0xF0, 0x01, 0x13, 0, 0, 0, 0x02] 0).seq.seqKnown = false ∧
    (Instr.seqSequenceHeader = .seqSequenceHeader ∧ 0 = 0) ∧ (Instr.scSequenceHeader = .scSequenceHeader ∧ 32 = 32) ∧
    (onStream [0xFF, 0xF0, 0x01, 0x13, 0, 0, 0, 0x02] 0).upcoming 0 12 = 4095 ∧
    (onStream [0xFF, 0xF0, 0x01, 0x13, 0, 0, 0, 0x02] 0).upcoming 12 12 = 1 ∧
    (onStream [0xFF, 0xF0, 0x01, 0x13, 0, 0, 0, 0x02] 0).upcoming 62 1 = 1 ∧
    (roundUp16 4095, roundUp16 1) ∉ (onStream [0xFF, 0xF0, 0x01, 0x13, 0, 0, 0, 0x02] 0).allocDenied ∧
    (onStream [0x00, 0x00, 0x01, 0x13] 0).upcoming 0 12 = 0 ∧ (onStream [0x00, 0x10, 0x00, 0x13] 0).upcoming 12 12 = 0 ∧
    (roundUp16 4095, roundUp16 1) ∈ { onStream [0xFF, 0xF0, 0x01, 0x13] 0 with allocDenied := [(4096, 16)] }.allocDenied :=
  ⟨decoding_of rfl rfl, rfl, ⟨rfl, rfl⟩, ⟨rfl, rfl⟩, by decide, by decide, by decide, by decide, by decide, by decide, by decide⟩

theorem witness_RepeatedSequenceHeader : (inPicture [1, 2, 3] 0).Decoding ∧ (inPicture [1, 2, 3] 0).seq.seqKnown = true ∧
    (Instr.seqSequenceHeader = .seqSequenceHeader ∧ 0 = 0) ∧ (Instr.scSequenceHeader = .scSequenceHeader ∧ 32 = 32) :=
  ⟨decoding_of rfl rfl, rfl, ⟨rfl, rfl⟩, rfl, rfl⟩

/-! Symbols, blocks, vectors -/

theorem witness_VldCode : (onBits 16 0b0000000000011011).Decoding ∧
    (⟨16, 0b0000000000011011, .dct (.pair 31 1)⟩ : Row VlcSymbol) ∈ (onBits 16 0b0000000000011011).tableRows .dct ∧
    (onBits 16 0b0000000000011011).upcoming 0 16 = 0b0000000000011011 ∧
    (∀ r ∈ (onBits 2 0b00).tableRows .mbtI, (onBits 2 0b00).upcoming 0 r.len ≠ r.bits) :=
  ⟨decoding_of rfl rfl, by decide, by decide, by decide⟩

/-- An escape, stuffing and an increment; an escape and no code word; no run. -/
theorem witness_VldMbaInc : (onBits 33 0b00000001000_00000001111_00000011000).Decoding ∧
    (∀ r ∈ ([⟨11, 0b00000001000, .escape⟩, ⟨11, 0b00000001111, .stuffing⟩] : List (Row MbaSymbol)),
      r ∈ defaultTables.mba ∧ (r.sym = .stuffing ∨ r.sym = .escape)) ∧
    (onBits 33 0b00000001000_00000001111_00000011000).Holds 0
      (([⟨11, 0b00000001000, .escape⟩, ⟨11, 0b00000001111, .stuffing⟩] : List (Row MbaSymbol)).map rowCode) ∧
    (⟨11, 0b00000011000, .increment 33⟩ : Row MbaSymbol) ∈ defaultTables.mba ∧
    (onBits 33 0b00000001000_00000001111_00000011000).upcoming (bitCount
      (([⟨11, 0b00000001000, .escape⟩, ⟨11, 0b00000001111, .stuffing⟩] : List (Row MbaSymbol)).map rowCode)) 11 = 0b00000011000 ∧
    (onBits 19 0b00000001000_00000000).Holds 0 (([⟨11, 0b00000001000, .escape⟩] : List (Row MbaSymbol)).map rowCode) ∧
    (∀ r ∈ defaultTables.mba, (onBits 19 0b00000001000_00000000).upcoming
      (bitCount (([⟨11, 0b00000001000, .escape⟩] : List (Row MbaSymbol)).map rowCode)) r.len ≠ r.bits) ∧
    (onBits 1 1).Holds 0 (([] : List (Row MbaSymbol)).map rowCode) ∧ (onBits 1 1).upcoming 0 1 = 1 :=
  ⟨decoding_of rfl rfl, by decide, holds_of_test (by decide), by decide, by decide, holds_of_test (by decide), by decide, trivial,
    by decide⟩

theorem witness_VldMbTypeCbpAndMotionCode : (inPicture [0x80] 0).Decoding ∧ (inPicture [0x80] 0).pic.pictType = 1 ∧
    (⟨1, 1, 1⟩ : Row (BitVec 5)) ∈ (inPicture [0x80] 0).typeTable ∧ (inPicture [0x80] 0).upcoming 0 1 = 1 ∧
    (∀ r ∈ (inPicture [0x00] 0).typeTable, (inPicture [0x00] 0).upcoming 0 r.len ≠ r.bits) ∧
    (∀ n ∈ ([0, 4, 7] : List (BitVec 3)), ({ onBits 1 1 with pic := { State.reset.pic with pictType := n } }.pic.pictType) ∉
      ([1, 2, 3] : List (BitVec 3))) ∧
    (⟨9, 0b000000010, 39⟩ : Row (BitVec 6)) ∈ defaultTables.cbp ∧ (onBits 9 0b000000010).upcoming 0 9 = 0b000000010 ∧
    (∀ r ∈ defaultTables.cbp, (onBits 8 0).upcoming 0 r.len ≠ r.bits) ∧
    (⟨1, 1, 0⟩ : Row Nat) ∈ defaultTables.motion ∧ (onBits 1 1).upcoming 0 1 = 1 ∧
    (⟨10, 0b0000001100, 16⟩ : Row Nat) ∈ defaultTables.motion ∧ (onBits 11 0b0000001100_1).upcoming 0 10 = 0b0000001100 ∧
    (∀ r ∈ defaultTables.motion, (onBits 8 0b00000010).upcoming 0 r.len ≠ r.bits) :=
  ⟨decoding_of rfl rfl, rfl, by decide, by decide, by decide, by decide, by decide, by decide, by decide, by decide, by decide,
    by decide, by decide, by decide⟩

theorem witness_DcDifferential : (onBits 16 0b11111110_00000000).Decoding ∧
    (⟨8, 0b11111110, 8⟩ : Row Nat) ∈ (onBits 16 0b11111110_00000000).sizeTable 5 ∧
    (onBits 16 0b11111110_00000000).upcoming 0 8 = 0b11111110 ∧ (⟨3, 0b100, 0⟩ : Row Nat) ∈ (onBits 3 0b100).sizeTable 3 ∧
    (onBits 3 0b100).upcoming 0 3 = 0b100 ∧
    (∀ r ∈ (onBits 7 0b1111111).sizeTable 3, (onBits 7 0b1111111).upcoming 0 r.len ≠ r.bits) ∧
    (∀ r ∈ (onBits 8 0b11111111).sizeTable 4, (onBits 8 0b11111111).upcoming 0 r.len ≠ r.bits) :=
  ⟨decoding_of rfl rfl, by decide, by decide, by decide, by decide, by decide, by decide⟩

theorem witness_VldCoefAndEscape : (onBits 28 0b000001_111111_10000000_00000000).Decoding ∧
    CodesPair defaultTables.dct true 0 (-1) ⟨2, 0b11⟩ ∧ (onBits 2 0b11).upcoming 0 2 = 0b11 ∧
    CodesPair defaultTables.dct false 63 (-256) ⟨28, 0b000001_111111_10000000_00000000⟩ ∧
    (onBits 28 0b000001_111111_10000000_00000000).upcoming 0 28 = 0b000001_111111_10000000_00000000 ∧
    (onBits 2 0b10).upcoming 0 2 = 0b10 ∧ (onBits 12 0).CoefRaises 0 .vlcInvalid 9 0 ∧
    (onBits 28 0b000001_111111_00000000_00000000).CoefRaises 0 .escLevelZero 63 28 ∧
    (onBits 22 0b111111_01111111_00000000).upcoming 6 8 = 0x7F ∧ (onBits 22 0b111111_10000001_00000000).upcoming 6 8 = 0x81 ∧
    (onBits 22 0b111111_10000000_11111111).upcoming 6 8 = 0x80 ∧ (onBits 22 0b111111_00000000_00000001).upcoming 14 8 = 1 ∧
    (onBits 22 0b111111_00000000_00000000).upcoming 14 8 = 0 :=
  ⟨decoding_of rfl rfl, ⟨by decide, .inr (.inl ⟨rfl, by decide, by decide⟩)⟩, by decide,
    ⟨by decide, .inr (.inr (.inr (.inr ⟨by decide, by decide, by decide, by decide⟩)))⟩, by decide, by decide,
    .inl ⟨by decide, by decide, rfl, rfl, rfl⟩, .inr ⟨63, by decide, by decide, rfl, rfl, rfl⟩, by decide, by decide, by decide,
    by decide, by decide⟩

theorem witness_DequantisedIsOddAndBounded : (-256 : BitVec 9) ≠ 0 ∧ (1 : BitVec 9) ≠ 0 := by decide

/-- A luma block of differential 0, the pair (62, 1) at index 63 by an escape, then: end of block; a pair past index 63; no
code word; an escaped level of 0. No size. -/
theorem witness_IntraBlock : (onBits 25 0b100_000001_111110_00000001_10).Decoding ∧
    (⟨3, 0b100, 0⟩ : Row Nat) ∈ (onBits 25 0b100_000001_111110_00000001_10).sizeTable 0 ∧
    (onBits 25 0b100_000001_111110_00000001_10).upcoming 0 3 = 0b100 ∧
    CodePairs defaultTables.dct false [(62, 1)] [⟨20, 0b000001_111110_00000001⟩] ∧
    (onBits 25 0b100_000001_111110_00000001_10).Holds (3 + 0) [⟨20, 0b000001_111110_00000001⟩] ∧
    (∀ q ∈ pairIndexes 1 [(62, 1)], q.1 ≤ 63) ∧ (onBits 25 0b100_000001_111110_00000001_10).upcoming (3 + 20) 2 = 0b10 ∧
    (onBits 26 0b100_000001_111110_00000001_110).PairRaises 0 false (indexAfter 1 [(62, 1)]) (3 + 20) .coefIndex 0 3 ∧
    (onBits 39 0b100_000001_111110_00000001_0000000000000000).PairRaises 0 false (indexAfter 1 [(62, 1)]) (3 + 20) .vlcInvalid 9 0 ∧
    (onBits 51 0b100_000001_111110_00000001_000001_000101_00000000_00000000).PairRaises 0 false (indexAfter 1 [(62, 1)]) (3 + 20)
      .escLevelZero 5 28 ∧
    (∀ r ∈ (onBits 7 0b1111111).sizeTable 0, (onBits 7 0b1111111).upcoming 0 r.len ≠ r.bits) :=
  ⟨decoding_of rfl rfl, by decide, by decide, ⟨⟨by decide, .inr (.inr (.inl ⟨by decide, by decide, by decide, by decide⟩))⟩, trivial⟩,
    holds_of_test (by decide), by decide, by decide,
    .inr ⟨0, 1, ⟨3, 0b110⟩, ⟨by decide, .inr (.inl ⟨rfl, by decide, by decide⟩)⟩, by decide, by decide, rfl, rfl, rfl⟩,
    .inl (.inl ⟨by decide, by decide, rfl, rfl, rfl⟩), .inl (.inr ⟨5, by decide, by decide, rfl, rfl, rfl⟩), by decide⟩

/-- The pairs (0, 1) and (62, 1) reach index 63, then end of block; the pair (63, 1) after (0, 1) passes it; no pair at all
and no code word. -/
theorem witness_InterBlock : (onBits 24 0b10_000001_111110_00000001_10).Decoding ∧
    (∀ q ∈ pairIndexes 0 [(0, 1), (62, 1)], q.1 ≤ 63) ∧
    CodePairs defaultTables.dct true [(0, 1), (62, 1)] [⟨2, 0b10⟩, ⟨20, 0b000001_111110_00000001⟩] ∧
    (onBits 24 0b10_000001_111110_00000001_10).Holds 0 [⟨2, 0b10⟩, ⟨20, 0b000001_111110_00000001⟩] ∧
    (onBits 24 0b10_000001_111110_00000001_10).upcoming (bitCount [⟨2, 0b10⟩, ⟨20, 0b000001_111110_00000001⟩]) 2 = 0b10 ∧
    (∀ q ∈ pairIndexes 0 [((0 : Nat), (1 : Int))], q.1 ≤ 63) ∧ CodePairs defaultTables.dct true [(0, 1)] [⟨2, 0b10⟩] ∧
    (onBits 22 0b10_000001_111111_00000001).Holds 0 [⟨2, 0b10⟩] ∧
    (onBits 22 0b10_000001_111111_00000001).PairRaises 2 false (indexAfter 0 [(0, 1)]) (bitCount [⟨2, 0b10⟩]) .coefIndex 2 20 ∧
    (onBits 16 0).PairRaises 2 true (indexAfter 0 []) (bitCount []) .vlcInvalid 9 0 :=
  ⟨decoding_of rfl rfl, by decide, ⟨⟨by decide, .inr (.inl ⟨rfl, by decide, by decide⟩)⟩,
      ⟨by decide, .inr (.inr (.inl ⟨by decide, by decide, by decide, by decide⟩))⟩, trivial⟩,
    holds_of_test (by decide), by decide, by decide, ⟨⟨by decide, .inr (.inl ⟨rfl, by decide, by decide⟩)⟩, trivial⟩,
    holds_of_test (by decide),
    .inr ⟨63, 1, ⟨20, 0b000001_111111_00000001⟩, ⟨by decide, .inr (.inr (.inl ⟨by decide, by decide, by decide, by decide⟩))⟩,
      by decide, by decide, rfl, rfl, rfl⟩, .inl (.inl ⟨by decide, by decide, rfl, rfl, rfl⟩)⟩

theorem witness_MotionVectorDecode : (onBits 17 0b0000001100_1_111111).Decoding ∧
    (⟨10, 0b0000001100, 16⟩ : Row Nat) ∈ defaultTables.motion ∧
    (onBits 17 0b0000001100_1_111111).upcoming 0 10 = 0b0000001100 ∧ (⟨1, 1, 0⟩ : Row Nat) ∈ defaultTables.motion ∧
    (onBits 1 1).upcoming 0 1 = 1 ∧ (∀ r ∈ defaultTables.motion, (onBits 7 0).upcoming 0 r.len ≠ r.bits) :=
  ⟨decoding_of rfl rfl, by decide, by decide, by decide, by decide, by decide⟩

theorem witness_VectorStaysInWindow : (onBits 17 0b0000001100_1_111111).Decoding ∧ (6 : BitVec 3).toNat ≤ 6 ∧
    -(16 * 2 ^ (6 : BitVec 3).toNat) ≤ ((onBits 17 0b0000001100_1_111111).setPmv .forward .x (-1024)).work.pmv.get .forward .x ∧
    ((onBits 17 0b0000001100_1_111111).setPmv .forward .x (-1024)).work.pmv.get .forward .x < 16 * 2 ^ (6 : BitVec 3).toNat ∧
    ((onBits 17 0b0000001100_1_111111).setPmv .forward .x 2046).work.pmv.get .forward .x % 2 = 0 ∧
    ((onBits 17 0b0000001100_1_111111).setPmv .forward .x 2046).work.pmv.get .forward .x < 32 * 2 ^ (6 : BitVec 3).toNat ∧
    (∃ t, exec (.mvrDecode .forward .x 6 false) ((onBits 17 0b0000001100_1_111111).setPmv .forward .x (-1024)) = .next t) ∧
    (∃ t, exec (.mvrDecode .forward .x 6 true) ((onBits 17 0b0000001100_1_111111).setPmv .forward .x 2046) = .next t) :=
  ⟨decoding_of rfl rfl, by decide, by decide, by decide, by decide, by decide, next_of_after (by decide), next_of_after (by decide)⟩

theorem witness_IdctColumnPass : ∀ j, j < 8 →
    -9000 ≤ ((gather (Vector.replicate 64 (BitVec.ofInt 16 (-9000))) 7 8).map BitVec.toInt).nth j ∧
      ((gather (Vector.replicate 64 (BitVec.ofInt 16 (-9000))) 7 8).map BitVec.toInt).nth j ≤ 9000 := by decide

theorem witness_IdctBlockTransform : (-2048 : Int) ≤ -2048 ∧ (2047 : Int) ≤ 2047 ∧
    (withCoef State.reset 0 2047).blk[(0 : BlockNo)][0] = BitVec.ofInt 16 2047 ∧
    (∀ k, 0 < k → k < 64 → (withCoef State.reset 0 2047).blk[(0 : BlockNo)][k]? = some 0) := by
  have zeros : ∀ k : Fin 64, 0 < k.val → (withCoef State.reset 0 2047).blk[(0 : BlockNo)][k.val]? = some 0 := by decide
  exact ⟨by decide, by decide, by decide, fun k h0 h1 => zeros ⟨k, h1⟩ h0⟩

/-! Prediction and reconstruction -/

theorem witness_SampleReadsAsWritten : (FrameStore.mk 16 16 0 []).InOrder 1 ∧
    (FrameStore.mk 16 16 0 []).inPlane 0 (15 : Nat) (15 : Nat) = true ∧
    (FrameStore.mk 16 16 0 []).inPlane 2 (7 : Nat) (7 : Nat) = true := ⟨inOrder_small, by decide, by decide⟩

/-- The vector (1, 1) at the first sample, and no vector at the last one. No frame store, no current buffer, and the first
column outside the picture. -/
theorem witness_FormPrediction : (StepInv (inPicture [] 0) ∧ (inPicture [] 0).Targets ⟨16, 16, 0, []⟩ 0 0 0 ∧
    true = (inPicture [] 0).cfg.getLsbD (if true then 1 else 0) ∧ (inPicture [] 0).reference .backward ≠ 0 ∧
    inMacroblock 0 0 0 0 0 ∧ (FrameStore.mk 16 16 0 []).PassReads 0 true 1 1 0 0 ∧
    inMacroblock 2 0 0 7 7 ∧ (FrameStore.mk 16 16 0 []).PassReads 2 true 0 0 7 7) ∧
    State.reset.frames = none ∧ { inPicture [] 0 with roles := State.reset.roles }.roles.cur = none ∧
    ¬(inPicture [] 0).Targets ⟨16, 16, 0, []⟩ 0 1 0 :=
  ⟨⟨stepInv_inPicture [] 0, targets_inPicture [] 0, by decide, by decide, by unfold inMacroblock; decide,
    ⟨by decide, by decide⟩, by unfold inMacroblock; decide, ⟨by decide, by decide⟩⟩, rfl, rfl,
    fun h => absurd h.2.2.1 (by decide)⟩

theorem witness_PutAndAddBlock : (StepInv (inPicture [] 0) ∧ (inPicture [] 0).Targets ⟨16, 16, 0, []⟩ 0 0 0 ∧
    (0, 8, 8) = blockOrigin 3 0 0 ∧ (2, 0, 0) = blockOrigin 5 0 0) ∧
    State.reset.frames = none ∧ { inPicture [] 0 with roles := State.reset.roles }.roles.cur = none ∧
    ¬(inPicture [] 0).Targets ⟨16, 16, 0, []⟩ 0 0 1 :=
  ⟨⟨stepInv_inPicture [] 0, targets_inPicture [] 0, by decide, by decide⟩, rfl, rfl, fun h => absurd h.2.2.2 (by decide)⟩

/-- A known grid, and none: the free position lies inside the picture of one macroblock. -/
theorem witness_SkippedMacroblockInP : (StepInv (inPicture [] 0) ∧ (inPicture [] 0).seq.mbCols ≠ 0 ∧
    (inPicture [] 0).gridPosition (0 : BitVec 16).toNat = ((0, 0), inPicture [] 0) ∧
    (inPicture [] 0).Targets ⟨16, 16, 0, []⟩ 0 0 0) ∧
    (StepInv (withoutGrid (inPicture [] 0)) ∧ (∃ t, (withoutGrid (inPicture [] 0)).gridPosition (9 : BitVec 16).toNat = ((0, 0), t)) ∧
      (withoutGrid (inPicture [] 0)).Targets ⟨16, 16, 0, []⟩ 0 0 0) :=
  ⟨⟨stepInv_inPicture [] 0, by decide, rfl, targets_inPicture [] 0⟩,
    stepInv_withoutGrid (stepInv_inPicture [] 0), withoutGrid_position (inPicture [] 0) _ 9 rfl rfl rfl, targets_inPicture [] 0⟩

/-- Every pair of directions, with a known grid; and none. -/
theorem witness_SkippedMacroblockInB : (∀ m ∈ [Motion.mk false false, ⟨true, true⟩, ⟨true, false⟩, ⟨false, true⟩], ∃ s : State,
    StepInv s ∧ s.seq.mbCols ≠ 0 ∧ s.gridPosition (0 : BitVec 16).toNat = (((0 : BitVec 8).toNat, (0 : BitVec 8).toNat), s) ∧
    s.Targets ⟨16, 16, 0, []⟩ 0 (0 : BitVec 8).toNat (0 : BitVec 8).toNat ∧ (-2048 : BitVec 16).toInt = s.work.pmv.forward.x ∧
    (2046 : BitVec 16).toInt = s.work.pmv.forward.y ∧ (3 : BitVec 16).toInt = s.work.pmv.backward.x ∧
    (-3 : BitVec 16).toInt = s.work.pmv.backward.y ∧ s.work.prevMotion = m) ∧
    (StepInv (withoutGrid (inPicture [] 0)) ∧ (∃ t, (withoutGrid (inPicture [] 0)).gridPosition (9 : BitVec 16).toNat = ((0, 0), t)) ∧
      (withoutGrid (inPicture [] 0)).Targets ⟨16, 16, 0, []⟩ 0 0 0) :=
  ⟨fun m _ => ⟨_, stepInv_moved [] 0 m, by decide +revert, position_small rfl, ⟨rfl, rfl, by decide, by decide⟩, by decide +revert,
    by decide +revert, by decide +revert, by decide +revert, rfl⟩,
    stepInv_withoutGrid (stepInv_inPicture [] 0), withoutGrid_position (inPicture [] 0) _ 9 rfl rfl rfl, targets_inPicture [] 0⟩

/-! Macroblocks, slices, pictures -/

/-- No picture type; no type in the stream; a forward vector, and a backward one, without a range code. -/
theorem witness_Macroblock_type_and_ranges :
    (State.reset.pic.pictType ∉ ([1, 2, 3] : List (BitVec 3))) ∧
    (StepInv (inB [0] 1 1) ∧ (inB [0] 1 1).pic.pictType ∈ ([1, 2, 3] : List (BitVec 3)) ∧
      Raises .vldMbtype (inB [0] 1 1) (faultEntry .vlcInvalid 4 (inB [0] 1 1))) ∧
    (let s := inB [0b10_000000] 0 1; let a := runOps [.vldMbtype] s
      Sequence Parses [.vldMbtype] s a ∧ Sequence Parses (a.scaleOps a.work.mbType) a (runOps (a.scaleOps a.work.mbType) a) ∧
      hasForward a.work.mbType = true ∧ s.pic.forwardCode = 0) ∧
    (let s := inB [0b10_11_0000] 1 0; let a := runOps [.vldMbtype] s; let l := a.scaleOps a.work.mbType ++ a.forwardOps a.work.mbType
      Sequence Parses [.vldMbtype] s a ∧ Sequence Parses l a (runOps l a) ∧ s.pic.forwardCode ≠ 0 ∧
      hasBackward a.work.mbType = true ∧ s.pic.backwardCode = 0) :=
  ⟨by decide, ⟨stepInv_inB _ _ _, by decide, rfl, _, _, _, rfl, rfl⟩,
    ⟨parses_of_completes (by decide +kernel), parses_of_completes (by decide +kernel), by decide, by decide⟩,
    ⟨parses_of_completes (by decide +kernel), parses_of_completes (by decide +kernel), by decide, by decide, by decide⟩⟩

/-- A scale of 0; a block that is no code word. -/
theorem witness_Macroblock_raises :
    (let s := inB [0b00010_000, 0b00_000000] 1 1; let a := runOps [.vldMbtype] s
      Sequence Parses [.vldMbtype] s a ∧ ∃ v, SequenceRaises (a.headOps a.work.mbType) a v) ∧
    (let s := inB [0b11_11_11_11, 0b01_000000, 0] 1 1; let a := runOps [.vldMbtype] s; let b := runOps (a.headOps a.work.mbType) a
      let c := b.beforeBlocks a.work.mbType
      Sequence Parses [.vldMbtype] s a ∧ Sequence Parses (a.headOps a.work.mbType) a b ∧
        ∃ v, SequenceRaises (c.blockOps a.work.mbType) c v) :=
  ⟨⟨parses_of_completes (by decide +kernel), _, .inl ⟨rfl, _, _, _, rfl, rfl⟩⟩,
    ⟨parses_of_completes (by decide +kernel), parses_of_completes (by decide +kernel), _, .inl ⟨rfl, _, _, _, rfl, rfl⟩⟩⟩

/-- A macroblock of a B-picture with scale, both vectors, a pattern of one block and one coefficient: type 30. -/
def bStart : State := inB [0b00010_000, 0b11_1_1_1_1_11, 0b01_10_10_00] 1 1

/-- Behind its type. -/
def bTyped : State := runOps [.vldMbtype] bStart

/-- Behind its pattern. -/
def bHead : State := runOps (bTyped.headOps 30) bTyped

/-- Behind its blocks. -/
def bParsed : State := runOps ((bHead.beforeBlocks 30).blockOps 30) (bHead.beforeBlocks 30)

/-- A prediction inside the picture completes and leaves a state that allows the next one. -/
theorem hpi_does {s : State} {fs : FrameStore} {cur : Fin 3} {X Y : BitVec 8} (h : s.Targets fs cur X.toNat Y.toNat) (avg : Bool)
    (d : Direction) (dx dy : BitVec 16) : ∃ t gs, Does (if avg then .hpiFormAvg d X Y dx dy else .hpiForm d X Y dx dy) s t ∧
      t.Targets gs cur X.toNat Y.toNat := by
  obtain ⟨gs, n, e, w, _⟩ := predict_eq h avg d dx.toInt dy.toInt
  refine ⟨{ s with frames := some gs, draws := n }, gs, ⟨.nothing, ?_, rfl⟩, rfl, h.2.1, w.same.1 ▸ h.2.2.1, w.same.2.1 ▸ h.2.2.2⟩
  cases avg <;> exact congrArg (·.finish noResult) e

theorem predictions_do {s : State} {fs : FrameStore} {cur : Fin 3} {X Y : BitVec 8} (h : s.Targets fs cur X.toNat Y.toNat)
    (t : BitVec 5) : ∃ f gs, Sequence Does (s.predictionOps t X Y) s f ∧ f.Targets gs cur X.toNat Y.toNat := by
  unfold State.predictionOps
  simp only
  split
  · exact ⟨s, fs, rfl, h⟩
  split
  · obtain ⟨u, gs, d, g⟩ := hpi_does h false .forward (BitVec.ofInt 16 s.work.pmv.forward.x) (BitVec.ofInt 16 s.work.pmv.forward.y)
    exact ⟨u, gs, ⟨u, d, rfl⟩, g⟩
  split
  · obtain ⟨u, gs, d, g⟩ := hpi_does h false .forward (BitVec.ofInt 16 s.work.pmv.forward.x) (BitVec.ofInt 16 s.work.pmv.forward.y)
    obtain ⟨v, hs, e, k⟩ := hpi_does g true .backward (BitVec.ofInt 16 s.work.pmv.backward.x) (BitVec.ofInt 16 s.work.pmv.backward.y)
    exact ⟨v, hs, ⟨u, d, v, e, rfl⟩, k⟩
  · obtain ⟨u, gs, d, g⟩ := hpi_does h false .forward (BitVec.ofInt 16 s.work.pmv.forward.x) (BitVec.ofInt 16 s.work.pmv.forward.y)
    exact ⟨u, gs, ⟨u, d, rfl⟩, g⟩
  · obtain ⟨u, gs, d, g⟩ := hpi_does h false .backward (BitVec.ofInt 16 s.work.pmv.backward.x) (BitVec.ofInt 16 s.work.pmv.backward.y)
    exact ⟨u, gs, ⟨u, d, rfl⟩, g⟩

theorem residuals_do (intra : Bool) {cur : Fin 3} {X Y : BitVec 8} : ∀ (l : List BlockNo) {s : State} {fs : FrameStore},
    s.Targets fs cur X.toNat Y.toNat → ∃ g, Sequence Does
      (l.flatMap fun b => [.idctBlock b, if intra then .mbtPutIntra b X Y else .mbtAddInter b X Y]) s g
  | [], s, _, _ => ⟨s, rfl⟩
  | b :: rest, s, fs, h => by
    have h' : (s.setBlock b (idct s.blk[b])).Targets fs cur X.toNat Y.toNat := h
    have w := tileBlock_writes h'.hasMacroblock intra (s.setBlock b (idct s.blk[b])).blk[b] cur b
    have e : tile intra b X.toNat Y.toNat (s.setBlock b (idct s.blk[b])) = _ := State.withTarget_eq h' _
    obtain ⟨g, k⟩ := residuals_do intra (X := X) (Y := Y) rest (s := { s.setBlock b (idct s.blk[b]) with
      frames := some (tileBlock intra (s.setBlock b (idct s.blk[b])).blk[b] cur b X.toNat Y.toNat fs) })
      ⟨rfl, h.2.1, w.same.1 ▸ h.2.2.1, w.same.2.1 ▸ h.2.2.2⟩
    refine ⟨g, s.setBlock b (idct s.blk[b]), ⟨.nothing, rfl, rfl⟩,
      { s.setBlock b (idct s.blk[b]) with
        frames := some (tileBlock intra (s.setBlock b (idct s.blk[b])).blk[b] cur b X.toNat Y.toNat fs) }, ⟨.nothing, ?_, rfl⟩, k⟩
    cases intra <;> exact congrArg (·.finish noResult) e

theorem witness_Macroblock_whole : StepInv bStart ∧ Sequence Parses [.vldMbtype] bStart bTyped ∧ 30 = bTyped.work.mbType ∧
    bStart.pic.forwardCode ≠ 0 ∧ bStart.pic.backwardCode ≠ 0 ∧ Sequence Parses (bTyped.headOps 30) bTyped bHead ∧
    Sequence Parses ((bHead.beforeBlocks 30).blockOps 30) (bHead.beforeBlocks 30) bParsed ∧
    bParsed.gridPosition bParsed.work.mba = (((0 : BitVec 8).toNat, (0 : BitVec 8).toNat), bParsed) ∧
    ∃ f g, Sequence Does ((bParsed.beforePrediction 30).predictionOps 30 0 0) (bParsed.beforePrediction 30) f ∧
      Sequence Does ((f.afterPrediction 30).residualOps 30 0 0) (f.afterPrediction 30) g := by
  have tgt : (bParsed.beforePrediction 30).Targets ⟨16, 16, 0, []⟩ 2 (0 : BitVec 8).toNat (0 : BitVec 8).toNat :=
    ⟨by decide +kernel, by decide +kernel, by decide, by decide⟩
  obtain ⟨f, gs, p, h⟩ := predictions_do tgt 30
  obtain ⟨g, r⟩ := residuals_do (hasIntra 30) (codedList (f.afterPrediction 30).work.cbp) (s := f.afterPrediction 30) (fs := gs)
    (by unfold State.afterPrediction; split <;> exact h)
  exact ⟨stepInv_inB _ _ _, parses_of_completes (by decide +kernel), by decide +kernel, by decide, by decide,
    parses_of_completes (by decide +kernel), parses_of_completes (by decide +kernel),
    position_at_zero (by decide +kernel) (by decide +kernel), f, g, p, r⟩

theorem witness_Macroblock : StepInv (inPicture [0xCA, 0x52, 0x91, 0x10] 0) ∧
    (inPicture [0xCA, 0x52, 0x91, 0x10] 0).params.tables = defaultTables ∧
    (inPicture [0xCA, 0x52, 0x91, 0x10] 0).pic.pictType = 1 ∧ (inPicture [0xCA, 0x52, 0x91, 0x10] 0).seq.mbCols ≠ 0 ∧
    (inPicture [0xCA, 0x52, 0x91, 0x10] 0).Targets ⟨16, 16, 0, []⟩ 0 (0 % 1) (0 / 1) ∧
    (inPicture [0xCA, 0x52, 0x91, 0x10] 0).Holds 0 [flatIntra] :=
  ⟨stepInv_inPicture _ _, rfl, rfl, by decide, targets_inPicture _ _, holds_of_test (by decide)⟩

theorem witness_BlocksBeforeAMacroblockDoNotMatter : ∃ t, exec .seqMacroblock (inPicture [0xCA, 0x52, 0x91, 0x10] 0) = .next t :=
  next_of_after (by decide)

/-- A scale of 0; by the start code: scale 3, one extra byte and an increment of 2, which is past the only macroblock; no
increment; row 0 with a free address, which no picture of 0 macroblocks holds, and with the address 0; a loop that ends
with the picture; a loop whose macroblock is no code word. -/
theorem witness_SliceHeader :
    ((inPicture [0, 0, 1, 1, 0x00] 0).Decoding ∧
      (∃ t : BitVec 24, Instr.seqSlice 1 = .seqSlice t ∧ 1 = t.toNat ∧ 1 = (inPicture [0, 0, 1, 1, 0x00] 0).upcoming 0 32 % 256) ∧
      (0 : BitVec 5).toNat = (inPicture [0, 0, 1, 1, 0x00] 0).upcoming 32 5) ∧
    (let s := { inPicture [0, 0, 1, 1, 0x1D, 0x54, 0xC0] 0 with hpState := .pictureReady };
      s.Decoding ∧ (∃ x : BitVec 8, Instr.scSlice 1 = .scSlice x ∧ s.hpState = .pictureReady ∧ 1 = s.seq.mbCols * s.seq.mbRows ∧
        1 = x.toNat) ∧ (3 : BitVec 5).toNat = s.upcoming 32 5 ∧ ExtraBytes s.br.source (s.br.bitpos + 37) 1 ∧
      incrementOf (mbaIncrement ((sliced s 3).ahead (38 + 9 * 1))) = some 2 ∧ 1 ≤ (1 - 1) * s.seq.mbCols + 2 - 1) ∧
    (let s := inPicture [0, 0, 1, 1, 0x18, 0x00, 0x00] 0;
      (3 : BitVec 5).toNat = s.upcoming 32 5 ∧ ExtraBytes s.br.source (s.br.bitpos + 37) 0 ∧
        ∃ c info v, mbaIncrement ((sliced s 3).ahead (38 + 9 * 0)) = .raised c info v) ∧
    (let s := inPicture [0, 0, 1, 0, 0x1A] 0;
      0 = s.upcoming 0 32 % 256 ∧ (3 : BitVec 5).toNat = s.upcoming 32 5 ∧ ExtraBytes s.br.source (s.br.bitpos + 37) 0 ∧
        incrementOf (mbaIncrement ((sliced s 3).ahead (38 + 9 * 0))) = some 1 ∧ 1 ≤ s.seq.mbCols ∧
        (0 : BitVec 24).toNat ≤ Config.freeAddress s.draws) ∧
    (let s := inPicture [0, 0, 1, 0, 0x19, 0xE5, 0x29, 0x48, 0x88] 0; let v := (sliced s 3).ahead 41;
      0 = s.upcoming 0 32 % 256 ∧ (3 : BitVec 5).toNat = s.upcoming 32 5 ∧ ExtraBytes s.br.source (s.br.bitpos + 37) 0 ∧
        incrementOf (mbaIncrement ((sliced s 3).ahead (38 + 9 * 0))) = some 2 ∧ s.seq.mbCols < 2 ∧
        ∃ x, LoopGives 1 { v with work := { v.work with mba := 2 - s.seq.mbCols - 1 } } (.ok .done x)) ∧
    (let s := inPicture [0, 0, 1, 1, 0x1B, 0x94, 0xA5, 0x22, 0x20] 0; let v := (sliced s 3).ahead 39;
      incrementOf (mbaIncrement ((sliced s 3).ahead (38 + 9 * 0))) = some 1 ∧
        ∃ x, LoopGives 1 { v with work := { v.work with mba := (1 - 1) * s.seq.mbCols + 1 - 1 } } (.ok .done x)) ∧
    (let s := inPicture [0, 0, 1, 1, 0x1A, 0x00] 0; let v := (sliced s 3).ahead 39;
      incrementOf (mbaIncrement ((sliced s 3).ahead (38 + 9 * 0))) = some 1 ∧
        ∃ c info x, LoopGives 1 { v with work := { v.work with mba := (1 - 1) * s.seq.mbCols + 1 - 1 } } (.raised c info x)) :=
  ⟨⟨decoding_of rfl rfl, ⟨_, rfl, by decide, by decide⟩, by decide⟩,
    ⟨decoding_of rfl rfl, ⟨_, rfl, rfl, by decide, by decide⟩, by decide, ⟨by decide, by decide⟩, by decide, by decide⟩,
    ⟨by decide, ⟨by decide, by decide⟩, raised_of_endOfIncrement (by decide)⟩,
    ⟨by decide, by decide, ⟨by decide, by decide⟩, by decide, by decide, Nat.zero_le _⟩,
    ⟨by decide, by decide, ⟨by decide, by decide⟩, by decide, by decide, _,
      .last _ _ (by decide) (ok_of_unit (s := State.reset) (by decide))⟩,
    ⟨by decide, _, .last _ _ (by decide) (ok_of_unit (s := State.reset) (by decide))⟩,
    by decide, loop_raises (by decide) (by decide)⟩

/-- Behind the header of the first slice, with scale 3 and an increment of 1. -/
def atFirst (l : List Nat) : State := (sliced (inPicture l 0) 3).ahead 39

/-- A slice of one flat macroblock: the last of its picture, the first of two with 23 zero bits behind it, the first of
three with an increment of 2 behind it, and one that is no code word. -/
theorem witness_MacroblockLoop :
    (StepInv (inPicture [0, 0, 1, 1, 0x1B, 0x94, 0xA5, 0x22, 0x20] 0) ∧ 1 ≤ 1 ∧ 1 ≤ 0xAF ∧ (3 : BitVec 5) ≠ 0 ∧
      (⟨1, 1, .increment 1⟩ : Row MbaSymbol) ∈ defaultTables.mba ∧
      (inPicture [0, 0, 1, 1, 0x1B, 0x94, 0xA5, 0x22, 0x20] 0).Holds 0
        [⟨32, 0x100 + 1⟩, ⟨5, (3 : BitVec 5).toNat⟩, ⟨1, 0⟩, rowCode (⟨1, 1, .increment 1⟩ : Row MbaSymbol)] ∧
      (inPicture [0, 0, 1, 1, 0x1B, 0x94, 0xA5, 0x22, 0x20] 0).upcoming 39 flatIntra.len = flatIntra.bits ∧
      (1 : BitVec 24).toNat = (1 - 1) * 1 + 1 - 1 + 1 ∧
      (inPicture [0, 0, 1, 1, 0x1B, 0x94, 0xA5, 0x22, 0x20] 0).Targets ⟨16, 16, 0, []⟩ 0 (0 % 1) (0 / 1)) ∧
    (∃ x, LoopGives 1 (atFirst [0, 0, 1, 1, 0x1B, 0x94, 0xA5, 0x22, 0x20]) (.ok .done x)) ∧
    (∃ x, LoopGives 2 (atFirst [0, 0, 1, 1, 0x1B, 0x94, 0xA5, 0x22, 0x20, 0, 0, 0]) (.ok .sliceEnd x)) ∧
    (∃ c info x, LoopGives 1 (atFirst [0, 0, 1, 1, 0x1A, 0x00]) (.raised c info x)) ∧
    ((atFirst [0, 0, 1, 1, 0x1B, 0x94, 0xA5, 0x22, 0x26]).work.mba + 1 < 3 ∧
      ∃ v w, macroblock (atFirst [0, 0, 1, 1, 0x1B, 0x94, 0xA5, 0x22, 0x26]) = .ok () v ∧ v.upcoming 0 23 ≠ 0 ∧
        mbaIncrement v = .ok 2 w) :=
  ⟨⟨stepInv_inPicture _ _, by decide, by decide, by decide, by decide, holds_of_test (by decide), by decide, by decide,
      targets_inPicture _ _⟩,
    ⟨_, .last _ _ (by decide) (ok_of_unit (s := State.reset) (by decide))⟩,
    ⟨_, .zeros _ _ (by decide) (ok_of_unit (s := State.reset) (by decide)) (by decide)⟩,
    loop_raises (by decide) (by decide),
    by decide, _, _, ok_of_unit (s := State.reset) (by decide), by decide, ok_of_incrementOf (s := State.reset) (by decide)⟩

/-- The codes next to the slice codes; a slice that is the last of its picture, one that ends before the last macroblock
of two, and one with scale 0. -/
theorem witness_PictureDataLoop : (inPicture [9, 0, 0, 1, 0x00] 3).Decoding ∧
    FirstPrefix (octetList [9, 0, 0, 1, 0x00]) 3 1 ∧ streamBits (octetList [9, 0, 0, 1, 0x00]) 8 32 = 0x100 ∧
    streamBits (octetList [9, 0, 0, 1, 0xB0]) 8 32 = 0x1B0 ∧ FirstPrefix (octetList [0, 0, 1, 1]) 0 0 ∧
    streamBits (octetList [0, 0, 1, 1]) 0 32 = 0x101 ∧ streamBits (octetList [0, 0, 1, 0xAF]) 0 32 = 0x1AF ∧
    (∃ t, sliceDecode 1 ((inPicture [0, 0, 1, 1, 0x1B, 0x94, 0xA5, 0x22, 0x20] 0).atByte 0) = .ok .done t) ∧
    (∃ t, sliceDecode 2 ((inPicture [0, 0, 1, 1, 0x1B, 0x94, 0xA5, 0x22, 0x20, 0, 0, 0] 0).atByte 0) = .ok .sliceEnd t) ∧
    (∃ c info t, sliceDecode 1 ((inPicture [0, 0, 1, 1, 0x00] 0).atByte 0) = .raised c info t) :=
  ⟨decoding_of rfl rfl, firstPrefix_of_test (by decide), by decide, by decide, firstPrefix_of_test (by decide), by decide, by decide,
    done_of_endOf (by decide), sliceEnd_of_endOf (by decide), raised_of_endOf (by decide)⟩

theorem witness_HeaderSearch : (onStream [0, 0, 1, 0xB7] 0).br.InStep ∧ FirstPrefix (octetList [0, 0, 1, 0xB7]) 0 0 ∧
    streamBits (octetList [0, 0, 1, 0xB7]) 0 32 = 0x1B7 ∧ streamBits (octetList [0, 0, 1, 0]) 0 32 = 0x100 ∧
    ExtraBytes (octetList [0, 0, 1, 0]) (32 + pictureFieldBits (((onStream [0, 0, 1, 0] 0).atByte 0).ahead 32 |>.upcoming 10 3)) 1 ∧
    streamBits (octetList [0, 0, 1, 0xB8]) 0 32 = 0x1B8 ∧ streamBits (octetList [0, 0, 1, 0xB3]) 0 32 = 0x1B3 ∧
    (∃ t, sequenceHeader (((onStream [0, 0, 1, 0xB3, 1, 0, 0x10] 0).atByte 0).ahead 32) = .ok () t) ∧
    (∃ c info t, sequenceHeader (((onStream [0, 0, 1, 0xB3, 0, 0, 0x10] 0).atByte 0).ahead 32) = .raised c info t) ∧
    0x1AF ∉ [0x100, 0x1B3, 0x1B7, 0x1B8] :=
  ⟨rfl, firstPrefix_of_test (by decide), by decide, by decide, ⟨by decide, by decide⟩, by decide, by decide,
    ok_of_endOfUnit (by decide), raised_of_endOfUnit (by decide), by decide⟩

/-! Commands and whole-machine rules -/

theorem witness_PictureBufferOperations : (4096, 4096) ∉ State.reset.allocDenied ∧
    (4096 : Nat) = 16 * ((255 : BitVec 8).toNat + 1) ∧
    (4096, 4096) ∈ { State.reset with allocDenied := [(4096, 4096)] }.allocDenied := by decide

theorem witness_CmdOpen : State.reset.session = .closed := rfl

theorem witness_CmdResetGetFrameAndClose : (inPicture [] 0).session = .opened ∧ (inPicture [] 0).rewindable = true ∧
    { inPicture [] 0 with rewindable := false }.rewindable = false ∧
    { inPicture [] 0 with roles := { State.reset.roles with disp := some 2 } }.roles.disp ≠ none ∧
    (inPicture [] 0).session ≠ .closed := by decide

theorem witness_BadCommands : (inPicture [] 0).session ≠ .closed ∧ State.reset.session ≠ .opened ∧
    (inPicture [] 0).roles.disp = none ∧ State.reset.session = .closed ∧ Instr.cmdUndefined 0xFF = .cmdUndefined 0xFF := by decide

theorem witness_DecodeNextAtTheEnd : (inPicture [] 0).session = .opened ∧ (inPicture [] 0).hpState ≠ .sequenceEnded ∧
    (inPicture [] 0).br.InStep ∧ FirstPrefix (octetList []) 0 0 ∧ streamBits (octetList []) 0 32 = 0x1B7 ∧
    { inPicture [] 0 with hpState := .sequenceEnded }.hpState = .sequenceEnded :=
  ⟨rfl, by decide, rfl, firstPrefix_of_test (by decide), by decide, rfl⟩

/-- A fault of a sequence header; the end; a picture before any sequence header; types 0 and 2 and 3 without range codes; a
whole sequence of headers, and one event, before an I-picture with no slice; a fault in a slice. Then the search run alone
and from the stream. -/
theorem witness_DecodeNextPicture :
    (let s := { onStream [0, 0, 1, 0xB3, 0, 0, 0x10] 0 with session := .opened };
      s.hpState ≠ .sequenceEnded ∧ s.Decoding ∧ ∃ c info u, nextHeader s = .raised c info u) ∧
    (∃ u, nextHeader (inPicture [] 0) = .ok .endOfSequence u) ∧
    (∃ u, nextHeader (onStream [0, 0, 1, 0, 0x00, 0x00] 0) = .ok .picture u ∧ u.seq.seqKnown = false) ∧
    (∃ u, nextHeader (inPicture [0, 0, 1, 0, 0x00, 0x00] 0) = .ok .picture u ∧ u.seq.seqKnown = true ∧
      u.pic.pictType ∉ ([1, 2, 3] : List (BitVec 3))) ∧
    (∃ u, nextHeader (inPicture [0, 0, 1, 0, 0x00, 0x10] 0) = .ok .picture u ∧ u.pic.pictType = 2 ∧ u.pic.forwardCode = 0) ∧
    (∃ u, nextHeader (inPicture [0, 0, 1, 0, 0x00, 0x18, 0x00, 0x00, 0x80] 0) = .ok .picture u ∧ u.pic.pictType = 3 ∧
      u.pic.forwardCode = 1 ∧ u.pic.backwardCode = 0) ∧
    (∃ u t, nextHeader (onStream [0, 0, 1, 0xB3, 0x01, 0x00, 0x10, 0x13, 0xFF, 0xFF, 0xE0, 0xA0, 0, 0, 1, 0xB2, 0, 0, 1, 0xB8, 0, 0,
        0, 0x40, 0, 0, 1, 0, 0x00, 0x08, 0, 0] 0) = .ok .picture u ∧ u.seq.seqKnown = true ∧ u.pic.pictType = 1 ∧
      pictureData { u with roles := u.roles.forPicture u.pic.pictType } = .ok () t) ∧
    (∃ u, nextHeader (inPicture [0, 0, 1, 0, 0x00, 0x08, 0, 0, 0, 0, 1, 1, 0] 0) = .ok .picture u ∧ u.pic.pictType = 1 ∧
      ∃ c info t, pictureData { u with roles := u.roles.forPicture u.pic.pictType } = .raised c info t) ∧
    (exec .seqNextHeader (inPicture [] 0) = .next ((leaves (nextHeader (inPicture [] 0)) State.reset).answering
        (.header .endOfSequence)) ∧
      (leaves (nextHeader (inPicture [] 0)) State.reset).assembly = (inPicture [] 0).assembly ∧
      (leaves (nextHeader (inPicture [] 0)) State.reset).hpState ≠ .searching) ∧
    (FirstPrefix (octetList [0, 0, 1, 0, 0x00, 0x00]) 0 0 ∧ streamBits (octetList [0, 0, 1, 0, 0x00, 0x00]) 0 32 = 0x100 ∧
      ExtraBytes (octetList [0, 0, 1, 0, 0x00, 0x00])
        (8 * 0 + 32 + pictureFieldBits (streamBits (octetList [0, 0, 1, 0, 0x00, 0x00]) 42 3)) 0) :=
  ⟨⟨by decide, decoding_of rfl rfl, raised_of_endOfHeader (by decide)⟩,
    ⟨_, end_of_endOfHeader (s := State.reset) (by decide)⟩,
    ⟨_, picture_of_endOfHeader (s := State.reset) (by decide), by decide⟩,
    ⟨_, picture_of_endOfHeader (s := State.reset) (by decide), by decide, by decide⟩,
    ⟨_, picture_of_endOfHeader (s := State.reset) (by decide), by decide, by decide⟩,
    ⟨_, picture_of_endOfHeader (s := State.reset) (by decide), by decide, by decide, by decide⟩,
    ⟨_, _, picture_of_endOfHeader (s := State.reset) (by decide +kernel), by decide +kernel, by decide +kernel,
      ok_of_unit (s := State.reset) (by decide +kernel)⟩,
    ⟨_, picture_of_endOfHeader (s := State.reset) (by decide +kernel), by decide +kernel, raised_of_endOfUnit (by decide +kernel)⟩,
    ⟨rfl, by decide, by decide⟩, firstPrefix_of_test (by decide), by decide, ⟨by decide, by decide⟩⟩

theorem witness_DecodeNextFlatPicture :
    let l := [0, 0, 1, 0, 0x01, 0x4F, 0xFF, 0xF8, 0x55, 0, 0, 1, 1, 0x1B, 0x94, 0xA5, 0x22, 0x20]
    StepInv (inPicture l 0) ∧ (inPicture l 0).params.tables = defaultTables ∧ (inPicture l 0).session = .opened ∧ (inPicture l 0).hpState ≠ .sequenceEnded ∧
    (inPicture l 0).seq.seqKnown = true ∧ FirstPrefix (octetList l) 0 0 ∧ streamBits (octetList l) 0 32 = 0x100 ∧
    streamBits (octetList l) 42 3 = 1 ∧ streamBits (octetList l) 61 1 = 0 ∧ FirstPrefix (octetList l) 62 9 ∧ (3 : BitVec 5) ≠ 0 ∧
    ((inPicture l 0).atByte 9).Holds 0 [⟨32, 0x101⟩, ⟨5, (3 : BitVec 5).toNat⟩, ⟨1, 0⟩, ⟨1, 1⟩, flatIntra] :=
  ⟨stepInv_inPicture _ _, rfl, rfl, by decide, rfl, firstPrefix_of_test (by decide), by decide, by decide, by decide,
    firstPrefix_of_test (by decide), by decide, holds_of_test (by decide)⟩

theorem witness_ConfigurationIsWrittenAtOpenOnly : (∃ t, exec .cmdClose (inPicture [] 0) = .next t) ∧
    ∀ cfg, Instr.cmdClose ≠ .cmdOpen cfg := ⟨next_of_after (by decide), fun _ h => nomatch h⟩

theorem witness_CursorNeverMovesBack : (inPicture [] 0).br.InStep ∧ (Instr.brGet 32).check = true ∧
    (∃ t, exec (.brGet 32) (inPicture [] 0) = .next t) ∧ (∀ cfg, Instr.brGet 32 ≠ .cmdOpen cfg) ∧ Instr.brGet 32 ≠ .cmdReset :=
  ⟨rfl, rfl, next_of_after (by decide), (fun _ h => nomatch h), fun h => nomatch h⟩

theorem witness_SequenceRegistersAreReadOnlyOnceKnown : (inPicture [] 0).br.InStep ∧ (inPicture [] 0).seq.seqKnown = true ∧
    (Instr.seqSequenceHeader.check = true ∧ (∃ t, exec .seqSequenceHeader (inPicture [] 0) = .next t) ∧
      (∀ cfg, Instr.seqSequenceHeader ≠ .cmdOpen cfg) ∧ Instr.seqSequenceHeader ≠ .cmdClose) ∧
    ((Instr.verticalSize 5).check = true ∧ (∃ t, exec (.verticalSize 5) (inPicture [] 0) = .next t) ∧
      (∀ cfg, Instr.verticalSize 5 ≠ .cmdOpen cfg) ∧ Instr.verticalSize 5 ≠ .cmdClose) :=
  ⟨rfl, rfl, ⟨rfl, next_of_after (by decide), (fun _ h => nomatch h), fun h => nomatch h⟩,
    rfl, next_of_after (by decide), (fun _ h => nomatch h), fun h => nomatch h⟩

theorem witness_StepKeepsInvariant : StepInv (inPicture [] 0) ∧ ∃ t, step { inPicture [] 0 with commands := [3] } = .next t :=
  ⟨stepInv_inPicture [] 0, next_of_after (i := .cmdDecodeNext) (s := { inPicture [] 0 with commands := [] }) (by decide)⟩

theorem witness_EveryCommandCompletes : KernelInv (inPicture [0, 0, 1, 0xB3] 0) := kernelInv_inPicture _ _

end Sys2Proof.Tests
end

/-!
PROOF. What an instruction leaves of the state outside the decoding registers (10_state.md): the configuration, the host's side,
the byte source behind the cursor, the sequence registers. `State.Advances` says what all but three commands keep, and
`exec_next_cases` what those three do.
-/

namespace Sys2Proof.Machine

/-! ### The cursor on its source -/

/-- The cursor stands where it did or further on, over the same source (10_state.md R23, 20_memory.md R80). -/
structure Reader.Advances (r q : Reader) : Prop where
  source : q.source = r.source
  bitpos : r.bitpos ≤ q.bitpos

theorem Reader.Advances.refl (r : Reader) : r.Advances r := ⟨rfl, le_rfl⟩

theorem Reader.Advances.trans {r q p : Reader} (h : r.Advances q) (g : q.Advances p) : r.Advances p :=
  ⟨g.source.trans h.source, h.bitpos.trans g.bitpos⟩

@[simp] theorem Reader.refill_source (r : Reader) : r.refill.source = r.source := Reader.pullBytes_source _ _

@[simp] theorem Reader.refill_bitpos (r : Reader) : r.refill.bitpos = r.bitpos := Reader.pullBytes_bitpos _ _

theorem Reader.advances_refill (r : Reader) : r.Advances r.refill := ⟨r.refill_source, r.refill_bitpos.ge⟩

theorem Reader.advances_consume (r : Reader) (n : Nat) : r.Advances (r.consume n) := by
  constructor <;> simp [Reader.consume]

theorem Reader.advances_reset (r : Reader) : r.Advances r.reset := by
  constructor <;> simp [Reader.reset]

theorem Reader.advances_get (r : Reader) (n : Nat) : r.Advances (r.get n).2 := by
  unfold Reader.get
  split
  · exact .refl r
  · split
    · exact r.advances_consume n
    · exact (r.advances_consume (n - 16)).trans (Reader.advances_consume _ 16)

theorem Reader.advances_of_search {fuel : Nat} {r q : Reader} (h : Reader.search fuel r = some q) : r.Advances q := by
  induction fuel generalizing r with
  | zero => cases h
  | succ fuel ih =>
    unfold Reader.search at h
    split at h
    · exact Option.some.inj h ▸ .refl r
    · exact (r.advances_consume 8).trans (ih h)

theorem Reader.advances_of_align {r q : Reader} (h : r.align = some q) : r.Advances q :=
  (r.advances_consume _).trans (Reader.advances_of_search h)

theorem Reader.advances_of_skipExtra {fuel : Nat} {r q : Reader} (h : Reader.skipExtra fuel r = some q) : r.Advances q := by
  induction fuel generalizing r with
  | zero => cases h
  | succ fuel ih =>
    unfold Reader.skipExtra at h
    split at h
    · exact (r.advances_consume 9).trans (ih h)
    · exact Option.some.inj h ▸ r.advances_consume 1

/-! ### The state -/

/-- What belongs to the host's side: the two ports and what was settled before any command (00_scope.md R7, R8; log 20). -/
def State.hostSide (s : State) : List Byte × List BenchItem × Bool × List (Nat × Nat) × Config.Params :=
  (s.commands, s.bench, s.rewindable, s.allocDenied, s.params)

/-- What all instructions keep but three commands: the configuration, the host's side and the source; the cursor does not
move back; the sequence registers, once known, stay (10_state.md R23, R40, R44). -/
structure State.Advances (s t : State) : Prop where
  cfg : t.cfg = s.cfg
  hostSide : t.hostSide = s.hostSide
  reader : s.br.Advances t.br
  seq : s.seq.seqKnown = true → t.seq = s.seq

/-- The registers that `State.Advances` speaks of. -/
def State.outside (s : State) :
    BitVec 2 × (List Byte × List BenchItem × Bool × List (Nat × Nat) × Config.Params) × Reader × SequenceRegs :=
  (s.cfg, s.hostSide, s.br, s.seq)

/-- Writes to other registers. -/
theorem State.Advances.of_eq {s t : State} (h : t.outside = s.outside) : s.Advances t := by
  simp only [State.outside, Prod.mk.injEq] at h
  obtain ⟨hcfg, hhost, hbr, hseq⟩ := h
  exact ⟨hcfg, hhost, hbr ▸ .refl _, fun _ => hseq⟩

theorem State.Advances.refl (s : State) : s.Advances s := .of_eq rfl

theorem State.Advances.trans {s t u : State} (h : s.Advances t) (g : t.Advances u) : s.Advances u where
  cfg := g.cfg.trans h.cfg
  hostSide := g.hostSide.trans h.hostSide
  reader := h.reader.trans g.reader
  seq known := (g.seq ((h.seq known).symm ▸ known)).trans (h.seq known)

/-- Writes to other registers after an operation. -/
theorem State.Advances.then_eq {s t u : State} (h : s.Advances t) (e : u.outside = t.outside) : s.Advances u :=
  h.trans (.of_eq e)

theorem State.Advances.ite {p : Prop} [Decidable p] {s t u : State} (ht : s.Advances t) (hu : s.Advances u) :
    s.Advances (if p then t else u) := by
  split
  · exact ht
  · exact hu

theorem State.advances_reader {s : State} {r : Reader} (h : s.br.Advances r) : s.Advances { s with br := r } :=
  ⟨rfl, rfl, h, fun _ => rfl⟩

@[simp] theorem State.advances_consumeBits (s : State) (n : Nat) : s.Advances (s.consumeBits n) :=
  State.advances_reader (s.br.advances_consume n)

theorem State.advances_getBits (s : State) (n : Nat) : s.Advances (s.getBits n).2 :=
  State.advances_reader (s.br.advances_get n)

/-- A 5-bit scale from the stream, written to its register. -/
theorem State.advances_getScale (s : State) :
    s.Advances ((s.getBits 5).2.setQuantizerScale (BitVec.ofNat 5 (s.getBits 5).1)) :=
  (s.advances_getBits 5).then_eq rfl

theorem State.advances_faultEntry (c : Cause) (info : Nat) (s : State) : s.Advances (faultEntry c info s) := .of_eq rfl

theorem State.advances_recordFault (s : State) (c : Cause) (info : Nat) : s.Advances (s.recordFault c info) := .of_eq rfl

/-! ### Operations that may raise -/

/-- Whatever the operation answers or raises, it does so in a state within `State.Advances`; other than with `Res.Keeps`, the
reader need not be in step nor the parameters legal. -/
def Res.Advances {α : Type} (x : Res α) (s : State) : Prop :=
  match x with
  | .ok _ t | .raised _ _ t => s.Advances t
  | .stop _ => True

theorem Res.Advances.after {α : Type} {x : Res α} {s t : State} (h : x.Advances t) (d : s.Advances t) : x.Advances s := by
  cases x with
  | ok a u | raised c i u => exact d.trans h
  | stop e => trivial

theorem Res.Advances.bind {α β : Type} {x : Res α} {f : α → State → Res β} {s : State} (hx : x.Advances s)
    (hf : ∀ a t, (f a t).Advances t) : (x.bind f).Advances s := by
  cases x with
  | ok a t => exact (hf a t).after hx
  | raised c i t => exact hx
  | stop e => trivial

theorem Res.Advances.map {α β : Type} {x : Res α} {s : State} (hx : x.Advances s) (f : α → β) : (x.map f).Advances s :=
  hx.bind fun _ t => .refl t

theorem Res.Advances.ite {α : Type} {p : Prop} [Decidable p] {x y : Res α} {s : State} (hx : x.Advances s)
    (hy : y.Advances s) : (if p then x else y).Advances s := by
  split
  · exact hx
  · exact hy

theorem State.align_advances (s : State) : s.align.Advances s := by
  unfold State.align
  split
  next r h => exact State.advances_reader (Reader.advances_of_align h)
  next => trivial

theorem State.skipExtra_advances (s : State) : s.skipExtra.Advances s := by
  unfold State.skipExtra
  split
  next r h => exact State.advances_reader (Reader.advances_of_skipExtra h)
  next => trivial

theorem State.allocate_advances (s : State) (w h : Nat) : (s.allocate w h).Advances s :=
  .ite (.of_eq rfl) (.of_eq rfl)

/-! ### The elements of the stream -/

theorem vlc_advances {α : Type} (rows : List (Row α)) (t : Table) (s : State) : (vlc rows t s).Advances s := by
  unfold vlc
  split
  · exact s.advances_consumeBits _
  · exact State.Advances.refl s

theorem vlcSymbol_advances (t : Table) (s : State) : (vlcSymbol t s).Advances s := by
  cases t <;> exact (vlc_advances ..).map _

theorem mbaIncrementFrom_advances (fuel : Nat) : ∀ (inc : Nat) (s : State), (mbaIncrementFrom fuel inc s).Advances s := by
  induction fuel with
  | zero => intro _ _; trivial
  | succ fuel ih =>
    intro inc s
    refine (vlc_advances ..).bind fun v t => ?_
    cases v with
    | stuffing => exact ih inc t
    | escape => exact ih (inc + 33) t
    | increment n => exact State.Advances.refl t

theorem mbaIncrement_advances (s : State) : (mbaIncrement s).Advances s := mbaIncrementFrom_advances ..

theorem macroblockType_advances (s : State) : (macroblockType s).Advances s :=
  Res.Advances.bind (.ite (vlc_advances ..) (.ite (vlc_advances ..) (.ite (vlc_advances ..) trivial))) fun _ _ => .of_eq rfl

theorem codedPattern_advances (s : State) : (codedPattern s).Advances s := (vlc_advances ..).bind fun _ _ => .of_eq rfl

theorem motionCode_advances (s : State) : (motionCode s).Advances s :=
  (vlc_advances ..).bind fun _ t => .ite (.refl t) (t.advances_getBits 1)

theorem decodeMotionVector_advances (pred : Int) (n : Nat) (fullPel : Bool) (s : State) :
    (decodeMotionVector pred n fullPel s).Advances s :=
  (motionCode_advances s).bind fun _ t => .ite (.refl t) (t.advances_getBits n)

theorem decodeComponent_advances (d : Direction) (c : Axis) (n : Nat) (fullPel : Bool) (s : State) :
    (decodeComponent d c n fullPel s).Advances s :=
  (decodeMotionVector_advances ..).bind fun _ _ => .of_eq rfl

theorem decodeVector_advances (d : Direction) (code : BitVec 3) (fullPel : Bool) (s : State) :
    (decodeVector d code fullPel s).Advances s :=
  .ite trivial ((decodeComponent_advances ..).bind fun _ _ => (decodeComponent_advances ..).bind fun _ t => .refl t)

/-! ### Blocks -/

theorem dcDiff_advances (b : BlockNo) (s : State) : (dcDiff b s).Advances s :=
  Res.Advances.bind (.ite (vlc_advances ..) (vlc_advances ..)) fun size t => .ite (.refl t) (t.advances_getBits size)

theorem intraDc_advances (b : BlockNo) (s : State) : (intraDc b s).Advances s :=
  (dcDiff_advances b s).bind fun _ _ => .of_eq rfl

theorem signedPair_advances (run mag : Nat) (s : State) : (signedPair run mag s).Advances s := s.advances_getBits 1

theorem escape_advances (s : State) : (escape s).Advances s := by
  have two := (s.advances_getBits 6).trans (State.advances_getBits _ 8)
  simp only [escape]
  split
  · exact .ite (two.trans (State.advances_getBits _ 8)) (two.trans (State.advances_getBits _ 8))
  · exact .ite two two

theorem coef_advances (first : Bool) (s : State) : (coef first s).Advances s := by
  refine .ite ?_ (.ite ?_ (.ite ?_ (.ite ?_ ((vlc_advances ..).bind fun v t => ?_))))
  · exact (signedPair_advances ..).after (s.advances_consumeBits 1)
  · exact s.advances_consumeBits 2
  · exact (signedPair_advances ..).after (s.advances_consumeBits 2)
  · exact (escape_advances _).after (s.advances_consumeBits 6)
  · cases v with
    | pair run mag => exact signedPair_advances run mag t
    | escape => exact escape_advances t

theorem coefLoop_advances (intra : Bool) (b : BlockNo) (fuel : Nat) : ∀ (next : Nat) (first : Bool) (s : State),
    (coefLoop intra b fuel next first s).Advances s := by
  induction fuel with
  | zero => intro _ _ _; trivial
  | succ fuel ih =>
    intro next first s
    refine (coef_advances first s).bind fun r t => ?_
    cases r with
    | eob => exact State.Advances.refl t
    | pair run level => exact .ite (.refl t) ((ih _ _ _).after (.of_eq rfl))

theorem intraBlock_advances (b : BlockNo) (s : State) : (intraBlock b s).Advances s :=
  (intraDc_advances b s).bind fun _ _ => coefLoop_advances ..

theorem interBlock_advances (b : BlockNo) (s : State) : (interBlock b s).Advances s := coefLoop_advances ..

theorem codedBlocks_advances {f : BlockNo → State → Res Unit} (hf : ∀ b s, (f b s).Advances s) :
    ∀ (l : List BlockNo) (s : State), (codedBlocks f l s).Advances s
  | [], s => State.Advances.refl s
  | b :: rest, s => Res.Advances.bind (.ite (hf b s) (.refl s)) fun _ t => codedBlocks_advances hf rest t

/-! ### Macroblocks -/

theorem macroblockQuant_advances (t : BitVec 5) (s : State) : (macroblockQuant t s).Advances s := by
  have read := s.advances_getScale
  exact .ite (.ite read read) (.refl s)

theorem macroblockVectors_advances (t : BitVec 5) (s : State) : (macroblockVectors t s).Advances s :=
  Res.Advances.bind (.ite (decodeVector_advances ..) (.refl s)) fun _ u => .ite (decodeVector_advances ..) (.refl u)

theorem macroblockPattern_advances (t : BitVec 5) (s : State) : (macroblockPattern t s).Advances s :=
  .ite (.of_eq rfl) (.ite ((codedPattern_advances s).bind fun _ u => .refl u) (.of_eq rfl))

theorem parseMacroblock_advances (s : State) : (parseMacroblock s).Advances s := by
  refine (macroblockType_advances s).bind fun t u => (macroblockQuant_advances t u).bind fun _ u =>
    (macroblockVectors_advances t u).bind fun _ u => (macroblockPattern_advances t u).bind fun _ u => ?_
  refine Res.Advances.after (t := u.zeroBlocks) ((codedBlocks_advances (fun b s => ?_) ..).bind fun _ v => .refl v) (.of_eq rfl)
  split
  · exact intraBlock_advances b s
  · exact interBlock_advances b s

theorem withTarget_advances (s : State) (mbX mbY : Nat) {f : FrameStore → Fin 3 → Res Unit}
    (hf : ∀ fs cur, (f fs cur).Advances s) : (s.withTarget mbX mbY f).Advances s := by
  unfold State.withTarget
  split
  · trivial
  · trivial
  · exact .ite (hf ..) trivial

theorem predict_advances (avg : Bool) (ref : Direction) (mbX mbY : Nat) (dx dy : Int) (s : State) :
    (predict avg ref mbX mbY dx dy s).Advances s := withTarget_advances _ _ _ fun _ _ => .of_eq rfl

theorem tile_advances (intra : Bool) (b : BlockNo) (mbX mbY : Nat) (s : State) : (tile intra b mbX mbY s).Advances s :=
  withTarget_advances _ _ _ fun _ _ => .of_eq rfl

theorem predictB_advances (mbX mbY : Nat) (m : Motion) (s : State) : (predictB mbX mbY m s).Advances s :=
  .ite ((predict_advances ..).bind fun _ t => .ite (predict_advances ..) (.refl t)) (.ite (predict_advances ..) (.refl s))

theorem afterIntra_outside (s : State) : (afterIntra s).outside = s.outside := by
  unfold afterIntra
  split
  · rfl
  · split <;> rfl

theorem gridPosition_outside (s : State) (a : Nat) : (s.gridPosition a).2.outside = s.outside := by
  unfold State.gridPosition
  split <;> rfl

theorem firstAddress_outside (s : State) (row inc : Nat) : (s.firstAddress row inc).2.outside = s.outside := by
  unfold State.firstAddress
  split
  · split <;> rfl
  · rfl

theorem predictMacroblock_advances (t : BitVec 5) (mbX mbY : Nat) (s : State) :
    (predictMacroblock t mbX mbY s).Advances s := by
  refine .ite ((predict_advances ..).after (.of_eq ?_))
    (Res.Advances.after (t := s.clearDcPred) ((predictB_advances ..).bind fun _ _ => .of_eq rfl) (.of_eq rfl))
  split <;> rfl

theorem reconstructMacroblock_advances (t : BitVec 5) (s : State) : (reconstructMacroblock t s).Advances s := by
  refine Res.Advances.after ?_ (.of_eq (gridPosition_outside s s.work.mba))
  refine Res.Advances.bind (.ite (.of_eq (afterIntra_outside _)) (predictMacroblock_advances ..)) fun _ _ =>
    (codedBlocks_advances (fun b u => ?_) ..).bind fun _ _ => .of_eq rfl
  exact (tile_advances ..).after (t := u.setBlock b (idct u.blk[b])) (.of_eq rfl)

theorem macroblock_advances (s : State) : (macroblock s).Advances s :=
  (parseMacroblock_advances s).bind reconstructMacroblock_advances

theorem skipP_advances (a : Nat) (s : State) : (skipP a s).Advances s :=
  Res.Advances.after (t := (s.gridPosition a).2.clearDcPred.clearForwardPmv) (predict_advances ..)
    (.of_eq (gridPosition_outside s a))

theorem skipB_advances (a : Nat) (s : State) : (skipB a s).Advances s :=
  Res.Advances.after (t := (s.gridPosition a).2.clearDcPred) (predictB_advances ..) (.of_eq (gridPosition_outside s a))

theorem skippedMacroblock_advances (a : Nat) (s : State) : (skippedMacroblock a s).Advances s :=
  .ite (.refl s) (.ite (skipP_advances a s) (.ite (skipB_advances a s) trivial))

theorem skipRun_advances (total n : Nat) : ∀ (a : Nat) (s : State), (skipRun total n a s).Advances s := by
  induction n with
  | zero => exact fun _ s => State.Advances.refl s
  | succ n ih => exact fun a s => .ite (.of_eq rfl) ((skippedMacroblock_advances a s).bind fun _ t => ih (a + 1) t)

/-! ### Slices and pictures -/

theorem macroblockLoop_advances (total fuel : Nat) : ∀ s : State, (macroblockLoop total fuel s).Advances s := by
  induction fuel with
  | zero => exact fun _ => trivial
  | succ fuel ih =>
    intro s
    refine .ite (.refl s) ((macroblock_advances s).bind fun _ t => .ite (.of_eq rfl) (.ite (.refl t) ?_))
    refine (mbaIncrement_advances t).bind fun inc u => (skipRun_advances ..).bind fun _ v => .ite (.refl v) ?_
    exact (ih (v.setMba (v.work.mba + inc))).after (.of_eq rfl)

theorem sliceQuant_advances (s : State) : (sliceQuant s).Advances s := by
  have read := s.advances_getScale
  exact .ite read read

theorem sliceBody_advances (row total : Nat) (s : State) : (sliceBody row total s).Advances s := by
  refine Res.Advances.after (t := sliceResets s) ?_ (.of_eq rfl)
  refine (sliceQuant_advances _).bind fun _ t => t.skipExtra_advances.bind fun _ u =>
    (mbaIncrement_advances u).bind fun inc v => ?_
  exact Res.Advances.after (t := (v.firstAddress row inc).2.setMba _) (macroblockLoop_advances ..)
    (.of_eq (firstAddress_outside v row inc))

theorem sliceDecode_advances (total : Nat) (s : State) : (sliceDecode total s).Advances s :=
  (sliceBody_advances ..).after (s.advances_getBits 32)

theorem pictureDataFrom_advances (total fuel : Nat) : ∀ s : State, (pictureDataFrom total fuel s).Advances s := by
  induction fuel with
  | zero => exact fun _ => trivial
  | succ fuel ih =>
    intro s
    refine s.align_advances.bind fun _ t => .ite (.refl t) ((sliceDecode_advances total t).bind fun e u => ?_)
    cases e with
    | done => exact State.Advances.refl u
    | sliceEnd => exact ih u

theorem pictureData_advances (s : State) : (pictureData s).Advances s := pictureDataFrom_advances ..

/-! ### Headers -/

theorem readMatrix_advances : ∀ (l : List Nat) (m : Vector Byte 64) (s : State), s.Advances (readMatrix l m s).2
  | [], _, s => .refl s
  | _ :: rest, _, s => (s.advances_getBits 8).trans (readMatrix_advances rest ..)

theorem loadMatrix_advances (old default : Vector Byte 64) (s : State) : s.Advances (loadMatrix old default s).2 := by
  unfold loadMatrix
  split
  · exact (s.advances_getBits 1).trans (readMatrix_advances ..)
  · exact s.advances_getBits 1

theorem loadMatrices_advances (s : State) : s.Advances (loadMatrices s) := by
  have intra := (loadMatrix_advances s.qi s.params.defIntra s).then_eq
    (u := { (loadMatrix s.qi s.params.defIntra s).2 with qi := (loadMatrix s.qi s.params.defIntra s).1 }) rfl
  exact (intra.trans (loadMatrix_advances _ defInter _)).then_eq rfl

/-- A change of the sequence registers while the sequence is not known. -/
theorem State.Advances.seq_unknown {s t u : State} (unknown : s.seq.seqKnown = false) (h : s.Advances t) (cfg : u.cfg = t.cfg)
    (hostSide : u.hostSide = t.hostSide) (br : u.br = t.br) : s.Advances u where
  cfg := cfg.trans h.cfg
  hostSide := hostSide.trans h.hostSide
  reader := br ▸ h.reader
  seq known := absurd known (by simp [unknown])

@[simp] theorem gopHeader_advances (s : State) : s.Advances (gopHeader s) := s.advances_consumeBits 27

theorem forwardFields_advances (s : State) : s.Advances (forwardFields s) :=
  ((s.advances_getBits 1).trans (State.advances_getBits _ 3)).then_eq rfl

theorem backwardFields_advances (s : State) : s.Advances (backwardFields s) :=
  ((s.advances_getBits 1).trans (State.advances_getBits _ 3)).then_eq rfl

theorem pictureFields_advances (s : State) : s.Advances (pictureFields s) := by
  have type := (s.advances_consumeBits 10).trans (State.advances_getBits _ 3)
  have common := (type.then_eq (u := { ((s.consumeBits 10).getBits 3).2 with
    pic := { s.pic with pictType := BitVec.ofNat 3 ((s.consumeBits 10).getBits 3).1 } }) rfl).trans
    (State.advances_consumeBits _ 16)
  have forward := State.Advances.ite (p := ((s.consumeBits 10).getBits 3).1 = 2 ∨ ((s.consumeBits 10).getBits 3).1 = 3)
    (common.trans (forwardFields_advances _)) common
  exact .ite (forward.trans (backwardFields_advances _)) forward

theorem pictureHeader_advances (s : State) : (pictureHeader s).Advances s :=
  (State.skipExtra_advances _).after (pictureFields_advances s)

theorem sequenceFields_advances {s : State} (unknown : s.seq.seqKnown = false) : s.Advances (sequenceFields s) := by
  have sizes := (s.advances_getBits 12).trans (State.advances_getBits _ 12)
  have codes := (sizes.trans (State.advances_getBits _ 4)).trans (State.advances_getBits _ 4)
  have marker := (codes.trans (State.advances_getBits _ 18)).trans (State.advances_consumeBits _ 1)
  exact .seq_unknown unknown ((marker.trans (State.advances_getBits _ 10)).trans (State.advances_getBits _ 1)) rfl rfl rfl

theorem State.advances_setSeqKnown_true (s : State) : s.Advances (s.setSeqKnown true) where
  cfg := rfl
  hostSide := rfl
  reader := .refl _
  seq known := by rw [State.setSeqKnown, ← known]

theorem firstSequenceHeader_advances {s : State} (unknown : s.seq.seqKnown = false) : (firstSequenceHeader s).Advances s := by
  have fields := sequenceFields_advances unknown
  have sizes : s.Advances (deriveSizes (sequenceFields s)) := .seq_unknown unknown fields rfl rfl rfl
  refine .ite fields (((State.allocate_advances ..).after sizes).bind fun _ t => ?_)
  exact t.advances_setSeqKnown_true.trans (loadMatrices_advances _)

/-- A sequence header writes the sequence registers only while the sequence is not known (42_header_parser.md R208, R209). -/
theorem sequenceHeader_advances (s : State) : (sequenceHeader s).Advances s := by
  unfold sequenceHeader
  split
  · exact ((s.advances_consumeBits 32).trans (State.advances_consumeBits _ 30)).trans (loadMatrices_advances _)
  next unknown => exact firstSequenceHeader_advances (Bool.eq_false_of_not_eq_true unknown)

theorem nextHeaderFrom_advances (fuel : Nat) : ∀ s : State, (nextHeaderFrom fuel s).Advances s := by
  induction fuel with
  | zero => exact fun _ => trivial
  | succ fuel ih =>
    intro s
    refine s.align_advances.bind fun _ t => Res.Advances.after (t := (t.getBits 32).2) ?_ (t.advances_getBits 32)
    refine .ite ?_ (.ite ?_ (.ite ?_ (.ite ?_ ?_)))
    · exact (sequenceHeader_advances _).bind fun _ u => (ih _).after (t := u.setHpState .sequenceSeen) (.of_eq rfl)
    · exact (ih _).after ((gopHeader_advances _).then_eq rfl)
    · exact (pictureHeader_advances _).bind fun _ u => .of_eq rfl
    · exact .of_eq rfl
    · exact (ih _).after (.of_eq rfl)

theorem nextHeader_advances (s : State) : (nextHeader s).Advances s := nextHeaderFrom_advances ..

theorem pictureChecks_advances (s : State) : (pictureChecks s).Advances s :=
  .ite (.refl s) (.ite (.refl s) (.ite (.refl s) (.ite (.refl s) (.refl s))))

theorem decodePicture_advances (s : State) : (decodePicture s).Advances s := by
  refine (nextHeader_advances s).bind fun e t => ?_
  cases e with
  | endOfSequence => exact .of_eq rfl
  | picture =>
    refine (pictureChecks_advances t).bind fun _ u => Res.Advances.bind ?_ fun _ _ => .of_eq rfl
    refine (pictureData_advances _).after (.of_eq ?_)
    split <;> rfl

/-! ### Instructions -/

/-- The next state, if there is one, is within `State.Advances`. -/
def State.AnswersAdvanced (s : State) (o : Host.Outcome State Fault Refusal) : Prop := ∀ t, o = .next t → s.Advances t

theorem State.AnswersAdvanced.next {s t : State} (h : s.Advances t) : s.AnswersAdvanced (.next t) := by
  rintro _ ⟨⟩
  exact h

theorem Res.Advances.finish {α : Type} {x : Res α} {s : State} {deliver : α → State → State} (hx : x.Advances s)
    (hd : ∀ a t, (deliver a t).outside = t.outside) : s.AnswersAdvanced (x.finish deliver) := by
  cases x with
  | ok a t => exact .next (State.Advances.then_eq hx (hd a t))
  | raised c i t => exact .next (State.Advances.trans hx (t.advances_faultEntry c i))
  | stop e => rintro _ ⟨⟩

theorem State.AnswersAdvanced.ite {p : Prop} [Decidable p] {s : State} {o q : Host.Outcome State Fault Refusal}
    (ho : s.AnswersAdvanced o) (hq : s.AnswersAdvanced q) : s.AnswersAdvanced (if p then o else q) := by
  split
  · exact ho
  · exact hq

theorem State.answersAdvanced_refused (s : State) (r : Refusal) : s.AnswersAdvanced (.refused r) := by
  rintro _ ⟨⟩

@[simp] theorem State.advances_deliver (s t : State) (v : Result) : s.Advances (t.deliver v) ↔ s.Advances t :=
  ⟨fun h => h.then_eq rfl, fun h => h.then_eq rfl⟩

/-! The code words of the nine tables and the fields, by the shape of their meaning. -/

@[simp] theorem incrementWord_advances (len n : Nat) (s : State) : s.Advances (incrementWord len n s) :=
  (s.advances_consumeBits len).then_eq rfl

@[simp] theorem escapeWord_advances (len : Nat) (s : State) : s.Advances (escapeWord len s) :=
  (s.advances_consumeBits len).then_eq rfl

@[simp] theorem typeWord_advances (len : Nat) (flags : BitVec 5) (s : State) : s.Advances (typeWord len flags s) :=
  (s.advances_consumeBits len).then_eq rfl

@[simp] theorem patternWord_advances (len : Nat) (v : BitVec 6) (s : State) : s.Advances (patternWord len v s) :=
  (s.advances_consumeBits len).then_eq rfl

@[simp] theorem motionWord_advances (len : Nat) (code : Int) (s : State) : s.Advances (motionWord len code s) :=
  (s.advances_consumeBits len).then_eq rfl

@[simp] theorem sizeWord_advances (len n : Nat) (s : State) : s.Advances (sizeWord len n s) :=
  (s.advances_consumeBits len).then_eq rfl

@[simp] theorem coefWord_advances (len run mag : Nat) (sgn : Bool) (s : State) : s.Advances (coefWord len run mag sgn s) :=
  (s.advances_consumeBits len).then_eq rfl

theorem escapeCoefWord_advances (len run : Nat) (level : Int) (s : State) : (escapeCoefWord len run level s).Advances s :=
  .ite (s.advances_consumeBits len) (s.advances_consumeBits len)

@[simp] theorem skipField_advances (n : Nat) (s : State) : s.Advances (skipField n s) :=
  (s.advances_consumeBits n).then_eq rfl

@[simp] theorem pictureField_advances (n : Nat) (f : PictureRegs → PictureRegs) (s : State) :
    s.Advances (pictureField n f s) := (s.advances_consumeBits n).then_eq rfl

/-- A field of the sequence header is skipped once the sequence is known (10_state.md R40). -/
@[simp] theorem sequenceField_advances (n : Nat) (f : SequenceRegs → SequenceRegs) (s : State) :
    s.Advances (sequenceField n f s) := by
  unfold sequenceField
  split
  · exact skipField_advances n s
  next unknown => exact .seq_unknown (Bool.eq_false_of_not_eq_true unknown) (s.advances_consumeBits n) rfl rfl rfl

theorem scaleField_advances (q : BitVec 5) (info : Nat) (s : State) : (scaleField q info s).Advances s := by
  have read : s.Advances ((s.consumeBits 5).setQuantizerScale q) := (s.advances_consumeBits 5).then_eq rfl
  exact .ite read read

/-- A command that is refused changes the status registers alone (60_exceptions.md R447). -/
theorem State.advances_badCommand (s : State) (code : Nat) : s.Advances (badCommand code s) := .of_eq rfl

theorem execCmdDecodeNext_advances (s : State) : s.AnswersAdvanced (execCmdDecodeNext s) :=
  .ite (.next (s.advances_badCommand _))
    (.ite (.next (.of_eq rfl)) ((decodePicture_advances s).finish fun _ _ => rfl))

theorem execCmdGetFrame_advances (s : State) : s.AnswersAdvanced (execCmdGetFrame s) :=
  .ite (.next (.of_eq rfl)) (.next (s.advances_badCommand _))

theorem execScSlice_advances (r : BitVec 8) (s : State) : s.AnswersAdvanced (execScSlice r s) :=
  .ite (((sliceBody_advances ..).after (s.advances_consumeBits 32)).finish fun _ _ => rfl)
    (.next ((s.advances_consumeBits 32).then_eq rfl))

theorem execLoadIntraQuantizerMatrix_advances (l : Bool) (s : State) :
    s.AnswersAdvanced (execLoadIntraQuantizerMatrix l s) := by
  have flag := s.advances_consumeBits 1
  cases l <;> exact .next (flag.then_eq rfl)

theorem execLoadNonIntraQuantizerMatrix_advances (l : Bool) (s : State) :
    s.AnswersAdvanced (execLoadNonIntraQuantizerMatrix l s) := by
  have flag := s.advances_consumeBits 1
  cases l <;> exact .next (flag.then_eq rfl)

theorem execMotionResidual_advances (n : BitVec 3) (r : BitVec 6) (s : State) :
    s.AnswersAdvanced (execMotionResidual n r s) := by
  have bits := s.advances_consumeBits n.toNat
  exact .ite (.next (bits.then_eq rfl)) (.next (bits.then_eq rfl))

/-- What every instruction keeps but `CMD_OPEN`, `CMD_RESET` and `CMD_CLOSE`. The cases that are not named, most fields and
all code words but the two escapes, have a meaning of one of the shapes above. -/
theorem exec_advances (i : Instr) (s : State) (hopen : ∀ cfg, i ≠ .cmdOpen cfg) (hreset : i ≠ .cmdReset)
    (hclose : i ≠ .cmdClose) : s.AnswersAdvanced (exec i s) := by
  have code := s.advances_consumeBits 32
  cases i with
  | cmdOpen cfg => exact absurd rfl (hopen cfg)
  | cmdReset => exact absurd rfl hreset
  | cmdClose => exact absurd rfl hclose
  | cmdDecodeNext => exact execCmdDecodeNext_advances s
  | cmdGetFrame => exact execCmdGetFrame_advances s
  | cmdUndefined c => exact .next (s.advances_badCommand _)
  | scPicture => exact ((pictureHeader_advances _).after code).finish fun _ _ => rfl
  | scSlice r => exact execScSlice_advances r s
  | scSequenceHeader => exact ((sequenceHeader_advances _).after code).finish fun _ _ => rfl
  | scSequenceEnd | scUnrecognised x => exact .next (code.then_eq rfl)
  | scGroup => exact .next ((code.trans (gopHeader_advances _)).then_eq rfl)
  | loadIntraQuantizerMatrix l => exact execLoadIntraQuantizerMatrix_advances l s
  | loadNonIntraQuantizerMatrix l => exact execLoadNonIntraQuantizerMatrix_advances l s
  | intraQuantizerMatrixEntry q | nonIntraQuantizerMatrixEntry q =>
    exact .next ((s.advances_consumeBits 8).then_eq rfl)
  | sequenceHeaderSkip x => exact .next ((code.trans (State.advances_consumeBits _ 30)).then_eq rfl)
  | sliceQuantizerScale q | macroblockQuantizerScale q => exact (scaleField_advances ..).finish fun _ _ => rfl
  | motionResidual n r => exact execMotionResidual_advances n r s
  | brReset => exact .next ((State.advances_reader s.br.advances_reset).then_eq rfl)
  | brPeek n => exact .ite (.next (.of_eq rfl)) (s.answersAdvanced_refused _)
  | brConsume n => exact .ite (.next ((s.advances_consumeBits n.toNat).then_eq rfl)) (s.answersAdvanced_refused _)
  | brRefill => exact .next ((State.advances_reader s.br.advances_refill).then_eq rfl)
  | brGet n => exact .ite (.next ((s.advances_getBits n.toNat).then_eq rfl)) (s.answersAdvanced_refused _)
  | brAlignSc => exact s.align_advances.finish fun _ _ => rfl
  | vldCode t => exact (vlcSymbol_advances t s).finish fun _ _ => rfl
  | vldMbaInc => exact (mbaIncrement_advances s).finish fun _ _ => rfl
  | vldMbtype => exact (macroblockType_advances s).finish fun _ _ => rfl
  | vldCbp => exact (codedPattern_advances s).finish fun _ _ => rfl
  | vldMotionCode => exact (motionCode_advances s).finish fun _ _ => rfl
  | vldDcDiff b => exact (dcDiff_advances b s).finish fun _ _ => rfl
  | vldCoef first => exact (coef_advances first s).finish fun _ _ => rfl
  | vldEscape => exact (escape_advances s).finish fun _ _ => rfl
  | iqIntraDc b => exact (intraDc_advances b s).finish fun _ _ => rfl
  | mvrDecode d c n fullPel => exact (decodeComponent_advances ..).finish fun _ _ => rfl
  | hpiForm ref mbX mbY dx dy | hpiFormAvg ref mbX mbY dx dy => exact (predict_advances ..).finish fun _ _ => rfl
  | mbtPutIntra b mbX mbY | mbtAddInter b mbX mbY => exact (tile_advances ..).finish fun _ _ => rfl
  | mbtSkipP a => exact (skipP_advances ..).finish fun _ _ => rfl
  | mbtSkipB a => exact (skipB_advances ..).finish fun _ _ => rfl
  | seqNextHeader => exact (nextHeader_advances s).finish fun _ _ => rfl
  | seqSequenceHeader => exact (sequenceHeader_advances s).finish fun _ _ => rfl
  | seqPictureHeader => exact (pictureHeader_advances s).finish fun _ _ => rfl
  | seqPictureData => exact (pictureData_advances s).finish fun _ _ => rfl
  | seqSlice total => exact (sliceDecode_advances ..).finish fun _ _ => rfl
  | seqMacroblock => exact (macroblock_advances s).finish fun _ _ => rfl
  | seqIntraBlock b => exact (intraBlock_advances b s).finish fun _ _ => rfl
  | seqInterBlock b => exact (interBlock_advances b s).finish fun _ _ => rfl
  | pbmAlloc cols rows => exact (s.allocate_advances ..).finish fun _ _ => rfl
  | iqIntraAc _ _ _ | iqInter _ _ _ | iqOddsat _ | idctRow _ _ | idctCol _ _ | idctBlock _ | pbmRotateRef | pbmSelectAux
  | pbmGetFrame => exact .next (.of_eq rfl)
  | coefEscape20 r l => exact (escapeCoefWord_advances ..).finish fun _ _ => rfl
  | coefEscape28 r z l => exact (escapeCoefWord_advances ..).finish fun _ _ => rfl
  | _ => exact .next (by simp)

/-- The state that an allowed `CMD_RESET` leaves (49_picture_buffers_host.md R412). -/
def State.rewound (s : State) : State := ({ s with br := s.br.rewind }.setHpState .searching).setRet .ok

/-- The state that an allowed `CMD_CLOSE` leaves (49_picture_buffers_host.md R415). -/
def State.afterClose (s : State) : State :=
  { s.setSeqKnown false with frames := none, session := .closed }.setRet .ok

theorem execCmdOpen_next {cfg : BitVec 8} {s t : State} (h : execCmdOpen cfg s = .next t) :
    s.Advances t ∨ t = openSession cfg s := by
  unfold execCmdOpen at h
  split at h <;> cases h
  · exact .inr rfl
  · exact .inl (s.advances_badCommand _)

theorem execCmdReset_next {s t : State} (h : execCmdReset s = .next t) : s.Advances t ∨ t = s.rewound := by
  unfold execCmdReset at h
  split at h
  · cases h
    exact .inl (s.advances_badCommand _)
  · split at h <;> cases h
    · exact .inl (s.advances_recordFault _ _)
    · exact .inr rfl

theorem execCmdClose_next {s t : State} (h : execCmdClose s = .next t) : s.Advances t ∨ t = s.afterClose := by
  unfold execCmdClose at h
  split at h <;> cases h
  · exact .inl (s.advances_badCommand _)
  · exact .inr rfl

/-- What an instruction can do to the configuration, the host's side, the cursor and the sequence registers. -/
theorem exec_next_cases {i : Instr} {s t : State} (h : exec i s = .next t) :
    s.Advances t ∨ (∃ cfg, i = .cmdOpen cfg ∧ t = openSession cfg s) ∨ (i = .cmdReset ∧ t = s.rewound) ∨
      (i = .cmdClose ∧ t = s.afterClose) := by
  by_cases hopen : ∃ cfg, i = .cmdOpen cfg
  · obtain ⟨cfg, rfl⟩ := hopen
    exact (execCmdOpen_next h).imp_right fun e => .inl ⟨cfg, rfl, e⟩
  by_cases hreset : i = .cmdReset
  · subst hreset
    exact (execCmdReset_next h).imp_right fun e => .inr (.inl ⟨rfl, e⟩)
  by_cases hclose : i = .cmdClose
  · subst hclose
    exact (execCmdClose_next h).imp_right fun e => .inr (.inr ⟨rfl, e⟩)
  exact .inl (exec_advances i s (fun cfg e => hopen ⟨cfg, e⟩) hreset hclose t h)

/-! ### The obligations -/

/-- Settles O55: only `CMD_OPEN` writes `CFG`, and it keeps the host's side too. -/
theorem configurationIsWrittenAtOpenOnly : Obligations.ConfigurationIsWrittenAtOpenOnly := by
  intro i s t h
  obtain d | ⟨cfg, rfl, rfl⟩ | ⟨rfl, rfl⟩ | ⟨rfl, rfl⟩ := exec_next_cases h
  · have host := d.hostSide
    simp only [State.hostSide, Prod.mk.injEq] at host
    obtain ⟨commands, bench, rewindable, allocDenied, params⟩ := host
    exact ⟨fun _ => d.cfg, rewindable, allocDenied, params, commands, bench⟩
  · exact ⟨fun other => absurd rfl (other cfg), rfl, rfl, rfl, rfl, rfl⟩
  · exact ⟨fun _ => rfl, rfl, rfl, rfl, rfl, rfl⟩
  · exact ⟨fun _ => rfl, rfl, rfl, rfl, rfl, rfl⟩

/-- Settles O56: the cursor moves back only where the reader rewinds, in `CMD_OPEN` and `CMD_RESET`, over the same source. -/
theorem cursorNeverMovesBack : Obligations.CursorNeverMovesBack := by
  intro i s t _ _ h
  obtain d | ⟨cfg, rfl, rfl⟩ | ⟨rfl, rfl⟩ | ⟨rfl, rfl⟩ := exec_next_cases h
  · exact ⟨d.reader.source, fun _ _ => d.reader.bitpos⟩
  · exact ⟨Reader.refill_source _, fun other => absurd rfl (other cfg)⟩
  · exact ⟨Reader.refill_source _, fun _ other => absurd rfl other⟩
  · exact ⟨rfl, fun _ _ => le_rfl⟩

/-- Settles O57: what writes the sequence registers tests `seq_known` first, but for `CMD_OPEN` and `CMD_CLOSE`. -/
theorem sequenceRegistersAreReadOnlyOnceKnown : Obligations.SequenceRegistersAreReadOnlyOnceKnown := by
  intro i s t _ _ known h notOpen notClose
  obtain d | ⟨cfg, rfl, -⟩ | ⟨-, rfl⟩ | ⟨rfl, -⟩ := exec_next_cases h
  · exact d.seq known
  · exact absurd rfl (notOpen cfg)
  · rfl
  · exact absurd rfl notClose

end Sys2Proof.Machine

/-!
PROOF. The samples of the frame store (20_memory.md R93): what a read inside a plane gives, and what a write leaves.
-/

namespace Sys2Proof.Machine

/-- A read inside its plane gives the sample and draws nothing. -/
theorem FrameStore.read_of_inPlane {fs : FrameStore} {p : Fin 3} {x y : Nat} (hp : fs.inPlane p x y = true) (d : Nat)
    (f : Fin 3) : fs.read d f p x y = (fs.sample f p x y, d) := by
  rw [FrameStore.read, if_pos hp, Int.toNat_natCast, Int.toNat_natCast]

/-- Settles O36: inside a plane a read is its sample, and a write sets one sample only, for no two samples of planes of a
coded size share an address. -/
theorem sampleReadsAsWritten : Obligations.SampleReadsAsWritten := by
  intro fs d f p x y v order inside
  refine ⟨?_, order.write f p v inside, fun g q u w hq ne => ?_⟩
  · have written : (fs.write f p x y v).inPlane p x y = true := inside
    rw [FrameStore.read_of_inPlane written, FrameStore.write_sample_same]
  · have kept : (fs.write f p x y v).inPlane q u w = true := hq
    have other : ¬(g = f ∧ q = p ∧ u = x ∧ w = y) := by simpa using ne
    rw [FrameStore.read_of_inPlane kept, FrameStore.read_of_inPlane hq, FrameStore.write_sample_other order v inside hq other]

end Sys2Proof.Machine

/-!
PROOF. The decoder and the encoder (30_encoding.md, 44_vlc_decoder.md): what a window of 64 bits shows, the operands of each
channel read back, and from these that decoding and encoding agree in both directions.
-/

namespace Sys2Proof.Machine

/-! ### Reading a window -/

theorem bitsOf_lt (w off n : Nat) : bitsOf w off n < 2 ^ n := Nat.mod_lt _ (Nat.two_pow_pos n)

theorem bitsOf_mod (w off : Nat) {n m : Nat} (h : 2 ^ n ≤ m) : bitsOf w off n % m = bitsOf w off n :=
  Nat.mod_eq_of_lt (Nat.lt_of_lt_of_le (bitsOf_lt w off n) h)

/-- The bits of a window, read in two parts. -/
theorem bitsOf_add (w : Nat) {off m n : Nat} (h : off + m + n ≤ 64) :
    bitsOf w off (m + n) = bitsOf w off m * 2 ^ n + bitsOf w (off + m) n := by
  obtain ⟨k, hk⟩ := Nat.exists_eq_add_of_le h
  have whole : 64 - off - (m + n) = k := by omega
  have front : 64 - off - m = k + n := by omega
  have back : 64 - (off + m) - n = k := by omega
  rw [bitsOf, bitsOf, bitsOf, whole, front, back, Nat.add_comm m n, pow_add, Nat.mod_mul, pow_add,
    ← Nat.div_div_eq_div_mul]
  ring

theorem bitsOf_prefix (w : Nat) {m n : Nat} (h : m ≤ n) (hn : n ≤ 64) :
    bitsOf w 0 m = bitsOf w 0 n / 2 ^ (n - m) := by
  obtain ⟨k, rfl⟩ := Nat.exists_eq_add_of_le h
  rw [bitsOf_add w (by omega), Nat.add_sub_cancel_left, Nat.add_comm, Nat.add_mul_div_right _ _ (Nat.two_pow_pos k),
    Nat.div_eq_of_lt (bitsOf_lt ..), Nat.zero_add]

/-- The first bits of a window of 64 bits are those above the rest. -/
theorem bitsOf_eq_div {w : Nat} (hw : w < 2 ^ 64) (n : Nat) : bitsOf w 0 n = w / 2 ^ (64 - n) := by
  refine Nat.mod_eq_of_lt (Nat.div_lt_of_lt_mul ?_)
  calc w < 2 ^ 64 := hw
    _ ≤ 2 ^ (64 - 0 - n + n) := Nat.pow_le_pow_right (by omega) (by omega)
    _ = 2 ^ (64 - 0 - n) * 2 ^ n := pow_add ..

@[simp] theorem toNat_ofNat_bitsOf (w off n : Nat) : (BitVec.ofNat n (bitsOf w off n)).toNat = bitsOf w off n :=
  bitsOf_mod w off le_rfl

theorem ofNat_bitsOf_eq_iff {w off n : Nat} {v : BitVec n} :
    BitVec.ofNat n (bitsOf w off n) = v ↔ bitsOf w off n = v.toNat := by
  rw [BitVec.toNat_eq, toNat_ofNat_bitsOf]

@[simp] theorem toNat_bitAt (w off : Nat) : (bitAt w off).toNat = bitsOf w off 1 := by
  have bit := bitsOf_lt w off 1
  obtain e | e : bitsOf w off 1 = 0 ∨ bitsOf w off 1 = 1 := by omega
  all_goals simp [bitAt, e]

theorem bitAt_eq_iff (w off : Nat) (s : Bool) : bitAt w off = s ↔ bitsOf w off 1 = s.toNat := by
  rw [← toNat_bitAt]
  generalize bitAt w off = b
  revert b s
  decide

/-- A number and what stands behind it in base `k` are determined by their sum. -/
theorem mul_add_inj {k a b x y : Nat} (hx : x < k) (hy : y < k) (h : a * k + x = b * k + y) : a = b ∧ x = y := by
  have front : a = b := by
    simpa [Nat.mul_comm _ k, Nat.mul_add_div (Nat.zero_lt_of_lt hx), Nat.div_eq_of_lt hx, Nat.div_eq_of_lt hy]
      using congrArg (· / k) h
  subst front
  exact ⟨rfl, Nat.add_left_cancel h⟩

/-! ### A window that begins with a code -/

/-- The window begins with a code. Of the code's number only the low `len` bits can be seen, so that this follows from the
code's length alone; where the number fits its length the two are equal (`Begins.bitsOf_eq`). -/
def Begins (w : Nat) (c : Code) : Prop := bitsOf w 0 c.len = c.bits % 2 ^ c.len

/-- The window begins with the code of a well-formed instruction that stands on the channel, where the first coefficient of a
block shares the words of the next ones (44_vlc_decoder.md R280). -/
structure Reads (c : Channel) (w : Nat) (i : Instr) : Prop where
  check : i.check = true
  bits : bitsOf w 0 (encode i).len = (encode i).bits
  place : channel i = c ∨ c = .vlc .coefFirst ∧ channel i = .vlc .coefNext

/-- A code's window begins with it, whatever bits follow. -/
theorem begins_window (c : Code) {tail : Nat} (h : tail < 2 ^ (64 - c.len)) : Begins (c.window + tail) c := by
  rw [Begins, bitsOf, Code.window, Nat.sub_zero, Nat.add_comm, Nat.add_mul_div_right _ _ (Nat.two_pow_pos _),
    Nat.div_eq_of_lt h, Nat.zero_add]

theorem Begins.bitsOf_eq {w : Nat} {c : Code} (h : Begins w c) (fits : c.bits < 2 ^ c.len) : bitsOf w 0 c.len = c.bits :=
  h.trans (Nat.mod_eq_of_lt fits)

/-! ### Bytes -/

/-- Some bytes lie in a window, one behind the other, from bit `off` on. -/
def BytesAt (w : Nat) : Nat → List Nat → Prop
  | _, [] => True
  | off, b :: rest => bitsOf w off 8 = b ∧ BytesAt w (off + 8) rest

theorem octets_cons_len (b : Nat) (rest : List Nat) : (octets (b :: rest)).len = 8 + (octets rest).len := by
  simp only [octets, List.length_cons]
  omega

theorem foldl_octets (bs : List Nat) :
    ∀ n, bs.foldl (fun n b => n * 256 + b) n = n * 256 ^ bs.length + (octets bs).bits := by
  induction bs with
  | nil => intro n; simp [octets]
  | cons b rest ih =>
    intro n
    simp only [octets, List.foldl_cons, List.length_cons]
    rw [ih, ih]
    ring

theorem octets_cons_bits (b : Nat) (rest : List Nat) :
    (octets (b :: rest)).bits = b * 2 ^ (octets rest).len + (octets rest).bits := by
  have pack := foldl_octets rest b
  rw [show 256 = 2 ^ 8 from rfl, ← pow_mul] at pack
  simpa [octets] using pack

theorem octets_bits_lt {bs : List Nat} (h : ∀ b ∈ bs, b < 256) : (octets bs).bits < 2 ^ (octets bs).len := by
  induction bs with
  | nil => decide
  | cons b rest ih =>
    obtain ⟨hb, hrest⟩ := List.forall_mem_cons.1 h
    rw [octets_cons_len, octets_cons_bits, pow_add]
    nlinarith [ih hrest, Nat.two_pow_pos (octets rest).len]

/-- Bytes that lie in a window make the number that it shows there. -/
theorem BytesAt.bitsOf_eq {w off : Nat} {bs : List Nat} (h : BytesAt w off bs) (fit : off + (octets bs).len ≤ 64) :
    bitsOf w off (octets bs).len = (octets bs).bits := by
  induction bs generalizing off with
  | nil => exact Nat.mod_one _
  | cons b rest ih =>
    obtain ⟨hb, hrest⟩ := h
    rw [octets_cons_len] at fit ⊢
    rw [bitsOf_add w (by omega), hb, ih hrest (by omega), octets_cons_bits]

theorem bytesAt_iff {w off : Nat} {bs : List Nat} (byte : ∀ b ∈ bs, b < 256) (fit : off + (octets bs).len ≤ 64) :
    BytesAt w off bs ↔ bitsOf w off (octets bs).len = (octets bs).bits := by
  refine ⟨fun h => h.bitsOf_eq fit, fun h => ?_⟩
  induction bs generalizing off with
  | nil => trivial
  | cons b rest ih =>
    obtain ⟨hb, hrest⟩ := List.forall_mem_cons.1 byte
    rw [octets_cons_len] at fit h
    rw [bitsOf_add w (by omega), octets_cons_bits] at h
    obtain ⟨front, back⟩ := mul_add_inj (bitsOf_lt ..) (octets_bits_lt hrest) h
    exact ⟨front, ih hrest (by omega) back⟩

theorem bytesAt_append (w : Nat) (bs cs : List Nat) :
    ∀ off, BytesAt w off (bs ++ cs) ↔ BytesAt w off bs ∧ BytesAt w (off + 8 * bs.length) cs := by
  induction bs with
  | nil => simp [BytesAt]
  | cons b rest ih =>
    intro off
    simp [BytesAt, ih, and_assoc, Nat.mul_add, Nat.add_comm 8, Nat.add_assoc]

@[simp] theorem twoBytes_length (v : Nat) : (twoBytes v).length = 2 := rfl

theorem bytesAt_twoBytes {w off v : Nat} (hv : v < 65536) (fit : off ≤ 48) :
    BytesAt w off (twoBytes v) ↔ bitsOf w off 16 = v := by
  rw [bytesAt_iff (by simp [twoBytes]; omega) (by simp [octets]; omega),
    show (octets (twoBytes v)).bits = v by simp [twoBytes, octets]; omega]
  rfl

theorem bytesAt_threeBytes {w off v : Nat} (hv : v < 16777216) (fit : off ≤ 40) :
    BytesAt w off [v / 65536, v / 256 % 256, v % 256] ↔ bitsOf w off 24 = v := by
  rw [bytesAt_iff (by simp; omega) (by simp [octets]; omega),
    show (octets [v / 65536, v / 256 % 256, v % 256]).bits = v by simp [octets]; omega]
  rfl

theorem bytesAt_fourBytes {w off v : Nat} (hv : v < 4294967296) (fit : off ≤ 32) :
    BytesAt w off [v / 16777216, v / 65536 % 256, v / 256 % 256, v % 256] ↔ bitsOf w off 32 = v := by
  rw [bytesAt_iff (by simp; omega) (by simp [octets]; omega),
    show (octets [v / 16777216, v / 65536 % 256, v / 256 % 256, v % 256]).bits = v by simp [octets]; omega]
  rfl

/-- A window that begins with bytes shows them. -/
theorem Begins.bytesAt {c : Code} {w : Nat} (h : Begins w c) {bs : List Nat} (e : c = octets bs)
    (byte : ∀ b ∈ bs, b < 256) (fit : bs.length ≤ 8) : BytesAt w 0 bs := by
  subst e
  exact (bytesAt_iff byte (by simp only [octets]; omega)).2 (h.bitsOf_eq (octets_bits_lt byte))

/-- An instruction whose bytes lie in the window is read there. -/
theorem Reads.of_bytes {w : Nat} {c : Channel} {i : Instr} {bs : List Nat} (e : encode i = octets bs) (fit : bs.length ≤ 8)
    (bytes : BytesAt w 0 bs) (check : i.check = true) (place : channel i = c) : Reads c w i :=
  ⟨check, by rw [e]; exact bytes.bitsOf_eq (by simp only [octets]; omega), .inl place⟩

/-! ### Commands -/

theorem decodeCommand_of_begins {i : Instr} {w : Nat} (place : channel i = .command) (check : i.check = true)
    (h : Begins w (encode i)) : decodeCommand w = some i := by
  cases i with
  | cmdOpen cfg =>
    obtain ⟨code, argument, -⟩ := h.bytesAt rfl (by simp; omega) (by simp)
    simp [decodeCommand, code, argument]
  | cmdReset | cmdDecodeNext | cmdGetFrame | cmdClose =>
    obtain ⟨code, -⟩ := h.bytesAt rfl (by decide) (by decide)
    simp [decodeCommand, code]
  | cmdUndefined c =>
    obtain ⟨code, -⟩ := h.bytesAt rfl (by simp; omega) (by simp)
    have undefinedCode : c.toNat = 0 ∨ 5 < c.toNat := of_decide_eq_true check
    rw [decodeCommand, code]
    split <;> simp <;> omega
  | _ => cases place

theorem decodeCommand_reads {w : Nat} : ∀ i, decodeCommand w = some i → Reads .command w i := by
  unfold decodeCommand
  generalize code : bitsOf w 0 8 = c
  split
  case h_1 =>
    rintro _ ⟨⟩
    exact .of_bytes rfl (by simp) ⟨code, (toNat_ofNat_bitsOf ..).symm, trivial⟩ rfl rfl
  case h_6 n1 n2 n3 n4 n5 =>
    rintro _ ⟨⟩
    have byte : (BitVec.ofNat 8 c).toNat = c := by rw [← code, toNat_ofNat_bitsOf]
    obtain ⟨n1, n2, n3, n4, n5⟩ : c ≠ 1 ∧ c ≠ 2 ∧ c ≠ 3 ∧ c ≠ 4 ∧ c ≠ 5 := ⟨n1, n2, n3, n4, n5⟩
    exact .of_bytes rfl (by simp) ⟨code.trans byte.symm, trivial⟩ (decide_eq_true (by omega)) rfl
  all_goals
    rintro _ ⟨⟩
    exact .of_bytes rfl (by simp) ⟨code, trivial⟩ rfl rfl

/-! ### Start codes -/

/-- A start code is three bytes that are the same in all of them, and one of its own (30_encoding.md R121). -/
theorem startCode_parts (w : Nat) : bitsOf w 0 24 = bitsOf w 0 32 / 256 ∧ bitsOf w 24 8 = bitsOf w 0 32 % 256 := by
  have parts := bitsOf_add w (off := 0) (m := 24) (n := 8) (by omega)
  have := bitsOf_lt w 24 8
  simp only [Nat.reduceAdd, Nat.reducePow, Nat.zero_add] at *
  omega

theorem decodeStartCode_of_begins {i : Instr} {w : Nat} (place : channel i = .startCode) (check : i.check = true)
    (h : Begins w (encode i)) : decodeStartCode w = some i := by
  obtain ⟨front, last⟩ := startCode_parts w
  cases i with
  | scPicture | scSequenceHeader | scSequenceEnd | scGroup =>
    have bits : bitsOf w 0 32 = _ := h.bitsOf_eq (by decide)
    rw [decodeStartCode, front, last, bits]
    rfl
  | scSlice r =>
    have bits : bitsOf w 0 32 = 0x100 + r.toNat := h.bitsOf_eq (show 0x100 + r.toNat < 2 ^ 32 by omega)
    have range : 1 ≤ r.toNat ∧ r.toNat ≤ 0xAF := of_decide_eq_true check
    rw [decodeStartCode, if_pos (by omega), show bitsOf w 24 8 = r.toNat by omega]
    split <;> simp <;> omega
  | scUnrecognised x =>
    have bits : bitsOf w 0 32 = 0x100 + x.toNat := h.bitsOf_eq (show 0x100 + x.toNat < 2 ^ 32 by omega)
    have range : 0xAF < x.toNat ∧ x.toNat ≠ 0xB3 ∧ x.toNat ≠ 0xB7 ∧ x.toNat ≠ 0xB8 := of_decide_eq_true check
    rw [decodeStartCode, if_pos (by omega), show bitsOf w 24 8 = x.toNat by omega]
    split <;> simp <;> omega
  | _ => cases place

theorem decodeStartCode_reads {w : Nat} : ∀ i, decodeStartCode w = some i → Reads .startCode w i := by
  obtain ⟨front, last⟩ := startCode_parts w
  unfold decodeStartCode
  split
  case isTrue start =>
    have byte : (BitVec.ofNat 8 (bitsOf w 24 8)).toNat = bitsOf w 24 8 := toNat_ofNat_bitsOf ..
    generalize bitsOf w 24 8 = x at *
    have bits : bitsOf w 0 32 = 0x100 + x := by omega
    split
    case h_5 n0 nB3 nB7 nB8 =>
      obtain ⟨n0, nB3, nB7, nB8⟩ : x ≠ 0 ∧ x ≠ 0xB3 ∧ x ≠ 0xB7 ∧ x ≠ 0xB8 := ⟨n0, nB3, nB7, nB8⟩
      rw [← byte] at bits
      split
      · rintro _ ⟨⟩
        exact ⟨decide_eq_true (by omega), bits, .inl rfl⟩
      · rintro _ ⟨⟩
        exact ⟨decide_eq_true (by omega), bits, .inl rfl⟩
    all_goals
      rintro _ ⟨⟩
      exact ⟨rfl, bits, .inl rfl⟩
  case isFalse => simp

/-! ### Fields -/

/-- A field holds the operand its code was made of; it may be narrower than the operand's register. -/
theorem Begins.field {w n k : Nat} {v : BitVec k} (h : Begins w ⟨n, v.toNat⟩) (fits : v.toNat < 2 ^ n) :
    BitVec.ofNat k (bitsOf w 0 n) = v := by
  rw [h.bitsOf_eq fits, BitVec.ofNat_toNat, BitVec.setWidth_eq]

theorem Begins.flag {w : Nat} {b : Bool} (h : Begins w ⟨1, b.toNat⟩) : bitAt w 0 = b :=
  (bitAt_eq_iff w 0 b).2 (h.bitsOf_eq b.toNat_lt)

/-- An extra-information byte stands behind a 1 bit (42_header_parser.md R212). -/
theorem extraByte_iff {w : Nat} {e : BitVec 8} :
    bitsOf w 0 9 = 256 + e.toNat ↔ bitAt w 0 = true ∧ BitVec.ofNat 8 (bitsOf w 1 8) = e := by
  have parts := bitsOf_add w (off := 0) (m := 1) (n := 8) (by omega)
  have := bitsOf_lt w 1 8
  rw [bitAt_eq_iff, ofNat_bitsOf_eq_iff, Bool.toNat_true]
  simp only [Nat.reduceAdd, Nat.reducePow, Nat.zero_add] at parts
  omega

theorem Begins.extraByte {w : Nat} {e : BitVec 8} (h : Begins w ⟨9, 256 + e.toNat⟩) :
    bitAt w 0 = true ∧ BitVec.ofNat 8 (bitsOf w 1 8) = e :=
  extraByte_iff.1 (h.bitsOf_eq (by simp; omega))

theorem decodeField_of_begins {f : FieldId} {i : Instr} {w : Nat} (place : channel i = .field f) (check : i.check = true)
    (h : Begins w (encode i)) : decodeField f w = some i := by
  cases i with
  | markerBit b | constrainedParametersFlag b | loadIntraQuantizerMatrix b | loadNonIntraQuantizerMatrix b
  | fullPelForwardVector b | fullPelBackwardVector b =>
    cases place
    simp [decodeField, h.flag]
  | extraInformationPicture e | extraInformationSlice e =>
    cases place
    obtain ⟨more, byte⟩ := h.extraByte
    simp [decodeField, more, byte]
  | extraBitPictureEnd | extraBitSliceEnd =>
    cases place
    have last : bitAt w 0 = false := (bitAt_eq_iff ..).2 h
    simp [decodeField, last]
  | motionResidual n v | dctDcDifferential n v =>
    cases place
    obtain ⟨least, most, fits⟩ := of_decide_eq_true check
    rw [decodeField, if_pos ⟨least, most⟩, h.field fits]
  | horizontalSize v | verticalSize v | aspectRatioCode v | frameRateCode v | bitRateValue v | vbvBufferSize v
  | intraQuantizerMatrixEntry v | nonIntraQuantizerMatrixEntry v | sequenceHeaderSkip v | gopTimeCodeAndFlags v
  | temporalReference v | pictureCodingType v | vbvDelay v | forwardFCode v | backwardFCode v | sliceQuantizerScale v
  | macroblockQuantizerScale v =>
    cases place
    simp [decodeField, h.field v.isLt]
  | _ => cases place

theorem decodeField_reads (f : FieldId) {w : Nat} : ∀ i, decodeField f w = some i → Reads (.field f) w i := by
  cases f with
  | extraInformationPicture | extraInformationSlice =>
    simp only [decodeField]
    split
    case isTrue more =>
      rintro _ ⟨⟩
      exact ⟨rfl, extraByte_iff.2 ⟨more, rfl⟩, .inl rfl⟩
    case isFalse => simp
  | extraBitPictureEnd | extraBitSliceEnd =>
    simp only [decodeField]
    split
    case isTrue => simp
    case isFalse last =>
      rintro _ ⟨⟩
      exact ⟨rfl, (bitAt_eq_iff w 0 false).1 (Bool.eq_false_of_not_eq_true last), .inl rfl⟩
  | motionResidual n | dctDcDifferential n =>
    simp only [decodeField]
    split
    case isTrue range =>
      rintro _ ⟨⟩
      have bits := bitsOf_mod w 0 (Nat.pow_le_pow_right Nat.two_pos range.2)
      refine ⟨decide_eq_true ⟨range.1, range.2, ?_⟩, bits.symm, .inl rfl⟩
      rw [BitVec.toNat_ofNat, bits]
      exact bitsOf_lt ..
    case isFalse => simp
  | markerBit | constrainedParametersFlag | loadIntraQuantizerMatrix | loadNonIntraQuantizerMatrix
  | fullPelForwardVector | fullPelBackwardVector =>
    rintro _ ⟨⟩
    exact ⟨rfl, (toNat_bitAt w 0).symm, .inl rfl⟩
  | _ =>
    rintro _ ⟨⟩
    exact ⟨rfl, (toNat_ofNat_bitsOf w 0 _).symm, .inl rfl⟩

/-! ### Operands of unit operations -/

theorem blockOperand_eq_some (v : Nat) (b : BlockNo) : blockOperand v = some b ↔ v = b.val := by
  unfold blockOperand
  split
  · simp [Fin.ext_iff]
  · simp; omega

theorem directionOperand_eq_some (v : Nat) (d : Direction) : directionOperand v = some d ↔ v = d.byte := by
  unfold directionOperand
  cases d <;> split <;> simp_all [Direction.byte]

theorem axisOperand_eq_some (v : Nat) (c : Axis) : axisOperand v = some c ↔ v = c.byte := by
  unfold axisOperand
  cases c <;> split <;> simp_all [Axis.byte]

theorem flagOperand_eq_some (v : Nat) (f : Bool) : flagOperand v = some f ↔ v = f.toNat := by
  unfold flagOperand
  cases f <;> split <;> simp_all

theorem tableOperand_eq_some (v : Nat) (t : Table) : tableOperand v = some t ↔ v = t.number - 1 := by
  unfold tableOperand
  cases t <;> split <;> simp_all [Table.number]

theorem rangeOperand_eq_some (max v n : Nat) : rangeOperand max v = some n ↔ v = n ∧ n ≤ max := by
  unfold rangeOperand
  split <;> simp <;> omega

theorem quantOperands_eq_some (w : Nat) (l : BitVec 9) (q : BitVec 5) (e : BitVec 8) :
    quantOperands w = some (l, q, e) ↔ (l ≠ 0 ∧ q ≠ 0) ∧
      bitsOf w 8 16 = (l - 1).toNat ∧ bitsOf w 24 8 = q.toNat - 1 ∧ bitsOf w 32 8 = e.toNat := by
  simp only [quantOperands, Option.bind_eq_some_iff, rangeOperand_eq_some, Option.some.injEq, Prod.mk.injEq,
    ofNat_bitsOf_eq_iff]
  generalize bitsOf w 8 16 = level
  generalize bitsOf w 24 8 = scale
  constructor
  · rintro ⟨_, ⟨rfl, hl⟩, _, ⟨rfl, hq⟩, rfl, rfl, he⟩
    refine ⟨⟨?_, ?_⟩, ?_, ?_, he⟩ <;> bv_omega
  · rintro ⟨⟨l0, q0⟩, rfl, rfl, he⟩
    refine ⟨_, ⟨rfl, ?_⟩, _, ⟨rfl, ?_⟩, ?_, ?_, he⟩ <;> bv_omega

@[simp] theorem blockOperand_val (b : BlockNo) : blockOperand b.val = some b := (blockOperand_eq_some _ _).2 rfl

@[simp] theorem directionOperand_byte (d : Direction) : directionOperand d.byte = some d :=
  (directionOperand_eq_some _ _).2 rfl

@[simp] theorem axisOperand_byte (c : Axis) : axisOperand c.byte = some c := (axisOperand_eq_some _ _).2 rfl

@[simp] theorem flagOperand_toNat (f : Bool) : flagOperand f.toNat = some f := (flagOperand_eq_some _ _).2 rfl

@[simp] theorem tableOperand_number (t : Table) : tableOperand (t.number - 1) = some t := (tableOperand_eq_some _ _).2 rfl

theorem rangeOperand_of_le {max v : Nat} (h : v ≤ max) : rangeOperand max v = some v := if_pos h

theorem directionByte_lt (d : Direction) : d.byte < 256 := by cases d <;> decide

theorem axisByte_lt (c : Axis) : c.byte < 256 := by cases c <;> decide

theorem flagByte_lt (f : Bool) : f.toNat < 256 := by cases f <;> decide

theorem tableByte_lt (t : Table) : t.number - 1 < 256 := by cases t <;> decide

/-! ### Unit operations -/

theorem decodeUnitOp_of_begins {i : Instr} {w : Nat} (place : channel i = .unitOp) (check : i.check = true)
    (h : Begins w (encode i)) : decodeUnitOp w = some i := by
  cases i with
  | brReset | brConsume1 | brRefill | brAlignSc | vldMbaInc | vldMbtype | vldCbp | vldMotionCode | vldEscape | seqNextHeader
  | seqSequenceHeader | seqGopHeader | seqPictureHeader | seqPictureData | seqMacroblock | pbmRotateRef | pbmSelectAux
  | pbmGetFrame =>
    obtain ⟨code, -⟩ := h.bytesAt rfl (by decide) (by decide)
    simp [decodeUnitOp, code]
  | brPeek n =>
    obtain ⟨code, hn, -⟩ := h.bytesAt rfl (by simp; omega) (by simp)
    obtain ⟨least, most⟩ : 1 ≤ n.toNat ∧ n.toNat ≤ 32 := of_decide_eq_true check
    simp [decodeUnitOp, code, hn, rangeOperand_of_le (show n.toNat - 1 ≤ 31 by omega), Nat.sub_add_cancel least]
  | brConsume n | brGet n =>
    obtain ⟨code, hn, -⟩ := h.bytesAt rfl (by simp; omega) (by simp)
    have range : n.toNat ≤ 32 := of_decide_eq_true check
    simp [decodeUnitOp, code, hn, rangeOperand_of_le range]
  | vldCode t =>
    obtain ⟨code, ht, -⟩ := h.bytesAt rfl (by simp [tableByte_lt]) (by simp)
    simp [decodeUnitOp, code, ht]
  | vldCoef first =>
    obtain ⟨code, hfirst, -⟩ := h.bytesAt rfl (by simp [flagByte_lt]) (by simp)
    simp [decodeUnitOp, code, hfirst]
  | vldDcDiff b | iqIntraDc b | idctBlock b | seqIntraBlock b | seqInterBlock b =>
    obtain ⟨code, hb, -⟩ := h.bytesAt rfl (by simp; omega) (by simp)
    simp [decodeUnitOp, code, hb]
  | idctRow b r | idctCol b r =>
    obtain ⟨code, hb, hr, -⟩ := h.bytesAt rfl (by simp; omega) (by simp)
    simp [decodeUnitOp, code, hb, hr, rangeOperand_of_le (show r.toNat ≤ 7 by omega)]
  | mbtPutIntra b mbX mbY | mbtAddInter b mbX mbY =>
    obtain ⟨code, hb, hx, hy, -⟩ := h.bytesAt rfl (by simp; omega) (by simp)
    simp [decodeUnitOp, code, hb, hx, hy]
  | iqIntraAc l q e | iqInter l q e =>
    have bytes := h.bytesAt rfl (by simp [levelBytes, twoBytes]; omega) (by simp [levelBytes])
    simp (disch := omega) only [List.cons_append, List.nil_append, BytesAt, bytesAt_append, levelBytes, bytesAt_twoBytes,
      twoBytes_length, Nat.reduceAdd, Nat.reduceMul] at bytes
    obtain ⟨code, level, scale, entry, -⟩ := bytes
    have operands := (quantOperands_eq_some w l q e).2 ⟨of_decide_eq_true check, level, scale, entry⟩
    simp [decodeUnitOp, code, operands]
  | iqOddsat m =>
    obtain ⟨code, hm⟩ := h.bytesAt rfl (by simp; omega) (by simp)
    rw [bytesAt_fourBytes m.isLt (by omega)] at hm
    simp [decodeUnitOp, code, hm]
  | mvrDecode d c n fullPel =>
    obtain ⟨code, hd, hc, hn, hf, -⟩ :=
      h.bytesAt rfl (by simp [directionByte_lt, axisByte_lt, flagByte_lt]; omega) (by simp)
    have range : n.toNat ≤ 6 := of_decide_eq_true check
    simp [decodeUnitOp, code, hd, hc, hn, hf, rangeOperand_of_le range]
  | hpiForm ref mbX mbY dx dy | hpiFormAvg ref mbX mbY dx dy =>
    have bytes := h.bytesAt rfl (by simp [twoBytes, directionByte_lt]; omega) (by simp)
    simp (disch := omega) only [List.cons_append, List.nil_append, BytesAt, bytesAt_append, bytesAt_twoBytes,
      twoBytes_length, Nat.reduceAdd, Nat.reduceMul] at bytes
    simp [decodeUnitOp, bytes]
  | mbtSkipP a | mbtSkipB a =>
    obtain ⟨code, ha⟩ := h.bytesAt (bs := _ :: twoBytes a.toNat) rfl (by simp [twoBytes]; omega) (by simp)
    rw [bytesAt_twoBytes a.isLt (by omega)] at ha
    simp [decodeUnitOp, code, ha]
  | seqSlice total =>
    obtain ⟨code, ht⟩ := h.bytesAt rfl (by simp; omega) (by simp)
    rw [bytesAt_threeBytes total.isLt (by omega)] at ht
    simp [decodeUnitOp, code, ht]
  | pbmAlloc cols rows =>
    obtain ⟨code, hcols, hrows, -⟩ := h.bytesAt rfl (by simp; omega) (by simp)
    simp [decodeUnitOp, code, hcols, hrows]
  | _ => cases place

/-- The bytes of an operand that a window shows lie there. -/
theorem bytesAt_twoBytes_bitsOf (w : Nat) {off : Nat} (fit : off ≤ 48) : BytesAt w off (twoBytes (bitsOf w off 16)) :=
  (bytesAt_twoBytes (bitsOf_lt ..) fit).2 rfl

/-- The arms of the decoder differ in their operands; an operand's lemma says from which bytes it was read. -/
theorem decodeUnitOp_reads {w : Nat} : ∀ i, decodeUnitOp w = some i → Reads .unitOp w i := by
  unfold decodeUnitOp
  generalize code : bitsOf w 0 8 = c
  split <;> simp only [Option.bind_eq_some_iff, Option.some.injEq, Prod.exists, quantOperands_eq_some, blockOperand_eq_some,
    directionOperand_eq_some, axisOperand_eq_some, flagOperand_eq_some, rangeOperand_eq_some, tableOperand_eq_some,
    forall_exists_index, and_imp, forall_eq', reduceCtorEq, false_implies, implies_true]
  -- `IQ_INTRA_AC` and `IQ_INTER`
  case h_17 | h_18 =>
    rintro _ l q e level0 scale0 level scale entry rfl
    refine .of_bytes rfl (by simp [levelBytes]) ⟨code, (bytesAt_append ..).2 ⟨?_, scale, entry, trivial⟩⟩
      (decide_eq_true ⟨level0, scale0⟩) rfl
    exact (bytesAt_twoBytes (by omega) (by omega)).2 level
  -- `IQ_ODDSAT`
  case h_19 =>
    exact .of_bytes rfl (by simp)
      ⟨code, (bytesAt_fourBytes (BitVec.isLt _) (by omega)).2 (toNat_ofNat_bitsOf ..).symm⟩ rfl rfl
  -- `SEQ_SLICE`
  case h_35 =>
    exact .of_bytes rfl (by simp)
      ⟨code, (bytesAt_threeBytes (BitVec.isLt _) (by omega)).2 (toNat_ofNat_bitsOf ..).symm⟩ rfl rfl
  all_goals
    intros
    subst_vars
    refine .of_bytes rfl (by simp) ?_ ?_ rfl
    · simp (disch := omega) [BytesAt, bytesAt_append, bytesAt_twoBytes_bitsOf, bitsOf_mod, Nat.mod_eq_of_lt, *]
    · simp (disch := omega) [Instr.check, Nat.mod_eq_of_lt, *] <;> omega

/-- A code that 30_encoding.md R134 does not assign is no unit operation. -/
theorem decodeUnitOp_unassigned {w : Nat}
    (h : bitsOf w 0 8 ∉ [0x10, 0x11, 0x12, 0x13, 0x14, 0x15, 0x16, 0x20, 0x21, 0x22, 0x23, 0x24, 0x25, 0x26, 0x27, 0x30, 0x31,
      0x32, 0x33, 0x40, 0x50, 0x51, 0x52, 0x60, 0x61, 0x70, 0x71, 0x72, 0x73, 0x80, 0x81, 0x82, 0x83, 0x84, 0x85, 0x86, 0x87,
      0x88, 0x90, 0x91, 0x92, 0x93]) : decodeUnitOp w = none := by
  unfold decodeUnitOp
  generalize bitsOf w 0 8 = c at h ⊢
  split
  case h_43 => rfl
  all_goals exact absurd (by decide) h

/-- The window of some bytes begins with the first of them. -/
theorem bitsOf_bytesWindow_cons (b : Byte) (more : List Byte) : bitsOf (bytesWindow (b :: more)) 0 8 = b.toNat := by
  simp only [bytesWindow, bitsOf, List.range, List.range.loop, List.foldl_cons, List.foldl_nil, List.getD_cons_zero,
    List.getD_cons_succ]
  omega

/-- Settles O7: the code is the first byte of the window, and no arm of the decoder has it. -/
theorem unassignedOperationsAreRefused : Obligations.UnassignedOperationsAreRefused := by
  intro s b more rest bench unassigned
  have undecoded : decode .unitOp (bytesWindow (b :: more)) = none :=
    decodeUnitOp_unassigned (by rwa [bitsOf_bytesWindow_cons])
  simp [step, bench, runBenchItem, BenchItem.fetch, BenchItem.channel, BenchItem.window, undecoded, noInstruction]

/-! ### Code words -/

theorem Apart.bitsOf_ne {α : Type} {r q : Row α} (h : Apart r q) (hr : r.len ≤ 64) (hq : q.len ≤ 64) {w : Nat}
    (found : bitsOf w 0 r.len = r.bits) : bitsOf w 0 q.len ≠ q.bits := by
  intro also
  unfold Apart at h
  split at h
  case isTrue le => exact h (by rw [← also, ← found, bitsOf_prefix w le hq])
  case isFalse lt => exact h (by rw [← also, ← found, bitsOf_prefix w (Nat.le_of_not_le lt) hr])

/-- No code word begins another, so the one that begins the window is the one that is found (44_vlc_decoder.md R270). -/
theorem lookupRow_of_mem {α : Type} {rows : List (Row α)} (pc : PrefixCode rows) {r : Row α} (mem : r ∈ rows) {w : Nat}
    (h : bitsOf w 0 r.len = r.bits) : lookupRow rows w = some r := by
  obtain ⟨lens, apart⟩ := pc
  unfold lookupRow
  induction apart with
  | nil => exact absurd mem List.not_mem_nil
  | @cons q rest qApart _ ih =>
    obtain ⟨hq, hrest⟩ := List.forall_mem_cons.1 lens
    obtain rfl | later := List.mem_cons.1 mem
    · exact List.find?_cons_of_pos (by simpa using h)
    · have other : bitsOf w 0 q.len ≠ q.bits := fun found =>
        (qApart r later).bitsOf_ne (by omega) (by have := hrest r later; omega) found h
      rw [List.find?_cons_of_neg (by simpa using other)]
      exact ih later hrest

theorem mem_of_lookupRow {α : Type} {rows : List (Row α)} {r : Row α} {w : Nat} (h : lookupRow rows w = some r) :
    r ∈ rows ∧ bitsOf w 0 r.len = r.bits :=
  ⟨List.mem_of_find?_eq_some h, by simpa using List.find?_some h⟩

/-- The entries of a place's table, each with the instruction that its symbol makes of the sign bit behind the code word. -/
def wordRows (p : VlcPlace) : List (Row (Bool → Option Instr)) :=
  match p with
  | .mba => tMba.map fun r => ⟨r.len, r.bits, fun _ => mbaInstr r.sym⟩
  | .mbtI => tMbtI.map fun r => ⟨r.len, r.bits, fun _ => mbtIInstr r.sym.toNat⟩
  | .mbtP => tMbtP.map fun r => ⟨r.len, r.bits, fun _ => mbtPInstr r.sym.toNat⟩
  | .mbtB => tMbtB.map fun r => ⟨r.len, r.bits, fun _ => mbtBInstr r.sym.toNat⟩
  | .cbp => tCbp.map fun r => ⟨r.len, r.bits, fun _ => cbpInstr r.sym.toNat⟩
  | .motion => tMotion.map fun r => ⟨r.len, r.bits, motionInstr r.sym⟩
  | .dcl => tDcl.map fun r => ⟨r.len, r.bits, fun _ => dclInstr r.sym⟩
  | .dcc => tDcc.map fun r => ⟨r.len, r.bits, fun _ => dccInstr r.sym⟩
  | .coefFirst | .coefNext => tDct.map fun r =>
    ⟨r.len, r.bits, fun s => match r.sym with | .pair run mag => coefInstr run mag s | .escape => none⟩

/-- What the table of a place answers (44_vlc_decoder.md R270); `decodeVlc_eq_lookupWord` and `decodeCoef_of_not_escape` tie it
to the decoder. -/
def lookupWord (p : VlcPlace) (w : Nat) : Option Instr :=
  (lookupRow (wordRows p) w).bind fun r => r.sym (bitAt w r.len)

theorem lookupRow_map {α β : Type} (f : Row α → β) (rows : List (Row α)) (w : Nat) :
    lookupRow (rows.map fun r => ⟨r.len, r.bits, f r⟩) w = (lookupRow rows w).map fun r => ⟨r.len, r.bits, f r⟩ :=
  List.find?_map ..

theorem decodeVlc_eq_lookupWord {p : VlcPlace} (first : p ≠ .coefFirst) (next : p ≠ .coefNext) (w : Nat) :
    decodeVlc p w = lookupWord p w := by
  cases p with
  | coefFirst => exact absurd rfl first
  | coefNext => exact absurd rfl next
  | _ =>
    rw [lookupWord, wordRows, lookupRow_map, Option.bind_map]
    rfl

theorem prefixCode_wordRows (p : VlcPlace) : PrefixCode (wordRows p) := by
  cases p <;> exact prefixCode_of_test _ (by decide)

/-- The instruction of an entry has the entry's code word, and behind it the sign bit wherever it depends on one. -/
theorem wordRows_encode (p : VlcPlace) : ∀ r ∈ wordRows p, ∀ s : Bool, ∀ i ∈ r.sym s,
    i.check = true ∧ (channel i = .vlc p ∨ Channel.vlc p = .vlc .coefFirst ∧ channel i = .vlc .coefNext) ∧
      (encode i = signed r.len r.bits s ∨ encode i = rowCode r ∧ ∀ s', r.sym s' = some i) := by
  cases p <;> decide

theorem bitsOf_signed {w len bits : Nat} {s : Bool} (h : len < 64) :
    bitsOf w 0 (signed len bits s).len = (signed len bits s).bits ↔ bitsOf w 0 len = bits ∧ bitAt w len = s := by
  have sign := bitsOf_lt w len 1
  have := s.toNat_le
  rw [signed, bitsOf_add w (by omega), bitAt_eq_iff, Nat.zero_add, Nat.pow_one, Nat.mul_comm 2]
  constructor
  · exact mul_add_inj (by omega) (by omega)
  · rintro ⟨rfl, h⟩
    rw [h]

theorem lookupWord_eq_some {p : VlcPlace} {w : Nat} {i : Instr} : lookupWord p w = some i ↔
    ∃ r ∈ wordRows p, bitsOf w 0 r.len = r.bits ∧ r.sym (bitAt w r.len) = some i := by
  simp only [lookupWord, Option.bind_eq_some_iff]
  constructor
  · rintro ⟨r, found, sym⟩
    obtain ⟨mem, bits⟩ := mem_of_lookupRow found
    exact ⟨r, mem, bits, sym⟩
  · rintro ⟨r, mem, bits, sym⟩
    exact ⟨r, lookupRow_of_mem (prefixCode_wordRows p) mem bits, sym⟩

theorem lookupWord_reads {p : VlcPlace} {w : Nat} {i : Instr} (h : lookupWord p w = some i) : Reads (.vlc p) w i := by
  obtain ⟨r, mem, bits, sym⟩ := lookupWord_eq_some.1 h
  obtain ⟨check, place, code⟩ := wordRows_encode p r mem _ i sym
  obtain ⟨-, short⟩ := (prefixCode_wordRows p).1 r mem
  refine ⟨check, ?_, place⟩
  obtain code | ⟨code, -⟩ := code
  · rw [code, bitsOf_signed (by omega)]
    exact ⟨bits, rfl⟩
  · rwa [code]

/-- A code word is found by the bits of its code alone. -/
theorem lookupWord_congr {p : VlcPlace} {w v : Nat} {i : Instr} (h : lookupWord p w = some i)
    (same : bitsOf v 0 (encode i).len = (encode i).bits) : lookupWord p v = some i := by
  obtain ⟨r, mem, bits, sym⟩ := lookupWord_eq_some.1 h
  obtain ⟨-, -, code⟩ := wordRows_encode p r mem _ i sym
  obtain ⟨-, short⟩ := (prefixCode_wordRows p).1 r mem
  refine lookupWord_eq_some.2 ⟨r, mem, ?_⟩
  obtain code | ⟨code, any⟩ := code
  · rw [code, bitsOf_signed (by omega)] at same
    obtain ⟨word, sign⟩ := same
    exact ⟨word, by rw [sign, sym]⟩
  · rw [code] at same
    exact ⟨same, any _⟩

/-! ### Coefficients -/

theorem tDct_escape : ∀ r ∈ tDct, r.sym = .escape → r.len = 6 ∧ r.bits = 1 := by decide

theorem lookupRow_tDct_escape {w : Nat} (h : bitsOf w 0 6 = 1) : lookupRow tDct w = some ⟨6, 1, .escape⟩ :=
  lookupRow_of_mem defaultTables_legal.dct defaultTables_legal.escape h

theorem decodeCoef_of_escape {w : Nat} (h : bitsOf w 0 6 = 1) : decodeCoef w = decodeEscape w := by
  rw [decodeCoef, lookupRow_tDct_escape h]

theorem decodeCoef_of_not_escape {w : Nat} (h : bitsOf w 0 6 ≠ 1) : decodeCoef w = lookupWord .coefNext w := by
  rw [lookupWord, wordRows, lookupRow_map, decodeCoef]
  cases found : lookupRow tDct w with
  | none => rfl
  | some r =>
    obtain ⟨len, bits, sym⟩ := r
    cases sym with
    | pair run mag => rfl
    | escape =>
      obtain ⟨mem, code⟩ := mem_of_lookupRow found
      obtain ⟨rfl, rfl⟩ := tDct_escape _ mem rfl
      exact absurd code h

/-- A pair of `T_DCT` begins with a 0, where the short code words begin with a 1 (44_vlc_decoder.md R280). -/
theorem pair_begins {w : Nat} {i : Instr} (h : lookupWord .coefNext w = some i) : bitsOf w 0 1 = 0 ∧ bitsOf w 0 6 ≠ 1 := by
  obtain ⟨r, mem, bits, -⟩ := lookupWord_eq_some.1 h
  obtain ⟨least, most⟩ := (prefixCode_wordRows .coefNext).1 r mem
  have short : ∀ q ∈ wordRows .coefNext, q.bits < 2 ^ (q.len - 1) := by decide
  refine ⟨?_, fun escape => ?_⟩
  · rw [bitsOf_prefix w least (by omega), bits, Nat.div_eq_of_lt (short r mem)]
  · rw [lookupWord, wordRows, lookupRow_map, lookupRow_tDct_escape escape] at h
    cases h

/-- Behind a first 0 the two positions in a block read the same words (44_vlc_decoder.md R280, R281). -/
theorem decodeVlc_coef_of_zero {w : Nat} (h : bitsOf w 0 1 = 0) :
    decodeVlc .coefFirst w = decodeCoef w ∧ decodeVlc .coefNext w = decodeCoef w := by
  have two := bitsOf_add w (off := 0) (m := 1) (n := 1) (by omega)
  have := bitsOf_lt w 1 1
  simp only [h, Nat.reduceAdd, Nat.zero_add, Nat.zero_mul] at two
  obtain e | e : bitsOf w 0 2 = 0 ∨ bitsOf w 0 2 = 1 := by omega
  all_goals exact ⟨by simp [decodeVlc, bitAt, h], by simp [decodeVlc, e]⟩

theorem decodeVlc_of_lookupWord {p : VlcPlace} {w : Nat} {i : Instr} (h : lookupWord p w = some i) :
    decodeVlc p w = some i := by
  by_cases coef : p = .coefFirst ∨ p = .coefNext
  · replace h : lookupWord .coefNext w = some i := by obtain rfl | rfl := coef <;> exact h
    obtain ⟨zero, pair⟩ := pair_begins h
    obtain ⟨first, next⟩ := decodeVlc_coef_of_zero zero
    rw [← decodeCoef_of_not_escape pair] at h
    obtain rfl | rfl := coef
    · rw [first, h]
    · rw [next, h]
  · obtain ⟨first, next⟩ := not_or.1 coef
    rw [decodeVlc_eq_lookupWord first next, h]

/-! The escapes (30_encoding.md R129). -/

theorem escape20_iff {w : Nat} {r : BitVec 6} {l : BitVec 8} : bitsOf w 0 20 = (1 * 64 + r.toNat) * 256 + l.toNat ↔
    bitsOf w 0 6 = 1 ∧ bitsOf w 6 6 = r.toNat ∧ bitsOf w 12 8 = l.toNat := by
  have run := bitsOf_add w (off := 0) (m := 6) (n := 6) (by omega)
  have level := bitsOf_add w (off := 0) (m := 12) (n := 8) (by omega)
  have := bitsOf_lt w 6 6
  have := bitsOf_lt w 12 8
  simp only [Nat.reduceAdd, Nat.reducePow, Nat.zero_add] at *
  omega

theorem escape28_iff {w : Nat} {r : BitVec 6} {z : Bool} {l : BitVec 8} :
    bitsOf w 0 28 = (((1 * 64 + r.toNat) * 2 + z.toNat) * 128) * 256 + l.toNat ↔
      bitsOf w 0 6 = 1 ∧ bitsOf w 6 6 = r.toNat ∧ bitsOf w 12 8 = z.toNat * 128 ∧ bitsOf w 20 8 = l.toNat := by
  have run := bitsOf_add w (off := 0) (m := 6) (n := 6) (by omega)
  have zero := bitsOf_add w (off := 0) (m := 12) (n := 8) (by omega)
  have level := bitsOf_add w (off := 0) (m := 20) (n := 8) (by omega)
  have := bitsOf_lt w 6 6
  have := bitsOf_lt w 12 8
  have := bitsOf_lt w 20 8
  have := z.toNat_le
  simp only [Nat.reduceAdd, Nat.reducePow, Nat.zero_add] at *
  omega

theorem decodeVlc_of_escape {w : Nat} (h : bitsOf w 0 6 = 1) : decodeVlc .coefNext w = decodeEscape w := by
  have zero : bitsOf w 0 1 = 0 := by rw [bitsOf_prefix w (n := 6) (by omega) (by omega), h]; rfl
  rw [(decodeVlc_coef_of_zero zero).2, decodeCoef_of_escape h]

theorem decodeVlc_escape20 {w : Nat} {r : BitVec 6} {l : BitVec 8} (check : (Instr.coefEscape20 r l).check = true)
    (h : Begins w (encode (.coefEscape20 r l))) : decodeVlc .coefNext w = some (.coefEscape20 r l) := by
  obtain ⟨code, run, level⟩ := escape20_iff.1 (h.bitsOf_eq (show (1 * 64 + r.toNat) * 256 + l.toNat < 2 ^ 20 by omega))
  obtain ⟨notZero, not80⟩ : l ≠ 0 ∧ l ≠ 0x80 := of_decide_eq_true check
  rw [decodeVlc_of_escape code, decodeEscape, run, level]
  split
  case h_1 zero => exact absurd (BitVec.eq_of_toNat_eq zero) notZero
  case h_2 is80 => exact absurd (BitVec.eq_of_toNat_eq is80) not80
  case h_3 => simp

theorem decodeVlc_escape28 {w : Nat} {r : BitVec 6} {z : Bool} {l : BitVec 8}
    (h : Begins w (encode (.coefEscape28 r z l))) : decodeVlc .coefNext w = some (.coefEscape28 r z l) := by
  have := z.toNat_le
  obtain ⟨code, run, zero, level⟩ := escape28_iff.1
    (h.bitsOf_eq (show (((1 * 64 + r.toNat) * 2 + z.toNat) * 128) * 256 + l.toNat < 2 ^ 28 by omega))
  rw [decodeVlc_of_escape code, decodeEscape, run, zero, level]
  cases z <;> simp

theorem decodeEscape_reads {w : Nat} (h : bitsOf w 0 6 = 1) :
    ∀ i, decodeEscape w = some i → Reads (.vlc .coefNext) w i := by
  have run := (toNat_ofNat_bitsOf w 6 6).symm
  unfold decodeEscape
  split
  case h_1 zero | h_2 zero =>
    rintro _ ⟨⟩
    exact ⟨rfl, escape28_iff.2 ⟨h, run, zero, (toNat_ofNat_bitsOf ..).symm⟩, .inl rfl⟩
  case h_3 notZero not80 =>
    rintro _ ⟨⟩
    have level := (toNat_ofNat_bitsOf w 12 8).symm
    exact ⟨decide_eq_true ⟨fun e => notZero (level.trans (congrArg BitVec.toNat e)),
      fun e => not80 (level.trans (congrArg BitVec.toNat e))⟩, escape20_iff.2 ⟨h, run, level⟩, .inl rfl⟩

theorem decodeCoef_reads {w : Nat} {i : Instr} (h : decodeCoef w = some i) : Reads (.vlc .coefNext) w i := by
  by_cases escape : bitsOf w 0 6 = 1
  · rw [decodeCoef_of_escape escape] at h
    exact decodeEscape_reads escape i h
  · rw [decodeCoef_of_not_escape escape] at h
    exact lookupWord_reads h

/-! ### Every place -/

theorem decodeVlc_reads (p : VlcPlace) {w : Nat} {i : Instr} (h : decodeVlc p w = some i) : Reads (.vlc p) w i := by
  cases p with
  | coefFirst =>
    simp only [decodeVlc] at h
    split at h
    case isTrue one =>
      cases h
      exact ⟨rfl, (bitsOf_signed (by omega)).2 ⟨(bitAt_eq_iff w 0 true).1 one, rfl⟩, .inl rfl⟩
    case isFalse =>
      obtain ⟨check, bits, place⟩ := decodeCoef_reads h
      exact ⟨check, bits, .inr ⟨rfl, place.resolve_right (by simp)⟩⟩
  | coefNext =>
    simp only [decodeVlc] at h
    split at h
    case h_1 bits =>
      cases h
      exact ⟨rfl, bits, .inl rfl⟩
    case h_2 bits =>
      cases h
      exact ⟨rfl, (bitsOf_signed (by omega)).2 ⟨bits, rfl⟩, .inl rfl⟩
    case h_3 => exact decodeCoef_reads h
  | _ => exact lookupWord_reads ((decodeVlc_eq_lookupWord (by decide) (by decide) w).symm.trans h)

/-- The code words of a place are those of its table and, among the coefficients, the short ones, `EOB` and the escapes. -/
theorem codeWord_cases {p : VlcPlace} {i : Instr} (place : channel i = .vlc p) :
    lookupWord p (encode i).window = some i ∨ (∃ s, i = .coefFirstR0L1 s) ∨ (∃ s, i = .coefNextR0L1 s) ∨ i = .eob ∨
      (∃ r l, i = .coefEscape20 r l) ∨ ∃ r z l, i = .coefEscape28 r z l := by
  cases i with
  | coefFirstR0L1 s => exact .inr (.inl ⟨s, rfl⟩)
  | coefNextR0L1 s => exact .inr (.inr (.inl ⟨s, rfl⟩))
  | eob => exact .inr (.inr (.inr (.inl rfl)))
  | coefEscape20 r l => exact .inr (.inr (.inr (.inr (.inl ⟨r, l, rfl⟩))))
  | coefEscape28 r z l => exact .inr (.inr (.inr (.inr (.inr ⟨r, z, l, rfl⟩))))
  | _ => cases place <;> exact .inl (by decide +revert)

/-- A code word that its table finds in its own window is found in every window that begins with it. -/
theorem decodeVlc_of_word {p : VlcPlace} {i : Instr} {w : Nat} (word : lookupWord p (encode i).window = some i)
    (h : Begins w (encode i)) : decodeVlc p w = some i := by
  have fits : (encode i).bits < 2 ^ (encode i).len := by
    rw [← (lookupWord_reads word).bits]
    exact bitsOf_lt ..
  exact decodeVlc_of_lookupWord (lookupWord_congr word (h.bitsOf_eq fits))

theorem decodeVlc_of_begins {p : VlcPlace} {i : Instr} {w : Nat} (place : channel i = .vlc p) (check : i.check = true)
    (h : Begins w (encode i)) : decodeVlc p w = some i := by
  obtain word | ⟨s, rfl⟩ | ⟨s, rfl⟩ | rfl | ⟨r, l, rfl⟩ | ⟨r, z, l, rfl⟩ := codeWord_cases place
  · exact decodeVlc_of_word word h
  all_goals cases place
  · obtain ⟨one, sign⟩ := (bitsOf_signed (by omega)).1 (h.bitsOf_eq (by cases s <;> decide))
    have first : bitAt w 0 = true := (bitAt_eq_iff ..).2 one
    simp [decodeVlc, first, sign]
  · obtain ⟨ones, sign⟩ := (bitsOf_signed (by omega)).1 (h.bitsOf_eq (by cases s <;> decide))
    simp [decodeVlc, ones, sign]
  · have bits : bitsOf w 0 2 = 2 := h
    simp [decodeVlc, bits]
  · exact decodeVlc_escape20 check h
  · exact decodeVlc_escape28 h

/-! ### The decoder -/

/-- A window that begins with the code of a well-formed instruction decodes to it. -/
theorem decode_of_begins {i : Instr} {w : Nat} (check : i.check = true) (h : Begins w (encode i)) :
    decode (channel i) w = some i := by
  cases place : channel i with
  | command => exact decodeCommand_of_begins place check h
  | unitOp => exact decodeUnitOp_of_begins place check h
  | startCode => exact decodeStartCode_of_begins place check h
  | field f => exact decodeField_of_begins place check h
  | vlc p => exact decodeVlc_of_begins place check h

theorem decode_reads {c : Channel} {w : Nat} {i : Instr} (h : decode c w = some i) : Reads c w i := by
  cases c with
  | command => exact decodeCommand_reads i h
  | unitOp => exact decodeUnitOp_reads i h
  | startCode => exact decodeStartCode_reads i h
  | field f => exact decodeField_reads f i h
  | vlc p => exact decodeVlc_reads p h

/-- Settles O3: the window begins with the code, and what begins with a code decodes to its instruction. -/
theorem decodeInvertsEncode : Obligations.DecodeInvertsEncode := by
  intro i tail check short
  exact decode_of_begins check (begins_window (encode i) short)

/-- Settles O4: what each channel's decoder answers is read from the window, whose first bits are those above the rest. -/
theorem decodeIsExact : Obligations.DecodeIsExact := by
  intro c w i hw h
  obtain ⟨check, bits, place⟩ := decode_reads h
  exact ⟨check, (bitsOf_eq_div hw _).symm.trans bits, place⟩

/-- Settles O5: each word is the code of its instruction with zeros behind it. -/
theorem writtenWordsDecode : Obligations.WrittenWordsDecode := by
  have h := fun i check => decodeInvertsEncode i 0 check (Nat.two_pow_pos _)
  exact ⟨h (.cmdOpen 3) rfl, h (.scSlice 0x1F) rfl, h (.bitRateValue 0x3FFFF) rfl, h .seqMacroblock rfl, h .mbaEscape rfl,
    h (.coefR1L1 true) rfl, h (.coefFirstR0L1 true) rfl, h .eob rfl, h (.coefEscape20 5 10) rfl⟩

end Sys2Proof.Machine

/-!
PROOF. The reader operations as single steps (40_bit_reader.md R171 to R177).
-/

namespace Sys2Proof.Machine

/-- The accumulator of a reader in step: the bits held, and zeros below them (R170). -/
theorem Reader.InStep.bfr_toNat {r : Reader} (h : r.InStep) :
    r.bfr.toNat = streamBits r.source r.bitpos (32 - r.bitpos % 8) * 2 ^ (r.bitpos % 8) := by
  have held : (32 - r.bitpos % 8) + r.bitpos % 8 = 32 := by omega
  have fits := Nat.mul_lt_mul_of_pos_right (streamBits_lt r.source r.bitpos (32 - r.bitpos % 8))
    (Nat.two_pow_pos (r.bitpos % 8))
  rw [← pow_add, held] at fits
  rw [congrArg Reader.bfr h]
  exact (BitVec.toNat_ofNat ..).trans (Nat.mod_eq_of_lt fits)

/-- `peekBits(n)` of more bits than are held: zeros stand behind them (R172). -/
theorem Reader.InStep.peek_beyond {r : Reader} (h : r.InStep) {n : Nat} (more : 32 - r.bitpos % 8 ≤ n) (hn : n ≤ 32) :
    r.peek n = streamBits r.source r.bitpos (32 - r.bitpos % 8) * 2 ^ (n - (32 - r.bitpos % 8)) := by
  have split : r.bitpos % 8 = (n - (32 - r.bitpos % 8)) + (32 - n) := by omega
  have zeros : 2 ^ (r.bitpos % 8) = 2 ^ (n - (32 - r.bitpos % 8)) * 2 ^ (32 - n) := by rw [← pow_add, ← split]
  rw [Reader.peek, BitVec.toNat_ushiftRight, Nat.shiftRight_eq_div_pow, h.bfr_toNat, zeros, ← Nat.mul_assoc,
    Nat.mul_div_cancel _ (Nat.two_pow_pos _)]

/-- `peekBits(n)` of no more bits than are held (R172). -/
theorem Reader.InStep.peek_held {r : Reader} (h : r.InStep) {n : Nat} (hn : n ≤ 32 - r.bitpos % 8) :
    r.peek n = streamBits r.source r.bitpos n := by
  have full := congrArg Reader.incnt h
  exact h.peek n (by simp only [Reader.atBit] at full; omega)

theorem execBrPeek_eq {n : BitVec 6} (s : State) (least : 1 ≤ n.toNat) (most : n.toNat ≤ 32) :
    exec (.brPeek n) s = .next (s.answering (.bits (s.br.peek n.toNat))) := if_pos ⟨least, most⟩

theorem execBrConsume_eq {n : BitVec 6} {s : State} (h : s.br.InStep) (hn : n.toNat ≤ 32) :
    exec (.brConsume n) s = .next ((s.ahead n.toNat).answering .nothing) := by
  rw [← State.consumeBits_eq h n.toNat hn]
  exact if_pos hn

theorem execBrGet_eq {n : BitVec 6} {s : State} (h : s.br.InStep) (hn : n.toNat ≤ 32) :
    exec (.brGet n) s = .next ((s.ahead n.toNat).answering (.bits (s.upcoming 0 n.toNat))) := by
  have read := State.getBits_eq h n.toNat hn
  refine (if_pos hn).trans ?_
  rw [read]
  rfl

/-- Settles O8: the accumulator holds the next bits with zeros below them, and the three ranges of the operand. -/
theorem peekConsumeAndGet : Obligations.PeekConsumeAndGet := by
  refine ⟨fun s n h least held => ?_, fun s n h more most => ?_, fun s n h hn => execBrConsume_eq h hn, fun s h => ?_,
    fun s n h hn => execBrGet_eq h hn, fun s n out => if_neg ?_, fun s n out => ⟨if_neg ?_, if_neg ?_⟩⟩
  · rw [execBrPeek_eq s least (by omega), h.peek_held held]
    rfl
  · rw [execBrPeek_eq s (by omega) most, h.peek_beyond more.le most]
    rfl
  · rw [← State.consumeBits_eq h 1 (by norm_num)]
    rfl
  · rcases out with rfl | out
    · decide
    · omega
  all_goals omega

/-- Settles O9: a start code lies ahead of every position, a refill ends at the reader of its position, and the bits that a
reset drops are those up to the byte it pulls next. -/
theorem alignRefillAndReset : Obligations.AlignRefillAndReset := by
  refine ⟨fun s h => ?_, fun s h => ?_, fun s h => ?_⟩
  · obtain ⟨k, first, -⟩ := exists_firstPrefix s.br.source s.br.bitpos
    exact ⟨k, first, congrArg (Res.finish · noResult) (State.align_eq h first)⟩
  · rw [← h.refill]
    rfl
  · have dropped : 8 * (s.br.bitpos / 8 + 4) = s.br.bitpos + (32 - s.br.bitpos % 8) := by omega
    rw [State.ahead, ← dropped, ← h.reset]
    rfl

end Sys2Proof.Machine

/-!
PROOF. Every step keeps `StepInv` (70_reset_and_hazards.md R489): what an operation answers or raises meets it again, then what
each instruction answers, then what a step runs, the decoder answering well-formed instructions only.
-/

namespace Sys2Proof.Machine

/-! ### What keeps the invariant -/

/-- The registers that `StepInv` speaks of. -/
def State.watched (s : State) : Reader × Config.Params × Roles × Option FrameStore × Nat × Bool × Predictors ×
    (Nat × List (BitVec 32) × List Byte × Bool × BitVec 4) :=
  (s.br, s.params, s.roles, s.frames, s.draws, s.seq.seqKnown, s.work.pmv,
    (s.status.evCount, s.status.events, s.status.errstr, s.status.fault, s.status.faultCause))

/-- Writes to other registers. -/
theorem StepInv.then_eq {s t : State} (h : StepInv s) (e : t.watched = s.watched) : StepInv t := by
  simp only [State.watched, Prod.mk.injEq] at e
  obtain ⟨br, params, roles, frames, draws, seq, pmv, evCount, events, errstr, fault, cause⟩ := e
  exact h.congr br params roles frames seq evCount events errstr fault cause pmv draws

/-- Bits consumed, then writes to other registers. -/
theorem StepInv.consumed {s t : State} {n : Nat} (h : StepInv s) (hn : n ≤ 32) (e : t.watched = (s.consumeBits n).watched) :
    StepInv t := (h.consumeBits n hn).then_eq e

/-- The reader moved to a bit of its source. -/
theorem StepInv.setReader {s : State} (h : StepInv s) {r : Reader} (hr : r.InStep) : StepInv { s with br := r } :=
  { h with reader := hr }

/-- The outcome's next state, if there is one, meets the invariant. -/
def AnswersInv (o : Host.Outcome State Fault Refusal) : Prop := ∀ t, o = .next t → StepInv t

theorem AnswersInv.next {t : State} (h : StepInv t) : AnswersInv (.next t) := by
  rintro _ ⟨⟩
  exact h

theorem AnswersInv.ite {p : Prop} [Decidable p] {o q : Host.Outcome State Fault Refusal} (ho : AnswersInv o)
    (hq : AnswersInv q) : AnswersInv (if p then o else q) := by
  split
  · exact ho
  · exact hq

theorem answersInv_refused (r : Refusal) : AnswersInv (.refused r) := by
  rintro _ ⟨⟩

/-- Whatever the operation answers or raises, it does so in a state that meets the invariant. -/
def Res.KeepsInv {α : Type} (x : Res α) : Prop :=
  match x with
  | .ok _ t | .raised _ _ t => StepInv t
  | .stop _ => True

theorem Res.Keeps.inv {α : Type} {x : Res α} {s : State} (k : x.Keeps s) (h : StepInv s) : x.KeepsInv := by
  cases x with
  | ok a t | raised c i t => exact h.decodesTo k
  | stop e => trivial

theorem Res.Heads.inv {α : Type} {x : Res α} {s : State} {P : α → State → Prop} (k : x.Heads s P) (h : StepInv s) :
    x.KeepsInv := by
  cases x with
  | ok a t => exact h.headerTo k.1
  | raised c i t => exact h.headerTo k
  | stop e => trivial

theorem Res.KeepsInv.bind {α β : Type} {x : Res α} {f : α → State → Res β} (hx : x.KeepsInv)
    (hf : ∀ a t, StepInv t → (f a t).KeepsInv) : (x.bind f).KeepsInv := by
  cases x with
  | ok a t => exact hf a t hx
  | raised c i t => exact hx
  | stop e => trivial

theorem Res.KeepsInv.ite {α : Type} {p : Prop} [Decidable p] {x y : Res α} (hx : x.KeepsInv) (hy : y.KeepsInv) :
    (if p then x else y).KeepsInv := by
  split
  · exact hx
  · exact hy

theorem Res.KeepsInv.finish {α : Type} {x : Res α} {deliver : α → State → State} (hx : x.KeepsInv)
    (hd : ∀ a u, (deliver a u).watched = u.watched) : AnswersInv (x.finish deliver) := by
  cases x with
  | ok a t => exact .next (StepInv.then_eq hx (hd a t))
  | raised c i t => exact .next (StepInv.faultEntry hx c i)
  | stop e => rintro _ ⟨⟩

/-! ### The elements of the stream -/

theorem Res.Keeps.map {α β : Type} {x : Res α} {s : State} (hx : x.Keeps s) (f : α → β) : (x.map f).Keeps s :=
  hx.bind fun _ _ d => State.DecodesTo.refl d.inStep

/-- An element that only reads. -/
theorem Res.Meets.keeps {α : Type} {x : Res α} {s : State} {P : α → State → Prop} {cs : List Cause}
    (hx : x.Meets P (RaisesFrom s cs)) (reads : ∀ a t, P a t → s.ReadsTo t) : x.Keeps s := (hx.decodes reads).keeps

theorem vlc_keeps {α : Type} {rows : List (Row α)} (pc : PrefixCode rows) (t : Table) {s : State} (h : s.br.InStep) :
    (vlc rows t s).Keeps s := (vlc_reads pc t h).keeps fun _ _ p => p.2

theorem vlcSymbol_keeps (t : Table) {s : State} (h : s.Decoding) : (vlcSymbol t s).Keeps s := by
  have legal := h.tables
  cases t with
  | mba => exact (vlc_keeps legal.mba _ h.reader).map _
  | mbtI => exact (vlc_keeps legal.mbtI _ h.reader).map _
  | mbtP => exact (vlc_keeps legal.mbtP _ h.reader).map _
  | mbtB => exact (vlc_keeps legal.mbtB _ h.reader).map _
  | cbp => exact (vlc_keeps legal.cbp _ h.reader).map _
  | motion => exact (vlc_keeps legal.motion _ h.reader).map _
  | dcl => exact (vlc_keeps legal.dcl _ h.reader).map _
  | dcc => exact (vlc_keeps legal.dcc _ h.reader).map _
  | dct => exact (vlc_keeps legal.dct _ h.reader).map _

theorem codedPattern_keeps {s : State} (h : s.Decoding) : (codedPattern s).Keeps s :=
  (vlc_keeps h.tables.cbp .cbp h.reader).bind fun _ _ d => State.decodesTo_work d.inStep _ id

theorem StepInv.sequenceField {s : State} (h : StepInv s) {n : Nat} (hn : n ≤ 32) {f : SequenceRegs → SequenceRegs}
    (known : (f s.seq).seqKnown = s.seq.seqKnown) : StepInv (sequenceField n f s) := by
  unfold Machine.sequenceField
  split
  · exact h.consumed hn rfl
  · exact h.consumed hn (by simp only [State.watched, State.deliver, State.consumeBits, known])

theorem scaleField_keepsInv (q : BitVec 5) (info : Nat) {s : State} (h : StepInv s) : (scaleField q info s).KeepsInv :=
  have read : StepInv ((s.consumeBits 5).setQuantizerScale q) := h.consumed (n := 5) (by norm_num) rfl
  .ite read read

theorem escapeCoefWord_keepsInv {len : Nat} (hn : len ≤ 32) (run : Nat) (level : Int) {s : State} (h : StepInv s) :
    (escapeCoefWord len run level s).KeepsInv := .ite (h.consumeBits len hn) (h.consumeBits len hn)

/-! ### Pictures and the frame store -/

/-- Three new buffers of a coded size: nothing of them is written yet (49_picture_buffers_host.md R400). -/
theorem FrameStore.inOrder_allocated {w h : Nat} (hw : w % 16 = 0 ∧ 16 ≤ w ∧ w ≤ 4096) (hh : h % 16 = 0 ∧ 16 ≤ h ∧ h ≤ 4096)
    (draws : Nat) : FrameStore.InOrder { width := w, height := h, epoch := draws, mem := [] } (draws + 1) :=
  ⟨hw, hh, Nat.lt_succ_self _, rfl, by simp⟩

theorem allocate_keepsInv {s : State} (h : StepInv s) {w v : Nat} (hw : w % 16 = 0 ∧ 16 ≤ w ∧ w ≤ 4096)
    (hv : v % 16 = 0 ∧ 16 ≤ v ∧ v ≤ 4096) : (s.allocate w v).KeepsInv := by
  refine .ite (show StepInv _ from { h with frames := ?_, allocated := fun _ => Option.some_ne_none _ }) h
  rintro _ ⟨⟩
  exact FrameStore.inOrder_allocated hw hv _

theorem pictureData_keepsInv {s : State} (h : StepInv s) : (pictureData s).KeepsInv :=
  (pictureDataFrom_keeps _ _ s h.decoding).inv h

/-- The body of `CMD_DECODE_NEXT`, whatever a bench did to the sizes before it. -/
theorem decodePicture_keepsInv {s : State} (h : StepInv s) : (decodePicture s).KeepsInv := by
  refine ((nextHeader_heads h.reader).inv h).bind fun e t ht => ?_
  cases e with
  | endOfSequence => exact ht.then_eq rfl
  | picture =>
    have checks : (pictureChecks t).KeepsInv := .ite ht (.ite ht (.ite ht (.ite ht ht)))
    refine checks.bind fun _ u hu => (pictureData_keepsInv ?_).bind fun _ v hv => hv.selectDisplay.then_eq rfl
    split
    · exact hu.selectAux
    · exact hu.rotateRef

/-! ### Instructions -/

/-- A rewound reader stands at the first bit of its source (40_bit_reader.md R171). -/
theorem StepInv.rewound {s : State} (h : StepInv s) : StepInv s.rewound :=
  (h.setReader (r := s.br.rewind) (Reader.rewind_eq s.br ▸ Reader.atBit_inStep _ _)).then_eq rfl

theorem StepInv.afterClose {s : State} (h : StepInv s) : StepInv s.afterClose :=
  { h with
    frames := by rintro _ ⟨⟩
    allocated := by rintro ⟨⟩ }

theorem StepInv.badCommand {s : State} (h : StepInv s) (code : Nat) : StepInv (badCommand code s) := h.recordFault _ _

theorem execCmdOpen_answersInv (cfg : BitVec 8) {s : State} (h : StepInv s) : AnswersInv (execCmdOpen cfg s) :=
  .ite (.next (StepInv.openSession cfg h.params)) (.next (h.badCommand _))

theorem execCmdReset_answersInv {s : State} (h : StepInv s) : AnswersInv (execCmdReset s) :=
  .ite (.next (h.badCommand _)) (.ite (.next (h.recordFault _ _)) (.next h.rewound))

theorem execCmdDecodeNext_answersInv {s : State} (h : StepInv s) : AnswersInv (execCmdDecodeNext s) :=
  .ite (.next (h.badCommand _)) (.ite (.next (h.then_eq rfl)) ((decodePicture_keepsInv h).finish fun _ _ => rfl))

theorem execCmdGetFrame_answersInv {s : State} (h : StepInv s) : AnswersInv (execCmdGetFrame s) :=
  .ite (.next (h.then_eq rfl)) (.next (h.badCommand _))

theorem execCmdClose_answersInv {s : State} (h : StepInv s) : AnswersInv (execCmdClose s) :=
  .ite (.next (h.badCommand _)) (.next h.afterClose)

theorem execScSlice_answersInv (r : BitVec 8) {s : State} (h : StepInv s) : AnswersInv (execScSlice r s) := by
  have code := h.consumeBits 32 le_rfl
  exact .ite (((sliceBody_keeps _ _ code.decoding).inv code).finish fun _ _ => rfl)
    (.next ((code.framingEvent _).deliver _))

theorem execLoadIntraQuantizerMatrix_answersInv (l : Bool) {s : State} (h : StepInv s) :
    AnswersInv (execLoadIntraQuantizerMatrix l s) := by
  cases l <;> exact .next (h.consumed (n := 1) (by norm_num) rfl)

theorem execLoadNonIntraQuantizerMatrix_answersInv (l : Bool) {s : State} (h : StepInv s) :
    AnswersInv (execLoadNonIntraQuantizerMatrix l s) := by
  cases l <;> exact .next (h.consumed (n := 1) (by norm_num) rfl)

theorem execMotionResidual_answersInv (n : BitVec 3) (r : BitVec 6) {s : State} (h : StepInv s) :
    AnswersInv (execMotionResidual n r s) := by
  have bits := h.consumeBits n.toNat (by omega)
  exact .ite (.next (bits.deliver _)) (.next (bits.deliver _))

theorem execPbmAlloc_answersInv (cols rows : BitVec 8) {s : State} (h : StepInv s) : AnswersInv (execPbmAlloc cols rows s) :=
  (allocate_keepsInv h (by omega) (by omega)).finish fun _ _ => rfl

/-- What every well-formed instruction answers. The cases that are not named, most fields and all code words but the two
escapes, consume up to 32 bits and write registers that the invariant does not speak of. -/
theorem exec_answersInv {i : Instr} (check : i.check = true) {s : State} (h : StepInv s) : AnswersInv (exec i s) := by
  have decoding := h.decoding
  have reader := h.reader
  have code := h.consumeBits 32 le_rfl
  cases i with
  | cmdOpen cfg => exact execCmdOpen_answersInv cfg h
  | cmdReset => exact execCmdReset_answersInv h
  | cmdDecodeNext => exact execCmdDecodeNext_answersInv h
  | cmdGetFrame => exact execCmdGetFrame_answersInv h
  | cmdClose => exact execCmdClose_answersInv h
  | cmdUndefined c => exact .next (h.badCommand _)
  | scPicture => exact ((pictureHeader_heads code.reader).inv code).finish fun _ _ => rfl
  | scSlice r => exact execScSlice_answersInv r h
  | scSequenceHeader => exact ((sequenceHeader_heads code.reader).inv code).finish fun _ _ => rfl
  | scSequenceEnd => exact .next ((code.setHpState _).deliver _)
  | scGroup => exact .next (((code.headerTo (gopHeader_headerTo code.reader)).setHpState _).deliver _)
  | scUnrecognised x => exact .next ((code.framingEvent _).deliver _)
  | horizontalSize v | verticalSize v | aspectRatioCode v | frameRateCode v | bitRateValue v | vbvBufferSize v
  | constrainedParametersFlag v => exact .next (h.sequenceField (by norm_num) rfl)
  | loadIntraQuantizerMatrix l => exact execLoadIntraQuantizerMatrix_answersInv l h
  | loadNonIntraQuantizerMatrix l => exact execLoadNonIntraQuantizerMatrix_answersInv l h
  | sequenceHeaderSkip x => exact .next (code.consumed (n := 30) (by norm_num) rfl)
  | sliceQuantizerScale q | macroblockQuantizerScale q => exact (scaleField_keepsInv _ _ h).finish fun _ _ => rfl
  | motionResidual n r => exact execMotionResidual_answersInv n r h
  | dctDcDifferential n d => exact .next (h.consumed (n := n.toNat) (by omega) rfl)
  | brReset => exact .next ((h.setReader (reader.reset ▸ Reader.atBit_inStep _ _)).deliver _)
  | brPeek n => exact .ite (.next (h.deliver _)) (answersInv_refused _)
  | brConsume n =>
    rw [execBrConsume_eq reader (by simpa [Instr.check] using check)]
    exact .next ((h.ahead n.toNat).deliver _)
  | brRefill => exact .next ((h.setReader (reader.refill.symm ▸ reader)).deliver _)
  | brGet n =>
    rw [execBrGet_eq reader (by simpa [Instr.check] using check)]
    exact .next ((h.ahead n.toNat).deliver _)
  | brAlignSc => exact ((State.align_keeps reader).inv h).finish fun _ _ => rfl
  | vldCode t => exact ((vlcSymbol_keeps t decoding).inv h).finish fun _ _ => rfl
  | vldMbaInc => exact (((mbaIncrement_meets decoding).keeps fun _ _ p => p.2).inv h).finish fun _ _ => rfl
  | vldMbtype => exact ((macroblockType_keeps decoding).inv h).finish fun _ _ => rfl
  | vldCbp => exact ((codedPattern_keeps decoding).inv h).finish fun _ _ => rfl
  | vldMotionCode => exact (((motionCode_meets decoding).keeps fun _ _ p => p.2.2).inv h).finish fun _ _ => rfl
  | vldDcDiff b => exact (((dcDiff_meets b decoding).keeps fun _ _ p => p.2.2).inv h).finish fun _ _ => rfl
  | vldCoef first => exact (((coef_meets first decoding).keeps fun _ _ p => p.2).inv h).finish fun _ _ => rfl
  | vldEscape => exact (((escape_meets reader).keeps fun _ _ p => p.2).inv h).finish fun _ _ => rfl
  | iqIntraDc b => exact ((intraDc_decodes b decoding).keeps.inv h).finish fun _ _ => rfl
  | mvrDecode d c n fullPel =>
    have range : n.toNat ≤ 6 := by simpa [Instr.check] using check
    exact ((decodeComponent_decodes d c range fullPel decoding).keeps.inv h).finish fun _ _ => rfl
  | hpiForm ref mbX mbY dx dy | hpiFormAvg ref mbX mbY dx dy =>
    exact ((predict_keeps reader _ ref _ _ _ _).inv h).finish fun _ _ => rfl
  | mbtPutIntra b mbX mbY | mbtAddInter b mbX mbY => exact ((tile_keeps reader _ b _ _).inv h).finish fun _ _ => rfl
  | mbtSkipP a => exact ((skipP_keeps reader _).inv h).finish fun _ _ => rfl
  | mbtSkipB a => exact ((skipB_keeps reader _).inv h).finish fun _ _ => rfl
  | seqNextHeader => exact ((nextHeader_heads reader).inv h).finish fun _ _ => rfl
  | seqSequenceHeader => exact ((sequenceHeader_heads reader).inv h).finish fun _ _ => rfl
  | seqGopHeader => exact .next ((h.headerTo (gopHeader_headerTo reader)).deliver _)
  | seqPictureHeader => exact ((pictureHeader_heads reader).inv h).finish fun _ _ => rfl
  | seqPictureData => exact (pictureData_keepsInv h).finish fun _ _ => rfl
  | seqSlice total => exact ((sliceDecode_keeps _ decoding).inv h).finish fun _ _ => rfl
  | seqMacroblock => exact ((macroblock_keeps decoding).inv h).finish fun _ _ => rfl
  | seqIntraBlock b => exact ((intraBlock_decodes b decoding).keeps.inv h).finish fun _ _ => rfl
  | seqInterBlock b => exact ((interBlock_decodes b decoding).keeps.inv h).finish fun _ _ => rfl
  | pbmAlloc cols rows => exact execPbmAlloc_answersInv cols rows h
  | pbmRotateRef => exact .next (h.rotateRef.deliver _)
  | pbmSelectAux => exact .next (h.selectAux.deliver _)
  | iqIntraAc _ _ _ | iqInter _ _ _ | iqOddsat _ | idctRow _ _ | idctCol _ _ | idctBlock _ | pbmGetFrame =>
    exact .next (h.then_eq rfl)
  | coefEscape20 r l => exact (escapeCoefWord_keepsInv (by norm_num) _ _ h).finish fun _ _ => rfl
  | coefEscape28 r z l => exact (escapeCoefWord_keepsInv (by norm_num) _ _ h).finish fun _ _ => rfl
  | _ => exact .next (h.consumed (by norm_num) rfl)

/-! ### Steps -/

theorem nextCommand_check {bytes rest : List Byte} {i : Instr} (h : nextCommand bytes = some (i, rest)) :
    i.check = true := by
  unfold nextCommand at h
  split at h
  · cases h
  · split at h
    · cases h
    · obtain ⟨j, hj, e⟩ := Option.map_eq_some_iff.1 h
      cases e
      exact (decode_reads hj).check
  · obtain ⟨j, hj, e⟩ := Option.map_eq_some_iff.1 h
    cases e
    exact (decode_reads hj).check

theorem BenchItem.fetch_check {item : BenchItem} {s : State} {i : Instr} (h : item.fetch s = some i) : i.check = true := by
  unfold BenchItem.fetch at h
  split at h
  · cases h
  · exact (decode_reads h).check

theorem noInstruction_answersInv (item : BenchItem) {s : State} (h : StepInv s) : AnswersInv (noInstruction item s) := by
  cases item with
  | vlc p => exact .next (h.faultEntry _ _)
  | unitOp bytes => exact answersInv_refused _
  | startCode => exact answersInv_refused _
  | field f => exact answersInv_refused _

theorem runBenchItem_answersInv (item : BenchItem) (rest : List BenchItem) {s : State} (h : StepInv s) :
    AnswersInv (runBenchItem item rest s) := by
  have taken : StepInv { s with bench := rest } := h.then_eq rfl
  unfold runBenchItem
  split
  next i fetched => exact exec_answersInv (BenchItem.fetch_check fetched) taken
  next => exact noInstruction_answersInv item taken

theorem runCommand_answersInv {s : State} (h : StepInv s) : AnswersInv (runCommand s) := by
  unfold runCommand
  split
  next i rest fetched => exact exec_answersInv (nextCommand_check fetched) (h.then_eq rfl)
  next => exact .next h

/-- Settles O59: by what a step runs, a well-formed instruction, a fault entry or nothing. -/
theorem stepKeepsInvariant : Obligations.StepKeepsInvariant := by
  intro s t h next
  unfold step at next
  split at next
  · exact runBenchItem_answersInv _ _ h t next
  · exact runCommand_answersInv h t next

end Sys2Proof.Machine

/-!
PROOF. The header parser (42_header_parser.md R200 to R212): what each field, start code and header does to a state whose reader
is in step, and one turn of the search for the next picture, which does not depend on the bound of its loop. The two theorems
with a prime bear the name of their obligation, which without it is an operation of the model.
-/

namespace Sys2Proof.Machine

/-! ### Fields -/

theorem skipField_eq {s : State} (h : s.br.InStep) {n : Nat} (hn : n ≤ 32) :
    skipField n s = (s.ahead n).answering .nothing := by
  rw [skipField, State.consumeBits_eq h n hn]
  rfl

theorem pictureField_eq {s : State} (h : s.br.InStep) {n : Nat} (hn : n ≤ 32) (f : PictureRegs → PictureRegs) :
    pictureField n f s = { s.ahead n with pic := f s.pic }.answering .nothing := by
  rw [pictureField, State.consumeBits_eq h n hn]
  rfl

/-- A field of the sequence header, by whether the sequence is known (10_state.md R40). -/
theorem sequenceField_eq {s : State} (h : s.br.InStep) {n : Nat} (hn : n ≤ 32) (f : SequenceRegs → SequenceRegs) :
    sequenceField n f s = { s.ahead n with seq := if s.seq.seqKnown then s.seq else f s.seq }.answering .nothing := by
  unfold sequenceField
  split
  · exact skipField_eq h hn
  · rw [State.consumeBits_eq h n hn]
    rfl

/-- The 62 bits of a repeated header, more than one `consumeBits` takes (R209). -/
theorem State.consumeBits_62 {s : State} (h : s.br.InStep) : (s.consumeBits 32).consumeBits 30 = s.ahead 62 := by
  rw [State.consumeBits_eq h 32 le_rfl, State.consumeBits_eq (s.ahead_inStep 32) 30 (by norm_num), State.ahead_ahead]

/-- Settles O14: each field is a skipped one, one of the sequence header or one of the picture header. -/
theorem headerFields : Obligations.HeaderFields := by
  intro s h
  have next {t u : State} (e : t = u) : (.next t : Host.Outcome State Fault Refusal) = .next u := congrArg _ e
  have sequence {n : Nat} (hn : n ≤ 32) f := next (sequenceField_eq h hn f)
  have picture {n : Nat} (hn : n ≤ 32) f := next (pictureField_eq h hn f)
  refine ⟨?_, fun v => sequence (by norm_num) _, fun v => sequence (by norm_num) _, fun v => sequence (by norm_num) _,
    fun v => sequence (by norm_num) _, fun v => sequence (by norm_num) _, fun v => sequence (by norm_num) _,
    fun v => sequence (by norm_num) _, fun v => picture (by norm_num) _, fun v => picture (by norm_num) _,
    fun v => picture (by norm_num) _, fun v => picture (by norm_num) _, fun v => picture (by norm_num) _⟩
  rintro i n (⟨m, rfl, rfl⟩ | ⟨x, rfl, rfl⟩ | ⟨t, rfl, rfl⟩ | ⟨t, rfl, rfl⟩ | ⟨d, rfl, rfl⟩ | ⟨e, rfl, rfl⟩ |
    ⟨e, rfl, rfl⟩ | ⟨rfl, rfl⟩ | ⟨rfl, rfl⟩)
  case inr.inl =>
    rw [← State.consumeBits_62 h]
    rfl
  all_goals exact next (skipField_eq h (by norm_num))

/-- An entry of a matrix, stored at the raster position of its number; every other entry is kept (R210). -/
theorem State.storeEntry_get (s : State) (m : Vector Byte 64) (i : Nat) (q : Byte) (k : Nat) :
    (m.setIfInBounds (s.zigzag i) q)[k]? = if k = s.zigzag i then some q else m[k]? := by
  rw [Vector.getElem?_setIfInBounds]
  by_cases e : k = s.zigzag i
  · rw [if_pos e.symm, if_pos (s.zigzag_lt i), if_pos e]
  · rw [if_neg (Ne.symm e), if_neg e]

/-- Settles O15: a flag writes the default or nothing, an entry its own place. -/
theorem matrixFields : Obligations.MatrixFields := by
  intro s h
  have flag := State.consumeBits_eq h 1 (by norm_num)
  have entry := State.consumeBits_eq h 8 (by norm_num)
  refine ⟨fun l => ⟨if l then s.qi else s.params.defIntra, ?_, rfl⟩,
    fun l => ⟨if l then s.qn else Vector.replicate 64 16, ?_, rfl⟩,
    fun q => ⟨_, ?_, fun k _ => State.storeEntry_get s s.qi _ q k⟩,
    fun q => ⟨_, ?_, fun k _ => State.storeEntry_get s s.qn _ q k⟩⟩
  · cases l <;> (rw [← flag]; rfl)
  · cases l <;> (rw [← flag]; rfl)
  · rw [← entry]
    rfl
  · rw [← entry]
    rfl

/-! ### Start codes without a header, group and picture headers -/

theorem gopHeader_eq {s : State} (h : s.br.InStep) : gopHeader s = s.ahead 27 := State.consumeBits_eq h 27 (by norm_num)

/-- Settles O18: each is its bits and one write. -/
theorem startCodesWithoutFields : Obligations.StartCodesWithoutFields := by
  intro s h
  have code := State.consumeBits_eq h 32 le_rfl
  have group : gopHeader (s.consumeBits 32) = s.ahead 59 := by
    rw [code, gopHeader_eq (s.ahead_inStep 32), State.ahead_ahead]
  refine ⟨?_, ?_, ?_, ?_⟩
  · rw [← code]
    rfl
  · rw [← group]
    rfl
  · rw [← gopHeader_eq h]
    rfl
  · rintro i x (rfl | ⟨rfl, outside⟩)
    · rw [← code]
      rfl
    · rw [← code]
      exact if_neg outside

theorem State.pictureRegs_ahead (s : State) (n o : Nat) : (s.ahead n).pictureRegs o = s.pictureRegs (n + o) := by
  simp only [State.pictureRegs, State.ahead_upcoming, State.ahead_pic, Nat.add_assoc]

/-- `pictureHeader()` over `m` bytes of extra information (R212). -/
theorem pictureHeader_eq {s : State} (h : s.br.InStep) {m : Nat}
    (extra : ExtraBytes s.br.source (s.br.bitpos + pictureFieldBits (s.upcoming 10 3)) m) :
    pictureHeader s = .ok () { s.ahead (pictureFieldBits (s.upcoming 10 3) + 9 * m + 1) with pic := s.pictureRegs 0 } := by
  rw [pictureHeader, pictureFields_eq h,
    State.skipExtra_eq (s := { s.ahead (pictureFieldBits (s.upcoming 10 3)) with pic := s.pictureRegs 0 })
      (Reader.atBit_inStep _ _) extra]
  simp only [State.ahead, Reader.atBit_source, Reader.atBit_bitpos, Nat.add_assoc]

/-- Settles O19: the header's fields and extra information, the start code shifting both by its 32 bits. -/
theorem pictureHeader' : Obligations.PictureHeader := by
  intro s m h
  refine ⟨fun extra => congrArg (Res.finish · noResult) (pictureHeader_eq h extra), fun extra => ?_⟩
  have header := pictureHeader_eq (m := m) (s.ahead_inStep 32) (by simpa using extra)
  rw [State.ahead_ahead, State.ahead_upcoming, State.pictureRegs_ahead, ← Nat.add_assoc, ← Nat.add_assoc,
    ← State.consumeBits_eq h 32 le_rfl] at header
  exact congrArg (Res.finish · fun _ t => (t.setHpState .pictureReady).deliver (.header .picture)) header

/-! ### Sequence headers -/

theorem State.sequenceRegs_ahead (s : State) (n o : Nat) : (s.ahead n).sequenceRegs o = s.sequenceRegs (n + o) := by
  simp only [State.sequenceRegs, State.ahead_upcoming, State.ahead_seq, Nat.add_assoc]

/-- A sequence header, alone or behind its start code, is `sequenceHeader()` from its first bit on. -/
theorem exec_sequenceHeader {i : Instr} {o : Nat} {s : State} (h : s.br.InStep)
    (place : (i = .seqSequenceHeader ∧ o = 0) ∨ (i = .scSequenceHeader ∧ o = 32)) :
    exec i s = (sequenceHeader (s.ahead o)).finish fun _ t =>
      { t with hpState := if o = 32 then .sequenceSeen else t.hpState }.answering .nothing := by
  rcases place with ⟨rfl, rfl⟩ | ⟨rfl, rfl⟩
  · rw [State.ahead_zero h]
    rfl
  · rw [← State.consumeBits_eq h 32 le_rfl]
    rfl

/-- `sequenceHeader()` while no sequence is known, with legal sizes that the oracle allows (R208, R210). -/
theorem sequenceHeader_loads {s : State} (h : s.Decoding) (unknown : s.seq.seqKnown = false) {width height : Nat}
    (ew : width = s.upcoming 0 12) (eh : height = s.upcoming 12 12) (hw : width ≠ 0) (hh : height ≠ 0)
    (granted : (roundUp16 width, roundUp16 height) ∉ s.allocDenied) :
    ∃ qi qn, s.LeavesMatrix 62 s.params.defIntra qi ∧
      s.LeavesMatrix (62 + s.matrixBits 62) (Vector.replicate 64 16) qn ∧
      sequenceHeader s = .ok () { s.ahead (62 + s.matrixBits 62 + s.matrixBits (62 + s.matrixBits 62)) with
        seq := (s.sequenceRegs 0).known
        frames := some ⟨roundUp16 width, roundUp16 height, s.draws, []⟩
        draws := s.draws + 1
        qi := qi
        qn := qn } := by
  rw [sequenceHeader_first h.reader unknown ew eh, if_neg (not_or.2 ⟨hw, hh⟩), if_neg granted]
  generalize ht : ({ s.ahead 62 with
    seq := (s.sequenceRegs 0).known
    frames := some ⟨roundUp16 width, roundUp16 height, s.draws, []⟩
    draws := s.draws + 1 } : State) = t
  obtain ⟨qi, qn, intra, inter, loads⟩ := loadMatrices_eq (s := t) (ht ▸ ⟨s.ahead_inStep 62, h.params⟩)
  have leaves : ∀ o d m, t.LeavesMatrix o d m ↔ s.LeavesMatrix (62 + o) d m :=
    fun o d m => ht ▸ State.leavesMatrix_ahead (s := s)
  have bits : ∀ o, t.matrixBits o = s.matrixBits (62 + o) := fun o => ht ▸ State.matrixBits_ahead (s := s)
  simp only [leaves, bits, Nat.add_zero] at intra inter loads
  refine ⟨qi, qn, ?_, inter, ?_⟩
  · rw [← ht] at intra
    exact intra
  · rw [loads, ← ht]
    simp only [State.ahead, Reader.atBit_source, Reader.atBit_bitpos, Nat.add_assoc]

/-- Settles O20: the three ways through `sequenceHeader()` while no sequence is known. -/
theorem firstSequenceHeader' : Obligations.FirstSequenceHeader := by
  intro i s o w h decoding unknown place ew eh
  have reader := s.ahead_inStep o
  have width : w = (s.ahead o).upcoming 0 12 := by rw [State.ahead_upcoming]; exact ew
  have height : h = (s.ahead o).upcoming 12 12 := by rw [State.ahead_upcoming]; exact eh
  have header := sequenceHeader_first reader unknown width height
  rw [State.ahead_ahead, State.sequenceRegs_ahead, Nat.add_zero] at header
  rw [exec_sequenceHeader decoding.reader place]
  refine ⟨fun hw hh granted => ?_, fun zero => ?_, fun hw hh denied => ?_⟩
  · obtain ⟨qi, qn, intra, inter, loads⟩ :=
      sequenceHeader_loads ⟨reader, decoding.params⟩ unknown width height hw hh granted
    rw [State.leavesMatrix_ahead] at intra inter
    simp only [State.matrixBits_ahead, State.ahead_ahead, State.sequenceRegs_ahead, Nat.add_zero, ← Nat.add_assoc]
      at intra inter loads
    exact ⟨qi, qn, intra, inter, by rw [loads]; rfl⟩
  · rw [header, if_pos zero]
    rfl
  · rw [header, if_neg (not_or.2 ⟨hw, hh⟩)]
    exact congrArg (Res.finish · _) (if_pos denied)

/-- Settles O21: 62 bits passed over and both matrices loaded. -/
theorem repeatedSequenceHeader : Obligations.RepeatedSequenceHeader := by
  intro i s o decoding known place
  obtain ⟨qi, qn, intra, inter, loads⟩ :=
    sequenceHeader_repeated (s := s.ahead o) ⟨s.ahead_inStep o, decoding.params⟩ known
  rw [State.leavesMatrix_ahead] at intra inter
  simp only [State.matrixBits_ahead, State.ahead_ahead, ← Nat.add_assoc] at intra inter loads
  refine ⟨qi, qn, intra, inter, ?_⟩
  rw [exec_sequenceHeader decoding.reader place, loads]
  rfl

/-! ### The search -/

/-- What the search does behind a start code `code`: it ends, or goes on by `search` (R202 to R206). -/
def afterStartCode (search : State → Res HeaderEnd) (code : Nat) (u : State) : Res HeaderEnd :=
  if code = 0x1B3 then (sequenceHeader u).bind fun _ t => search (t.setHpState .sequenceSeen)
  else if code = 0x1B8 then search ((gopHeader u).setHpState .gopSeen)
  else if code = 0x100 then (pictureHeader u).bind fun _ t => .ok .picture (t.setHpState .pictureReady)
  else if code = 0x1B7 then .ok .endOfSequence (u.setHpState .sequenceEnded)
  else search (u.framingEvent code)

section
variable (search : State → Res HeaderEnd) (u : State)

theorem afterStartCode_sequence : afterStartCode search 0x1B3 u =
    (sequenceHeader u).bind fun _ t => search (t.setHpState .sequenceSeen) := rfl

theorem afterStartCode_group : afterStartCode search 0x1B8 u = search ((gopHeader u).setHpState .gopSeen) := rfl

theorem afterStartCode_picture : afterStartCode search 0x100 u =
    (pictureHeader u).bind fun _ t => .ok .picture (t.setHpState .pictureReady) := rfl

theorem afterStartCode_end : afterStartCode search 0x1B7 u = .ok .endOfSequence (u.setHpState .sequenceEnded) := rfl

theorem afterStartCode_event {code : Nat} (other : code ∉ [0x100, 0x1B3, 0x1B7, 0x1B8]) :
    afterStartCode search code u = search (u.framingEvent code) := by
  simp only [List.mem_cons, List.not_mem_nil, or_false, not_or] at other
  obtain ⟨picture, sequence, ended, group⟩ := other
  rw [afterStartCode, if_neg sequence, if_neg group, if_neg picture, if_neg ended]

end

/-- One turn of the loop, from the first start code on. -/
theorem nextHeaderFrom_succ {s : State} (h : s.br.InStep) {k : Nat} (hk : FirstPrefix s.br.source s.br.bitpos k)
    (fuel : Nat) : nextHeaderFrom (fuel + 1) s =
      afterStartCode (nextHeaderFrom fuel) (streamBits s.br.source (8 * k) 32) ((s.atByte k).ahead 32) := by
  have read := State.getBits_eq (s := s.atByte k) (Reader.atBit_inStep _ _) 32 le_rfl
  rw [nextHeaderFrom, resynchronise, State.align_eq h hk, Res.bind_ok]
  change afterStartCode (nextHeaderFrom fuel) ((s.atByte k).getBits 32).1 ((s.atByte k).getBits 32).2 = _
  rw [read]
  rfl

/-- Two ways to go on agree behind a start code that does not end the sequence, if they agree wherever a header or an event
leads to. -/
theorem afterStartCode_congr {search other : State → Res HeaderEnd} {code : Nat} {u : State} (h : u.br.InStep)
    (same : code ≠ 0x1B7 → ∀ t, u.HeaderTo t → search t = other t) :
    afterStartCode search code u = afterStartCode other code u := by
  unfold afterStartCode
  split
  next e =>
    have heads := sequenceHeader_heads h
    cases hu : sequenceHeader u with
    | ok a t =>
      rw [hu] at heads
      obtain ⟨reach, -⟩ := heads
      exact same (by omega) _ (reach.trans (State.headerTo_setHpState reach.inStep _))
    | raised c info t => rfl
    | stop e => rfl
  next =>
    split
    next e =>
      have reach := gopHeader_headerTo h
      exact same (by omega) _ (reach.trans (State.headerTo_setHpState reach.inStep _))
    next =>
      split
      · rfl
      · split
        · rfl
        next other => exact same other _ (State.headerTo_framingEvent h code)

/-- The bound of the search allows a turn for every bit from the cursor to the end of the source. -/
def BoundsSearch (fuel : Nat) (s : State) : Prop := 0 < fuel ∧ 8 * s.br.source.length < fuel + s.br.bitpos

theorem boundsSearch_loopBound (s : State) : BoundsSearch s.br.loopBound s := by
  unfold BoundsSearch Reader.loopBound
  omega

/-- A bound is left for what follows a turn that goes on: its start code lies before the end of the source, behind which the
fill has end codes only. -/
theorem BoundsSearch.next {fuel k : Nat} {s t : State} (b : BoundsSearch (fuel + 1) s)
    (hk : FirstPrefix s.br.source s.br.bitpos k) (goesOn : streamBits s.br.source (8 * k) 32 ≠ 0x1B7)
    (reach : ((s.atByte k).ahead 32).HeaderTo t) : BoundsSearch fuel t := by
  have inside : k < s.br.source.length := by
    by_contra past
    exact goesOn (startCode_in_fill s.br.source hk.2.1 (by omega))
  have from_k : s.br.bitpos ≤ 8 * k := hk.1
  have onward : 8 * k + 32 ≤ t.br.bitpos := reach.onward
  have source : t.br.source = s.br.source := reach.source
  unfold BoundsSearch at b ⊢
  rw [source]
  omega

/-- The search does not depend on its bound, where that suffices (70_reset_and_hazards.md R490). -/
theorem nextHeaderFrom_bound (m : Nat) : ∀ (n : Nat) (s : State), s.br.InStep → BoundsSearch m s → BoundsSearch n s →
    nextHeaderFrom m s = nextHeaderFrom n s := by
  induction m with
  | zero => intro n s _ hm; exact absurd hm.1 (by omega)
  | succ m ih =>
    intro n s h hm hn
    obtain ⟨n, rfl⟩ := Nat.exists_eq_succ_of_ne_zero hn.1.ne'
    obtain ⟨k, hk, -⟩ := exists_firstPrefix s.br.source s.br.bitpos
    rw [nextHeaderFrom_succ h hk, nextHeaderFrom_succ h hk]
    exact afterStartCode_congr (State.ahead_inStep _ 32) fun goesOn t reach =>
      ih n t reach.inStep (hm.next hk goesOn reach) (hn.next hk goesOn reach)

/-- `nextHeader()` from the first start code on, without a bound (R200). -/
theorem nextHeader_eq {s : State} (h : s.br.InStep) {k : Nat} (hk : FirstPrefix s.br.source s.br.bitpos k) :
    nextHeader s = afterStartCode nextHeader (streamBits s.br.source (8 * k) 32) ((s.atByte k).ahead 32) := by
  have b := boundsSearch_loopBound s
  unfold nextHeader
  obtain ⟨n, e⟩ := Nat.exists_eq_succ_of_ne_zero b.1.ne'
  rw [e] at b ⊢
  rw [nextHeaderFrom_succ h hk]
  exact afterStartCode_congr (State.ahead_inStep _ 32) fun goesOn t reach =>
    nextHeaderFrom_bound n _ t reach.inStep (b.next hk goesOn reach) (boundsSearch_loopBound t)

/-- Settles O46: the turn behind each start code. -/
theorem headerSearch : Obligations.HeaderSearch := by
  rintro s u k code h hk rfl rfl
  set code := streamBits s.br.source (8 * k) 32
  set u := (s.atByte k).ahead 32
  have reader : u.br.InStep := State.ahead_inStep _ 32
  have turn : exec .seqNextHeader s = (afterStartCode nextHeader code u).finish fun e t => t.deliver (.header e) :=
    congrArg (Res.finish · fun e t => t.deliver (.header e)) (nextHeader_eq h hk)
  rw [turn]
  refine ⟨fun e => ?_, fun e m extra => ?_, fun e => ?_, fun e t ok => ?_, fun e c info t raised => ?_, fun other => ?_⟩
  · rw [e, afterStartCode_end]
    rfl
  · rw [e, afterStartCode_picture, pictureHeader_eq reader extra]
    rfl
  · rw [e, afterStartCode_group, gopHeader_eq reader]
    rfl
  · rw [e, afterStartCode_sequence, ok]
    rfl
  · rw [e, afterStartCode_sequence, raised]
    rfl
  · rw [afterStartCode_event _ _ other]
    rfl

/-- Settles O51: the search ends at the end code, and in `SEQUENCE_ENDED` there is none. -/
theorem decodeNextAtTheEnd : Obligations.DecodeNextAtTheEnd := by
  refine ⟨fun s k opened going h hk endCode => ?_, fun s opened ended => ?_⟩
  · have search := nextHeader_eq h hk
    rw [endCode, afterStartCode_end] at search
    have picture : decodePicture s = .ok () ((((s.atByte k).ahead 32).setHpState .sequenceEnded).setRet .eof) := by
      rw [decodePicture, search]
      rfl
    change execCmdDecodeNext s = _
    rw [execCmdDecodeNext, if_neg (not_not.2 opened), if_neg going, picture]
    rfl
  · exact (if_neg (not_not.2 opened)).trans (if_pos ended)

end Sys2Proof.Machine

/-!
PROOF. The elements of a macroblock as single steps (43_macroblock_decoder.md R232, R235, R241, R243, R246; 46_motion_vectors.md
R332): the scale fields, the address increment, the macroblock type, the coded block pattern and the motion code.
-/

namespace Sys2Proof.Machine

/-! ### Code words -/

/-- Where no entry of a table begins the upcoming bits, `vlc(T)` raises (44_vlc_decoder.md R270). -/
theorem vlc_of_none {α : Type} {rows : List (Row α)} (pc : PrefixCode rows) (t : Table) {s : State} (h : s.br.InStep)
    (none : ∀ r ∈ rows, s.upcoming 0 r.len ≠ r.bits) : vlc rows t s = .raised .vlcInvalid t.number s := by
  have m := vlc_meets pc t h
  cases hv : vlc rows t s with
  | ok v u =>
    rw [hv] at m
    obtain ⟨r, mem, bits, -⟩ := m
    exact absurd bits (none r mem)
  | raised c i u =>
    rw [hv] at m
    obtain ⟨-, rfl, rfl, rfl⟩ := m
    rfl
  | stop e => rw [hv] at m; exact absurd m id

/-! ### The single steps -/

theorem vldMbaInc_exec (s : State) : exec .vldMbaInc s = (mbaIncrement s).finish fun n s => s.deliver (.increment n) := rfl

theorem vldCbp_exec (s : State) : exec .vldCbp s = (codedPattern s).finish fun v s => s.deliver (.symbol (.cbp v)) := rfl

theorem vldMotionCode_exec (s : State) :
    exec .vldMotionCode s = (motionCode s).finish fun v s => (s.latchMotionCode v).deliver (.motion v) := rfl

/-! ### Scale -/

theorem scaleField_eq {s : State} (h : s.br.InStep) (q : BitVec 5) (info : Nat) :
    scaleField q info s =
      if q = 0 then .raised .qscaleZero info ((s.ahead 5).setQuantizerScale q)
      else .ok () ((s.ahead 5).setQuantizerScale q) := by
  rw [scaleField, State.consumeBits_eq h 5 (by norm_num)]

/-- Settles O16: both fields are `scaleField`, with their own information word. -/
theorem scaleFields : Obligations.ScaleFields := by
  intro s q h
  have field (q : BitVec 5) (info : Nat) := congrArg (Res.finish · noResult) (scaleField_eq h q info)
  refine ⟨fun nonzero => ⟨(field q 0).trans ?_, (field q 1).trans ?_⟩, field 0 0, field 0 1⟩ <;>
    (rw [if_neg nonzero]; rfl)

/-! ### Address increment -/

/-- `mbaIncrement()` behind a run of stuffing and escapes, with the bound that is left for what follows (R235). -/
theorem mbaIncrement_run {s : State} (h : s.Decoding) {run : List (Row MbaSymbol)}
    (codes : ∀ r ∈ run, r ∈ s.params.tables.mba ∧ (r.sym = .stuffing ∨ r.sym = .escape))
    (hold : s.Holds 0 (run.map rowCode)) :
    ∃ fuel, mbaIncrement s = mbaIncrementFrom (fuel + 1) (33 * (run.map Row.sym).count .escape)
      (s.ahead (bitCount (run.map rowCode))) := by
  have short : run.length < s.br.loopBound := by
    unfold Reader.loopBound
    rcases mbaRun_length h run 0 codes hold with rfl | le
    · exact Nat.succ_pos _
    · omega
  obtain ⟨fuel, bound⟩ := Nat.exists_eq_add_of_lt short
  have split : s.br.loopBound = (fuel + 1) + run.length := by omega
  refine ⟨fuel, ?_⟩
  rw [mbaIncrement, split, mbaIncrementFrom_run (fuel + 1) run 0 s h codes hold, Nat.zero_add]

/-- An increment of one code word. -/
theorem mbaIncrement_single {s : State} (h : s.Decoding) {r : Row MbaSymbol} {n : Nat} (mem : r ∈ s.params.tables.mba)
    (sym : r.sym = .increment n) (bits : s.upcoming 0 r.len = r.bits) : mbaIncrement s = .ok n (s.ahead r.len) := by
  obtain ⟨fuel, run⟩ := mbaIncrement_run (run := []) h (by simp) trivial
  simp only [List.map_nil, List.count_nil, bitCount, State.ahead_zero h.reader] at run
  rw [run, mbaIncrementFrom, vlc_of_mem h.tables.mba .mba h.reader mem bits, Res.bind_ok, sym]
  simp

/-- Settles O23: a run leaves the bound of the loop a turn for what follows it. -/
theorem vldMbaInc : Obligations.VldMbaInc := by
  intro s run h codes hold
  obtain ⟨fuel, whole⟩ := mbaIncrement_run h codes hold
  have behind := h.ahead (bitCount (run.map rowCode))
  rw [vldMbaInc_exec, whole, mbaIncrementFrom]
  refine ⟨fun r n mem sym bits => ?_, fun none => ?_⟩
  · rw [vlc_of_mem behind.tables.mba .mba behind.reader mem (by rw [State.ahead_upcoming]; exact bits), Res.bind_ok, sym,
      State.ahead_ahead]
    rfl
  · rw [vlc_of_none behind.tables.mba .mba behind.reader fun r mem => by rw [State.ahead_upcoming]; exact none r mem]
    rfl

/-! ### Macroblock type, coded block pattern, motion code -/

/-- The number of the type table of a picture type (44_vlc_decoder.md R270). -/
theorem State.typeTable_number : ∀ p : BitVec 3, p = 1 ∨ p = 2 ∨ p = 3 →
    (if p = 1 then Table.mbtI else if p = 2 then .mbtP else .mbtB).number = p.toNat + 1 := by decide

theorem State.Decoding.typeTable {s : State} (h : s.Decoding) : PrefixCode s.typeTable := by
  unfold State.typeTable
  split
  · exact h.tables.mbtI
  · split
    · exact h.tables.mbtP
    · exact h.tables.mbtB

/-- `mb_type <- vlc(T)` in a picture with a type table (R241). -/
theorem macroblockType_eq {s : State} (type : s.pic.pictType = 1 ∨ s.pic.pictType = 2 ∨ s.pic.pictType = 3) :
    macroblockType s =
      (vlc s.typeTable (if s.pic.pictType = 1 then .mbtI else if s.pic.pictType = 2 then .mbtP else .mbtB) s).bind
        fun t u => .ok t (u.setMbType t) := by
  unfold macroblockType State.typeTable
  rcases type with e | e | e <;> simp [e]

theorem macroblockType_noTable {s : State} (other : s.pic.pictType ∉ [1, 2, 3]) :
    macroblockType s = .stop .noTypeTable := by
  simp only [List.mem_cons, List.not_mem_nil, or_false, not_or] at other
  obtain ⟨i, p, b⟩ := other
  rw [macroblockType, if_neg i, if_neg p, if_neg b]
  rfl

theorem codedPattern_of_mem {s : State} (h : s.Decoding) {r : Row (BitVec 6)} (mem : r ∈ s.params.tables.cbp)
    (bits : s.upcoming 0 r.len = r.bits) : codedPattern s = .ok r.sym ((s.ahead r.len).setCbp r.sym) := by
  rw [codedPattern, vlc_of_mem h.tables.cbp .cbp h.reader mem bits]
  rfl

theorem codedPattern_of_none {s : State} (h : s.Decoding) (none : ∀ r ∈ s.params.tables.cbp, s.upcoming 0 r.len ≠ r.bits) :
    codedPattern s = .raised .vlcInvalid 5 s := by
  rw [codedPattern, vlc_of_none h.tables.cbp .cbp h.reader none]
  rfl

/-- `motionCode()` (46_motion_vectors.md R332). -/
theorem motionCode_of_mem {s : State} (h : s.Decoding) {r : Row Nat} (mem : r ∈ s.params.tables.motion)
    (bits : s.upcoming 0 r.len = r.bits) : motionCode s =
      if r.sym = 0 then .ok 0 (s.ahead r.len)
      else .ok (applySign (s.upcoming r.len 1 == 1) r.sym) (s.ahead (r.len + 1)) := by
  rw [motionCode, vlc_of_mem h.tables.motion .motion h.reader mem bits, Res.bind_ok,
    State.getBits_eq (s.ahead_inStep r.len) 1 (by norm_num), State.ahead_upcoming, State.ahead_ahead, Nat.add_zero]

theorem motionCode_of_none {s : State} (h : s.Decoding)
    (none : ∀ r ∈ s.params.tables.motion, s.upcoming 0 r.len ≠ r.bits) : motionCode s = .raised .vlcInvalid 6 s := by
  rw [motionCode, vlc_of_none h.tables.motion .motion h.reader none]
  rfl

/-- Settles O24: each reads the one entry that begins the upcoming bits, and raises where there is none. -/
theorem vldMbTypeCbpAndMotionCode : Obligations.VldMbTypeCbpAndMotionCode := by
  refine ⟨fun s h type => ⟨fun r mem bits => ?_, fun none => ?_⟩, fun s other => ?_,
    fun s h => ⟨fun r mem bits => ?_, fun none => ?_⟩, fun s h => ⟨fun r mem bits => ?_, fun none => ?_⟩⟩
  · rw [vldMbtype_exec, macroblockType_eq type, vlc_of_mem h.typeTable _ h.reader mem bits]
    rfl
  · rw [vldMbtype_exec, macroblockType_eq type, vlc_of_none h.typeTable _ h.reader none,
      State.typeTable_number _ type]
    rfl
  · rw [vldMbtype_exec, macroblockType_noTable other]
    rfl
  · rw [vldCbp_exec, codedPattern_of_mem h mem bits]
    rfl
  · rw [vldCbp_exec, codedPattern_of_none h none]
    rfl
  · rw [vldMotionCode_exec, motionCode_of_mem h mem bits]
    by_cases zero : r.sym = 0
    · rw [if_pos zero]
      exact ⟨r.len, 0, rfl, fun _ => ⟨rfl, rfl⟩, fun nonzero => absurd zero nonzero⟩
    · rw [if_neg zero]
      refine ⟨r.len + 1, _, rfl, fun e => absurd e zero, fun _ => ⟨rfl, ?_⟩⟩
      simp only [State.latchMotionCode, applySign, beq_iff_eq]
  · rw [vldMotionCode_exec, motionCode_of_none h none]
    rfl

end Sys2Proof.Machine

/-!
PROOF. Skipped macroblocks (43_macroblock_decoder.md R255, R256) as single steps: in a P-picture a copy of `FWD`, in a B-picture the
prediction that the unit operations form. `FrameStore.Paints` says what writing given values into one macroblock makes of a
store.
-/

namespace Sys2Proof.Machine

/-! ### Painting a macroblock -/

/-- What steps of a fold come to, each of them within `R` and reaching its own aim `Q`, which later steps keep. -/
theorem foldl_reaches {σ β : Type} {R : σ → σ → Prop} {Q : β → σ → Prop} {f : σ → β → σ} (refl : ∀ m, R m m)
    (trans : ∀ {m n k}, R m n → R n k → R m k) (keeps : ∀ {x m n}, R m n → Q x m → Q x n) (l : List β) (m : σ)
    (step : ∀ x ∈ l, ∀ n, R m n → R n (f n x) ∧ Q x (f n x)) : R m (l.foldl f m) ∧ ∀ x ∈ l, Q x (l.foldl f m) := by
  induction l generalizing m with
  | nil => exact ⟨refl m, by simp⟩
  | cons x rest ih =>
    obtain ⟨first, aim⟩ := step x List.mem_cons_self m (refl m)
    obtain ⟨onward, aims⟩ := ih (f m x) fun y hy n reach => step y (List.mem_cons_of_mem x hy) n (trans first reach)
    exact ⟨trans first onward, List.forall_mem_cons.2 ⟨keeps onward aim, aims⟩⟩

/-- `b` is `a` with some samples of macroblock `(mbX, mbY)` of buffer `cur` set to the values `v`. -/
structure FrameStore.Paints (cur : Fin 3) (mbX mbY : Nat) (v : Fin 3 → Nat → Nat → Byte) (a b : FrameStore) : Prop
    extends a.WritesMacroblock b cur mbX mbY where
  values : ∀ d, a.InOrder d → ∀ f p x y, a.inPlane p (x : Nat) (y : Nat) = true →
    b.sample f p x y = a.sample f p x y ∨ f = cur ∧ b.sample f p x y = v p x y

section
variable {cur : Fin 3} {mbX mbY : Nat} {v : Fin 3 → Nat → Nat → Byte}

theorem FrameStore.Paints.refl (a : FrameStore) : a.Paints cur mbX mbY v a := ⟨.refl a cur mbX mbY, fun _ _ _ _ _ _ _ => .inl rfl⟩

theorem FrameStore.Paints.trans {a b c : FrameStore} (h : FrameStore.Paints cur mbX mbY v a b)
    (g : FrameStore.Paints cur mbX mbY v b c) : FrameStore.Paints cur mbX mbY v a c where
  toWritesMacroblock := h.toWritesMacroblock.trans g.toWritesMacroblock
  values d o f p x y hp := by
    rcases g.values d (h.order d o) f p x y (by rw [h.same.inPlane]; exact hp) with e | painted
    · rw [e]
      exact h.values d o f p x y hp
    · exact .inr painted

/-- A sample of the macroblock is written. -/
theorem FrameStore.paints_write {fs : FrameStore} (h : fs.hasMacroblock mbX mbY = true) {p : Fin 3} {x y : Nat}
    (m : inMacroblock p mbX mbY x y) : fs.Paints cur mbX mbY v (fs.write cur p x y (v p x y)) where
  toWritesMacroblock := FrameStore.writesMacroblock_write h cur p m _
  values d o f q u w hq := by
    by_cases same : f = cur ∧ q = p ∧ u = x ∧ w = y
    · obtain ⟨rfl, rfl, rfl, rfl⟩ := same
      exact .inr ⟨rfl, FrameStore.write_sample_same ..⟩
    · exact .inl (FrameStore.write_sample_other o _ (FrameStore.inPlane_of_macroblock h m) hq same)

/-- A sample of `cur` has its value, in a store that is in order. -/
def FrameStore.Painted (cur : Fin 3) (v : Fin 3 → Nat → Nat → Byte) (d : Nat) (p : Fin 3) (x y : Nat) (a : FrameStore) : Prop :=
  a.InOrder d ∧ a.inPlane p x y = true ∧ a.sample cur p x y = v p x y

/-- A painted sample stays so. -/
theorem FrameStore.Paints.keeps {a b : FrameStore} (h : a.Paints cur mbX mbY v b) {d : Nat} {p : Fin 3} {x y : Nat}
    (c : FrameStore.Painted cur v d p x y a) : FrameStore.Painted cur v d p x y b := by
  obtain ⟨o, hp, e⟩ := c
  refine ⟨h.order d o, by rw [h.same.inPlane]; exact hp, ?_⟩
  rcases h.values d o cur p x y hp with kept | ⟨-, painted⟩
  · rw [kept, e]
  · exact painted

/-- While samples of a buffer are copied into `cur`, the buffer itself stays as it was, `cur` or not. -/
theorem FrameStore.Paints.copied {a b : FrameStore} {r : Fin 3} (h : a.Paints cur mbX mbY (a.sample r) b) {d : Nat}
    (o : a.InOrder d) {p : Fin 3} {x y : Nat} (hp : a.inPlane p x y = true) : b.sample r p x y = a.sample r p x y := by
  rcases h.values d o r p x y hp with kept | ⟨-, painted⟩
  · exact kept
  · exact painted

end

theorem mem_area_iff {n i j : Nat} : (i, j) ∈ area n ↔ i < n ∧ j < n := by
  refine ⟨mem_area, fun ⟨hi, hj⟩ => ?_⟩
  simp only [area, List.mem_flatMap, List.mem_range, List.mem_map]
  exact ⟨j, hj, i, hi, rfl⟩

/-- A square is the area of its side, moved to its origin. -/
theorem exists_area {n x0 y0 x y : Nat} (hx : x0 ≤ x ∧ x < x0 + n) (hy : y0 ≤ y ∧ y < y0 + n) :
    ∃ ij ∈ area n, x0 + ij.1 = x ∧ y0 + ij.2 = y :=
  ⟨(x - x0, y - y0), mem_area_iff.2 (by omega), by simp only; omega, by simp only; omega⟩

/-! ### A prediction without a vector -/

/-- Every sample of a macroblock lies in one of the three passes (48_prediction_recon.md R372). -/
theorem planePasses_cover {p : Fin 3} {mbX mbY x y : Nat} (dx dy : Int) (m : inMacroblock p mbX mbY x y) :
    ∃ q ∈ planePasses mbX mbY dx dy, q.plane = p ∧ ∃ ij ∈ area q.size, q.x0 + ij.1 = x ∧ q.y0 + ij.2 = y := by
  unfold inMacroblock at m
  split at m <;> obtain ⟨x0, x1, y0, y1⟩ := m
  next luma =>
    exact ⟨⟨0, 16, 16 * mbX, 16 * mbY, dx, dy⟩, by simp [planePasses], luma.symm, exists_area ⟨x0, x1⟩ ⟨y0, y1⟩⟩
  next chroma =>
    refine ⟨⟨p, 8, 8 * mbX, 8 * mbY, tdiv2 dx, tdiv2 dy⟩, ?_, rfl, exists_area ⟨x0, x1⟩ ⟨y0, y1⟩⟩
    obtain rfl | rfl : p = 1 ∨ p = 2 := by omega
    · simp [planePasses]
    · simp [planePasses]

/-- Without a vector the predicted value is the sample itself, and nothing is drawn (48_prediction_recon.md R371, R374). -/
theorem FrameStore.predicted_still {fs : FrameStore} {q : PlanePass} (vx : q.vx = 0) (vy : q.vy = 0) {i j : Nat}
    (hp : fs.inPlane q.plane (q.x0 + i : Nat) (q.y0 + j : Nat) = true) (par : Config.Params) (d : Nat) (r : Fin 3) (sub : Bool) :
    fs.predicted par d r sub q i j = ((fs.sample r q.plane (q.x0 + i) (q.y0 + j)).toNat, d) := by
  have whole : (sub && oddPart 0) = false := Bool.and_false sub
  have atX : (q.x0 + i + half 0 : Int) = (q.x0 + i : Nat) := by simp [half]
  have atY : (q.y0 + j + half 0 : Int) = (q.y0 + j : Nat) := by simp [half]
  rw [FrameStore.predicted, vx, vy, whole, atX, atY, FrameStore.fetch, FrameStore.read_of_inPlane hp]

section
variable {fs : FrameStore} {d mbX mbY : Nat} {cur r : Fin 3} (par : Config.Params) (sub : Bool)

/-- Part of a copy from buffer `r` of `fs` into a macroblock of `cur`: nothing is drawn. -/
def Copies (fs : FrameStore) (cur r : Fin 3) (mbX mbY : Nat) (m n : FrameStore × Nat) : Prop :=
  m.1.Paints cur mbX mbY (fs.sample r) n.1 ∧ n.2 = m.2

theorem Copies.refl (m : FrameStore × Nat) : Copies fs cur r mbX mbY m m := ⟨.refl _, rfl⟩

theorem Copies.trans {m n k : FrameStore × Nat} (h : Copies fs cur r mbX mbY m n) (g : Copies fs cur r mbX mbY n k) :
    Copies fs cur r mbX mbY m k := ⟨h.1.trans g.1, g.2.trans h.2⟩

variable (o : fs.InOrder d) (fits : fs.hasMacroblock mbX mbY = true)

section
include o fits

/-- One pass of a prediction without a vector copies its area. -/
theorem predictPlane_copies {q : PlanePass} (vx : q.vx = 0) (vy : q.vy = 0)
    (inside : ∀ i j, i < q.size → j < q.size → inMacroblock q.plane mbX mbY (q.x0 + i) (q.y0 + j)) {m : FrameStore × Nat}
    (reach : Copies fs cur r mbX mbY (fs, d) m) :
    Copies fs cur r mbX mbY m (predictPlane par false sub r cur m q) ∧ ∀ ij ∈ area q.size,
      FrameStore.Painted cur (fs.sample r) d q.plane (q.x0 + ij.1) (q.y0 + ij.2) (predictPlane par false sub r cur m q).1 := by
  refine foldl_reaches (Q := fun ij m => FrameStore.Painted cur (fs.sample r) d q.plane (q.x0 + ij.1) (q.y0 + ij.2) m.1)
    Copies.refl Copies.trans (fun reach => reach.1.keeps) (area q.size) m fun ij mem n onward => ?_
  obtain ⟨paints, -⟩ : Copies fs cur r mbX mbY (fs, d) n := reach.trans onward
  obtain ⟨hi, hj⟩ := mem_area mem
  have place := inside _ _ hi hj
  have target : n.1.hasMacroblock mbX mbY = true := by rw [paints.same.hasMacroblock]; exact fits
  have hp := FrameStore.inPlane_of_macroblock target place
  have one : predictSample par false sub r cur q n ij =
      (n.1.write cur q.plane (q.x0 + ij.1) (q.y0 + ij.2) (fs.sample r q.plane (q.x0 + ij.1) (q.y0 + ij.2)), n.2) := by
    rw [predictSample, FrameStore.predicted_still vx vy hp, paints.copied o (FrameStore.inPlane_of_macroblock fits place)]
    simp
  have written : n.1.Paints cur mbX mbY (fs.sample r) (predictSample par false sub r cur q n ij).1 := by
    rw [one]
    exact FrameStore.paints_write target place
  refine ⟨⟨written, by rw [one]⟩, written.order d (paints.order d o), ?_, ?_⟩
  · rw [written.same.inPlane]
    exact hp
  · rw [one]
    exact FrameStore.write_sample_same ..

/-- All passes of a prediction without a vector copy the macroblock. -/
theorem predictPlanes_copy : ∃ gs,
    (planePasses mbX mbY 0 0).foldl (predictPlane par false sub r cur) (fs, d) = (gs, d) ∧
      fs.Paints cur mbX mbY (fs.sample r) gs ∧
      ∀ p x y, inMacroblock p mbX mbY x y → gs.sample cur p x y = fs.sample r p x y := by
  have still : ∀ q ∈ planePasses mbX mbY 0 0, q.vx = 0 ∧ q.vy = 0 := by simp [planePasses, tdiv2]
  obtain ⟨⟨paints, draws⟩, copied⟩ := foldl_reaches (f := predictPlane par false sub r cur)
    (Q := fun q m => ∀ ij ∈ area q.size, FrameStore.Painted cur (fs.sample r) d q.plane (q.x0 + ij.1) (q.y0 + ij.2) m.1)
    Copies.refl Copies.trans (fun reach all => by exact fun ij mem => reach.1.keeps (all ij mem)) (planePasses mbX mbY 0 0) (fs, d)
    fun q mem m reach =>
      predictPlane_copies par sub o fits (still q mem).1 (still q mem).2 (planePasses_fit mbX mbY 0 0 q mem) reach
  generalize (planePasses mbX mbY 0 0).foldl _ (fs, d) = m at paints draws copied ⊢
  obtain ⟨gs, e⟩ := m
  obtain rfl : e = d := draws
  refine ⟨gs, rfl, paints, fun p x y place => ?_⟩
  obtain ⟨q, mem, rfl, ij, inArea, rfl, rfl⟩ := planePasses_cover 0 0 place
  exact (copied q mem ij inArea).2.2

end

end

/-! ### Positions and predictions on the whole state -/

/-- The position of an address: that of the grid, or a free one, which is drawn (10_state.md R28). -/
theorem State.gridPosition_eq {s t : State} {a X Y : Nat} (h : s.gridPosition a = ((X, Y), t)) :
    (s.seq.mbCols ≠ 0 → X = a % s.seq.mbCols ∧ Y = a / s.seq.mbCols ∧ t = s) ∧ s.draws ≤ t.draws ∧
      t = { s with draws := t.draws } := by
  unfold State.gridPosition at h
  split at h
  next zero =>
    obtain ⟨-, rfl⟩ := Prod.mk.inj h
    exact ⟨fun cols => absurd zero cols, Nat.le_succ _, rfl⟩
  next =>
    obtain ⟨pos, rfl⟩ := Prod.mk.inj h
    obtain ⟨rfl, rfl⟩ := Prod.mk.inj pos
    exact ⟨fun _ => ⟨rfl, rfl, rfl⟩, le_rfl, rfl⟩

/-- `formPrediction` without a vector copies the macroblock of the reference (48_prediction_recon.md R388). -/
theorem formPrediction_still {s : State} {fs : FrameStore} {cur : Fin 3} {mbX mbY : Nat} (h : s.Targets fs cur mbX mbY)
    (o : fs.InOrder s.draws) (ref : Direction) :
    ∃ gs, formPrediction ref mbX mbY ⟨0, 0⟩ s = .ok () { s with frames := some gs } ∧
      fs.Paints cur mbX mbY (fs.sample (s.reference ref)) gs ∧
      ∀ p x y, inMacroblock p mbX mbY x y → gs.sample cur p x y = fs.sample (s.reference ref) p x y := by
  obtain ⟨gs, fold, paints, copied⟩ :=
    predictPlanes_copy (cur := cur) (r := s.reference ref) s.params s.reconSubpixel o h.hasMacroblock
  refine ⟨gs, ?_, paints, copied⟩
  rw [formPrediction, predict, State.withTarget_eq h]
  simp only [Bool.false_eq_true, if_false, fold]

/-- Settles O39: the copy of the reference where the grid, or a free value, puts the macroblock. -/
theorem skippedMacroblockInP : Obligations.SkippedMacroblockInP := by
  intro s t fs cur a X Y inv position target
  obtain ⟨grid, later, only⟩ := State.gridPosition_eq position
  have reset : t.clearDcPred.clearForwardPmv.Targets fs cur X Y := by
    rw [only]
    exact target
  obtain ⟨gs, formed, paints, copied⟩ := formPrediction_still reset ((inv.frames fs target.1).later later) .forward
  refine ⟨grid, gs, ?_, paints.same, paints.outside s.draws (inv.frames fs target.1), ?_⟩
  · change (skipP a.toNat s).finish noResult = _
    rw [skipP, position]
    simp only [formed]
    rw [only]
    rfl
  · rw [only] at copied
    exact copied

/-! ### Skipped macroblocks of B-pictures -/

/-- A result delivered before a prediction does not touch it. -/
theorem predict_deliver {s : State} {fs : FrameStore} {cur : Fin 3} {mbX mbY : Nat} (h : s.Targets fs cur mbX mbY) (v : Result)
    (avg : Bool) (ref : Direction) (dx dy : Int) :
    predict avg ref mbX mbY dx dy (s.deliver v) =
      (predict avg ref mbX mbY dx dy s).bind fun _ t => .ok () (t.deliver v) := by
  rw [predict, predict, State.withTarget_eq h, State.withTarget_eq (s := s.deliver v) h]
  rfl

theorem hpiForm_exec (ref : Direction) (X Y : BitVec 8) (dx dy : BitVec 16) (s : State) :
    exec (.hpiForm ref X Y dx dy) s = (predict false ref X.toNat Y.toNat dx.toInt dy.toInt s).finish noResult := rfl

theorem hpiFormAvg_exec (ref : Direction) (X Y : BitVec 8) (dx dy : BitVec 16) (s : State) :
    exec (.hpiFormAvg ref X Y dx dy) s = (predict true ref X.toNat Y.toNat dx.toInt dy.toInt s).finish noResult := rfl

/-- The unit operations that form the prediction of a motion with two vectors (43_macroblock_decoder.md R251). -/
def predictionOf (m : Motion) (X Y : BitVec 8) (fx fy bx by' : BitVec 16) : List Instr :=
  match m with
  | ⟨true, true⟩ => [.hpiForm .forward X Y fx fy, .hpiFormAvg .backward X Y bx by']
  | ⟨true, false⟩ => [.hpiForm .forward X Y fx fy]
  | ⟨false, _⟩ => [.hpiForm .backward X Y bx by']

/-- `predictB` with a direction: a prediction into the macroblock alone, by the unit operations (R251). -/
theorem predictB_eq {s : State} {fs : FrameStore} {cur : Fin 3} {m : Motion} {X Y : BitVec 8} {fx fy bx by' : BitVec 16}
    (h : s.Targets fs cur X.toNat Y.toNat) (moves : m ≠ ⟨false, false⟩)
    (efx : fx.toInt = s.work.pmv.forward.x) (efy : fy.toInt = s.work.pmv.forward.y)
    (ebx : bx.toInt = s.work.pmv.backward.x) (eby : by'.toInt = s.work.pmv.backward.y) :
    ∃ gs d, predictB X.toNat Y.toNat m s = .ok () { s with frames := some gs, draws := d } ∧
      fs.WritesMacroblock gs cur X.toNat Y.toNat ∧
      execAll (predictionOf m X Y fx fy bx by') s = .next ({ s with frames := some gs, draws := d }.deliver .nothing) := by
  obtain ⟨forward, backward⟩ := m
  cases forward with
  | false =>
    cases backward with
    | false => exact absurd rfl moves
    | true =>
      obtain ⟨gs, d, formed, writes, -⟩ := predict_eq h false .backward bx.toInt by'.toInt
      refine ⟨gs, d, ?_, writes, ?_⟩
      · rw [ebx, eby] at formed
        exact formed
      · rw [predictionOf, execAll, hpiForm_exec, formed]
        rfl
  | true =>
    obtain ⟨gs, d, formed, writes, -⟩ := predict_eq h false .forward fx.toInt fy.toInt
    cases backward with
    | false =>
      refine ⟨gs, d, ?_, writes, ?_⟩
      · rw [efx, efy] at formed
        change ((predict false .forward _ _ _ _ s).bind _) = _
        rw [formed]
        rfl
      · rw [predictionOf, execAll, hpiForm_exec, formed]
        rfl
    | true =>
      set t : State := { s with frames := some gs, draws := d }
      obtain ⟨frames, roles, right, bottom⟩ := h
      have target : t.Targets gs cur X.toNat Y.toNat :=
        ⟨rfl, roles, by rw [← writes.same.1]; exact right, by rw [← writes.same.2.1]; exact bottom⟩
      obtain ⟨ks, e, averaged, more, -⟩ := predict_eq target true .backward bx.toInt by'.toInt
      refine ⟨ks, e, ?_, writes.trans more, ?_⟩
      · rw [efx, efy] at formed
        rw [ebx, eby] at averaged
        change ((predict false .forward _ _ _ _ s).bind _) = _
        rw [formed, Res.bind_ok]
        exact averaged
      · rw [predictionOf, execAll, hpiForm_exec, formed, Res.finish_ok, noResult_eq]
        simp only [execAll]
        rw [hpiFormAvg_exec, predict_deliver target, averaged]
        rfl

/-- Settles O40: `predictB` at the position, in the directions of `prev_motion`. -/
theorem skippedMacroblockInB : Obligations.SkippedMacroblockInB := by
  rintro s t u fs cur a X Y fx fy bx by' inv position target rfl efx efy ebx eby
  obtain ⟨grid, later, only⟩ := State.gridPosition_eq position
  set u : State := { t with work := { s.work with dcPred := Vector.replicate 3 0 } } with hu
  have skip : skipB a.toNat s = predictB X.toNat Y.toNat s.work.prevMotion u := by
    rw [skipB, position, hu, only]
    rfl
  have run : exec (.mbtSkipB a) s = (skipB a.toNat s).finish noResult := rfl
  have reset : u.Targets fs cur X.toNat Y.toNat := by
    rw [hu, only]
    exact target
  rw [run, skip]
  refine ⟨grid, fun still => ?_, fun moves => ?_⟩
  · rw [still]
    rfl
  · obtain ⟨gs, d, formed, writes, ops⟩ := predictB_eq reset moves efx efy ebx eby
    refine ⟨⟨gs, d, ?_, writes.same, writes.outside s.draws (inv.frames fs target.1)⟩, ?_⟩
    · rw [formed]
      rfl
    · rw [formed]
      exact ops.symm

end Sys2Proof.Machine

/-!
PROOF. Slices and the slice loop of a picture (43_macroblock_decoder.md R230 to R239): the slice header up to the first address, from
where the macroblock loop takes over, and one turn of the slice loop, which does not depend on the loop's bound.
-/

namespace Sys2Proof.Machine

/-! ### The slice header -/

/-- The state with the registers that a slice header of scale `q` leaves (R232), its cursor not yet moved. -/
def State.sliceStart (s : State) (q : BitVec 5) : State :=
  { s with
    work :=
      { s.work with
        quantizerScale := q
        dcPred := Vector.replicate 3 0
        pmv := ⟨⟨0, 0⟩, ⟨0, 0⟩⟩
        prevMotion := ⟨false, false⟩ } }

/-- The resets and the scale behind a slice start code (R232). -/
theorem sliceQuant_eq (s : State) {q : BitVec 5} (scale : q.toNat = s.upcoming 32 5) :
    sliceQuant (sliceResets (s.ahead 32)) =
      if q = 0 then .raised .qscaleZero 0 ((s.sliceStart q).ahead 37) else .ok () ((s.sliceStart q).ahead 37) := by
  have read : (sliceResets (s.ahead 32)).getBits 5 = (q.toNat, (sliceResets (s.ahead 32)).ahead 5) := by
    rw [State.getBits_eq (s := sliceResets (s.ahead 32)) (s.ahead_inStep 32) 5 (by norm_num), scale]
    exact Prod.ext ((s.ahead_upcoming 32 0 5)) rfl
  have zero : q.toNat = 0 ↔ q = 0 := by rw [← BitVec.toNat_inj]; rfl
  have leaves : ((sliceResets (s.ahead 32)).ahead 5).setQuantizerScale q = (s.sliceStart q).ahead 37 := rfl
  rw [sliceQuant, read]
  simp only [BitVec.ofNat_toNat, BitVec.setWidth_eq, leaves, zero]

/-- A slice with a legal scale, up to the macroblock loop (R232 to R234). -/
theorem sliceBody_eq {s : State} {q : BitVec 5} (scale : q.toNat = s.upcoming 32 5) (legal : q ≠ 0) {m : Nat}
    (extra : ExtraBytes s.br.source (s.br.bitpos + 37) m) (row total : Nat) :
    sliceBody row total (s.ahead 32) = (mbaIncrement ((s.sliceStart q).ahead (38 + 9 * m))).bind fun inc v =>
      macroblockLoop total (total + 1) ((v.firstAddress row inc).2.setMba (v.firstAddress row inc).1) := by
  have bits : 37 + (9 * m + 1) = 38 + 9 * m := by omega
  rw [sliceBody, sliceQuant_eq s scale, if_neg legal, Res.bind_ok,
    State.skipExtra_eq ((s.sliceStart q).ahead_inStep 37) extra, Res.bind_ok, State.ahead_ahead, bits]

/-- The first address of a slice: by the formula of R233 from row 1 on and where it is a natural number, else a free one. -/
theorem State.firstAddress_eq {v w : State} {row inc : Nat}
    (rows : 1 ≤ row → w = { v with work := { v.work with mba := (row - 1) * v.seq.mbCols + inc - 1 } })
    (natural : row = 0 → v.seq.mbCols < inc → w = { v with work := { v.work with mba := inc - v.seq.mbCols - 1 } })
    (free : row = 0 → inc ≤ v.seq.mbCols →
      w = { v with work := { v.work with mba := Config.freeAddress v.draws }, draws := v.draws + 1 }) :
    (v.firstAddress row inc).2.setMba (v.firstAddress row inc).1 = w := by
  unfold State.firstAddress
  split
  next zero =>
    split
    next above => exact (natural zero above).symm
    next below => exact (free zero (not_lt.1 below)).symm
  next positive => exact (rows (Nat.pos_of_ne_zero positive)).symm

theorem State.Decoding.firstAddress {s : State} (h : s.Decoding) (row inc : Nat) :
    ((s.firstAddress row inc).2.setMba (s.firstAddress row inc).1).Decoding := by
  obtain ⟨reader, params⟩ := (State.decodesTo_firstAddress h.reader row inc).decoding h
  exact ⟨reader, params⟩

/-- An increment that is read moves the cursor alone (R235). -/
theorem mbaIncrement_reads {s t : State} (h : s.Decoding) {inc : Nat} (read : mbaIncrement s = .ok inc t) : s.ReadsTo t := by
  have meets := mbaIncrement_meets h
  rw [read] at meets
  exact meets.2

theorem seqSlice_exec {s : State} (h : s.br.InStep) (total : BitVec 24) :
    exec (.seqSlice total) s =
      (sliceBody (s.upcoming 0 32 % 256) total.toNat (s.ahead 32)).finish fun e t => t.deliver (.slice e) := by
  change (sliceDecode total.toNat s).finish _ = _
  rw [sliceDecode, State.getBits_eq h 32 le_rfl]

theorem scSlice_exec {s : State} (h : s.br.InStep) (ready : s.hpState = .pictureReady) (row : BitVec 8) :
    exec (.scSlice row) s =
      (sliceBody row.toNat (s.seq.mbCols * s.seq.mbRows) (s.ahead 32)).finish fun e t => t.deliver (.slice e) := by
  rw [← State.consumeBits_eq h 32 le_rfl]
  exact if_pos ready

theorem State.Decoding.sliceStart {s : State} (h : s.Decoding) (q : BitVec 5) : (s.sliceStart q).Decoding := ⟨h.reader, h.params⟩

/-- The macroblock loop of a slice, with the bound it runs with (R238). -/
theorem macroblockLoop_gives {total : Nat} {s : State} {r : Res SliceEnd} (h : s.Decoding) (g : LoopGives total s r) :
    macroblockLoop total (total + 1) s = r :=
  loopGives_eq g h (total + 1) (Nat.succ_pos total) (by omega)

/-- Settles O43: both instructions are `slice()` behind its start code, whose loop is the one without a bound. -/
theorem sliceHeader : Obligations.SliceHeader := by
  intro i s u row total q m decoding place scale start
  obtain rfl : u = s.sliceStart q := start
  have run : exec i s = (sliceBody row total (s.ahead 32)).finish fun e t => t.deliver (.slice e) := by
    obtain ⟨t, rfl, rfl, rfl⟩ | ⟨x, rfl, ready, rfl, rfl⟩ := place
    · exact seqSlice_exec decoding.reader t
    · exact scSlice_exec decoding.reader ready x
  rw [run]
  refine ⟨fun zero => ?_, fun legal extra => ?_⟩
  · rw [sliceBody, sliceQuant_eq s scale, if_pos zero]
    rfl
  · rw [sliceBody_eq scale legal extra]
    have start := (decoding.sliceStart q).ahead (38 + 9 * m)
    refine ⟨fun c info v raised => by rw [raised]; rfl, fun inc v read w rows natural free => ?_⟩
    obtain ⟨n, rfl⟩ := mbaIncrement_reads start read
    have address := State.firstAddress_eq rows natural free
    have behind : w.Decoding := address ▸ (start.ahead n).firstAddress row inc
    rw [read, Res.bind_ok, address]
    exact ⟨fun past => by rw [macroblockLoop_gives behind (.past w past)]; rfl,
      fun e x gives => by rw [macroblockLoop_gives behind gives]; rfl,
      fun c info x gives => by rw [macroblockLoop_gives behind gives]; rfl⟩

/-! ### The macroblock loop -/

/-- In an I-picture the first skipped macroblock raises, with its address (R257). -/
theorem skips_inI {s : State} (type : s.pic.pictType = 1) {n : Nat} (some : 0 < n) (a : Nat) :
    skips n a s = .raised .skipInI a s := by
  obtain ⟨k, rfl⟩ := Nat.exists_eq_succ_of_ne_zero some.ne'
  rw [skips, skippedMacroblock, if_pos type]
  rfl

/-- A further macroblock of an I-picture behind an increment above 1 (R238, R257). -/
theorem LoopGives.skipInI {total : Nat} {s u v : State} {inc : Nat} (h : s.Decoding) (type : s.pic.pictType = 1)
    (more : s.work.mba + 1 < total) (first : macroblock s = .ok () u) (bits : u.upcoming 0 23 ≠ 0)
    (read : mbaIncrement u = .ok inc v) (skip : 1 < inc) :
    LoopGives total s (.raised .skipInI (s.work.mba + 1) v) := by
  have reach : s.DecodesTo u := by
    have keeps := macroblock_keeps h
    rw [first] at keeps
    exact keeps
  obtain ⟨n, rfl⟩ := mbaIncrement_reads (reach.decoding h) read
  have type' : (u.ahead n).pic.pictType = 1 := by rw [State.ahead_pic, reach.pic, type]
  exact .skipRaises s u (u.ahead n) inc _ _ _ more first bits read (skips_inI type' (by omega) _)

/-- A slice whose header has one code for each of its elements is the macroblock loop at its first address (R232 to R238). -/
theorem seqSlice_loop {s u : State} {total : BitVec 24} {row n : Nat} {q : BitVec 5} {r : Row MbaSymbol} (h : s.Decoding)
    (least : 1 ≤ row) (most : row ≤ 0xAF) (legal : q ≠ 0) (mem : r ∈ s.params.tables.mba) (sym : r.sym = .increment n)
    (holds : s.Holds 0 [⟨32, 0x100 + row⟩, ⟨5, q.toNat⟩, ⟨1, 0⟩, rowCode r])
    (start : u = ((s.sliceStart q).ahead (38 + r.len)).setMba ((row - 1) * s.seq.mbCols + n - 1)) :
    exec (.seqSlice total) s = (macroblockLoop total.toNat (total.toNat + 1) u).finish fun e t => t.deliver (.slice e) := by
  obtain ⟨code, scale, extra, increment, -⟩ := holds
  have low : s.upcoming 0 32 % 256 = row := by rw [code]; simp only; omega
  have none : ExtraBytes s.br.source (s.br.bitpos + 37) 0 := ⟨extra, by omega⟩
  have read := mbaIncrement_single ((h.sliceStart q).ahead 38) mem sym (by rw [State.ahead_upcoming]; exact increment)
  have address : (((s.sliceStart q).ahead (38 + r.len)).firstAddress row n).2.setMba
      (((s.sliceStart q).ahead (38 + r.len)).firstAddress row n).1 = u :=
    State.firstAddress_eq (fun _ => start) (fun zero => by omega) (fun zero => by omega)
  rw [seqSlice_exec h.reader, low, sliceBody_eq scale.symm legal none, Nat.mul_zero, Nat.add_zero, read, Res.bind_ok,
    State.ahead_ahead, address]

/-! ### The slice loop of a picture -/

/-- What the slice loop does at a start code `code` under the cursor: it ends, or decodes the slice and goes on by `loop`
(R230). -/
def atSliceCode (total : Nat) (loop : State → Res Unit) (code : Nat) (u : State) : Res Unit :=
  if code < 0x101 ∨ 0x1AF < code then .ok () u
  else (sliceDecode total u).bind fun e t =>
    match e with
    | .done => .ok () t
    | .sliceEnd => loop t

/-- One turn of the loop, from the first start code on. -/
theorem pictureDataFrom_succ {s : State} (h : s.br.InStep) {k : Nat} (hk : FirstPrefix s.br.source s.br.bitpos k)
    (total fuel : Nat) : pictureDataFrom total (fuel + 1) s =
      atSliceCode total (pictureDataFrom total fuel) (streamBits s.br.source (8 * k) 32) (s.atByte k) := by
  have aligned : (s.atByte k).br.InStep := Reader.atBit_inStep _ _
  have code : (s.atByte k).peekBits 32 = streamBits s.br.source (8 * k) 32 :=
    aligned.peek_aligned 32 le_rfl (Nat.mul_mod_right 8 k)
  rw [pictureDataFrom, State.align_eq h hk, Res.bind_ok, ← code]
  rfl

/-- A slice that ends leaves the cursor behind its start code. -/
theorem sliceDecode_onward {total : Nat} {s t : State} {e : SliceEnd} (h : s.Decoding) (ends : sliceDecode total s = .ok e t) :
    (s.ahead 32).DecodesTo t := by
  have keeps := sliceBody_keeps ((s.upcoming 0 32) % 256) total (h.ahead 32)
  rw [sliceDecode, State.getBits_eq h.reader 32 le_rfl] at ends
  rw [ends] at keeps
  exact keeps

/-- Two ways to go on agree at a start code, if they agree wherever a slice that is not the last ends. -/
theorem atSliceCode_congr {total code : Nat} {loop other : State → Res Unit} {u : State} (h : u.Decoding)
    (same : 0x101 ≤ code → code ≤ 0x1AF → ∀ t, (u.ahead 32).DecodesTo t → loop t = other t) :
    atSliceCode total loop code u = atSliceCode total other code u := by
  unfold atSliceCode
  split
  next => rfl
  next slice =>
    cases ends : sliceDecode total u with
    | ok e t =>
      cases e with
      | done => rfl
      | sliceEnd => exact same (by omega) (by omega) t (sliceDecode_onward h ends)
    | raised c info t => rfl
    | stop e => rfl

/-- A bound is left for what follows a slice: its start code lies before the end of the source. -/
theorem BoundsSearch.nextSlice {fuel k : Nat} {s t : State} (b : BoundsSearch (fuel + 1) s)
    (hk : FirstPrefix s.br.source s.br.bitpos k) (slice : streamBits s.br.source (8 * k) 32 ≤ 0x1AF)
    (reach : ((s.atByte k).ahead 32).DecodesTo t) : BoundsSearch fuel t := by
  have inside : k < s.br.source.length := by
    by_contra past
    have := startCode_in_fill s.br.source hk.2.1 (by omega)
    omega
  have fromStart : s.br.bitpos ≤ 8 * k := hk.1
  have onward : 8 * k + 32 ≤ t.br.bitpos := reach.onward
  have source : t.br.source = s.br.source := reach.source
  unfold BoundsSearch at b ⊢
  rw [source]
  omega

/-- The cursor at a byte keeps what decoding relies on. -/
theorem State.Decoding.atByte {s : State} (h : s.Decoding) (k : Nat) : (s.atByte k).Decoding := ⟨Reader.atBit_inStep _ _, h.params⟩

/-- The slice loop does not depend on its bound, where that suffices (70_reset_and_hazards.md R490). -/
theorem pictureDataFrom_bound (total m : Nat) : ∀ (n : Nat) (s : State), s.Decoding → BoundsSearch m s → BoundsSearch n s →
    pictureDataFrom total m s = pictureDataFrom total n s := by
  induction m with
  | zero => intro n s _ hm; exact absurd hm.1 (by omega)
  | succ m ih =>
    intro n s h hm hn
    obtain ⟨n, rfl⟩ := Nat.exists_eq_succ_of_ne_zero hn.1.ne'
    obtain ⟨k, hk, -⟩ := exists_firstPrefix s.br.source s.br.bitpos
    rw [pictureDataFrom_succ h.reader hk, pictureDataFrom_succ h.reader hk]
    exact atSliceCode_congr (h.atByte k) fun _ slice t reach =>
      ih n t (reach.decoding ((h.atByte k).ahead 32)) (hm.nextSlice hk slice reach) (hn.nextSlice hk slice reach)

/-- `pictureData()` from the first start code on, without a bound (R230). -/
theorem pictureData_eq {s : State} (h : s.Decoding) {k : Nat} (hk : FirstPrefix s.br.source s.br.bitpos k) :
    pictureData s = atSliceCode (s.seq.mbCols * s.seq.mbRows) pictureData (streamBits s.br.source (8 * k) 32) (s.atByte k) := by
  have b := boundsSearch_loopBound s
  obtain ⟨n, e⟩ := Nat.exists_eq_succ_of_ne_zero b.1.ne'
  rw [pictureData, e, pictureDataFrom_succ h.reader hk]
  rw [e] at b
  refine atSliceCode_congr (h.atByte k) fun _ slice t reach => ?_
  have seq : t.seq = s.seq := reach.seq
  rw [pictureData, seq]
  exact pictureDataFrom_bound _ n _ t (reach.decoding ((h.atByte k).ahead 32)) (b.nextSlice hk slice reach)
    (boundsSearch_loopBound t)

/-- Settles O45: one turn of the loop. -/
theorem pictureDataLoop : Obligations.PictureDataLoop := by
  intro s k h hk
  have turn : exec .seqPictureData s = _ := congrArg (Res.finish · noResult) (pictureData_eq h hk)
  rw [turn]
  refine ⟨fun other => ?_, fun least most => ⟨fun t ends => ?_, fun t ends => ?_, fun c info t raised => ?_⟩⟩
  · rw [atSliceCode, if_pos other]
    rfl
  all_goals rw [atSliceCode, if_neg (by omega)]
  · rw [ends]
    rfl
  · rw [ends]
    rfl
  · rw [raised]
    rfl

end Sys2Proof.Machine

/-!
PROOF. What the blocks hold before a macroblock has no influence on anything else (43_macroblock_decoder.md R246,
70_reset_and_hazards.md R487): the operations before the six blocks are zeroed neither read nor write them.
-/

namespace Sys2Proof.Machine

/-- The state with other blocks. -/
def State.withBlocks (old : Vector Block 6) (s : State) : State := { s with blk := old }

/-- The same result, the state it leaves replaced. -/
def Res.mapState {α : Type} (x : Res α) (g : State → State) : Res α :=
  match x with
  | .ok a s => .ok a (g s)
  | .raised c info s => .raised c info (g s)
  | .stop e => .stop e

/-- An operation that neither reads nor writes the blocks. -/
def IgnoresBlocks {α : Type} (f : State → Res α) : Prop :=
  ∀ (old : Vector Block 6) (s : State), f (s.withBlocks old) = (f s).mapState (State.withBlocks old)

theorem IgnoresBlocks.bind {α β : Type} {f : State → Res α} {g : α → State → Res β} (hf : IgnoresBlocks f)
    (hg : ∀ a, IgnoresBlocks (g a)) : IgnoresBlocks fun s => (f s).bind g := by
  intro old s
  simp only [hf old s]
  cases f s with
  | ok a t => exact hg a old t
  | raised c info t => rfl
  | stop e => rfl

/-- A choice by what the blocks do not touch. -/
theorem IgnoresBlocks.ite {α : Type} {p : State → Prop} [DecidablePred p] {f g : State → Res α}
    (same : ∀ old s, p (State.withBlocks old s) ↔ p s) (hf : IgnoresBlocks f) (hg : IgnoresBlocks g) :
    IgnoresBlocks fun s => if p s then f s else g s := by
  intro old s
  by_cases e : p s
  · simp only [if_pos e, if_pos ((same old s).2 e), hf old s]
  · simp only [if_neg e, if_neg (mt (same old s).1 e), hg old s]

theorem ignoresBlocks_vlc {α : Type} (rows : State → List (Row α)) (t : Table)
    (same : ∀ old s, rows (State.withBlocks old s) = rows s) : IgnoresBlocks fun s => vlc (rows s) t s := by
  intro old s
  simp only [vlc, same]
  change (match (rows s).find? fun r => s.peekBits r.len == r.bits with
    | some r => _ | none => _) = _
  cases (rows s).find? fun r => s.peekBits r.len == r.bits <;> rfl

theorem macroblockType_ignoresBlocks : IgnoresBlocks macroblockType := by
  have type : ∀ v, ∀ old s, (State.withBlocks old s).pic.pictType = v ↔ s.pic.pictType = v := fun _ _ _ => Iff.rfl
  refine IgnoresBlocks.bind (.ite (type 1) ?_ (.ite (type 2) ?_ (.ite (type 3) ?_ fun _ _ => rfl))) fun _ _ _ => rfl
  all_goals exact ignoresBlocks_vlc _ _ fun _ _ => rfl

theorem macroblockQuant_ignoresBlocks (t : BitVec 5) : IgnoresBlocks (macroblockQuant t) :=
  .ite (fun _ _ => Iff.rfl) (.ite (fun _ _ => Iff.rfl) (fun _ _ => rfl) fun _ _ => rfl) fun _ _ => rfl

theorem motionCode_ignoresBlocks : IgnoresBlocks motionCode :=
  .bind (ignoresBlocks_vlc _ _ fun _ _ => rfl) fun _ => .ite (fun _ _ => Iff.rfl) (fun _ _ => rfl) fun _ _ => rfl

theorem decodeComponent_ignoresBlocks (d : Direction) (c : Axis) (n : Nat) (fullPel : Bool) :
    IgnoresBlocks (decodeComponent d c n fullPel) := by
  have vector (pred : Int) : IgnoresBlocks (decodeMotionVector pred n fullPel) :=
    .bind motionCode_ignoresBlocks fun _ => .ite (fun _ _ => Iff.rfl) (fun _ _ => rfl) fun _ _ => rfl
  intro old s
  exact IgnoresBlocks.bind (vector (s.work.pmv.get d c)) (g := fun v t => .ok v (t.setPmv d c v)) (fun _ _ _ => rfl) old s

theorem decodeVector_ignoresBlocks (d : Direction) (code : BitVec 3) (fullPel : Bool) :
    IgnoresBlocks (decodeVector d code fullPel) :=
  .ite (fun _ _ => Iff.rfl) (fun _ _ => rfl) (.bind (decodeComponent_ignoresBlocks _ _ _ _) fun _ =>
    .bind (decodeComponent_ignoresBlocks _ _ _ _) fun _ _ _ => rfl)

theorem macroblockVectors_ignoresBlocks (t : BitVec 5) : IgnoresBlocks (macroblockVectors t) := by
  refine .bind (.ite (fun _ _ => Iff.rfl) (fun old s => ?_) fun _ _ => rfl) fun _ =>
    .ite (fun _ _ => Iff.rfl) (fun old s => ?_) fun _ _ => rfl
  · exact decodeVector_ignoresBlocks .forward s.pic.forwardCode s.pic.fullPelForward old s
  · exact decodeVector_ignoresBlocks .backward s.pic.backwardCode s.pic.fullPelBackward old s

theorem macroblockPattern_ignoresBlocks (t : BitVec 5) : IgnoresBlocks (macroblockPattern t) :=
  .ite (fun _ _ => Iff.rfl) (fun _ _ => rfl) (.ite (fun _ _ => Iff.rfl)
    (.bind (.bind (ignoresBlocks_vlc _ _ fun _ _ => rfl) fun _ _ _ => rfl) fun _ _ _ => rfl) fun _ _ => rfl)

/-- The parsing of a macroblock up to its blocks (R240 to R246). -/
def macroblockHead (s : State) : Res (BitVec 5) :=
  (macroblockType s).bind fun t u => (macroblockQuant t u).bind fun _ u => (macroblockVectors t u).bind fun _ u =>
    (macroblockPattern t u).bind fun _ u => .ok t u

/-- The rest of a macroblock of type `t`, from its six blocks on (R247 to R253). -/
def macroblockBody (t : BitVec 5) (s : State) : Res Unit :=
  (codedBlocks (if hasIntra t then intraBlock else interBlock) allBlocks s).bind fun _ u => reconstructMacroblock t u

theorem Res.bind_assoc {α β γ : Type} (x : Res α) (f : α → State → Res β) (g : β → State → Res γ) :
    (x.bind f).bind g = x.bind fun a s => (f a s).bind g := by
  cases x <;> rfl

/-- A macroblock is its head, the zeroing of the blocks (R246), and its body. -/
theorem macroblock_eq (s : State) : macroblock s = (macroblockHead s).bind fun t u => macroblockBody t u.zeroBlocks := by
  simp only [macroblock, parseMacroblock, macroblockHead, macroblockBody, Res.bind_assoc, Res.bind_ok]

theorem macroblockHead_ignoresBlocks : IgnoresBlocks macroblockHead :=
  .bind macroblockType_ignoresBlocks fun t => .bind (macroblockQuant_ignoresBlocks t) fun _ =>
    .bind (macroblockVectors_ignoresBlocks t) fun _ => .bind (macroblockPattern_ignoresBlocks t) fun _ _ _ => rfl

/-- Settles O42: from the zeroing on the two runs are one, and a fault before it differs in the blocks alone. -/
theorem blocksBeforeAMacroblockDoNotMatter : Obligations.BlocksBeforeAMacroblockDoNotMatter := by
  intro s t old next
  have run (s : State) : exec .seqMacroblock s = (macroblock s).finish noResult := rfl
  have same : macroblockHead { s with blk := old } = (macroblockHead s).mapState (State.withBlocks old) :=
    macroblockHead_ignoresBlocks old s
  rw [run, macroblock_eq] at next ⊢
  rw [same]
  cases head : macroblockHead s with
  | ok type u =>
    rw [head] at next
    exact ⟨t, next, rfl⟩
  | raised c info u =>
    rw [head] at next
    obtain rfl : faultEntry c info u = t := Host.Outcome.next.inj next
    exact ⟨faultEntry c info (u.withBlocks old), rfl, rfl⟩
  | stop e =>
    rw [head] at next
    cases next

end Sys2Proof.Machine

/-!
PROOF. The transform pass by pass (47_idct.md R352 to R358): the entries that the rows and the columns leave, and from them the
flat block that a lone DC becomes.
-/

namespace Sys2Proof.Machine

/-! ### Passes -/

/-- The first `n` of the entries of a pass replaced, as `scatter` replaces all eight. -/
def scatterFirst (b : Block) (base step : Nat) (v : Eight Coef) (n : Nat) : Block :=
  (List.range n).foldl (fun b i => b.setIfInBounds (base + i * step) (v.nth i)) b

theorem scatter_eq (b : Block) (base step : Nat) (v : Eight Coef) : scatter b base step v = scatterFirst b base step v 8 := by
  simp [scatter, scatterFirst, List.range_succ, Eight.nth]

theorem scatterFirst_succ (b : Block) (base step : Nat) (v : Eight Coef) (n : Nat) :
    scatterFirst b base step v (n + 1) = (scatterFirst b base step v n).setIfInBounds (base + n * step) (v.nth n) := by
  rw [scatterFirst, List.range_succ, List.foldl_append]
  rfl

/-- The entries of a pass hold its results. -/
theorem scatter_at (b : Block) (v : Eight Coef) {base step i : Nat} (pos : 0 < step) (fits : base + i * step < 64)
    (hi : i < 8) : (scatter b base step v)[base + i * step]? = some (v.nth i) := by
  have first (n : Nat) (lt : i < n) : (scatterFirst b base step v n)[base + i * step]? = some (v.nth i) := by
    induction n with
    | zero => exact absurd lt (Nat.not_lt_zero i)
    | succ n ih =>
      rw [scatterFirst_succ, Vector.getElem?_setIfInBounds]
      by_cases last : n = i
      · rw [last, if_pos rfl, if_pos fits]
      · have apart : base + n * step ≠ base + i * step := fun e =>
          last (Nat.eq_of_mul_eq_mul_right pos (Nat.add_left_cancel e))
        rw [if_neg apart, ih (by omega)]
  rw [scatter_eq, first 8 hi]

/-- All other entries are kept. -/
theorem scatter_off (b : Block) (v : Eight Coef) {base step k : Nat} (off : ∀ i, i < 8 → base + i * step ≠ k) :
    (scatter b base step v)[k]? = b[k]? := by
  have first (n : Nat) (le : n ≤ 8) : (scatterFirst b base step v n)[k]? = b[k]? := by
    induction n with
    | zero => rfl
    | succ n ih => rw [scatterFirst_succ, Vector.getElem?_setIfInBounds, if_neg (off n le), ih (by omega)]
  rw [scatter_eq, first 8 le_rfl]

/-- A pass reads its eight entries only. -/
theorem gather_congr {a b : Block} {base step : Nat} (same : ∀ i, i < 8 → a[base + i * step]? = b[base + i * step]?) :
    gather a base step = gather b base step := by
  simp only [gather, same 0 (by norm_num), same 1 (by norm_num), same 2 (by norm_num), same 3 (by norm_num),
    same 4 (by norm_num), same 5 (by norm_num), same 6 (by norm_num), same 7 (by norm_num)]

/-- The first `n` rows are transformed, the others as they were (R357). -/
theorem rowPasses_get (b : Block) {n r i : Nat} (hn : n ≤ 8) (hr : r < 8) (hi : i < 8) :
    ((List.range n).foldl rowPass b)[8 * r + i]? =
      if r < n then some ((idctRow (gather b (8 * r) 1)).nth i) else b[8 * r + i]? := by
  induction n generalizing r i with
  | zero => rfl
  | succ n ih =>
    rw [List.range_succ, List.foldl_append, List.foldl_cons, List.foldl_nil, rowPass]
    by_cases here : r = n
    · subst here
      have rows : gather ((List.range r).foldl rowPass b) (8 * r) 1 = gather b (8 * r) 1 :=
        gather_congr fun j hj => by rw [Nat.mul_one, ih (by omega) hr hj, if_neg (lt_irrefl r)]
      have put := scatter_at ((List.range r).foldl rowPass b) (idctRow (gather b (8 * r) 1)) (base := 8 * r) one_pos (by omega) hi
      rw [Nat.mul_one] at put
      rw [rows, put, if_pos (Nat.lt_succ_self r)]
    · rw [scatter_off _ _ (by omega), ih (by omega) hr hi]
      exact if_congr (by omega) rfl rfl

/-- The first `n` columns are transformed, the others as they were (R357). -/
theorem colPasses_get (b : Block) {n r i : Nat} (hn : n ≤ 8) (hr : r < 8) (hi : i < 8) :
    ((List.range n).foldl colPass b)[8 * r + i]? =
      if i < n then some ((idctCol (gather b i 8)).nth r) else b[8 * r + i]? := by
  induction n generalizing r i with
  | zero => rfl
  | succ n ih =>
    rw [List.range_succ, List.foldl_append, List.foldl_cons, List.foldl_nil, colPass]
    by_cases here : i = n
    · subst here
      have columns : gather ((List.range i).foldl colPass b) i 8 = gather b i 8 :=
        gather_congr fun j hj => by rw [Nat.add_comm, Nat.mul_comm, ih (by omega) hj hi, if_neg (lt_irrefl i)]
      have put := scatter_at ((List.range i).foldl colPass b) (idctCol (gather b i 8)) (base := i) (step := 8) (by norm_num)
        (by omega) hr
      rw [Nat.add_comm, Nat.mul_comm] at put
      rw [columns, put, if_pos (Nat.lt_succ_self i)]
    · rw [scatter_off _ _ (by omega), ih (by omega) hr hi]
      exact if_congr (by omega) rfl rfl

/-! ### A block with a DC alone -/

/-- The block whose only coefficient is its DC. -/
def dcBlock (dc : Coef) : Block := zeroBlock.setIfInBounds 0 dc

theorem dcBlock_get (dc : Coef) (k : Nat) : (dcBlock dc)[k]?.getD 0 = if k = 0 then dc else 0 := by
  rw [dcBlock, Vector.getElem?_setIfInBounds, zeroBlock, Vector.getElem?_replicate]
  by_cases first : k = 0
  · subst first
    rfl
  · rw [if_neg (Ne.symm first), if_neg first]
    split <;> rfl

/-- The row pass of a DC: 8 times it in the first row, 0 elsewhere (R353). -/
theorem dcBlock_rows (dc : Coef) {r i : Nat} (hr : r < 8) (hi : i < 8) :
    ((List.range 8).foldl rowPass (dcBlock dc))[8 * r + i]? = some (if r = 0 then dc <<< 3 else 0) := by
  have row : gather (dcBlock dc) (8 * r) 1 = ⟨if r = 0 then dc else 0, 0, 0, 0, 0, 0, 0, 0⟩ := by
    simp only [gather, dcBlock_get]
    simp
  have only : (⟨if r = 0 then dc else 0, 0, 0, 0, 0, 0, 0, 0⟩ : Eight Coef).onlyFirst = true := rfl
  have all (a : Coef) : (Eight.all a).nth i = a := by interval_cases i <;> rfl
  rw [rowPasses_get _ le_rfl hr hi, if_pos hr, row, idctRow, if_pos only, all]
  split <;> rfl

/-- A lone DC becomes the same residual everywhere (R353, R360). -/
theorem idct_dcBlock (dc : Coef) {r i : Nat} (hr : r < 8) (hi : i < 8) :
    (idct (dcBlock dc))[8 * r + i]? = some (residual (((dc <<< 3).toInt + 32) / 64)) := by
  have entry (j : Nat) (hj : j < 8) :
      ((List.range 8).foldl rowPass (dcBlock dc))[i + j * 8]? = some (if j = 0 then dc <<< 3 else 0) := by
    rw [Nat.add_comm, Nat.mul_comm, dcBlock_rows dc hj hi]
  have column : gather ((List.range 8).foldl rowPass (dcBlock dc)) i 8 = ⟨dc <<< 3, 0, 0, 0, 0, 0, 0, 0⟩ := by
    simp (disch := norm_num) only [gather, entry]
    rfl
  have only : (⟨dc <<< 3, 0, 0, 0, 0, 0, 0, 0⟩ : Eight Coef).onlyFirst = true := rfl
  have all (a : Coef) : (Eight.all a).nth r = a := by interval_cases r <;> rfl
  rw [idct, colPasses_get _ le_rfl hr hi, if_pos hi, column, idctCol, if_pos only, all]

end Sys2Proof.Machine

/-!
PROOF. An intra macroblock of an I-picture that codes no difference (43_macroblock_decoder.md R240 to R253): each block is a lone
DC, the predictor of its component, and paints its 64 samples with 128 and the residual of that predictor.
-/

namespace Sys2Proof.Machine

/-! ### The painted values -/

theorem toSample_toNat (v : Int) : ((toSample v).toNat : Int) = max 0 (min 255 v) := by
  have range : 0 ≤ clamp 0 255 v ∧ clamp 0 255 v ≤ 255 ∧ clamp 0 255 v = max 0 (min 255 v) := by
    unfold clamp
    omega
  rw [toSample, BitVec.toNat_ofInt]
  omega

theorem residual_toInt (v : Int) : (residual v).toInt = max (-256) (min 255 v) := by
  have range : -256 ≤ clamp (-256) 255 v ∧ clamp (-256) 255 v ≤ 255 ∧ clamp (-256) 255 v = max (-256) (min 255 v) := by
    unfold clamp
    omega
  rw [residual, BitVec.toInt_ofInt, Int.bmod_def]
  norm_num
  omega

/-- The coefficient block of a predictor alone (45_block_decode_iq.md R302). -/
def flatBlock (pred : BitVec 32) : Block := dcBlock ((pred <<< 3).truncate 16)

/-- The samples that a predictor alone paints (48_prediction_recon.md R385). -/
def flatSample (pred : BitVec 32) : Byte := toSample (128 + flatResidual pred)

theorem residualAt_flatBlock (pred : BitVec 32) {i j : Nat} (hi : i < 8) (hj : j < 8) :
    residualAt (idct (flatBlock pred)) (i, j) = flatResidual pred := by
  rw [residualAt, flatBlock, idct_dcBlock _ hj hi, Option.getD_some, residual_toInt]
  rfl

/-! ### Painting the six blocks -/

theorem blockOrigin_plane (b : BlockNo) (mbX mbY : Nat) : (blockOrigin b mbX mbY).1 = component b := by
  unfold blockOrigin component
  split <;> rfl

/-- Every sample of a macroblock lies in one of its six blocks (48_prediction_recon.md R387). -/
theorem blockOrigin_cover {p : Fin 3} {mbX mbY x y : Nat} (m : inMacroblock p mbX mbY x y) :
    ∃ b, component b = p ∧ ∃ ij ∈ area 8, (blockOrigin b mbX mbY).2.1 + ij.1 = x ∧ (blockOrigin b mbX mbY).2.2 + ij.2 = y := by
  unfold inMacroblock at m
  split at m <;> obtain ⟨x0, x1, y0, y1⟩ := m
  next luma =>
    subst luma
    by_cases right : 16 * mbX + 8 ≤ x <;> by_cases lower : 16 * mbY + 8 ≤ y
    · exact ⟨3, rfl, exists_area (x0 := 16 * mbX + 8) (y0 := 16 * mbY + 8) ⟨right, x1⟩ ⟨lower, y1⟩⟩
    · exact ⟨1, rfl, exists_area (x0 := 16 * mbX + 8) (y0 := 16 * mbY) ⟨right, x1⟩ ⟨y0, not_le.1 lower⟩⟩
    · exact ⟨2, rfl, exists_area (x0 := 16 * mbX) (y0 := 16 * mbY + 8) ⟨x0, not_le.1 right⟩ ⟨lower, y1⟩⟩
    · exact ⟨0, rfl, exists_area (x0 := 16 * mbX) (y0 := 16 * mbY) ⟨x0, not_le.1 right⟩ ⟨y0, not_le.1 lower⟩⟩
  next chroma =>
    obtain rfl | rfl : p = 1 ∨ p = 2 := by omega
    · exact ⟨4, rfl, exists_area ⟨x0, x1⟩ ⟨y0, y1⟩⟩
    · exact ⟨5, rfl, exists_area ⟨x0, x1⟩ ⟨y0, y1⟩⟩

theorem tileBlock_eq (intra : Bool) (blk : Block) (cur : Fin 3) (b : BlockNo) (mbX mbY : Nat) (fs : FrameStore) :
    tileBlock intra blk cur b mbX mbY fs = (area 8).foldl (tileSample intra blk cur (blockOrigin b mbX mbY).1
      (blockOrigin b mbX mbY).2.1 (blockOrigin b mbX mbY).2.2) fs := rfl

section
variable {cur : Fin 3} {mbX mbY d : Nat} {v : Fin 3 → Nat → Nat → Byte}

/-- `putIntraBlock` of a block whose values are known (48_prediction_recon.md R385). -/
theorem tileBlock_paints {fs : FrameStore} (o : fs.InOrder d) (fits : fs.hasMacroblock mbX mbY = true) (blk : Block) (b : BlockNo)
    (value : ∀ ij ∈ area 8, toSample (128 + residualAt blk ij) =
      v (component b) ((blockOrigin b mbX mbY).2.1 + ij.1) ((blockOrigin b mbX mbY).2.2 + ij.2)) :
    fs.Paints cur mbX mbY v (tileBlock true blk cur b mbX mbY fs) ∧ ∀ ij ∈ area 8,
      FrameStore.Painted cur v d (component b) ((blockOrigin b mbX mbY).2.1 + ij.1) ((blockOrigin b mbX mbY).2.2 + ij.2)
        (tileBlock true blk cur b mbX mbY fs) := by
  rw [tileBlock_eq]
  refine foldl_reaches (Q := fun ij => FrameStore.Painted cur v d (component b) ((blockOrigin b mbX mbY).2.1 + ij.1)
    ((blockOrigin b mbX mbY).2.2 + ij.2)) FrameStore.Paints.refl FrameStore.Paints.trans (fun reach => reach.keeps)
    (area 8) fs fun ij mem gs paints => ?_
  obtain ⟨hi, hj⟩ := mem_area mem
  have place := blockOrigin_fits b mbX mbY hi hj
  rw [blockOrigin_plane] at place
  have target : gs.hasMacroblock mbX mbY = true := by rw [paints.same.hasMacroblock]; exact fits
  have hp := FrameStore.inPlane_of_macroblock target place
  have written := FrameStore.paints_write (cur := cur) (v := v) target place
  have one : tileSample true blk cur (blockOrigin b mbX mbY).1 (blockOrigin b mbX mbY).2.1 (blockOrigin b mbX mbY).2.2 gs ij =
      gs.write cur (component b) ((blockOrigin b mbX mbY).2.1 + ij.1) ((blockOrigin b mbX mbY).2.2 + ij.2)
        (v (component b) ((blockOrigin b mbX mbY).2.1 + ij.1) ((blockOrigin b mbX mbY).2.2 + ij.2)) := by
    rw [tileSample, blockOrigin_plane, ← value ij mem]
    rfl
  rw [one]
  exact ⟨written, written.order d (paints.order d o), hp, FrameStore.write_sample_same ..⟩

/-- The coded blocks of a list, each a predictor alone, transformed and put (R253). -/
theorem reconstructBlocks_flat (pred : Fin 3 → BitVec 32) (l : List BlockNo) (distinct : l.Nodup) :
    ∀ (s : State) (fs : FrameStore), s.Targets fs cur mbX mbY → fs.InOrder d → (∀ b, isCoded s.work.cbp b = true) →
    (∀ b ∈ l, s.blk[b] = flatBlock (pred (component b))) →
    ∃ blk gs, codedBlocks (reconstructBlock true mbX mbY) l s = .ok () { s with blk := blk, frames := some gs } ∧
      fs.Paints cur mbX mbY (fun p _ _ => flatSample (pred p)) gs ∧ ∀ b ∈ l, ∀ ij ∈ area 8,
        FrameStore.Painted cur (fun p _ _ => flatSample (pred p)) d (component b) ((blockOrigin b mbX mbY).2.1 + ij.1)
          ((blockOrigin b mbX mbY).2.2 + ij.2) gs := by
  induction l with
  | nil =>
    intro s fs target _ _ _
    exact ⟨s.blk, fs, by rw [← target.1]; rfl, .refl fs, by simp⟩
  | cons b rest ih =>
    intro s fs target o coded flat
    obtain ⟨new, distinct⟩ := List.nodup_cons.1 distinct
    have value : ∀ ij ∈ area 8, toSample (128 + residualAt (idct s.blk[b]) ij) = flatSample (pred (component b)) := by
      rintro ⟨i, j⟩ mem
      obtain ⟨hi, hj⟩ := mem_area mem
      rw [flat b List.mem_cons_self, residualAt_flatBlock _ hi hj, flatSample]
    obtain ⟨paints, painted⟩ := tileBlock_paints (cur := cur) (v := fun p _ _ => flatSample (pred p)) o target.hasMacroblock
      (idct s.blk[b]) b value
    set ks := tileBlock true (idct s.blk[b]) cur b mbX mbY fs
    set t : State := { s with blk := s.blk.set b (idct s.blk[b]), frames := some ks }
    have one : reconstructBlock true mbX mbY b s = .ok () t := by
      have tiled : t = { s.setBlock b (idct s.blk[b]) with
          frames := some (tileBlock true (s.setBlock b (idct s.blk[b])).blk[b] cur b mbX mbY fs) } := by
        have put : (s.setBlock b (idct s.blk[b])).blk[b] = idct s.blk[b] := Vector.getElem_set_self b.isLt
        rw [put]
        rfl
      rw [reconstructBlock, tile, State.withTarget_eq (s := s.setBlock b (idct s.blk[b])) target, tiled]
    have target' : t.Targets ks cur mbX mbY := by
      obtain ⟨-, roles, right, bottom⟩ := target
      exact ⟨rfl, roles, by rw [← paints.same.1]; exact right, by rw [← paints.same.2.1]; exact bottom⟩
    have others : ∀ c ∈ rest, t.blk[c] = flatBlock (pred (component c)) := by
      intro c mem
      have apart : b.val ≠ c.val := fun e => new (Fin.ext e ▸ mem)
      rw [← flat c (List.mem_cons_of_mem b mem)]
      exact Vector.getElem_set_ne b.isLt c.isLt apart
    obtain ⟨blk, gs, done, more, rests⟩ := ih distinct t ks target' (paints.order d o) coded others
    refine ⟨blk, gs, ?_, paints.trans more, List.forall_mem_cons.2 ⟨fun ij mem => more.keeps (painted ij mem), rests⟩⟩
    rw [codedBlocks, if_pos (coded b), one, Res.bind_ok, done]

end

/-! ### Reading the six blocks -/

theorem State.Decoding.withBlocks {s : State} (h : s.Decoding) (blk : Vector Block 6) : (s.withBlocks blk).Decoding :=
  ⟨h.reader, h.params⟩

theorem bitCount_append (a b : List Code) : bitCount (a ++ b) = bitCount a + bitCount b := by
  induction a with
  | nil => exact (Nat.zero_add _).symm
  | cons c rest ih => rw [List.cons_append, bitCount, bitCount, ih, Nat.add_assoc]

/-- The code of a size of 0 (44_vlc_decoder.md R277, R278). -/
def flatSize (b : BlockNo) : Code := if b.val < 4 then ⟨3, 0b100⟩ else ⟨2, 0b00⟩

/-- The codes of a block that codes no difference and has no coefficient: the size, the end of block (R280). -/
def flatCodes (b : BlockNo) : List Code := [flatSize b, ⟨2, 0b10⟩]

theorem flatSize_mem {s : State} (tables : s.params.tables = defaultTables) (b : BlockNo) :
    ⟨(flatSize b).len, (flatSize b).bits, 0⟩ ∈ s.sizeTable b := by
  unfold State.sizeTable flatSize
  rw [tables]
  split <;> decide

/-- A size of 0 has no difference (45_block_decode_iq.md R301). -/
theorem dcDiff_zero {s : State} (h : s.Decoding) {b : BlockNo} {c : Code} (mem : ⟨c.len, c.bits, 0⟩ ∈ s.sizeTable b)
    (code : s.upcoming 0 c.len = c.bits) : dcDiff b s = .ok 0 (s.ahead c.len) := by
  have size : (if b.val < 4 then vlc s.params.tables.dcl .dcl s else vlc s.params.tables.dcc .dcc s) =
      .ok 0 (s.ahead c.len) := by
    unfold State.sizeTable at mem
    split at mem
    next luma => rw [if_pos luma, vlc_of_mem h.tables.dcl .dcl h.reader mem code]
    next chroma => rw [if_neg chroma, vlc_of_mem h.tables.dcc .dcc h.reader mem code]
  rw [dcDiff, size, Res.bind_ok, if_pos rfl]

/-- `IQ_INTRA_DC` without a difference, on an empty block (45_block_decode_iq.md R302). -/
theorem intraDc_zero {s t : State} {b : BlockNo} (diff : dcDiff b s = .ok 0 t) (empty : t.blk[b] = zeroBlock) :
    intraDc b s = .ok () (t.withBlocks (t.blk.set b (flatBlock t.work.dcPred[component b]))) := by
  have stays : t.work.dcPred[component b] + BitVec.ofInt 32 0 = t.work.dcPred[component b] := BitVec.add_zero _
  have pred : t.work.dcPred.set (component b) t.work.dcPred[component b] = t.work.dcPred := Vector.set_getElem_self _
  rw [intraDc, diff, Res.bind_ok]
  simp only [stays, State.setDcPred, State.setBlkEntry, State.setBlock, pred, empty]
  rfl

/-- `intraBlock(b)` over those codes: the predictor stays and stands alone in the block (45_block_decode_iq.md R305). -/
theorem intraBlock_flat {s : State} (h : s.Decoding) (tables : s.params.tables = defaultTables) {b : BlockNo}
    (empty : s.blk[b] = zeroBlock) (codes : s.Holds 0 (flatCodes b)) :
    intraBlock b s = .ok () ((s.ahead (bitCount (flatCodes b))).withBlocks
      (s.blk.set b (flatBlock s.work.dcPred[component b]))) := by
  obtain ⟨size, eob, -⟩ := codes
  rw [Nat.zero_add] at eob
  have behind := (s.ahead_upcoming (flatSize b).len 0 2).trans eob
  rw [intraBlock, intraDc_zero (dcDiff_zero h (flatSize_mem tables b) size) empty, Res.bind_ok]
  exact coefLoop_end (s := (s.ahead (flatSize b).len).withBlocks (s.blk.set b (flatBlock s.work.dcPred[component b])))
    ((h.ahead _).withBlocks _) behind

/-- The blocks of a list over their codes, one behind the other. -/
theorem intraBlocks_flat (l : List BlockNo) (distinct : l.Nodup) : ∀ s : State, s.Decoding →
    s.params.tables = defaultTables → (∀ b, isCoded s.work.cbp b = true) → (∀ b ∈ l, s.blk[b] = zeroBlock) →
    s.Holds 0 (l.flatMap flatCodes) → ∃ blk, (∀ b ∈ l, blk[b] = flatBlock s.work.dcPred[component b]) ∧
      (∀ b, b ∉ l → blk[b] = s.blk[b]) ∧
      codedBlocks intraBlock l s = .ok () ((s.ahead (bitCount (l.flatMap flatCodes))).withBlocks blk) := by
  induction l with
  | nil =>
    intro s h _ _ _ _
    exact ⟨s.blk, by simp, fun _ _ => rfl, congrArg (Res.ok ()) (State.ahead_zero h.reader).symm⟩
  | cons b rest ih =>
    intro s h tables coded empty codes
    obtain ⟨new, distinct⟩ := List.nodup_cons.1 distinct
    rw [List.flatMap_cons, State.holds_append, Nat.zero_add] at codes
    obtain ⟨here, behind⟩ := codes
    have one := intraBlock_flat h tables (empty b List.mem_cons_self) here
    set t : State := (s.ahead (bitCount (flatCodes b))).withBlocks (s.blk.set b (flatBlock s.work.dcPred[component b]))
    have others (c : BlockNo) (apart : c ≠ b) : t.blk[c] = s.blk[c] :=
      Vector.getElem_set_ne b.isLt c.isLt fun e => apart (Fin.ext e.symm)
    have ahead : t.Holds 0 (rest.flatMap flatCodes) := by
      rw [State.holds_congr (s := t) (t := s.ahead (bitCount (flatCodes b))) rfl, State.ahead_holds]
      exact behind
    obtain ⟨blk, flat, kept, done⟩ := ih distinct t ((h.ahead _).withBlocks _) tables coded
      (fun c mem => by rw [others c (fun e => new (e ▸ mem))]; exact empty c (List.mem_cons_of_mem b mem)) ahead
    refine ⟨blk, List.forall_mem_cons.2 ⟨?_, flat⟩, fun c out => ?_, ?_⟩
    · rw [kept b new]
      exact Vector.getElem_set_self b.isLt
    · rw [List.mem_cons, not_or] at out
      rw [kept c out.2, others c out.1]
    · have bits : bitCount ((b :: rest).flatMap flatCodes) = bitCount (flatCodes b) + bitCount (rest.flatMap flatCodes) := by
        rw [List.flatMap_cons, bitCount_append]
      rw [codedBlocks, if_pos (coded b), one, Res.bind_ok, done, bits, ← State.ahead_ahead]
      rfl

/-! ### The whole macroblock -/

/-- The codes of a flat macroblock are its type and its six blocks. -/
theorem flatIntra_codes {s : State} (h : s.Holds 0 [flatIntra]) : s.Holds 0 (⟨1, 1⟩ :: allBlocks.flatMap flatCodes) := by
  obtain ⟨bits, -⟩ := h
  have part (m n k : Nat) (total : m + n + k = 29) : s.upcoming m n = flatIntra.bits / 2 ^ k % 2 ^ n := by
    have whole : s.upcoming 0 (m + n + k) = flatIntra.bits := by rw [total]; exact bits
    have low := s.upcoming_lt (0 + (m + n)) k
    have high := s.upcoming_lt (0 + m) n
    rw [← whole, State.upcoming_split, Nat.mul_comm, Nat.mul_add_div (Nat.two_pow_pos k), Nat.div_eq_of_lt low, Nat.add_zero,
      State.upcoming_split, Nat.mul_comm, Nat.mul_add_mod, Nat.mod_eq_of_lt high, Nat.zero_add]
  exact ⟨part 0 1 28 rfl, part 1 3 25 rfl, part 4 2 23 rfl, part 6 3 20 rfl, part 9 2 18 rfl, part 11 3 15 rfl,
    part 14 2 13 rfl, part 16 3 10 rfl, part 19 2 8 rfl, part 21 2 6 rfl, part 23 2 4 rfl, part 25 2 2 rfl,
    part 27 2 0 rfl, trivial⟩

/-- The head of a flat macroblock: an intra type without a scale (43_macroblock_decoder.md R241 to R246). -/
theorem macroblockHead_flat {s : State} (h : s.Decoding) (tables : s.params.tables = defaultTables) (type : s.pic.pictType = 1)
    (bit : s.upcoming 0 1 = 1) : macroblockHead s = .ok 1 (((s.ahead 1).setMbType 1).setCbp 63) := by
  have mem : ⟨1, 1, 1⟩ ∈ s.typeTable := by
    rw [State.typeTable, if_pos type, tables]
    decide
  rw [macroblockHead, macroblockType_eq (.inl type), vlc_of_mem h.typeTable _ h.reader mem bit]
  rfl

theorem mem_allBlocks : ∀ b : BlockNo, b ∈ allBlocks := by decide

/-- The state behind the blocks of a flat macroblock, which are `blk`. -/
def State.flatParsed (s : State) (blk : Vector Block 6) : State :=
  { s.ahead 29 with work := { s.work with mbType := 1, cbp := 63 }, blk := blk }

/-- A flat macroblock up to its reconstruction. -/
theorem macroblock_flatParsed {s : State} (h : s.Decoding) (tables : s.params.tables = defaultTables)
    (type : s.pic.pictType = 1) (bits : s.Holds 0 [flatIntra]) :
    ∃ blk, (∀ b : BlockNo, blk[b] = flatBlock s.work.dcPred[component b]) ∧
      macroblock s = reconstructMacroblock 1 (s.flatParsed blk) := by
  obtain ⟨bit, codes⟩ := flatIntra_codes bits
  set u : State := (((s.ahead 1).setMbType 1).setCbp 63).zeroBlocks
  have coded : ∀ b, isCoded u.work.cbp b = true := by
    change ∀ b, isCoded 63 b = true
    decide
  have behind : u.Holds 0 (allBlocks.flatMap flatCodes) := by
    rw [State.holds_congr (s := u) (t := s.ahead 1) rfl, State.ahead_holds]
    exact codes
  obtain ⟨blk, flat, -, parsed⟩ := intraBlocks_flat allBlocks (by decide) u ⟨(h.ahead 1).reader, h.params⟩
    tables coded (fun b _ => Vector.getElem_replicate b.isLt) behind
  refine ⟨blk, fun b => flat b (mem_allBlocks b), ?_⟩
  rw [macroblock_eq, macroblockHead_flat h tables type bit, Res.bind_ok, macroblockBody]
  change (codedBlocks intraBlock allBlocks u).bind (fun _ w => reconstructMacroblock 1 w) = _
  rw [parsed, Res.bind_ok]
  rfl

/-- The reconstruction of an intra macroblock: the resets, then its coded blocks at the grid position (R248, R253). -/
theorem reconstructMacroblock_intra {d : State} {t : BitVec 5} (grid : d.seq.mbCols ≠ 0) (intra : hasIntra t = true) :
    reconstructMacroblock t d = (codedBlocks (reconstructBlock true (d.work.mba % d.seq.mbCols) (d.work.mba / d.seq.mbCols))
      allBlocks (afterIntra d)).bind fun _ s => .ok () s.discardBlocks := by
  have position : d.gridPosition d.work.mba = ((d.work.mba % d.seq.mbCols, d.work.mba / d.seq.mbCols), d) := if_neg grid
  simp only [reconstructMacroblock, position, intra, if_true, Res.bind_ok]

/-- A flat macroblock is decoded and painted (R240). -/
theorem macroblock_flat {s : State} {fs : FrameStore} {cur : Fin 3} (inv : StepInv s) (tables : s.params.tables = defaultTables)
    (type : s.pic.pictType = 1) (grid : s.seq.mbCols ≠ 0)
    (target : s.Targets fs cur (s.work.mba % s.seq.mbCols) (s.work.mba / s.seq.mbCols)) (bits : s.Holds 0 [flatIntra]) :
    ∃ t, s.PaintsFlat t ∧ macroblock s = .ok () t := by
  obtain ⟨blk, flat, parsed⟩ := macroblock_flatParsed inv.decoding tables type bits
  have order := inv.frames fs target.1
  set v : State := (s.flatParsed blk).setPrevMotion ⟨false, false⟩
  have resets : afterIntra (s.flatParsed blk) = v := by
    have still : (s.flatParsed blk).pic.pictType = 1 := type
    rw [afterIntra, still]
    rfl
  have coded : ∀ b, isCoded v.work.cbp b = true := by
    change ∀ b, isCoded 63 b = true
    decide
  obtain ⟨ended, gs, done, paints, painted⟩ := reconstructBlocks_flat (d := s.draws) (fun p => s.work.dcPred[p]) allBlocks
    (by decide) v fs target order coded fun b _ => flat b
  refine ⟨State.discardBlocks { v with blk := ended, frames := some gs },
    ⟨fs, gs, cur, target.1, target.2.1, rfl, paints.same, paints.outside s.draws order, fun p x y place => ?_⟩, ?_⟩
  · obtain ⟨b, rfl, ij, inArea, rfl, rfl⟩ := blockOrigin_cover place
    obtain ⟨-, -, value⟩ := painted b (mem_allBlocks b) ij inArea
    rw [value]
    exact toSample_toNat _
  · rw [parsed, reconstructMacroblock_intra (d := s.flatParsed blk) grid rfl, resets]
    change (codedBlocks (reconstructBlock true (s.work.mba % s.seq.mbCols) (s.work.mba / s.seq.mbCols)) allBlocks v).bind _ = _
    rw [done]
    rfl

end Sys2Proof.Machine

/-!
PROOF. A macroblock is its unit operations one after the other (43_macroblock_decoder.md R240), and a slice is the macroblock loop
behind its header (R238). The laws of sequences say what each part comes to; here the parts are put together.
-/

namespace Sys2Proof.Machine

/-! ### The macroblock and its unit operations -/

/-- A type that is read is one of the table of the picture type (R241). -/
theorem macroblockType_mem {s a : State} {t : BitVec 5} (h : s.Decoding) (type : s.pic.pictType ∈ [1, 2, 3])
    (read : macroblockType s = .ok t a) : ∃ r ∈ s.typeTable, r.sym = t := by
  simp only [List.mem_cons, List.not_mem_nil, or_false] at type
  rw [macroblockType_eq type, Res.bind_eq_ok] at read
  obtain ⟨t', u, found, stored⟩ := read
  have meets := vlc_meets h.typeTable (if s.pic.pictType = 1 then .mbtI else if s.pic.pictType = 2 then .mbtP else .mbtB) h.reader
  rw [found] at meets
  obtain ⟨r, mem, -, rfl, -⟩ := meets
  obtain ⟨rfl, -⟩ := Res.ok.inj stored
  exact ⟨r, mem, rfl⟩

/-- Every macroblock of an I-picture is intra (R242). -/
theorem macroblockType_inI {s a : State} {t : BitVec 5} (h : s.Decoding) (type : s.pic.pictType = 1)
    (read : macroblockType s = .ok t a) : hasIntra t = true := by
  obtain ⟨r, mem, rfl⟩ := macroblockType_mem h (by rw [type]; decide) read
  rw [State.typeTable, if_pos type] at mem
  exact (h.tables.typesI r mem).1

/-- A macroblock of a B-picture is intra or has a direction (R251). -/
theorem macroblockType_inB {s a : State} {t : BitVec 5} (h : s.Decoding) (type : s.pic.pictType = 3)
    (read : macroblockType s = .ok t a) : hasIntra t = true ∨ hasForward t = true ∨ hasBackward t = true := by
  obtain ⟨r, mem, rfl⟩ := macroblockType_mem h (by rw [type]; decide) read
  rw [State.typeTable, type, if_neg (by decide), if_neg (by decide)] at mem
  exact h.tables.typesB r mem

section
variable {t : BitVec 5} {s c : State}

/-- The decoding of one coded block of a macroblock of type `t` (R247). -/
theorem blockOp_exec (t : BitVec 5) (b : BlockNo) (s : State) :
    exec (if hasIntra t then .seqIntraBlock b else .seqInterBlock b) s =
      ((if hasIntra t then intraBlock else interBlock) b s).finish fun _ s => s.deliver .nothing := by
  split <;> rfl

theorem block_fixes (t : BitVec 5) (b : BlockNo) (s : State) :
    ((if hasIntra t then intraBlock else interBlock) b s).Fixes State.blockView s := by
  split
  · exact intraBlock_fixes b s
  · exact interBlock_fixes b s

theorem seqMacroblock_exec (s : State) : exec .seqMacroblock s = (macroblock s).finish noResult := rfl

/-- A fault in a block of a macroblock is that of the macroblock. -/
theorem seqMacroblock_blockRaises {v : State} (parse : parseMacroblock s =
      (codedBlocks (if hasIntra t then intraBlock else interBlock) allBlocks c).bind fun _ d => .ok t d)
    (raises : SequenceRaises (c.blockOps t) c v) : exec .seqMacroblock s = .next v := by
  obtain ⟨cause, info, u, raised, rfl⟩ :=
    codedBlocks_raised _ _ (blockOp_exec t) (block_fixes t) c.work.cbp allBlocks c v rfl raises
  rw [seqMacroblock_exec, macroblock, parse, raised]
  rfl

/-- The parsing of a macroblock whose blocks complete. -/
theorem parseMacroblock_blocks {d : State} (parse : parseMacroblock s =
      (codedBlocks (if hasIntra t then intraBlock else interBlock) allBlocks c).bind fun _ d => .ok t d)
    (blocks : Sequence Parses (c.blockOps t) c d) : parseMacroblock s = .ok t d := by
  rw [parse, codedBlocks_ok _ _ (blockOp_exec t) (block_fixes t) c.work.cbp allBlocks c d rfl blocks]
  rfl

end

/-- Settles O41: the parts are those of `macroblock()`, in its order; the flat macroblock is computed. -/
theorem macroblock' : Obligations.Macroblock := by
  refine ⟨fun s other => ?_, fun s inv type => ⟨fun v raises => ?_, fun a t typed readType => ?_⟩,
    fun s fs cur inv tables type grid target bits => ?_⟩
  · rw [seqMacroblock_exec, macroblock, parseMacroblock, macroblockType_noTable other]
    rfl
  · obtain ⟨c, info, u, raised, rfl⟩ := raises.raised (vldMbtype_exec s) (macroblockType_fixes s)
    rw [seqMacroblock_exec, macroblock, parseMacroblock, raised]
    rfl
  · have h := inv.decoding
    have read : macroblockType s = .ok t a := readType ▸ macroblockType_ok typed
    refine ⟨fun b scaled => seqMacroblock_forwardStop h read scaled, fun forward =>
      ⟨fun b moved => seqMacroblock_backwardStop h read forward moved, fun backward =>
      ⟨fun v => seqMacroblock_headRaises h read forward backward, fun b c head start => ?_⟩⟩⟩
    obtain ⟨-, -, parse, -⟩ := parseMacroblock_ok h read forward backward head
    rw [← start] at parse
    refine ⟨fun v => seqMacroblock_blockRaises parse, fun d e f g X Y blocks position predicted added => ?_⟩
    have parsed := parseMacroblock_blocks parse blocks
    have reach : s.DecodesTo d := by
      have keeps := parseMacroblock_keeps h
      rw [parsed] at keeps
      exact keeps
    have rest : reconstructMacroblock t d = .ok () g.discardBlocks :=
      reconstructMacroblock_ok (inv.decodesTo reach) (by rw [reach.pic]; simpa using type)
        (fun i => macroblockType_inI h (reach.pic ▸ i) read) (fun b => macroblockType_inB h (reach.pic ▸ b) read)
        position predicted added
    rw [seqMacroblock_exec, macroblock, parsed, Res.bind_ok, rest]
    rfl
  · obtain ⟨t, paints, done⟩ := macroblock_flat inv tables type grid target bits
    exact ⟨t, paints, by rw [seqMacroblock_exec, done]; rfl⟩

/-! ### The macroblock loop -/

theorem StepInv.sliceStart {s : State} (inv : StepInv s) (q : BitVec 5) (n a : Nat) :
    StepInv (((s.sliceStart q).ahead n).setMba a) :=
  inv.decodesTo ((s.decodesTo_ahead n).trans (State.decodesTo_work (s.ahead_inStep n) _ fun _ => Predictors.inRange_zero))

/-- Settles O44: behind the header a slice is the loop with a bound, which gives what the loop without one does. -/
theorem macroblockLoop' : Obligations.MacroblockLoop := by
  intro s u total row n q r inv least most legal mem sym header start
  have loop := seqSlice_loop (total := total) inv.decoding least most legal mem sym header start
  have uInv : StepInv u := start ▸ inv.sliceStart q (38 + r.len) _
  have gives {x : Res SliceEnd} (g : LoopGives total.toNat u x) :
      exec (.seqSlice total) s = x.finish fun e t => t.deliver (.slice e) := by
    rw [loop, macroblockLoop_gives uInv.decoding g]
  refine ⟨fun e x => gives, fun c info x => gives, fun v w inc type more first bits read skip => ?_,
    fun fs cur tables type grid bits ends target => ?_⟩
  · have type' : u.pic.pictType = 1 := by rw [start]; exact type
    exact gives (.skipInI uInv.decoding type' more first bits read skip)
  · have holds : u.Holds 0 [flatIntra] := by
      rw [start]
      exact ⟨bits, trivial⟩
    obtain ⟨t, paints, done⟩ := macroblock_flat (s := u) (fs := fs) (cur := cur) uInv (by rw [start]; exact tables)
      (by rw [start]; exact type) (by rw [start]; exact grid) (by rw [start] at target ⊢; exact target) holds
    rw [← ends]
    exact ⟨t, paints, gives (.last u t ends.symm done)⟩

end Sys2Proof.Machine

/-!
PROOF. The variable-length-code decoder (44_vlc_decoder.md R270 to R282): `VLD_CODE` on any legal tables, and the code words as
single steps, each by the row of its table.
-/

namespace Sys2Proof.Machine

/-! ### `VLD_CODE` -/

/-- Renaming the symbols of a table leaves its code words alone (R270). -/
theorem PrefixCode.map {α β : Type} {rows : List (Row α)} (pc : PrefixCode rows) (f : α → β) :
    PrefixCode (rows.map fun r => ⟨r.len, r.bits, f r.sym⟩) := by
  obtain ⟨lens, apart⟩ := pc
  exact ⟨List.forall_mem_map.2 lens, List.pairwise_map.2 apart⟩

theorem vlc_map {α β : Type} (f : α → β) (rows : List (Row α)) (t : Table) (s : State) :
    (vlc rows t s).map f = vlc (rows.map fun r => ⟨r.len, r.bits, f r.sym⟩) t s := by
  unfold vlc
  rw [List.find?_map]
  cases found : rows.find? fun r => s.peekBits r.len == r.bits with
  | none => simp [found]
  | some r => simp [found]

/-- `vlc(T)` by the operand of `VLD_CODE` is the lookup in the table's rows (R270). -/
theorem vlcSymbol_eq (t : Table) (s : State) : vlcSymbol t s = vlc (s.tableRows t) t s := by
  cases t <;> exact vlc_map ..

theorem State.Decoding.tableRows {s : State} (h : s.Decoding) (t : Table) : PrefixCode (s.tableRows t) := by
  have legal := h.tables
  cases t with
  | mba => exact legal.mba.map _
  | mbtI => exact legal.mbtI.map _
  | mbtP => exact legal.mbtP.map _
  | mbtB => exact legal.mbtB.map _
  | cbp => exact legal.cbp.map _
  | motion => exact legal.motion.map _
  | dcl => exact legal.dcl.map _
  | dcc => exact legal.dcc.map _
  | dct => exact legal.dct.map _

theorem vldCode_exec (t : Table) (s : State) :
    exec (.vldCode t) s = (vlc (s.tableRows t) t s).finish fun v s => s.deliver (.symbol v) := by
  rw [← vlcSymbol_eq]
  rfl

/-- Settles O22: no code word of the table begins another, so at most one begins the upcoming bits. -/
theorem vldCode : Obligations.VldCode := by
  intro t s h
  refine ⟨fun r mem bits => ?_, fun none => ?_⟩
  · rw [vldCode_exec, vlc_of_mem (h.tableRows t) t h.reader mem bits]
    rfl
  · rw [vldCode_exec, vlc_of_none (h.tableRows t) t h.reader none]
    rfl

/-! ### The row of a code word -/

/-- A code word of a place that is not among the coefficients is that of an entry of the place's table. -/
theorem exists_wordRow {p : VlcPlace} {i : Instr} (coefs : placeTable p ≠ .dct) (place : channel i = .vlc p) :
    ∃ r ∈ wordRows p, ∃ sgn, r.sym sgn = some i := by
  obtain word | ⟨s, rfl⟩ | ⟨s, rfl⟩ | rfl | ⟨r, l, rfl⟩ | ⟨r, z, l, rfl⟩ := codeWord_cases place
  · obtain ⟨r, mem, -, sym⟩ := lookupWord_eq_some.1 word
    exact ⟨r, mem, _, sym⟩
  all_goals
    cases place
    exact absurd rfl coefs

/-- Where the table's symbol alone gives the instruction, no sign bit belongs to the code. -/
theorem exists_plainRow {α : Type} {p : VlcPlace} {rows : List (Row α)} {instr : α → Option Instr}
    (table : wordRows p = rows.map fun r => ⟨r.len, r.bits, fun _ => instr r.sym⟩) (coefs : placeTable p ≠ .dct)
    {i : Instr} (place : channel i = .vlc p) :
    ∃ r ∈ rows, r.len ≤ 32 ∧ encode i = rowCode r ∧ instr r.sym = some i := by
  obtain ⟨q, mem, sgn, sym⟩ := exists_wordRow coefs place
  obtain ⟨-, most⟩ := (prefixCode_wordRows p).1 q mem
  have code (sgn : Bool) (sym : q.sym sgn = some i) : encode i = signed q.len q.bits sgn ∨ encode i = rowCode q := by
    obtain ⟨-, -, code⟩ := wordRows_encode p q mem sgn i sym
    exact code.imp_right And.left
  rw [table] at mem
  obtain ⟨r, entry, rfl⟩ := List.mem_map.1 mem
  refine ⟨r, entry, most.trans (by norm_num), ?_, sym⟩
  obtain one | plain := code true sym
  · obtain zero | plain := code false sym
    · simp [one, signed] at zero
    · exact plain
  · exact plain

/-! ### `T_MBA` -/

/-- What a code word of `T_MBA` does, by its symbol (43_macroblock_decoder.md R235). -/
def mbaWord (len : Nat) (v : MbaSymbol) (s : State) : State :=
  match v with
  | .increment n => incrementWord len n s
  | .stuffing => (s.consumeBits len).deliver .nothing
  | .escape => escapeWord len s

theorem incrementInstr_exec {n : Nat} {i : Instr} (h : incrementInstr n = some i) (s : State) :
    exec i s = .next (incrementWord (encode i).len n s) := by
  unfold incrementInstr at h
  split at h <;> cases h <;> rfl

theorem mbaInstr_exec {v : MbaSymbol} {i : Instr} (h : mbaInstr v = some i) (s : State) :
    exec i s = .next (mbaWord (encode i).len v s) := by
  cases v with
  | increment n => exact incrementInstr_exec h s
  | stuffing | escape =>
    cases h
    rfl

/-- Settles O10: the rows of `T_MBA` are the code words, and each does what its symbol says. -/
theorem mbaCodeWords : Obligations.MbaCodeWords := by
  intro i s place h
  obtain ⟨r, mem, short, code, sym⟩ := exists_plainRow (rows := tMba) (instr := mbaInstr) rfl (by decide) place
  refine ⟨r, mem, code, ?_⟩
  rw [mbaInstr_exec sym, code, ← State.consumeBits_eq h r.len short]
  cases r.sym <;> rfl

/-! ### The type tables and `T_CBP` -/

theorem mbtIInstr_exec {v : Nat} {i : Instr} (h : mbtIInstr v = some i) (s : State) :
    exec i s = .next (typeWord (encode i).len (BitVec.ofNat 5 v) s) := by
  unfold mbtIInstr at h
  split at h <;> cases h <;> rfl

theorem mbtPInstr_exec {v : Nat} {i : Instr} (h : mbtPInstr v = some i) (s : State) :
    exec i s = .next (typeWord (encode i).len (BitVec.ofNat 5 v) s) := by
  unfold mbtPInstr at h
  split at h <;> cases h <;> rfl

theorem mbtBInstr_exec {v : Nat} {i : Instr} (h : mbtBInstr v = some i) (s : State) :
    exec i s = .next (typeWord (encode i).len (BitVec.ofNat 5 v) s) := by
  unfold mbtBInstr at h
  split at h <;> cases h <;> rfl

theorem cbpInstr_exec {v : Nat} {i : Instr} (h : cbpInstr v = some i) (s : State) :
    exec i s = .next (patternWord (encode i).len (BitVec.ofNat 6 v) s) := by
  unfold cbpInstr at h
  split at h <;> cases h <;> rfl

/-- A code word of a type table, by the table's own map from flags to instructions (R272 to R274). -/
theorem typeWord_row {p : VlcPlace} {rows : List (Row (BitVec 5))} {instr : Nat → Option Instr}
    (table : wordRows p = rows.map fun r => ⟨r.len, r.bits, fun _ => instr r.sym.toNat⟩) (coefs : placeTable p ≠ .dct)
    (meaning : ∀ {v i}, instr v = some i → ∀ s, exec i s = .next (typeWord (encode i).len (BitVec.ofNat 5 v) s))
    {i : Instr} (place : channel i = .vlc p) {s : State} (h : s.br.InStep) :
    ∃ r ∈ rows, encode i = rowCode r ∧ exec i s =
      .next ({ s.ahead r.len with work := { s.work with mbType := r.sym } }.answering (.symbol (.mbType r.sym))) := by
  obtain ⟨r, mem, short, code, sym⟩ := exists_plainRow (instr := fun v : BitVec 5 => instr v.toNat) table coefs place
  refine ⟨r, mem, code, ?_⟩
  rw [meaning sym, code, BitVec.ofNat_toNat, BitVec.setWidth_eq, ← State.consumeBits_eq h r.len short]
  rfl

/-- Settles O11: each code word by the row of its table. -/
theorem typeAndPatternCodeWords : Obligations.TypeAndPatternCodeWords := by
  refine ⟨?_, fun i s place h => ?_⟩
  · rintro i s rows (⟨place, rfl⟩ | ⟨place, rfl⟩ | ⟨place, rfl⟩) h
    · exact typeWord_row rfl (by decide) mbtIInstr_exec place h
    · exact typeWord_row rfl (by decide) mbtPInstr_exec place h
    · exact typeWord_row rfl (by decide) mbtBInstr_exec place h
  · obtain ⟨r, mem, short, code, sym⟩ :=
      exists_plainRow (rows := tCbp) (instr := fun v : BitVec 6 => cbpInstr v.toNat) rfl (by decide) place
    refine ⟨r, mem, code, ?_⟩
    rw [cbpInstr_exec sym, code, BitVec.ofNat_toNat, BitVec.setWidth_eq, ← State.consumeBits_eq h r.len short]
    rfl

/-! ### `T_MOTION`, `T_DCL`, `T_DCC` -/

theorem motionInstr_exec {v : Nat} {sgn : Bool} {i : Instr} (h : motionInstr v sgn = some i) (s : State) :
    exec i s = .next (motionWord (encode i).len (applySign sgn v) s) := by
  unfold motionInstr at h
  split at h <;> cases h
  case h_1 => cases sgn <;> rfl
  all_goals rfl

/-- The sign bit follows every magnitude but 0 (R276). -/
theorem motionInstr_encode : ∀ r ∈ tMotion, ∀ sgn, ∀ i ∈ motionInstr r.sym sgn,
    encode i = if r.sym = 0 then rowCode r else signed r.len r.bits sgn := by decide

theorem dclInstr_exec {v : Nat} {i : Instr} (h : dclInstr v = some i) (s : State) :
    exec i s = .next (sizeWord (encode i).len v s) := by
  unfold dclInstr at h
  split at h <;> cases h <;> rfl

theorem dccInstr_exec {v : Nat} {i : Instr} (h : dccInstr v = some i) (s : State) :
    exec i s = .next (sizeWord (encode i).len v s) := by
  unfold dccInstr at h
  split at h <;> cases h <;> rfl

/-- A code word of a size table, by the table's own map from sizes to instructions (R277, R278). -/
theorem sizeWord_row {p : VlcPlace} {rows : List (Row Nat)} {instr : Nat → Option Instr}
    (table : wordRows p = rows.map fun r => ⟨r.len, r.bits, fun _ => instr r.sym⟩) (coefs : placeTable p ≠ .dct)
    (meaning : ∀ {v i}, instr v = some i → ∀ s, exec i s = .next (sizeWord (encode i).len v s))
    {i : Instr} (place : channel i = .vlc p) {s : State} (h : s.br.InStep) :
    ∃ r ∈ rows, encode i = rowCode r ∧ exec i s = .next ((s.ahead r.len).answering (.dcSize r.sym)) := by
  obtain ⟨r, mem, short, code, sym⟩ := exists_plainRow table coefs place
  refine ⟨r, mem, code, ?_⟩
  rw [meaning sym, code, ← State.consumeBits_eq h r.len short]
  rfl

/-- Settles O12: a motion code by the row of its magnitude and its sign, a size by the row of its table. -/
theorem motionAndSizeCodeWords : Obligations.MotionAndSizeCodeWords := by
  refine ⟨fun i s place h => ?_, ?_⟩
  · obtain ⟨q, entry, sgn, sym⟩ := exists_wordRow (by decide) place
    obtain ⟨r, mem, rfl⟩ := List.mem_map.1 entry
    have code := motionInstr_encode r mem sgn i sym
    have short : (encode i).len ≤ 32 := by
      have most := defaultTables_legal.motion.1 r mem
      rw [code]
      split <;> simp only [rowCode, signed] <;> omega
    refine ⟨r, mem, sgn, code, ?_⟩
    rw [motionInstr_exec sym, ← State.consumeBits_eq h _ short]
    rfl
  · rintro i s rows (⟨place, rfl⟩ | ⟨place, rfl⟩) h
    · exact sizeWord_row rfl (by decide) dclInstr_exec place h
    · exact sizeWord_row rfl (by decide) dccInstr_exec place h

/-! ### Coefficients -/

theorem coefRun0Instr_exec {mag : Nat} {sgn : Bool} {i : Instr} (h : coefRun0Instr mag sgn = some i) (s : State) :
    exec i s = .next (coefWord (encode i).len 0 mag sgn s) := by
  unfold coefRun0Instr at h
  split at h <;> cases h <;> rfl

theorem coefRun1Instr_exec {mag : Nat} {sgn : Bool} {i : Instr} (h : coefRun1Instr mag sgn = some i) (s : State) :
    exec i s = .next (coefWord (encode i).len 1 mag sgn s) := by
  unfold coefRun1Instr at h
  split at h <;> cases h <;> rfl

theorem coefRun2Instr_exec {mag : Nat} {sgn : Bool} {i : Instr} (h : coefRun2Instr mag sgn = some i) (s : State) :
    exec i s = .next (coefWord (encode i).len 2 mag sgn s) := by
  unfold coefRun2Instr at h
  split at h <;> cases h <;> rfl

theorem coefInstr_exec {run mag : Nat} {sgn : Bool} {i : Instr} (h : coefInstr run mag sgn = some i) (s : State) :
    exec i s = .next (coefWord (encode i).len run mag sgn s) := by
  unfold coefInstr at h
  split at h
  case h_1 => exact coefRun0Instr_exec h s
  case h_2 => exact coefRun1Instr_exec h s
  case h_3 => exact coefRun2Instr_exec h s
  case h_33 => cases h
  all_goals
    split at h <;> cases h <;> rfl

/-- A pair of `T_DCT` with its sign bit (R279). -/
theorem coefInstr_encode : ∀ r ∈ wordRows .coefNext, ∀ sgn, ∀ i ∈ r.sym sgn,
    encode i = signed r.len r.bits sgn := by decide

theorem sign_applySign (sgn : Bool) {mag : Nat} (pos : 1 ≤ mag) : decide (applySign sgn mag < 0) = sgn := by
  cases sgn with
  | false => exact decide_eq_false (show ¬(mag : Int) < 0 by omega)
  | true => exact decide_eq_true (show -(mag : Int) < 0 by omega)

theorem applySign_ne_zero (sgn : Bool) {mag : Nat} (pos : 1 ≤ mag) : applySign sgn mag ≠ 0 := by
  intro zero
  have magnitude := applySign_natAbs sgn mag
  rw [zero] at magnitude
  exact absurd magnitude (show 0 ≠ mag by omega)

theorem coefWord_eq {s : State} (h : s.br.InStep) {len : Nat} (short : len ≤ 32) (run mag : Nat) (sgn : Bool) :
    coefWord len run mag sgn s = (s.ahead len).answering (.coef (.pair run (applySign sgn mag))) := by
  rw [coefWord, State.consumeBits_eq h len short]
  rfl

/-- The code word of an entry of `T_DCT`, with its sign bit, is a code of the entry's pair (R279). -/
theorem codesPair_row {r : Row DctSymbol} {run mag : Nat} (mem : r ∈ tDct) (pair : r.sym = .pair run mag)
    (first sgn : Bool) : CodesPair tDct first run (applySign sgn mag) (signed r.len r.bits sgn) := by
  obtain ⟨-, pos, -⟩ := defaultTables_legal.pairs r mem run mag pair
  refine ⟨applySign_ne_zero sgn pos, .inl ⟨r, mem, by rw [applySign_natAbs, pair], ?_⟩⟩
  rw [sign_applySign sgn pos, signed]

/-- The short code word, with its sign bit, is a code of the pair (0, 1) (R280, R281). -/
theorem codesPair_short (rows : List (Row DctSymbol)) (first sgn : Bool) :
    CodesPair rows first 0 (applySign sgn 1) (if first then signed 1 0b1 sgn else signed 2 0b11 sgn) := by
  refine ⟨applySign_ne_zero sgn le_rfl, .inr (.inl ⟨rfl, applySign_natAbs sgn 1, ?_⟩)⟩
  rw [sign_applySign sgn le_rfl]
  rfl

/-- A coefficient code word of a pair: an entry's, or a short one (R279 to R281). -/
theorem coefWord_cases {i : Instr} (place : channel i = .vlc .coefFirst ∨ channel i = .vlc .coefNext) (notEnd : i ≠ .eob)
    (not20 : ∀ r l, i ≠ .coefEscape20 r l) (not28 : ∀ r z l, i ≠ .coefEscape28 r z l) :
    (∃ r ∈ tDct, ∃ run mag sgn,
        r.sym = .pair run mag ∧ coefInstr run mag sgn = some i ∧ encode i = signed r.len r.bits sgn) ∨
      (∃ s, i = .coefFirstR0L1 s) ∨ ∃ s, i = .coefNextR0L1 s := by
  obtain word | first | next | rfl | ⟨r, l, rfl⟩ | ⟨r, z, l, rfl⟩ := place.elim codeWord_cases codeWord_cases
  · obtain ⟨q, entry, -, sym⟩ := lookupWord_eq_some.1 word
    have code := coefInstr_encode q entry _ i sym
    obtain ⟨r, mem, rfl⟩ := List.mem_map.1 entry
    dsimp only at sym
    split at sym
    case h_1 run mag pair => exact .inl ⟨r, mem, run, mag, _, pair, sym, code⟩
    case h_2 => cases sym
  · exact .inr (.inl first)
  · exact .inr (.inr next)
  · exact absurd rfl notEnd
  · exact absurd rfl (not20 r l)
  · exact absurd rfl (not28 r z l)

/-- An escape with a level (45_block_decode_iq.md R304). -/
theorem escapeCoefWord_eq {s : State} (h : s.br.InStep) {len : Nat} (short : len ≤ 32) (run : Nat) {level : Int}
    (nonzero : level ≠ 0) : (escapeCoefWord len run level s).finish (fun c s => s.deliver (.coef c)) =
      .next ((s.ahead len).answering (.coef (.pair run level))) := by
  rw [escapeCoefWord, if_neg nonzero, State.consumeBits_eq h len short]
  rfl

/-- The level byte of a 20-bit escape is a signed number (R304). -/
theorem escapeLevel_toNat {l : BitVec 8} (notZero : l ≠ 0) (not80 : l ≠ 0x80) : escapeLevel l.toNat 0 = l.toInt := by
  have n0 : l.toNat ≠ 0x00 := fun e => notZero (BitVec.eq_of_toNat_eq e)
  have n80 : l.toNat ≠ 0x80 := fun e => not80 (BitVec.eq_of_toNat_eq e)
  rw [escapeLevel, if_neg n0, if_neg n80, BitVec.toInt_eq_toNat_cond]
  split <;> split <;> omega

/-- Settles O13: a pair is an entry of `T_DCT` with its sign or a short code, an escape its own level. -/
theorem coefficientCodeWords : Obligations.CoefficientCodeWords := by
  refine ⟨fun i s place notEnd h not20 not28 => ?_, fun s h => ?_, fun s r l h notZero not80 => ?_,
    fun s r z l h notZero => ?_, fun s r h => ?_⟩
  · obtain ⟨r, mem, run, mag, sgn, pair, word, code⟩ | ⟨sgn, rfl⟩ | ⟨sgn, rfl⟩ :=
      coefWord_cases place notEnd not20 not28
    · refine ⟨run, applySign sgn mag, code ▸ codesPair_row mem pair _ sgn, ?_⟩
      obtain ⟨-, most⟩ := defaultTables_legal.dct.1 r mem
      rw [coefInstr_exec word, coefWord_eq h (by rw [code]; exact Nat.succ_le_succ (most.trans (by norm_num)))]
    · exact ⟨0, applySign sgn 1, codesPair_short tDct true sgn,
        congrArg Host.Outcome.next (coefWord_eq h (by norm_num) 0 1 sgn)⟩
    · exact ⟨0, applySign sgn 1, codesPair_short tDct false sgn,
        congrArg Host.Outcome.next (coefWord_eq h (by norm_num) 0 1 sgn)⟩
  · rw [← State.consumeBits_eq h 2 (by norm_num)]
    rfl
  · have nonzero : l.toInt ≠ 0 := fun e => notZero (BitVec.eq_of_toInt_eq e)
    rw [← escapeLevel_toNat notZero not80] at nonzero ⊢
    exact escapeCoefWord_eq h (by norm_num) r.toNat nonzero
  · have level : escapeLevel (if z then 0x80 else 0x00) l.toNat = if z then (l.toNat : Int) - 256 else l.toNat := by
      cases z <;> rfl
    rw [← level]
    refine escapeCoefWord_eq h (by norm_num) r.toNat fun zero => notZero ?_
    cases z with
    | true => rw [level, if_pos rfl] at zero; omega
    | false => exact ⟨rfl, BitVec.eq_of_toNat_eq (Int.ofNat.inj (level.symm.trans zero))⟩
  · rw [← State.consumeBits_eq h 28 (by norm_num)]
    rfl

end Sys2Proof.Machine

/-!
PROOF. The bits that are no code word (44_vlc_decoder.md R283): with the prefixes that the spec lists the code words of a place
are complete, so that a window shows exactly one of them.
-/

namespace Sys2Proof.Machine

/-! ### Sets of codes that every bit string begins with one of -/

/-- The codes that begin with the bit `b`, without it. -/
def tails (b : Nat) (codes : List Code) : List Code :=
  (codes.filter fun c => decide (1 ≤ c.len ∧ c.bits / 2 ^ (c.len - 1) = b)).map
    fun c => ⟨c.len - 1, c.bits % 2 ^ (c.len - 1)⟩

/-- Bool test that every string of `depth` bits begins with one of some codes: the empty code is among them, or the test
holds behind either first bit. -/
def exhaustive : Nat → List Code → Bool
  | 0, codes => decide (⟨0, 0⟩ ∈ codes)
  | depth + 1, codes => decide (⟨0, 0⟩ ∈ codes) || exhaustive depth (tails 0 codes) && exhaustive depth (tails 1 codes)

/-- A code behind the first bit is a code with that bit before it. -/
theorem exists_of_tails {w off depth : Nat} {codes : List Code} (fit : off + (depth + 1) ≤ 64)
    (behind : ∃ c ∈ tails (bitsOf w off 1) codes, c.len ≤ depth ∧ bitsOf w (off + 1) c.len = c.bits) :
    ∃ c ∈ codes, c.len ≤ depth + 1 ∧ bitsOf w off c.len = c.bits := by
  obtain ⟨_, tail, short, bits⟩ := behind
  obtain ⟨c, mem, rfl⟩ := List.mem_map.1 tail
  obtain ⟨mem, test⟩ := List.mem_filter.1 mem
  obtain ⟨long, front⟩ := of_decide_eq_true test
  obtain ⟨n, len⟩ : ∃ n, c.len = 1 + n := Nat.exists_eq_add_of_le long
  simp only [len, Nat.add_sub_cancel_left] at front short bits
  refine ⟨c, mem, by omega, ?_⟩
  rw [len, bitsOf_add w (by omega), bits, ← front, Nat.div_add_mod']

theorem exists_of_exhaustive (w : Nat) {depth : Nat} : ∀ {off : Nat} {codes : List Code}, off + depth ≤ 64 →
    exhaustive depth codes = true → ∃ c ∈ codes, c.len ≤ depth ∧ bitsOf w off c.len = c.bits := by
  have empty {off depth : Nat} {codes : List Code} (mem : ⟨0, 0⟩ ∈ codes) :
      ∃ c ∈ codes, c.len ≤ depth ∧ bitsOf w off c.len = c.bits :=
    ⟨⟨0, 0⟩, mem, Nat.zero_le _, Nat.mod_one _⟩
  induction depth with
  | zero => exact fun _ test => empty (of_decide_eq_true test)
  | succ depth ih =>
    intro off codes fit test
    simp only [exhaustive, Bool.or_eq_true, Bool.and_eq_true, decide_eq_true_eq] at test
    obtain mem | ⟨zero, one⟩ := test
    · exact empty mem
    · refine exists_of_tails fit (ih (by omega) ?_)
      have bit := bitsOf_lt w off 1
      obtain e | e : bitsOf w off 1 = 0 ∨ bitsOf w off 1 = 1 := by omega
      · rwa [e]
      · rwa [e]

/-! ### The code words of a place -/

/-- The code words of a place that are not in its table: the two bits or three that only a coefficient has (R280, R281). -/
def shortWords (p : VlcPlace) : List Code :=
  match p with
  | .coefFirst => [⟨1, 0b1⟩]
  | .coefNext => [⟨2, 0b10⟩, ⟨2, 0b11⟩]
  | _ => []

/-- The code words of a place, without the sign bits behind them; `decodeVlc_of_placeWord` and `placeWord_of_decodeVlc`
tie them to the decoder. -/
def placeWords (p : VlcPlace) : List Code := shortWords p ++ (wordRows p).map rowCode

/-- The entries of a place's table have an instruction, but for the escape of the coefficients. -/
theorem wordRows_isSome (p : VlcPlace) : ∀ r ∈ wordRows p,
    (placeTable p = .dct ∧ rowCode r = ⟨6, 1⟩) ∨ ∀ sgn, (r.sym sgn).isSome = true := by
  cases p <;> decide

theorem decodeEscape_isSome (w : Nat) : ∃ i, decodeEscape w = some i := by
  unfold decodeEscape
  split <;> exact ⟨_, rfl⟩

theorem decodeVlc_coef_of_escape {p : VlcPlace} (coefs : placeTable p = .dct) {w : Nat} (h : bitsOf w 0 6 = 1) :
    ∃ i, decodeVlc p w = some i := by
  have zero : bitsOf w 0 1 = 0 := by rw [bitsOf_prefix w (n := 6) (by omega) (by omega), h]; rfl
  obtain ⟨first, next⟩ := decodeVlc_coef_of_zero zero
  rw [decodeCoef_of_escape h] at first next
  cases p with
  | coefFirst => exact first ▸ decodeEscape_isSome w
  | coefNext => exact next ▸ decodeEscape_isSome w
  | _ => cases coefs

/-- Where a code word of the place begins the window, the decoder answers. -/
theorem decodeVlc_of_placeWord {p : VlcPlace} {w : Nat} {c : Code} (mem : c ∈ placeWords p)
    (bits : bitsOf w 0 c.len = c.bits) : ∃ i, decodeVlc p w = some i := by
  obtain short | entry := List.mem_append.1 mem
  · cases p with
    | coefFirst =>
      cases List.mem_singleton.1 short
      exact ⟨_, if_pos ((bitAt_eq_iff w 0 true).2 bits)⟩
    | coefNext =>
      obtain rfl | rfl : c = ⟨2, 0b10⟩ ∨ c = ⟨2, 0b11⟩ := by simpa [shortWords] using short
      all_goals
        dsimp only at bits
        simp [decodeVlc, bits]
    | _ => cases short
  · obtain ⟨r, row, rfl⟩ := List.mem_map.1 entry
    obtain ⟨coefs, escape⟩ | some := wordRows_isSome p r row
    · rw [escape] at bits
      exact decodeVlc_coef_of_escape coefs bits
    · obtain ⟨i, sym⟩ := Option.isSome_iff_exists.1 (some (bitAt w r.len))
      exact ⟨i, decodeVlc_of_lookupWord (lookupWord_eq_some.2 ⟨r, row, bits, sym⟩)⟩

theorem mem_placeWords {p : VlcPlace} {r : Row (Bool → Option Instr)} (mem : r ∈ wordRows p) : rowCode r ∈ placeWords p :=
  List.mem_append_right _ (List.mem_map_of_mem mem)

/-- A table's answer is one of its code words. -/
theorem placeWord_of_lookupWord {p : VlcPlace} {w : Nat} {i : Instr} (h : lookupWord p w = some i) :
    ∃ c ∈ placeWords p, bitsOf w 0 c.len = c.bits := by
  obtain ⟨r, mem, bits, -⟩ := lookupWord_eq_some.1 h
  exact ⟨_, mem_placeWords mem, bits⟩

theorem placeWord_of_decodeCoef {p : VlcPlace} (coefs : wordRows p = wordRows .coefNext) {w : Nat} {i : Instr}
    (h : decodeCoef w = some i) : ∃ c ∈ placeWords p, bitsOf w 0 c.len = c.bits := by
  by_cases escape : bitsOf w 0 6 = 1
  · have entry : ⟨6, 1, fun _ => none⟩ ∈ wordRows p :=
      coefs ▸ List.mem_map.2 ⟨_, defaultTables_legal.escape, rfl⟩
    exact ⟨_, mem_placeWords entry, escape⟩
  · rw [decodeCoef_of_not_escape escape, lookupWord, ← coefs] at h
    exact placeWord_of_lookupWord h

/-- Where the decoder answers, a code word of the place begins the window. -/
theorem placeWord_of_decodeVlc {p : VlcPlace} {w : Nat} {i : Instr} (h : decodeVlc p w = some i) :
    ∃ c ∈ placeWords p, bitsOf w 0 c.len = c.bits := by
  cases p with
  | coefFirst =>
    simp only [decodeVlc] at h
    split at h
    case isTrue one => exact ⟨⟨1, 0b1⟩, by decide, (bitAt_eq_iff w 0 true).1 one⟩
    case isFalse => exact placeWord_of_decodeCoef (p := .coefFirst) rfl h
  | coefNext =>
    simp only [decodeVlc] at h
    split at h
    case h_1 bits => exact ⟨⟨2, 0b10⟩, by decide, bits⟩
    case h_2 bits => exact ⟨⟨2, 0b11⟩, by decide, bits⟩
    case h_3 => exact placeWord_of_decodeCoef rfl h
  | _ => exact placeWord_of_lookupWord ((decodeVlc_eq_lookupWord (by decide) (by decide) w).symm.trans h)

/-! ### Bits that are no code word -/

/-- A code, as an entry of a table. -/
def codeRow (c : Code) : Row Unit := ⟨c.len, c.bits, ()⟩

/-- Every string of 16 bits begins with a code word of the place or one of the prefixes of R283. -/
theorem placeWords_exhaustive (p : VlcPlace) : exhaustive 16 (placeWords p ++ invalidPrefixes p) = true := by
  cases p <;> decide

/-- Of the code words of a place and the prefixes of R283 none begins another. -/
theorem prefixCode_placeWords (p : VlcPlace) :
    PrefixCode ((placeWords p).map codeRow ++ (invalidPrefixes p).map codeRow) := by
  cases p <;> exact prefixCode_of_test _ (by decide)

theorem invalidPrefixes_short (p : VlcPlace) : ∀ c ∈ invalidPrefixes p, c.len ≤ 16 := by
  cases p <;> decide

/-- No instruction lies where one of the prefixes of R283 does, and nowhere else. -/
theorem decodeVlc_eq_none_iff (p : VlcPlace) (w : Nat) :
    decodeVlc p w = none ↔ ∃ c ∈ invalidPrefixes p, bitsOf w 0 c.len = c.bits := by
  constructor
  · intro undecoded
    obtain ⟨c, mem, -, bits⟩ := exists_of_exhaustive w (off := 0) (by norm_num) (placeWords_exhaustive p)
    obtain word | invalid := List.mem_append.1 mem
    · obtain ⟨i, decoded⟩ := decodeVlc_of_placeWord word bits
      exact absurd (undecoded.symm.trans decoded) (by simp)
    · exact ⟨c, invalid, bits⟩
  · rintro ⟨c, invalid, bits⟩
    refine Option.eq_none_iff_forall_ne_some.2 fun i decoded => ?_
    obtain ⟨d, word, found⟩ := placeWord_of_decodeVlc decoded
    obtain ⟨lens, apart⟩ := prefixCode_placeWords p
    have wordRow := List.mem_map_of_mem (f := codeRow) word
    obtain ⟨-, most⟩ := lens _ (List.mem_append_left _ wordRow)
    obtain ⟨-, -, apart⟩ := List.pairwise_append.1 apart
    have short := invalidPrefixes_short p c invalid
    exact (apart _ wordRow _ (List.mem_map_of_mem invalid)).bitsOf_ne (most.trans (by norm_num))
      (short.trans (by norm_num)) found bits

/-- The first bits of a window, in the terms of R283. -/
theorem beginsWith_iff {w : Nat} (hw : w < 2 ^ 64) {c : Code} (short : c.len ≤ 16) :
    beginsWith 64 w c ↔ bitsOf w 0 c.len = c.bits := by
  rw [bitsOf_eq_div hw]
  exact and_iff_right (short.trans (by norm_num))

/-! ### The window under the cursor -/

/-- The window of a reader in step is the next 64 bits of its stream (40_bit_reader.md R176). -/
theorem Reader.InStep.window {r : Reader} (h : r.InStep) : r.window = streamBits r.source r.bitpos 64 := by
  have read (pos : Nat) := (Reader.atBit_inStep r.source pos).get 16 (by norm_num)
  rw [show (64 : Nat) = 16 + 16 + 16 + 16 from rfl, streamBits_add, streamBits_add, streamBits_add]
  simp only [Reader.window, h.get 16 (by norm_num), read, Reader.atBit_source, Reader.atBit_bitpos, Nat.add_assoc]

/-- The first bits of the window are the upcoming ones. -/
theorem Reader.InStep.bitsOf_window {s : State} (h : s.br.InStep) {n : Nat} (hn : n ≤ 64) :
    bitsOf s.br.window 0 n = s.upcoming 0 n := by
  rw [h.window, bitsOf_eq_div (streamBits_lt ..), ← streamBits_prefix _ _ _ _ hn]
  rfl

/-- Settles O6: every string of bits begins with just one of the code words of a place and the prefixes of R283. -/
theorem invalidCodeWordsRaise : Obligations.InvalidCodeWordsRaise := by
  refine ⟨fun p w hw => (decodeVlc_eq_none_iff p w).trans ?_, fun p s rest c bench h mem bits => ?_⟩
  · exact exists_congr fun c => and_congr_right fun mem => (beginsWith_iff hw (invalidPrefixes_short p c mem)).symm
  · have fits := (invalidPrefixes_short p c mem).trans (show 16 ≤ 64 by norm_num)
    have undecoded : decode (.vlc p) s.br.window = none :=
      (decodeVlc_eq_none_iff p _).2 ⟨c, mem, (h.bitsOf_window fits).trans bits⟩
    simp [step, bench, runBenchItem, BenchItem.fetch, BenchItem.channel, BenchItem.window, undecoded, noInstruction]

end Sys2Proof.Machine

/-!
PROOF. One block (45_block_decode_iq.md): the DC differential and the predictor, a coefficient by its codes, the inverse
quantiser, and whole blocks over any list of pairs.
-/

namespace Sys2Proof.Machine

/-! ### The DC differential -/

/-- "Negate if top bit clear" is a comparison with the half of the range (R301). -/
theorem dcDifferential_eq {size v : Nat} (fits : v < 2 ^ size) : dcDifferential size v = differential size v := by
  cases size with
  | zero => rfl
  | succ n =>
    have top : v.testBit n = true ↔ 2 ^ n ≤ v :=
      ⟨Nat.ge_two_pow_of_testBit, fun le => Nat.testBit_of_two_pow_le_and_two_pow_add_one_gt le fits⟩
    simp only [dcDifferential, differential, Nat.add_sub_cancel, top]

/-- The table of a block's sizes, as its faults name it (R301). -/
def sizeTableOf (b : BlockNo) : Table := if b.val < 4 then .dcl else .dcc

theorem sizeTableOf_number (b : BlockNo) : (sizeTableOf b).number = if b.val < 4 then 7 else 8 := by
  unfold sizeTableOf
  split <;> rfl

theorem State.Decoding.sizeTable {s : State} (h : s.Decoding) (b : BlockNo) : PrefixCode (s.sizeTable b) := by
  unfold State.sizeTable
  split
  · exact h.tables.dcl
  · exact h.tables.dcc

theorem State.Decoding.size_le {s : State} (h : s.Decoding) {b : BlockNo} {r : Row Nat} (mem : r ∈ s.sizeTable b) :
    r.sym ≤ 8 := by
  unfold State.sizeTable at mem
  split at mem
  · exact h.tables.sizes r (List.mem_append_left _ mem)
  · exact h.tables.sizes r (List.mem_append_right _ mem)

theorem dcDiff_eq (b : BlockNo) (s : State) :
    dcDiff b s = (vlc (s.sizeTable b) (sizeTableOf b) s).bind fun size s =>
      if size = 0 then .ok 0 s else .ok (dcDifferential size (s.getBits size).1) (s.getBits size).2 := by
  unfold dcDiff State.sizeTable sizeTableOf
  split <;> rfl

theorem dcDiff_of_mem {s : State} (h : s.Decoding) {b : BlockNo} {r : Row Nat} (mem : r ∈ s.sizeTable b)
    (bits : s.upcoming 0 r.len = r.bits) :
    dcDiff b s = .ok (differential r.sym (s.upcoming r.len r.sym)) (s.ahead (r.len + r.sym)) := by
  rw [dcDiff_eq, vlc_of_mem (h.sizeTable b) _ h.reader mem bits, Res.bind_ok]
  by_cases zero : r.sym = 0
  · rw [if_pos zero, zero]
    rfl
  · rw [if_neg zero, State.getBits_eq (s.ahead_inStep r.len) r.sym ((h.size_le mem).trans (by norm_num)),
      State.ahead_upcoming, State.ahead_ahead, Nat.add_zero, dcDifferential_eq (s.upcoming_lt ..)]

theorem dcDiff_of_none {s : State} (h : s.Decoding) {b : BlockNo} (none : ∀ r ∈ s.sizeTable b, s.upcoming 0 r.len ≠ r.bits) :
    dcDiff b s = .raised .vlcInvalid (if b.val < 4 then 7 else 8) s := by
  rw [dcDiff_eq, vlc_of_none (h.sizeTable b) _ h.reader none, sizeTableOf_number]
  rfl

/-! ### The DC of a block -/

theorem component_val : ∀ b : BlockNo, (component b).val = if b.val < 4 then 0 else b.val - 3 := by decide

theorem setIfInBounds_eq_set {α : Type} {n i : Nat} (xs : Vector α n) (v : α) (inside : i < n) :
    xs.setIfInBounds i v = xs.set i v inside := by
  ext j
  rw [Vector.getElem_setIfInBounds, Vector.getElem_set]

/-- The state inside a block: `o` bits are read, and only the working registers and the blocks changed. -/
def State.inBlock (s : State) (o : Nat) (w : Working) (k : Vector Block 6) : State := { s.ahead o with work := w, blk := k }

theorem State.inBlock_zero {s : State} (h : s.br.InStep) : s.inBlock 0 s.work s.blk = s := State.ahead_zero h

theorem State.inBlock_ahead (s : State) (o n : Nat) (w : Working) (k : Vector Block 6) :
    (s.inBlock o w k).ahead n = s.inBlock (o + n) w k :=
  congrArg (fun t : State => { t with work := w, blk := k }) (s.ahead_ahead o n)

theorem State.inBlock_upcoming (s : State) (o : Nat) (w : Working) (k : Vector Block 6) (n : Nat) :
    (s.inBlock o w k).upcoming 0 n = s.upcoming o n := s.ahead_upcoming o 0 n

theorem State.Decoding.inBlock {s : State} (h : s.Decoding) (o : Nat) (w : Working) (k : Vector Block 6) :
    (s.inBlock o w k).Decoding := ⟨s.ahead_inStep o, h.params⟩

/-- The working registers with the predictor of a block's component replaced (R302). -/
def Working.withDc (w : Working) (b : BlockNo) (p : BitVec 32) : Working := { w with dcPred := w.dcPred.set (component b) p }

/-- The predictor of a block's component, moved by a differential (R302). -/
def Working.movedDc (w : Working) (b : BlockNo) (diff : Int) : BitVec 32 := w.dcPred[component b] + BitVec.ofInt 32 diff

theorem intraDc_of_mem {s : State} (h : s.Decoding) {b : BlockNo} {r : Row Nat} {p : BitVec 32} (mem : r ∈ s.sizeTable b)
    (bits : s.upcoming 0 r.len = r.bits) (moved : p = s.work.movedDc b (differential r.sym (s.upcoming r.len r.sym))) :
    intraDc b s = .ok () (s.inBlock (r.len + r.sym) (s.work.withDc b p)
      (s.blk.set b (s.blk[b].set 0 ((p <<< 3).truncate 16)))) := by
  rw [intraDc, dcDiff_of_mem h mem bits, Res.bind_ok, ← setIfInBounds_eq_set s.blk[b], moved]
  rfl

theorem intraDc_of_none {s : State} (h : s.Decoding) {b : BlockNo}
    (none : ∀ r ∈ s.sizeTable b, s.upcoming 0 r.len ≠ r.bits) :
    intraDc b s = .raised .vlcInvalid (if b.val < 4 then 7 else 8) s := by
  rw [intraDc, dcDiff_of_none h none]
  rfl

theorem vldDcDiff_exec (b : BlockNo) (s : State) :
    exec (.vldDcDiff b) s = (dcDiff b s).finish fun v s => s.deliver (.dcDiff v) := rfl

theorem iqIntraDc_exec (b : BlockNo) (s : State) : exec (.iqIntraDc b) s = (intraDc b s).finish noResult := rfl

/-- Settles O25: the size is the one entry that begins the upcoming bits, the differential the bits behind it. -/
theorem dcDifferential' : Obligations.DcDifferential := by
  refine fun b s h => ⟨fun r mem bits => ⟨?_, component b, component_val b, _, rfl, ?_⟩, fun none => ⟨?_, ?_⟩⟩
  · rw [vldDcDiff_exec, dcDiff_of_mem h mem bits]
    rfl
  · rw [iqIntraDc_exec, intraDc_of_mem h mem bits rfl]
    rfl
  · rw [vldDcDiff_exec, dcDiff_of_none h none]
    rfl
  · rw [iqIntraDc_exec, intraDc_of_none h none]
    rfl

/-! ### One coefficient -/

theorem vldCoef_exec (first : Bool) (s : State) :
    exec (.vldCoef first) s = (coef first s).finish fun c s => s.deliver (.coef c) := rfl

theorem vldEscape_exec (s : State) : exec .vldEscape s = (escape s).finish fun c s => s.deliver (.coef c) := rfl

/-- An escape of one level byte (R304). -/
theorem escape_short {s : State} (h : s.br.InStep) (nonzero : s.upcoming 6 8 ≠ 0) (not80 : s.upcoming 6 8 ≠ 0x80) :
    escape s = .ok (.pair (s.upcoming 0 6) (escapeLevel (s.upcoming 6 8) 0)) (s.ahead 14) := by
  rw [escape_eq h, if_neg (not_or.2 ⟨nonzero, not80⟩)]

/-- An escape of two level bytes (R304). -/
theorem escape_long {s : State} (h : s.br.InStep) (selects : s.upcoming 6 8 = 0 ∨ s.upcoming 6 8 = 0x80) {level : Int}
    (value : escapeLevel (s.upcoming 6 8) (s.upcoming 14 8) = level) :
    escape s = if level = 0 then .raised .escLevelZero (s.upcoming 0 6) (s.ahead 22)
      else .ok (.pair (s.upcoming 0 6) level) (s.ahead 22) := by
  rw [escape_eq h, if_pos selects, value]

/-- Settles O26: each code is read as its pair, and the first level byte selects the escape. -/
theorem vldCoefAndEscape : Obligations.VldCoefAndEscape := by
  refine ⟨fun first s run level c h code bits => ?_, fun s h bits => ?_, fun first s cause info used h raises => ?_,
    fun s run v lo h hrun hv hlo => ?_⟩
  · rw [vldCoef_exec, coef_pair h code bits]
    rfl
  · rw [vldCoef_exec, coef_eob h bits]
    rfl
  · rw [vldCoef_exec, coef_raises h first raises]
    rfl
  · subst hrun hv hlo
    have second := s.upcoming_lt 14 8
    refine ⟨fun pos low => ?_, fun high => ?_, fun is80 => ?_, fun zero pos => ?_, fun zero none => ?_⟩
    · rw [vldEscape_exec, escape_short h (by omega) (by omega), escapeLevel, if_neg (by omega), if_neg (by omega),
        if_neg (by omega)]
      rfl
    · rw [vldEscape_exec, escape_short h (by omega) (by omega), escapeLevel, if_neg (by omega), if_neg (by omega),
        if_pos high]
      rfl
    · rw [vldEscape_exec, escape_long h (.inr is80) (level := (s.upcoming 14 8 : Int) - 256) (by rw [is80]; rfl),
        if_neg (by omega)]
      rfl
    · rw [vldEscape_exec, escape_long h (.inl zero) (level := s.upcoming 14 8) (by rw [zero]; rfl), if_neg (by omega)]
      rfl
    · rw [vldEscape_exec, escape_long h (.inl zero) (level := 0) (by rw [zero, none]; rfl), if_pos rfl]
      rfl

/-! ### The inverse quantiser -/

theorem applySign_eq_withSignOf (level : Int) (m : Nat) : applySign (decide (level < 0)) m = withSignOf level m := by
  simp only [applySign, withSignOf, decide_eq_true_eq]

theorem dqIntra_eq (zero : Config.OddifyZero) (level : Int) (qs w : Nat) :
    dqIntra zero level qs w = withSignOf level (oddMagnitude zero (level.natAbs * qs * w / 8)) := by
  rw [dqIntra, oddSat_eq, applySign_eq_withSignOf]

theorem dqInter_eq (zero : Config.OddifyZero) (level : Int) (qs w : Nat) :
    dqInter zero level qs w = withSignOf level (oddMagnitude zero ((2 * level.natAbs + 1) * qs * w / 16)) := by
  rw [dqInter, oddSat_eq, applySign_eq_withSignOf]

/-- Settles O27: the three operations are the formulas of R309 to R311. -/
theorem dequantiser : Obligations.Dequantiser := by
  refine fun s level qs w m => ⟨?_, ?_, ?_⟩
  · rw [← dqIntra_eq]
    rfl
  · rw [← dqInter_eq]
    rfl
  · rw [← oddSat_eq]
    rfl

theorem oddMagnitude_le (zero : Config.OddifyZero) (m : Nat) : oddMagnitude zero m ≤ 2047 := by
  unfold oddMagnitude
  split
  · split <;> norm_num
  · split <;> exact min_le_right ..

/-- A magnitude is odd, but that of a product of 0 where `ODDIFY_ZERO` keeps it (R311, R312). -/
theorem oddMagnitude_odd (zero : Config.OddifyZero) (m : Nat) :
    oddMagnitude zero m % 2 = 1 ∨ (zero ≠ .toOne ∧ oddMagnitude zero m = 0) := by
  unfold oddMagnitude
  by_cases none : m = 0
  · rw [if_pos none]
    by_cases one : zero = .toOne
    · exact .inl (by rw [if_pos one])
    · exact .inr ⟨one, if_neg one⟩
  · rw [if_neg none]
    refine .inl ?_
    split <;> omega

/-- What a magnitude makes of a value with the sign of a level (R312, R313). -/
theorem withSignOf_oddMagnitude {level v : Int} (nonzero : level ≠ 0) {zero : Config.OddifyZero} {m : Nat}
    (value : v = withSignOf level (oddMagnitude zero m)) :
    -2047 ≤ v ∧ v ≤ 2047 ∧ (zero = .toOne → v % 2 = 1) ∧ (v % 2 = 1 ∨ v = 0) ∧ (0 < v → 0 < level) ∧ (v < 0 → level < 0) := by
  have bound := oddMagnitude_le zero m
  obtain odd | ⟨kept, none⟩ := oddMagnitude_odd zero m
  · rw [value, withSignOf]
    split <;> omega
  · simp [value, withSignOf, none, kept]

/-- Settles O28: oddification and saturation bound the magnitude, and the level gives the sign. -/
theorem dequantisedIsOddAndBounded : Obligations.DequantisedIsOddAndBounded := by
  intro s i level qs w op nonzero
  have nonzero' : level.toInt ≠ 0 := fun e => nonzero (BitVec.eq_of_toInt_eq e)
  obtain ⟨intra, inter, -⟩ := dequantiser s level qs w 0
  obtain rfl | rfl := op
  · exact ⟨_, intra, withSignOf_oddMagnitude nonzero' rfl⟩
  · exact ⟨_, inter, withSignOf_oddMagnitude nonzero' rfl⟩

/-! ### Whole blocks -/

/-- Where the pairs of a block go and what they store is settled before the block (R305, R306). -/
theorem State.inBlock_placesPairs (s : State) {w : Working} (scale : w.quantizerScale = s.work.quantizerScale) (o : Nat)
    (k : Vector Block 6) {intra : Bool} {pairs : List (Nat × Int)} {old blk : Block} :
    (s.inBlock o w k).PlacesPairs intra pairs old blk ↔ s.PlacesPairs intra pairs old blk := by
  obtain ⟨q⟩ := w
  dsimp only at scale
  subst scale
  rfl

/-- The coefficient loop of a block from its first index on: some pairs, then the end of block or a fault (R305 to
R308). -/
theorem coefLoop_block (intra : Bool) (b : BlockNo) {first : Bool} {s : State} (h : s.Decoding) {ps : List (Nat × Int)}
    {cs : List Code} (o : Nat) {next : Nat} {w : Working} (scale : w.quantizerScale = s.work.quantizerScale) (k : Vector Block 6)
    (start : next ≤ 64) (codes : CodePairs s.params.tables.dct first ps cs) (hold : s.Holds o cs)
    (inside : ∀ q ∈ pairIndexes next ps, q.1 ≤ 63) :
    ∃ blk, s.PlacesPairs intra (pairIndexes next ps) k[b] blk ∧
      ((first && ps.isEmpty) = false → s.upcoming (o + bitCount cs) 2 = 0b10 →
        coefLoop intra b 65 next first (s.inBlock o w k) = .ok () (s.inBlock (o + bitCount cs + 2) w (k.set b blk))) ∧
      ∀ cause info used, s.PairRaises b (first && ps.isEmpty) (indexAfter next ps) (o + bitCount cs) cause info used →
        coefLoop intra b 65 next first (s.inBlock o w k) =
          .raised cause info (s.inBlock (o + bitCount cs + used) w (k.set b blk)) := by
  obtain ⟨least, most⟩ := pairIndexes_length ps next inside start
  obtain ⟨fuel, bound⟩ : ∃ fuel, 65 = fuel + 1 + ps.length := ⟨64 - ps.length, by omega⟩
  have hold' : (s.inBlock o w k).Holds 0 cs :=
    (State.holds_congr (s := s.inBlock o w k) (t := s.ahead o) rfl cs 0).2 ((s.ahead_holds o cs 0).2 hold)
  obtain ⟨blk, places, pairs⟩ := coefLoop_pairs intra b ps cs next (fuel + 1) first _ (h.inBlock o w k) codes hold' inside
  have behind : ({ (s.inBlock o w k).ahead (bitCount cs) with blk := (s.inBlock o w k).blk.set b blk } : State) =
      s.inBlock (o + bitCount cs) w (k.set b blk) := by
    rw [State.inBlock_ahead]
    rfl
  have decoding := h.inBlock (o + bitCount cs) w (k.set b blk)
  rw [bound, pairs, behind]
  refine ⟨blk, (s.inBlock_placesPairs scale o k).1 places, fun more bits => ?_, fun cause info used raises => ?_⟩
  · rw [more, coefLoop_end decoding ((s.inBlock_upcoming ..).trans bits), State.inBlock_ahead]
  · rw [coefLoop_raises decoding raises.ahead, State.inBlock_ahead]

/-- Pairs behind the first index leave the DC alone. -/
theorem State.PlacesPairs.dc {s : State} (h : Params.Legal s.params) {intra : Bool} {ps : List (Nat × Int)} {old blk : Block}
    (places : s.PlacesPairs intra (pairIndexes 1 ps) old blk) (inside : ∀ q ∈ pairIndexes 1 ps, q.1 ≤ 63) :
    blk[0] = old[0] := by
  obtain ⟨-, others⟩ := places
  have first : s.zigzag 0 = 0 := congrArg Fin.val h.first
  have kept := others 0 (by norm_num) fun q mem here => by
    have behind := pairIndexes_ge ps 1 q mem
    have within := inside q mem
    have same := State.zigzag_inj h (by omega) (by norm_num) (here.trans first.symm)
    omega
  simpa using kept

theorem seqIntraBlock_exec (b : BlockNo) (s : State) : exec (.seqIntraBlock b) s = (intraBlock b s).finish noResult := rfl

theorem seqInterBlock_exec (b : BlockNo) (s : State) : exec (.seqInterBlock b) s = (interBlock b s).finish noResult := rfl

/-- Settles O29: the DC, then the coefficient loop from index 1 on. -/
theorem intraBlock' : Obligations.IntraBlock := by
  refine ⟨fun b s r ps cs o h mem bits start codes hold inside => ?_, fun b s h none => ?_⟩
  · subst start
    set p := s.work.movedDc b (differential r.sym (s.upcoming r.len r.sym)) with moved
    obtain ⟨blk, places, ends, raises⟩ := coefLoop_block true b h (r.len + r.sym)
      (w := s.work.withDc b p) rfl (s.blk.set b (s.blk[b].set 0 ((p <<< 3).truncate 16))) (by norm_num) codes hold inside
    rw [Fin.getElem_fin, Vector.getElem_set_self] at places
    rw [Vector.set_set] at ends raises
    refine ⟨component b, component_val b, p, blk, moved, ?_, places, fun bits' => ?_, fun cause info used raise => ?_⟩
    · rw [places.dc h.params inside, Vector.getElem_set_self]
    · rw [seqIntraBlock_exec, intraBlock, intraDc_of_mem h mem bits moved, Res.bind_ok, ends rfl bits']
      rfl
    · rw [seqIntraBlock_exec, intraBlock, intraDc_of_mem h mem bits moved, Res.bind_ok, raises cause info used raise]
      rfl
  · rw [seqIntraBlock_exec, intraBlock, intraDc_of_none h none]
    rfl

/-- Settles O30: the coefficient loop from index 0 on, which ends behind a first pair only. -/
theorem interBlock' : Obligations.InterBlock := by
  intro b s ps cs h codes hold inside
  obtain ⟨blk, places, ends, raises⟩ := coefLoop_block false b h 0 (w := s.work) rfl s.blk (by norm_num) codes hold inside
  simp only [State.inBlock_zero h.reader, Bool.true_and, Nat.zero_add] at ends raises
  refine ⟨blk, places, fun more bits => ?_, fun cause info used raise => ?_⟩
  · rw [seqInterBlock_exec, interBlock, ends (List.isEmpty_eq_false_iff.2 more) bits]
    rfl
  · rw [seqInterBlock_exec, interBlock, raises cause info used raise]
    rfl

end Sys2Proof.Machine

/-!
PROOF. Motion vectors (46_motion_vectors.md R333 to R340): the residual of a code as a field of its own, one vector component
from its predictor and its bits, and the window that a component stays in.
-/

namespace Sys2Proof.Machine

/-! ### The residual field -/

/-- A residual behind a code that is not 0 (R334). -/
theorem motionResidual_delta {s : State} (h : s.br.InStep) (n : BitVec 3) (r : BitVec 6)
    (nonzero : s.assembly.motionCode ≠ 0) : exec (.motionResidual n r) s =
      .next ((s.ahead n.toNat).answering (.motion
        (withSignOf s.assembly.motionCode (motionDelta s.assembly.motionCode n.toNat r.toNat)))) := by
  rw [← applySign_eq_withSignOf, ← State.consumeBits_eq h n.toNat (by omega)]
  exact if_neg nonzero

/-- A residual behind a code of 0, which has no delta (log 5). -/
theorem motionResidual_bits {s : State} (h : s.br.InStep) (n : BitVec 3) (r : BitVec 6)
    (zero : s.assembly.motionCode = 0) :
    exec (.motionResidual n r) s = .next ((s.ahead n.toNat).answering (.bits r.toNat)) := by
  rw [← State.consumeBits_eq h n.toNat (by omega)]
  exact if_pos zero

/-- Settles O17: the delta is `motionDelta` with the sign of the code, the differential that of a block's DC. -/
theorem residualAndDifferentialFields : Obligations.ResidualAndDifferentialFields := by
  refine ⟨fun s n r h nonzero => motionResidual_delta h n r nonzero,
    fun s n r h zero => motionResidual_bits h n r zero, fun s n d h _ _ fits => ?_⟩
  rw [← dcDifferential_eq fits, ← State.consumeBits_eq h n.toNat (by omega)]
  rfl

/-! ### One component -/

/-- A component in the units of its mode: the base moved by the delta of a code that is not 0, and corrected once (R333 to
R336). -/
def movedVector (base code : Int) (rangeSize residual : Nat) : Int :=
  if code = 0 then base
  else wrapVector (16 * 2 ^ rangeSize)
    (if 0 < code then base + motionDelta code rangeSize residual else base - motionDelta code rangeSize residual)

/-- Full-pel mode halves the predictor and doubles the result (R337). -/
theorem reconstructVector_eq (pred code : Int) (rangeSize residual : Nat) (fullPel : Bool) :
    reconstructVector pred code rangeSize residual fullPel =
      if fullPel then 2 * movedVector (if fullPel then pred / 2 else pred) code rangeSize residual
      else movedVector (if fullPel then pred / 2 else pred) code rangeSize residual := rfl

/-- The movement by a magnitude and its sign bit. -/
theorem movedVector_applySign (base : Int) (negative : Bool) {mag : Nat} (pos : 1 ≤ mag) (rangeSize residual : Nat) :
    movedVector base (applySign negative mag) rangeSize residual =
      wrapVector (16 * 2 ^ rangeSize)
        (if negative then base - ((mag - 1) * 2 ^ rangeSize + residual + 1 : Nat)
        else base + ((mag - 1) * 2 ^ rangeSize + residual + 1 : Nat)) := by
  rw [movedVector, if_neg (applySign_ne_zero negative pos), motionDelta, applySign_natAbs]
  cases negative
  · exact congrArg _ (if_pos (Int.natCast_pos.2 pos))
  · exact congrArg _ (if_neg (Int.not_lt.2 (Int.neg_nonpos_of_nonneg (Int.natCast_nonneg mag))))

/-- A magnitude of 0 has neither sign nor residual (R333). -/
theorem decodeMotionVector_of_zero {s : State} (h : s.Decoding) {r : Row Nat} (mem : r ∈ s.params.tables.motion)
    (bits : s.upcoming 0 r.len = r.bits) (zero : r.sym = 0) (pred : Int) (n : Nat) (fullPel : Bool) :
    decodeMotionVector pred n fullPel s = .ok (reconstructVector pred 0 n 0 fullPel) (s.ahead r.len) := by
  rw [decodeMotionVector, motionCode_of_mem h mem bits, if_pos zero, Res.bind_ok, if_pos rfl]

/-- Any other magnitude is followed by its sign and the residual (R334, R335). -/
theorem decodeMotionVector_of_nonzero {s : State} (h : s.Decoding) {r : Row Nat} (mem : r ∈ s.params.tables.motion)
    (bits : s.upcoming 0 r.len = r.bits) (nonzero : r.sym ≠ 0) (pred : Int) {n : Nat} (hn : n ≤ 32) (fullPel : Bool) :
    decodeMotionVector pred n fullPel s =
      .ok (reconstructVector pred (applySign (s.upcoming r.len 1 == 1) r.sym) n (s.upcoming (r.len + 1) n) fullPel)
        (s.ahead (r.len + 1 + n)) := by
  rw [decodeMotionVector, motionCode_of_mem h mem bits, if_neg nonzero, Res.bind_ok,
    if_neg (applySign_ne_zero _ (Nat.pos_of_ne_zero nonzero)), State.getBits_eq (s.ahead_inStep _) n hn,
    State.ahead_upcoming, State.ahead_ahead, Nat.add_zero]

theorem mvrDecode_exec (d : Direction) (c : Axis) (n : BitVec 3) (fullPel : Bool) (s : State) :
    exec (.mvrDecode d c n fullPel) s = (decodeComponent d c n.toNat fullPel s).finish fun v s => s.deliver (.motion v) := rfl

section
variable {s t : State} {d : Direction} {c : Axis} {n : BitVec 3} {fullPel : Bool}

/-- `MVR_DECODE` replaces the predictor by the component (R339). -/
theorem mvrDecode_of_ok {v : Int} (ok : decodeMotionVector (s.work.pmv.get d c) n.toNat fullPel s = .ok v t) :
    exec (.mvrDecode d c n fullPel) s = .next ((t.setPmv d c v).deliver (.motion v)) := by
  rw [mvrDecode_exec, decodeComponent, ok]
  rfl

theorem mvrDecode_of_none (h : s.Decoding) (none : ∀ r ∈ s.params.tables.motion, s.upcoming 0 r.len ≠ r.bits) :
    exec (.mvrDecode d c n fullPel) s = .next (faultEntry .vlcInvalid 6 s) := by
  rw [mvrDecode_exec, decodeComponent, decodeMotionVector, motionCode_of_none h none]
  rfl

end

/-- Settles O31: the code is that of `motionCode()`, and what it does to the predictor is `movedVector`. -/
theorem motionVectorDecode : Obligations.MotionVectorDecode := by
  refine fun d c n fullPel s h => ⟨fun r mem bits => ?_, mvrDecode_of_none h⟩
  by_cases zero : r.sym = 0
  · have decoded := decodeMotionVector_of_zero h mem bits zero (s.work.pmv.get d c) n.toNat fullPel
    exact ⟨r.len, _, movedVector _ 0 n.toNat 0, _, mvrDecode_of_ok decoded, rfl, reconstructVector_eq .., fun _ => ⟨rfl, rfl⟩,
      fun nonzero => absurd zero nonzero⟩
  · have decoded := decodeMotionVector_of_nonzero h mem bits zero (s.work.pmv.get d c) (n := n.toNat) (by omega) fullPel
    refine ⟨r.len + 1 + n.toNat, _, movedVector _ _ n.toNat _, _, mvrDecode_of_ok decoded, rfl, reconstructVector_eq ..,
      fun e => absurd e zero, fun _ => ⟨rfl, _, _, _, rfl, rfl, rfl, ?_⟩⟩
    simp only [movedVector_applySign _ _ (Nat.pos_of_ne_zero zero), wrapVector, beq_iff_eq]

/-! ### The window -/

/-- One correction brings a value back that is off by at most half the width of the window (R336). -/
theorem wrapVector_window {lim raw : Int} (low : -2 * lim ≤ raw) (high : raw < 2 * lim) :
    -lim ≤ wrapVector lim raw ∧ wrapVector lim raw < lim := by
  unfold wrapVector
  split
  · omega
  · split <;> omega

/-- A delta is at most half the width of the window, so that one correction is enough (R336). -/
theorem motionDelta_le {code : Int} {n residual : Nat} (hc : code.natAbs ≤ 16) (hr : residual < 2 ^ n) :
    motionDelta code n residual ≤ 16 * 2 ^ n := by
  have scaled : (code.natAbs - 1) * 2 ^ n ≤ 15 * 2 ^ n := Nat.mul_le_mul_right _ (by omega)
  unfold motionDelta
  omega

/-- The window that R340 speaks of, in the units of the mode. -/
theorem movedVector_window {base code : Int} {n residual : Nat} (low : -(16 * 2 ^ n) ≤ base) (high : base < 16 * 2 ^ n)
    (hc : code.natAbs ≤ 16) (hr : residual < 2 ^ n) :
    -(16 * 2 ^ n) ≤ movedVector base code n residual ∧ movedVector base code n residual < 16 * 2 ^ n := by
  have delta : (motionDelta code n residual : Int) ≤ 16 * 2 ^ n := by exact_mod_cast motionDelta_le hc hr
  unfold movedVector
  split
  · exact ⟨low, high⟩
  · split
    · exact wrapVector_window (by omega) (by omega)
    · exact wrapVector_window (by omega) (by omega)

/-- What `MVR_DECODE` leaves in its predictor: what stood there, or the component of some code and residual. -/
theorem mvrDecode_predictor {d : Direction} {c : Axis} {n : BitVec 3} {fullPel : Bool} {s t : State} (h : s.Decoding)
    (next : exec (.mvrDecode d c n fullPel) s = .next t) :
    t.work.pmv.get d c = s.work.pmv.get d c ∨ ∃ (code : Int) (residual : Nat), code.natAbs ≤ 16 ∧ residual < 2 ^ n.toNat ∧
      t.work.pmv.get d c = reconstructVector (s.work.pmv.get d c) code n.toNat residual fullPel := by
  have left {v : Int} {u : State} (ok : decodeMotionVector (s.work.pmv.get d c) n.toNat fullPel s = .ok v u) :
      t.work.pmv.get d c = v := by
    obtain rfl := Host.Outcome.next.inj (next.symm.trans (mvrDecode_of_ok ok))
    rw [State.deliver_work, State.setPmv_pmv, Predictors.get_set, if_pos ⟨rfl, rfl⟩]
  by_cases found : ∃ r ∈ s.params.tables.motion, s.upcoming 0 r.len = r.bits
  · obtain ⟨r, mem, bits⟩ := found
    by_cases zero : r.sym = 0
    · exact .inr ⟨0, 0, by norm_num, Nat.two_pow_pos _, left (decodeMotionVector_of_zero h mem bits zero ..)⟩
    · refine .inr ⟨_, _, ?_, s.upcoming_lt .., left (decodeMotionVector_of_nonzero h mem bits zero _ (by omega) _)⟩
      rw [applySign_natAbs]
      exact h.tables.magnitudes r mem
  · obtain rfl := Host.Outcome.next.inj (next.symm.trans (mvrDecode_of_none h fun r mem bits => found ⟨r, mem, bits⟩))
    exact .inl rfl

/-- Settles O32: a predictor in the window is moved and corrected into the window, in the units of its mode. -/
theorem vectorStaysInWindow : Obligations.VectorStaysInWindow := by
  refine fun d c n s t h _ => ⟨fun low high next => ?_, fun even low high next => ?_⟩
  · rcases mvrDecode_predictor h next with kept | ⟨code, residual, hc, hr, moved⟩
    · rw [kept]
      exact ⟨low, high⟩
    · rw [moved]
      exact movedVector_window low high hc hr
  · rcases mvrDecode_predictor h next with kept | ⟨code, residual, hc, hr, moved⟩
    · rw [kept]
      exact ⟨even, low, high⟩
    · have window := movedVector_window (base := s.work.pmv.get d c / 2) (by omega) (by omega) hc hr
      rw [moved, reconstructVector_eq, if_pos rfl, if_pos rfl]
      omega

end Sys2Proof.Machine


/-!
PROOF. The IDCT on mathematical integers (47_idct.md R352 to R360): the network of 32-bit words is that of the integers they
stand for, without a bound in the row pass (R358 (b)) and up to 9000 in the column pass (R358 (a)); from the passes, the
block transform.
-/

namespace Sys2Proof.Machine

/-! ### Words that stand for integers -/

theorem ofInt_sub {w : Nat} (x y : Int) : BitVec.ofInt w (x - y) = BitVec.ofInt w x - BitVec.ofInt w y :=
  BitVec.eq_of_toInt_eq (by simp)

theorem shiftLeft_eq_mul_ofInt {w : Nat} (x : BitVec w) (k : Nat) : x <<< k = BitVec.ofInt w (2 ^ k) * x := by
  have power : BitVec.twoPow w k = BitVec.ofInt w ((2 ^ k : Nat) : Int) := by
    apply BitVec.eq_of_toNat_eq
    rw [BitVec.ofInt_natCast, BitVec.toNat_twoPow, BitVec.toNat_ofNat]
  rw [BitVec.shiftLeft_eq_mul_twoPow, BitVec.mul_comm, power]
  norm_cast

theorem ofInt_toInt_of_word {n : Int} (low : -2 ^ 31 ≤ n) (high : n < 2 ^ 31) : (BitVec.ofInt 32 n).toInt = n :=
  BitVec.toInt_ofInt_eq_self (by norm_num) low high

/-- The shift of a word whose integer fits. -/
theorem sshiftRight_ofInt {n : Int} (k : Nat) (low : -2 ^ 31 ≤ n) (high : n < 2 ^ 31) :
    (BitVec.ofInt 32 n).sshiftRight k = BitVec.ofInt 32 (n / 2 ^ k) := by
  rw [BitVec.sshiftRight_eq, ofInt_toInt_of_word low high, Int.shiftRight_eq_div_pow]
  norm_cast

/-- A wrap changes the value under `>> 8` by a multiple of `2^24` (R358 (b)). -/
theorem sshiftRight_ofInt_wrapped (n : Int) :
    ∃ m, (BitVec.ofInt 32 n).sshiftRight 8 = BitVec.ofInt 32 m ∧ m ≡ n / 256 [ZMOD 2 ^ 24] := by
  refine ⟨_, BitVec.sshiftRight_eq, ?_⟩
  rw [BitVec.toInt_ofInt, Int.shiftRight_eq_div_pow, Int.bmod_def, Int.ModEq]
  omega

/-- The 16-bit store removes what a wrap changed (R358 (b)). -/
theorem store_ofInt {m n : Int} (same : m ≡ n [ZMOD 2 ^ 24]) :
    ((BitVec.ofInt 32 m).sshiftRight 8).truncate 16 = BitVec.ofInt 16 (n / 256) := by
  apply BitVec.eq_of_toNat_eq
  obtain ⟨k, e, h⟩ := sshiftRight_ofInt_wrapped m
  rw [e, BitVec.truncate_eq_setWidth, BitVec.toNat_setWidth, BitVec.toNat_ofInt, BitVec.toNat_ofInt]
  rw [Int.ModEq] at same h
  omega

/-! ### Eight values -/

@[simp] theorem Eight.map_nth {α β : Type} (v : Eight α) (f : α → β) (i : Nat) : (v.map f).nth i = f (v.nth i) := by
  unfold Eight.nth
  split <;> rfl

@[simp] theorem Eight.all_nth {α : Type} (a : α) (i : Nat) : (Eight.all a).nth i = a := by
  unfold Eight.nth
  split <;> rfl

/-- A sign-extended entry stands for its value. -/
theorem Eight.map_signExtend (v : Eight Coef) : v.map (·.signExtend 32) = (v.map BitVec.toInt).map (BitVec.ofInt 32) := rfl

/-- The values of a row or column of which all entries but the first are 0. -/
theorem Eight.eq_of_onlyFirst {v : Eight Coef} (only : v.onlyFirst = true) : v = ⟨v.e0, 0, 0, 0, 0, 0, 0, 0⟩ := by
  obtain ⟨e0, e1, e2, e3, e4, e5, e6, e7⟩ := v
  simpa [onlyFirst, and_assoc] using only

/-- All eight values have magnitude at most `m`. -/
def Eight.Within (m : Int) (v : Eight Int) : Prop := ∀ j, j < 8 → -m ≤ v.nth j ∧ v.nth j ≤ m

theorem Eight.Within.entries {m : Int} {v : Eight Int} (h : v.Within m) :
    (-m ≤ v.e0 ∧ v.e0 ≤ m) ∧ (-m ≤ v.e1 ∧ v.e1 ≤ m) ∧ (-m ≤ v.e2 ∧ v.e2 ≤ m) ∧ (-m ≤ v.e3 ∧ v.e3 ≤ m) ∧
    (-m ≤ v.e4 ∧ v.e4 ≤ m) ∧ (-m ≤ v.e5 ∧ v.e5 ≤ m) ∧ (-m ≤ v.e6 ∧ v.e6 ≤ m) ∧ (-m ≤ v.e7 ∧ v.e7 ≤ m) :=
  ⟨h 0 (by norm_num), h 1 (by norm_num), h 2 (by norm_num), h 3 (by norm_num), h 4 (by norm_num), h 5 (by norm_num),
    h 6 (by norm_num), h 7 (by norm_num)⟩

/-! ### The third stage and the last sums -/

/-- The eight sums of `exactOutputs`, from the values `v` before the third stage and the two products `a` and `b` that
it scales. -/
def exactSums (a b : Int) (v : Eight Int) : Eight Int :=
  ⟨v.e7 + v.e2 + v.e1, v.e0 + v.e3 + a, v.e0 - v.e3 + b, v.e7 - v.e2 + v.e6, v.e7 - v.e2 - v.e6, v.e0 - v.e3 - b,
    v.e0 + v.e3 - a, v.e7 + v.e2 - v.e1⟩

/-- Eight values as the arguments of the third stage. -/
def Eight.outputs {α : Type} (f : α → α → α → α → α → α → α → α → Eight α) (v : Eight α) : Eight α :=
  f v.e0 v.e1 v.e2 v.e3 v.e4 v.e5 v.e6 v.e7

/-- `181 * (x4 + x5) + 128` of the third stage. -/
def scaledSum (v : Eight Int) : Int := 181 * (v.e4 + v.e5) + 128

/-- `181 * (x4 - x5) + 128` of the third stage. -/
def scaledDiff (v : Eight Int) : Int := 181 * (v.e4 - v.e5) + 128

theorem exactOutputs_eq (v : Eight Int) : v.outputs exactOutputs = exactSums (scaledSum v / 256) (scaledDiff v / 256) v := rfl

theorem idctOutputs_ofInt {v : Eight Int} {a b : Int} (sum : (BitVec.ofInt 32 (scaledSum v)).sshiftRight 8 = BitVec.ofInt 32 a)
    (diff : (BitVec.ofInt 32 (scaledDiff v)).sshiftRight 8 = BitVec.ofInt 32 b) :
    (v.map (BitVec.ofInt 32)).outputs idctOutputs = (exactSums a b v).map (BitVec.ofInt 32) := by
  simp only [scaledSum, scaledDiff, BitVec.ofInt_add, BitVec.ofInt_mul, ofInt_sub] at sum diff
  simp only [Eight.outputs, Eight.map, exactSums, BitVec.ofInt_add, ofInt_sub, ← sum, ← diff]
  rfl

theorem exactSums_congr {m a a' b b' : Int} (v : Eight Int) (ha : a ≡ a' [ZMOD m]) (hb : b ≡ b' [ZMOD m]) (i : Nat) :
    (exactSums a b v).nth i ≡ (exactSums a' b' v).nth i [ZMOD m] := by
  unfold Eight.nth
  split <;> simp only [exactSums] <;> gcongr

/-! ### The row pass -/

/-- The values of `exactRow` before the third stage. -/
def exactRowStage (v : Eight Int) : Eight Int :=
  let x0 := 2048 * v.e0 + 128
  let x1 := 2048 * v.e4
  let u := 565 * (v.e1 + v.e7)
  let x4 := u + (2841 - 565) * v.e1
  let x5 := u - (2841 + 565) * v.e7
  let w := 2408 * (v.e5 + v.e3)
  let x6 := w - (2408 - 1609) * v.e5
  let x7 := w - (2408 + 1609) * v.e3
  let t := 1108 * (v.e2 + v.e6)
  let x2 := t - (2676 + 1108) * v.e6
  let x3 := t + (2676 - 1108) * v.e2
  ⟨x0 - x1, x4 + x6, x3, x2, x4 - x6, x5 - x7, x5 + x7, x0 + x1⟩

theorem exactRow_eq (v : Eight Int) : exactRow v = (exactRowStage v).outputs exactOutputs := rfl

theorem idctRowNetwork_ofInt (v : Eight Int) :
    idctRowNetwork (v.map (BitVec.ofInt 32)) = ((exactRowStage v).map (BitVec.ofInt 32)).outputs idctOutputs := by
  have scale (x : W32) : x <<< 11 = BitVec.ofInt 32 2048 * x := shiftLeft_eq_mul_ofInt x 11
  simp only [idctRowNetwork, Eight.outputs, Eight.map, exactRowStage, BitVec.ofInt_add, BitVec.ofInt_mul, ofInt_sub, scale]
  rfl

/-- The row pass on mathematical integers, reduced once at the store (R358 (b)). -/
theorem idctRow_nth (v : Eight Coef) (i : Nat) :
    (idctRow v).nth i = BitVec.ofInt 16 ((exactRow (v.map BitVec.toInt)).nth i / 256) := by
  unfold idctRow
  split
  next only =>
    have row : exactRow (v.map BitVec.toInt) = Eight.all (2048 * v.e0.toInt + 128) := by
      rw [Eight.eq_of_onlyFirst only]
      simp [Eight.map, Eight.all, exactRow, exactOutputs]
    have eight : (2048 * v.e0.toInt + 128) / 256 = 8 * v.e0.toInt := by omega
    rw [row, Eight.all_nth, Eight.all_nth, eight, BitVec.ofInt_mul, BitVec.ofInt_toInt,
      shiftLeft_eq_mul_ofInt]
    rfl
  next =>
    obtain ⟨a, sum, ha⟩ := sshiftRight_ofInt_wrapped (scaledSum (exactRowStage (v.map BitVec.toInt)))
    obtain ⟨b, diff, hb⟩ := sshiftRight_ofInt_wrapped (scaledDiff (exactRowStage (v.map BitVec.toInt)))
    rw [Eight.map_signExtend, idctRowNetwork_ofInt, idctOutputs_ofInt sum diff, Eight.map_nth, Eight.map_nth,
      store_ofInt (exactSums_congr _ ha hb i), exactRow_eq, exactOutputs_eq]

theorem exec_idctRow (b : BlockNo) (r : BitVec 3) (s : State) : exec (.idctRow b r) s =
    .next ({ s with blk := s.blk.set b (rowPass s.blk[b] r.toNat) }.answering .nothing) := rfl

/-- Settles O33: a wrap in the network never reaches the 16 bits that are stored. -/
theorem idctRowPass : Obligations.IdctRowPass := by
  refine fun b r s => ⟨_, exec_idctRow b r s, fun i hi => ?_, fun k _ other => scatter_off _ _ fun i hi => by omega⟩
  have put := scatter_at s.blk[b] (idctRow (gather s.blk[b] (8 * r.toNat) 1)) (base := 8 * r.toNat) one_pos (by omega) hi
  rw [Nat.mul_one, idctRow_nth] at put
  exact put

/-! ### The column pass -/

/-- The values of `exactCol` before the third stage. -/
def exactColStage (v : Eight Int) : Eight Int :=
  let x0 := 256 * v.e0 + 8192
  let x1 := 256 * v.e4
  let u := 565 * (v.e1 + v.e7) + 4
  let x4 := (u + (2841 - 565) * v.e1) / 8
  let x5 := (u - (2841 + 565) * v.e7) / 8
  let w := 2408 * (v.e5 + v.e3) + 4
  let x6 := (w - (2408 - 1609) * v.e5) / 8
  let x7 := (w - (2408 + 1609) * v.e3) / 8
  let t := 1108 * (v.e2 + v.e6) + 4
  let x2 := (t - (2676 + 1108) * v.e6) / 8
  let x3 := (t + (2676 - 1108) * v.e2) / 8
  ⟨x0 - x1, x4 + x6, x3, x2, x4 - x6, x5 - x7, x5 + x7, x0 + x1⟩

theorem exactCol_eq (v : Eight Int) : exactCol v = (exactColStage v).outputs exactOutputs := rfl

/-- No shift by 3 wraps (R358 (a)). -/
theorem idctColNetwork_ofInt {v : Eight Int} (h : v.Within 9000) :
    idctColNetwork (v.map (BitVec.ofInt 32)) = ((exactColStage v).map (BitVec.ofInt 32)).outputs idctOutputs := by
  obtain ⟨-, h1, h2, h3, -, h5, h6, h7⟩ := h.entries
  have scale (x : W32) : x <<< 8 = BitVec.ofInt 32 256 * x := shiftLeft_eq_mul_ofInt x 8
  have eighth {n : Int} (low : -2 ^ 31 ≤ n) (high : n < 2 ^ 31) :
      BitVec.ofInt 32 (n / 8) = (BitVec.ofInt 32 n).sshiftRight 3 := (sshiftRight_ofInt 3 low high).symm
  simp (disch := omega) only [idctColNetwork, Eight.outputs, Eight.map, exactColStage, eighth, BitVec.ofInt_add,
    BitVec.ofInt_mul, ofInt_sub, scale]
  rfl

/-- Nor do the products of the third stage: `9000 * 10498 / 8 * 181` is below `2^31` (R358 (a)). -/
theorem exactColStage_scaled {v : Eight Int} (h : v.Within 9000) :
    (-2 ^ 31 ≤ scaledSum (exactColStage v) ∧ scaledSum (exactColStage v) < 2 ^ 31) ∧
      -2 ^ 31 ≤ scaledDiff (exactColStage v) ∧ scaledDiff (exactColStage v) < 2 ^ 31 := by
  obtain ⟨-, h1, -, h3, -, h5, -, h7⟩ := h.entries
  simp only [scaledSum, scaledDiff, exactColStage]
  omega

theorem exactCol_word {v : Eight Int} (h : v.Within 9000) {i : Nat} (hi : i < 8) :
    -2 ^ 31 ≤ (exactCol v).nth i ∧ (exactCol v).nth i < 2 ^ 31 := by
  obtain ⟨h0, h1, h2, h3, h4, h5, h6, h7⟩ := h.entries
  interval_cases i <;> simp only [exactCol, exactOutputs, Eight.nth] <;> omega

theorem idctColNetwork_exact {v : Eight Int} (h : v.Within 9000) :
    idctColNetwork (v.map (BitVec.ofInt 32)) = (exactCol v).map (BitVec.ofInt 32) := by
  obtain ⟨⟨low, high⟩, low', high'⟩ := exactColStage_scaled h
  rw [idctColNetwork_ofInt h, idctOutputs_ofInt (sshiftRight_ofInt 8 low high) (sshiftRight_ofInt 8 low' high'),
    exactCol_eq, exactOutputs_eq]
  rfl

/-- Every result of the column pass is clamped (R356). -/
theorem idctCol_nth_clamped (v : Eight Coef) (i : Nat) : ∃ n, (idctCol v).nth i = residual n := by
  unfold idctCol
  split
  · exact ⟨_, Eight.all_nth ..⟩
  · exact ⟨_, Eight.map_nth ..⟩

/-- The column pass on mathematical integers, for inputs of magnitude at most 9000 (R358 (a)). -/
theorem idctCol_nth {v : Eight Coef} (h : (v.map BitVec.toInt).Within 9000) {i : Nat} (hi : i < 8) :
    (idctCol v).nth i = residual ((exactCol (v.map BitVec.toInt)).nth i / 2 ^ 14) := by
  unfold idctCol
  split
  next only =>
    have column : exactCol (v.map BitVec.toInt) = Eight.all (256 * v.e0.toInt + 8192) := by
      rw [Eight.eq_of_onlyFirst only]
      simp [Eight.map, Eight.all, exactCol, exactOutputs]
    have part : (256 * v.e0.toInt + 8192) / 2 ^ 14 = (v.e0.toInt + 32) / 64 := by omega
    rw [column, Eight.all_nth, Eight.all_nth, part]
  next =>
    obtain ⟨low, high⟩ := exactCol_word h hi
    rw [Eight.map_signExtend, idctColNetwork_exact h, Eight.map_nth, Eight.map_nth, BitVec.toInt_sshiftRight,
      ofInt_toInt_of_word low high, Int.shiftRight_eq_div_pow]
    norm_cast

theorem exec_idctCol (b : BlockNo) (c : BitVec 3) (s : State) : exec (.idctCol b c) s =
    .next ({ s with blk := s.blk.set b (colPass s.blk[b] c.toNat) }.answering .nothing) := rfl

theorem residual_range (n : Int) : -256 ≤ (residual n).toInt ∧ (residual n).toInt ≤ 255 := by
  rw [residual_toInt]
  omega

/-- Settles O34: no intermediate wraps for inputs up to 9000, and the results are clamped in any case. -/
theorem idctColumnPass : Obligations.IdctColumnPass := by
  refine fun b c s => ⟨_, exec_idctCol b c s, fun i hi => ⟨(idctCol (gather s.blk[b] c.toNat 8)).nth i, ?_, ?_⟩,
    fun k _ other => scatter_off _ _ fun i hi => by omega⟩
  · rw [Nat.mul_comm]
    exact scatter_at _ _ (by norm_num) (by omega) hi
  · obtain ⟨n, clamped⟩ := idctCol_nth_clamped (gather s.blk[b] c.toNat 8) i
    refine and_assoc.1 ⟨by rw [clamped]; exact residual_range n, fun within => ?_⟩
    rw [idctCol_nth within hi, residual_toInt]

/-! ### The block transform -/

theorem execAll_next {i : Instr} {s t : State} (rest : List Instr) (next : exec i s = .next t) :
    execAll (i :: rest) s = execAll rest t := by
  rw [execAll, next]

section
variable (b : BlockNo) (s : State)

theorem exec_idctRow_setBlock (r : BitVec 3) (v : Block) :
    exec (.idctRow b r) ((s.setBlock b v).deliver .nothing) = .next ((s.setBlock b (rowPass v r.toNat)).deliver .nothing) := by
  rw [exec_idctRow]
  simp [State.setBlock, State.deliver, State.answering]

theorem exec_idctCol_setBlock (c : BitVec 3) (v : Block) :
    exec (.idctCol b c) ((s.setBlock b v).deliver .nothing) = .next ((s.setBlock b (colPass v c.toNat)).deliver .nothing) := by
  rw [exec_idctCol]
  simp [State.setBlock, State.deliver, State.answering]

theorem exec_idctBlock :
    exec (.idctBlock b) s = .next ({ s with blk := s.blk.set b (idct s.blk[b]) }.answering .nothing) := rfl

variable {b s}

/-- Operations of one kind, each a pass over the same block, behind another operation on it. -/
theorem execAll_passes {op : BitVec 3 → Instr} {pass : Block → Nat → Block}
    (one : ∀ n v, exec (op n) ((s.setBlock b v).deliver .nothing) = .next ((s.setBlock b (pass v n.toNat)).deliver .nothing))
    (l : List (BitVec 3)) (rest : List Instr) (v : Block) :
    execAll (l.map op ++ rest) ((s.setBlock b v).deliver .nothing) =
      execAll rest ((s.setBlock b (l.foldl (fun v n => pass v n.toNat) v)).deliver .nothing) := by
  induction l generalizing v with
  | nil => rfl
  | cons n l ih => exact (execAll_next _ (one n v)).trans (ih _)

end

/-- Eight rows and eight columns, one operation after the other (R357). -/
theorem execAll_idct (b : BlockNo) (s : State) : execAll
    [.idctRow b 0, .idctRow b 1, .idctRow b 2, .idctRow b 3, .idctRow b 4, .idctRow b 5, .idctRow b 6, .idctRow b 7,
     .idctCol b 0, .idctCol b 1, .idctCol b 2, .idctCol b 3, .idctCol b 4, .idctCol b 5, .idctCol b 6, .idctCol b 7] s =
    exec (.idctBlock b) s := by
  have rows := execAll_passes (exec_idctRow_setBlock b s) [1, 2, 3, 4, 5, 6, 7]
    ([0, 1, 2, 3, 4, 5, 6, 7].map (.idctCol b)) (rowPass s.blk[b] 0)
  have columns := execAll_passes (exec_idctCol_setBlock b s) [0, 1, 2, 3, 4, 5, 6, 7] [] ((List.range 8).foldl rowPass s.blk[b])
  exact (execAll_next _ (exec_idctRow b 0 s)).trans (rows.trans columns)

/-- Every entry of a transformed block is clamped (R356, R357). -/
theorem idct_get (v : Block) {k : Nat} (hk : k < 64) : ∃ n, (idct v)[k]? = some (residual n) := by
  have entry := colPasses_get ((List.range 8).foldl rowPass v) (n := 8) (r := k / 8) (i := k % 8) le_rfl (by omega) (by omega)
  obtain ⟨n, clamped⟩ := idctCol_nth_clamped (gather ((List.range 8).foldl rowPass v) (k % 8) 8) (k / 8)
  rw [Nat.div_add_mod, if_pos (by omega), clamped] at entry
  exact ⟨n, entry⟩

theorem eq_dcBlock {v : Block} (rest : ∀ k, 0 < k → k < 64 → v[k]? = some 0) : v = dcBlock v[0] := by
  ext k hk : 1
  have entry := dcBlock_get v[0] k
  rw [Vector.getElem?_eq_getElem hk, Option.getD_some] at entry
  rw [entry]
  split
  next first => subst first; rfl
  next other => exact Option.some_inj.1 ((Vector.getElem?_eq_getElem hk).symm.trans (rest k (Nat.pos_of_ne_zero other) hk))

theorem residual_eq (n : Int) : residual n = BitVec.ofInt 16 (max (-256) (min 255 n)) := by
  have same : clamp (-256) 255 n = max (-256) (min 255 n) := by
    unfold clamp
    omega
  rw [residual, same]

/-- A DC of -2048 to 2047 alone: no 16-bit wrap in `D << 3` (R360). -/
theorem idct_dcBlock_uniform {D : Int} (low : -2048 ≤ D) (high : D ≤ 2047) :
    idct (dcBlock (BitVec.ofInt 16 D)) = Vector.replicate 64 (BitVec.ofInt 16 (max (-256) (min 255 ((8 * D + 32) / 64)))) := by
  have row : (BitVec.ofInt 16 D <<< 3).toInt = 8 * D := by
    rw [shiftLeft_eq_mul_ofInt, ← BitVec.ofInt_mul]
    exact BitVec.toInt_ofInt_eq_self (by norm_num) (by omega) (by omega)
  ext k hk : 1
  have entry := idct_dcBlock (BitVec.ofInt 16 D) (r := k / 8) (i := k % 8) (by omega) (by omega)
  rw [Nat.div_add_mod, row, residual_eq, Vector.getElem?_eq_getElem hk, Option.some_inj] at entry
  rw [entry, Vector.getElem_replicate]

/-- Settles O35: the passes one by one, the clamp of the last of them, and the block of a lone DC. -/
theorem idctBlockTransform : Obligations.IdctBlockTransform := by
  refine fun b s => ⟨(execAll_idct b s).symm, _, exec_idctBlock b s, fun k hk => ?_, fun D low high dc rest => ?_⟩
  · obtain ⟨n, entry⟩ := idct_get s.blk[b] hk
    exact ⟨_, entry, residual_range n⟩
  · rw [eq_dcBlock rest, dc, idct_dcBlock_uniform low high]

end Sys2Proof.Machine

/-!
PROOF. The macroblock predictions and the block tiler (48_prediction_recon.md R372 to R379, R385 to R387) sample by sample. Every
place is written once, so what stands at a place when its turn comes is what stood there at first; `FrameStore.Sets` carries that
through the loops.
-/

namespace Sys2Proof.Machine

/-! ### Setting samples of one buffer, each once -/

/-- `b` is `a` with the samples of `cur` at the listed places set, each to a value that `val` allows there. -/
structure FrameStore.Sets (cur : Fin 3) (val : Fin 3 → Nat → Nat → Byte → Prop) (d : Nat) (places : List (Fin 3 × Nat × Nat))
    (a b : FrameStore) : Prop where
  same : a.SameAllocation b
  order : b.InOrder d
  inside : ∀ p x y, (p, x, y) ∈ places → a.inPlane p (x : Nat) (y : Nat) = true
  set : ∀ p x y, (p, x, y) ∈ places → val p x y (b.sample cur p x y)
  kept : ∀ f p (x y : Nat), a.inPlane p x y = true → ¬(f = cur ∧ (p, x, y) ∈ places) → b.sample f p x y = a.sample f p x y

section
variable {cur : Fin 3} {val : Fin 3 → Nat → Nat → Byte → Prop} {d : Nat} {places : List (Fin 3 × Nat × Nat)} {a b : FrameStore}

theorem FrameStore.Sets.nil (o : a.InOrder d) : a.Sets cur val d [] a :=
  ⟨.refl a, o, by simp, by simp, fun _ _ _ _ _ _ => rfl⟩

/-- One more sample is set. -/
theorem FrameStore.Sets.write (h : FrameStore.Sets cur val d places a b) {p : Fin 3} {x y : Nat} (hp : a.inPlane p x y = true)
    {v : Byte} (allowed : val p x y v) : FrameStore.Sets cur val d (places ++ [(p, x, y)]) a (b.write cur p x y v) := by
  have here : b.inPlane p x y = true := by rw [h.same.inPlane]; exact hp
  have apart {f q : Fin 3} {u w : Nat} (hq : a.inPlane q u w = true) (ne : ¬(f = cur ∧ q = p ∧ u = x ∧ w = y)) :
      (b.write cur p x y v).sample f q u w = b.sample f q u w :=
    FrameStore.write_sample_other h.order v here (by rw [h.same.inPlane]; exact hq) ne
  refine ⟨h.same.trans ⟨rfl, rfl, rfl⟩, h.order.write cur p v here, fun q u w mem => ?_, fun q u w mem => ?_,
    fun f q u w hq ne => ?_⟩
  · rcases List.mem_append.1 mem with old | new
    · exact h.inside q u w old
    · obtain ⟨rfl, rfl, rfl⟩ : q = p ∧ u = x ∧ w = y := by simpa using new
      exact hp
  · by_cases new : q = p ∧ u = x ∧ w = y
    · obtain ⟨rfl, rfl, rfl⟩ := new
      rw [FrameStore.write_sample_same]
      exact allowed
    · have old : (q, u, w) ∈ places := by simpa [new] using mem
      rw [apart (h.inside q u w old) (fun e => new e.2)]
      exact h.set q u w old
  · rw [apart hq (by rintro ⟨rfl, rfl, rfl, rfl⟩; simp at ne)]
    exact h.kept f q u w hq fun ⟨e, old⟩ => ne ⟨e, List.mem_append_left _ old⟩

/-- A loop that writes one sample a turn, at places that are all different, sets them all. -/
theorem foldl_sets {σ β : Type} (store : σ → FrameStore) (f : σ → β → σ) (place : β → Fin 3 × Nat × Nat) {m : σ}
    (o : (store m).InOrder d) (l : List β) (distinct : (l.map place).Nodup)
    (inside : ∀ x ∈ l, (store m).inPlane (place x).1 (place x).2.1 (place x).2.2 = true)
    (step : ∀ x ∈ l, ∀ n done, place x ∉ done → FrameStore.Sets cur val d done (store m) (store n) →
      ∃ v, val (place x).1 (place x).2.1 (place x).2.2 v ∧
        store (f n x) = (store n).write cur (place x).1 (place x).2.1 (place x).2.2 v) :
    FrameStore.Sets cur val d (l.map place) (store m) (store (l.foldl f m)) := by
  induction l using List.reverseRecOn with
  | nil => exact .nil o
  | append_singleton l x ih =>
    rw [List.map_append, List.map_singleton] at distinct ⊢
    obtain ⟨distinct, -, fresh⟩ := List.nodup_append.1 distinct
    have before := ih distinct (fun y hy => inside y (List.mem_append_left _ hy)) fun y hy => step y (List.mem_append_left _ hy)
    have last : x ∈ l ++ [x] := by simp
    obtain ⟨v, allowed, wrote⟩ := step x last _ _ (fun mem => fresh _ mem _ (by simp) rfl) before
    rw [List.foldl_append, List.foldl_cons, List.foldl_nil, wrote]
    exact before.write (inside x last) allowed

/-- The buffers other than `cur` are as they were. -/
theorem FrameStore.Sets.other (h : FrameStore.Sets cur val d places a b) {r p : Fin 3} (ne : r ≠ cur) {x y : Nat}
    (hp : a.inPlane p x y = true) : b.sample r p x y = a.sample r p x y := h.kept r p x y hp fun e => ne e.1

/-- So is a place whose turn has not come. -/
theorem FrameStore.Sets.fresh (h : FrameStore.Sets cur val d places a b) {p : Fin 3} {x y : Nat} (new : (p, x, y) ∉ places)
    (hp : a.inPlane p x y = true) : b.sample cur p x y = a.sample cur p x y := h.kept cur p x y hp fun e => new e.2

end

/-! ### Squares of samples -/

theorem area_nodup (n : Nat) : (area n).Nodup := by
  refine List.nodup_flatMap.2 ⟨fun j _ => List.nodup_range.map fun i k e => congrArg Prod.fst e, ?_⟩
  refine List.nodup_range.imp fun {j k} ne => List.disjoint_left.2 fun z first second => ?_
  obtain ⟨i, -, rfl⟩ := List.mem_map.1 first
  obtain ⟨l, -, e⟩ := List.mem_map.1 second
  exact ne (congrArg Prod.snd e).symm

/-- The place of a position of an area in a plane. -/
def placeIn (p : Fin 3) (x0 y0 : Nat) (ij : Nat × Nat) : Fin 3 × Nat × Nat := (p, x0 + ij.1, y0 + ij.2)

theorem map_placeIn_nodup (n : Nat) (p : Fin 3) (x0 y0 : Nat) : ((area n).map (placeIn p x0 y0)).Nodup := by
  refine (area_nodup n).map fun ij kl e => ?_
  simp only [placeIn, Prod.mk.injEq, Nat.add_left_cancel_iff, true_and] at e
  exact Prod.ext e.1 e.2

theorem mem_map_placeIn {n x0 y0 x y : Nat} {p q : Fin 3} : (q, x, y) ∈ (area n).map (placeIn p x0 y0) ↔
    q = p ∧ (x0 ≤ x ∧ x < x0 + n) ∧ y0 ≤ y ∧ y < y0 + n := by
  refine List.mem_map.trans ⟨?_, ?_⟩
  · rintro ⟨ij, mem, e⟩
    obtain ⟨rfl, rfl, rfl⟩ : p = q ∧ x0 + ij.1 = x ∧ y0 + ij.2 = y := by simpa [placeIn] using e
    have := mem_area mem
    exact ⟨rfl, by omega, by omega⟩
  · rintro ⟨rfl, hx, hy⟩
    obtain ⟨ij, mem, rfl, rfl⟩ := exists_area hx hy
    exact ⟨ij, mem, rfl⟩

/-! ### What a fetch gives -/

theorem mean2_lt (rule : Config.AverageRule) {a b : Nat} (ha : a < 256) (hb : b < 256) : mean2 rule a b < 256 := by
  cases rule with
  | standard => simp only [mean2]; omega
  | other which => exact BitVec.isLt _

theorem mean4_lt (rule : Config.AverageRule) {a b c d : Nat} (ha : a < 256) (hb : b < 256) (hc : c < 256) (hd : d < 256) :
    mean4 rule a b c d < 256 := by
  cases rule with
  | standard => simp only [mean4]; omega
  | other which => exact BitVec.isLt _

theorem avg2_eq (rule : Config.AverageRule) (a b : Nat) : avg2 rule a b = mean2 rule a b := by cases rule <;> rfl

theorem avg4_eq (rule : Config.AverageRule) (a b c d : Nat) : avg4 rule a b c d = mean4 rule a b c d := by cases rule <;> rfl

/-- Every interpolated value is a sample's (48_prediction_recon.md R375, R376). -/
theorem FrameStore.interpolated_lt (fs : FrameStore) (par : Config.Params) (r p : Fin 3) (x y : Int) (hx hy : Bool) :
    fs.interpolated par r p x y hx hy < 256 := by
  cases hx <;> cases hy
  · exact BitVec.isLt _
  · exact mean2_lt _ (BitVec.isLt _) (BitVec.isLt _)
  · exact mean2_lt _ (BitVec.isLt _) (BitVec.isLt _)
  · exact mean4_lt _ (BitVec.isLt _) (BitVec.isLt _) (BitVec.isLt _) (BitVec.isLt _)

/-- The samples around a fetch that lies in the plane all lie there (48_prediction_recon.md R374). -/
theorem FrameStore.Reads.corner {fs : FrameStore} {p : Fin 3} {x y : Int} {hx hy : Bool} (h : fs.Reads p x y hx hy) {i j : Int}
    (hi : 0 ≤ i ∧ i ≤ hx.toNat) (hj : 0 ≤ j ∧ j ≤ hy.toNat) : fs.inPlane p (x + i) (y + j) = true := by
  obtain ⟨near, far⟩ := h
  simp only [FrameStore.inPlane, decide_eq_true_eq] at near far ⊢
  omega

/-- A fetch that lies in the plane gives the interpolation of the samples around it (48_prediction_recon.md R374), in a store
whose buffer `r` is that of `fs`. -/
theorem FrameStore.fetch_of_reads {fs gs : FrameStore} {r p : Fin 3} {x y : Int} {hx hy : Bool} (h : fs.Reads p x y hx hy)
    (same : fs.SameAllocation gs) (kept : ∀ u w : Nat, fs.inPlane p u w = true → gs.sample r p u w = fs.sample r p u w)
    (par : Config.Params) (d : Nat) : (gs.fetch par d r p x y hx hy).1 = fs.interpolated par r p x y hx hy := by
  have corner (i j : Int) (hi : 0 ≤ i ∧ i ≤ hx.toNat) (hj : 0 ≤ j ∧ j ≤ hy.toNat) (e : Nat) :
      gs.read e r p (x + i) (y + j) = (fs.sample r p (x + i).toNat (y + j).toNat, e) := by
    have inside := h.corner hi hj
    obtain ⟨x0, y0⟩ : 0 ≤ x + i ∧ 0 ≤ y + j := by
      simp only [FrameStore.inPlane, decide_eq_true_eq] at inside
      omega
    rw [← Int.toNat_of_nonneg x0, ← Int.toNat_of_nonneg y0] at inside ⊢
    rw [FrameStore.read_of_inPlane (by rw [same.inPlane]; exact inside), kept _ _ inside]
    rfl
  have origin := corner 0 0 (by omega) (by omega)
  rw [Int.add_zero, Int.add_zero] at origin
  cases hx <;> cases hy
  · simp only [FrameStore.fetch, FrameStore.interpolated, origin, Int.add_zero]
  · have below := corner 0 1 (by decide) (by decide)
    rw [Int.add_zero] at below
    simp only [FrameStore.fetch, FrameStore.interpolated, origin, below, Int.add_zero, avg2_eq]
  · have right := corner 1 0 (by decide) (by decide)
    rw [Int.add_zero] at right
    simp only [FrameStore.fetch, FrameStore.interpolated, origin, right, Int.add_zero, avg2_eq]
  · have right := corner 1 0 (by decide) (by decide)
    have below := corner 0 1 (by decide) (by decide)
    have across := corner 1 1 (by decide) (by decide)
    rw [Int.add_zero] at right below
    simp only [FrameStore.fetch, FrameStore.interpolated, origin, right, below, across, Int.add_zero, avg4_eq]

/-! ### The three passes of a prediction -/

/-- Each pass has the vector of its plane (48_prediction_recon.md R373). -/
theorem planePasses_vector {mbX mbY : Nat} {dx dy : Int} : ∀ q ∈ planePasses mbX mbY dx dy,
    q.vx = planeVector q.plane dx ∧ q.vy = planeVector q.plane dy := by
  simp [planePasses, planeVector, tdiv2]

theorem planePasses_planes (mbX mbY : Nat) (dx dy : Int) :
    (planePasses mbX mbY dx dy).Pairwise fun q r => q.plane ≠ r.plane := by
  simp [planePasses]

/-- All turns of the three passes, one after the other (48_prediction_recon.md R372). -/
def passTurns (l : List PlanePass) : List (PlanePass × Nat × Nat) := l.flatMap fun q => (area q.size).map (Prod.mk q)

/-- The place that a turn writes. -/
def turnPlace (z : PlanePass × Nat × Nat) : Fin 3 × Nat × Nat := placeIn z.1.plane z.1.x0 z.1.y0 z.2

theorem mem_passTurns {l : List PlanePass} {q : PlanePass} {ij : Nat × Nat} : (q, ij) ∈ passTurns l ↔ q ∈ l ∧ ij ∈ area q.size := by
  simp only [passTurns, List.mem_flatMap, List.mem_map, Prod.mk.injEq]
  exact ⟨fun ⟨_, mem, _, inArea, rfl, rfl⟩ => ⟨mem, inArea⟩, fun ⟨mem, inArea⟩ => ⟨q, mem, ij, inArea, rfl, rfl⟩⟩

theorem predictSample_store (par : Config.Params) (avg sub : Bool) (r cur : Fin 3) (q : PlanePass) (m : FrameStore × Nat)
    (ij : Nat × Nat) : (predictSample par avg sub r cur q m ij).1 =
      m.1.write cur q.plane (q.x0 + ij.1) (q.y0 + ij.2) (BitVec.ofNat 8
        (if avg then avg2 par.avg2 (m.1.sample cur q.plane (q.x0 + ij.1) (q.y0 + ij.2)).toNat
            (m.1.predicted par m.2 r sub q ij.1 ij.2).1
          else (m.1.predicted par m.2 r sub q ij.1 ij.2).1)) := rfl

theorem predictPlanes_eq (par : Config.Params) (avg sub : Bool) (r cur : Fin 3) (l : List PlanePass) (m : FrameStore × Nat) :
    l.foldl (predictPlane par avg sub r cur) m =
      (passTurns l).foldl (fun m z => predictSample par avg sub r cur z.1 m z.2) m := by
  simp only [passTurns, List.foldl_flatMap, List.foldl_map]
  rfl

theorem passTurns_places (l : List PlanePass) :
    (passTurns l).map turnPlace = l.flatMap fun q => (area q.size).map (placeIn q.plane q.x0 q.y0) := by
  simp only [passTurns, List.map_flatMap, List.map_map]
  rfl

/-- No place has two turns: those of one pass differ in their position, those of two in their plane. -/
theorem turnPlaces_nodup {l : List PlanePass} (planes : l.Pairwise fun q r => q.plane ≠ r.plane) :
    ((passTurns l).map turnPlace).Nodup := by
  rw [passTurns_places]
  refine List.nodup_flatMap.2 ⟨fun q _ => map_placeIn_nodup q.size q.plane q.x0 q.y0, planes.imp fun {q r} ne => ?_⟩
  rintro ⟨p, x, y⟩ first second
  exact ne ((mem_map_placeIn.1 first).1.symm.trans (mem_map_placeIn.1 second).1)

section
variable (fs : FrameStore) (par : Config.Params) (avg sub : Bool) (r cur : Fin 3) (dx dy : Int)

/-- The value that a prediction gives a sample: what it fetches, or the average of that and what stood there
(48_prediction_recon.md R372, R379). -/
def predictionValue (p : Fin 3) (x y : Nat) : Nat :=
  if avg then mean2 par.avg2 (fs.sample cur p x y).toNat (fs.passValue par r p sub dx dy x y)
  else fs.passValue par r p sub dx dy x y

/-- What a prediction may leave in a sample: its value where the fetch lies in the plane, anything elsewhere (20_memory.md R94). -/
def PredictionAllows (p : Fin 3) (x y : Nat) (v : Byte) : Prop :=
  fs.PassReads p sub dx dy x y → v.toNat = predictionValue fs par avg sub r cur dx dy p x y

variable {fs r cur} {d mbX mbY : Nat}

theorem predictionValue_lt (p : Fin 3) (x y : Nat) : predictionValue fs par avg sub r cur dx dy p x y < 256 := by
  have fetched : fs.passValue par r p sub dx dy x y < 256 := fs.interpolated_lt _ _ _ _ _ _ _
  unfold predictionValue
  split
  · exact mean2_lt _ (BitVec.isLt _) fetched
  · exact fetched

/-- The predicted value of a turn whose fetch lies in the plane, in a store whose buffer `r` is that of `fs`. -/
theorem FrameStore.predicted_of_reads {gs : FrameStore} {q : PlanePass} (mem : q ∈ planePasses mbX mbY dx dy) {i j : Nat}
    (reads : fs.PassReads q.plane sub dx dy (q.x0 + i) (q.y0 + j)) (same : fs.SameAllocation gs)
    (kept : ∀ u w : Nat, fs.inPlane q.plane u w = true → gs.sample r q.plane u w = fs.sample r q.plane u w) (e : Nat) :
    (gs.predicted par e r sub q i j).1 = fs.passValue par r q.plane sub dx dy (q.x0 + i) (q.y0 + j) := by
  obtain ⟨vx, vy⟩ := planePasses_vector q mem
  have fetched := FrameStore.fetch_of_reads reads same kept par e
  rw [Nat.cast_add, Nat.cast_add] at fetched
  rw [FrameStore.predicted, vx, vy, FrameStore.passValue, Nat.cast_add, Nat.cast_add]
  exact fetched

/-- All passes of a prediction from a buffer other than `CUR` set the samples of the macroblock. -/
theorem predictPlanes_sets (o : fs.InOrder d) (fits : fs.hasMacroblock mbX mbY = true) (ne : r ≠ cur) (e : Nat) :
    FrameStore.Sets cur (PredictionAllows fs par avg sub r cur dx dy) d ((passTurns (planePasses mbX mbY dx dy)).map turnPlace)
      fs ((planePasses mbX mbY dx dy).foldl (predictPlane par avg sub r cur) (fs, e)).1 := by
  have inside : ∀ z ∈ passTurns (planePasses mbX mbY dx dy),
      fs.inPlane (turnPlace z).1 (turnPlace z).2.1 (turnPlace z).2.2 = true := by
    rintro ⟨q, ij⟩ mem
    obtain ⟨pass, inArea⟩ := mem_passTurns.1 mem
    obtain ⟨hi, hj⟩ := mem_area inArea
    exact FrameStore.inPlane_of_macroblock fits (planePasses_fit mbX mbY dx dy q pass _ _ hi hj)
  rw [predictPlanes_eq]
  refine foldl_sets (m := (fs, e)) Prod.fst _ turnPlace o _ (turnPlaces_nodup (planePasses_planes mbX mbY dx dy)) inside ?_
  rintro ⟨q, i, j⟩ mem n done fresh sets
  refine ⟨_, fun reads => ?_, predictSample_store ..⟩
  have old : n.1.sample cur q.plane (q.x0 + i) (q.y0 + j) = fs.sample cur q.plane (q.x0 + i) (q.y0 + j) :=
    sets.fresh fresh (inside _ mem)
  have fetched : (n.1.predicted par n.2 r sub q i j).1 = fs.passValue par r q.plane sub dx dy (q.x0 + i) (q.y0 + j) :=
    FrameStore.predicted_of_reads par sub dx dy (mem_passTurns.1 mem).1 reads sets.same (fun _ _ => sets.other ne) n.2
  rw [fetched, old, avg2_eq, BitVec.toNat_ofNat]
  exact Nat.mod_eq_of_lt (predictionValue_lt par avg sub dx dy q.plane (q.x0 + i) (q.y0 + j))

end

/-- Every sample of the macroblock has a turn. -/
theorem mem_turnPlaces {p : Fin 3} {mbX mbY x y : Nat} (dx dy : Int) (m : inMacroblock p mbX mbY x y) :
    (p, x, y) ∈ (passTurns (planePasses mbX mbY dx dy)).map turnPlace := by
  obtain ⟨q, pass, rfl, ij, inArea, rfl, rfl⟩ := planePasses_cover dx dy m
  exact List.mem_map.2 ⟨(q, ij), mem_passTurns.2 ⟨pass, inArea⟩, rfl⟩

/-! ### Stops -/

/-- An operation on a macroblock of `CUR` stops by name where there is none (10_state.md R55, R56, 20_memory.md R95). -/
theorem stops_without_target {i : Instr} {s : State} {mbX mbY : Nat} {f : FrameStore → Fin 3 → Res Unit}
    (run : exec i s = (s.withTarget mbX mbY f).finish noResult) :
    (s.frames = none → exec i s = .fault .noFrameStore) ∧
    ∀ fs, s.frames = some fs → (s.roles.cur = none → exec i s = .fault .noCurrentBuffer) ∧
      ∀ cur, s.roles.cur = some cur → ¬s.Targets fs cur mbX mbY → exec i s = .fault .outsidePlane := by
  rw [run]
  refine ⟨fun noFrames => ?_, fun fs frames => ⟨fun noCur => ?_, fun cur current off => ?_⟩⟩
  · rw [State.withTarget, noFrames]
    rfl
  · rw [State.withTarget, frames, noCur]
    rfl
  · have out : ¬fs.hasMacroblock mbX mbY = true := fun fits => off ⟨frames, current, of_decide_eq_true fits⟩
    rw [State.withTarget, frames, current]
    exact congrArg (Res.finish · noResult) (if_neg out)

/-- Settles O37: the loops set every sample of the macroblock once, from a reference that they do not write. -/
theorem formPrediction_holds : Obligations.FormPrediction := by
  refine ⟨?_, ?_⟩
  · rintro s fs cur ref mbX mbY dx dy avg sub inv target rfl
    have o := inv.frames fs target.1
    obtain ⟨writes, draws⟩ := predictPlanes_writes s.params avg (s.cfg.getLsbD (if avg then 1 else 0)) (s.reference ref) _
      (planePasses_fit mbX.toNat mbY.toNat dx.toInt dy.toInt) (fs, s.draws) target.hasMacroblock (cur := cur)
    refine ⟨_, _, ?_, draws, writes.same, writes.outside s.draws o, fun ne p x y place reads => ?_⟩
    · cases avg
      · exact congrArg (Res.finish · noResult) (State.withTarget_eq target _)
      · exact congrArg (Res.finish · noResult) (State.withTarget_eq target _)
    · exact (predictPlanes_sets s.params avg _ dx.toInt dy.toInt o target.hasMacroblock ne s.draws).set p x y
        (mem_turnPlaces dx.toInt dy.toInt place) reads
  · rintro s i mbX mbY ⟨ref, dx, dy, rfl | rfl⟩
    · exact stops_without_target rfl
    · exact stops_without_target rfl

/-! ### Tiling a block -/

section
variable (fs : FrameStore) (blk : Block) (intra : Bool) (cur : Fin 3) (x0 y0 : Nat)

/-- What tiling leaves in a sample of the block at `(x0, y0)` (48_prediction_recon.md R385, R386). -/
def TileAllows (p : Fin 3) (x y : Nat) (v : Byte) : Prop :=
  (v.toNat : Int) =
    max 0 (min 255 (((if intra then 128 else (fs.sample cur p x y).toNat : Nat) : Int) + residualAt blk (x - x0, y - y0)))

variable {fs} {d mbX mbY : Nat}

/-- Tiling sets the 64 samples of the block. -/
theorem tileSamples_sets (o : fs.InOrder d) {p : Fin 3}
    (inside : ∀ ij ∈ area 8, fs.inPlane p (x0 + ij.1 : Nat) (y0 + ij.2 : Nat) = true) :
    FrameStore.Sets cur (TileAllows fs blk intra cur x0 y0) d ((area 8).map (placeIn p x0 y0)) fs
      ((area 8).foldl (tileSample intra blk cur p x0 y0) fs) := by
  refine foldl_sets id _ (placeIn p x0 y0) o (area 8) (map_placeIn_nodup 8 p x0 y0) inside fun ij mem n done fresh sets =>
    ⟨_, ?_, rfl⟩
  have old : n.sample cur p (x0 + ij.1) (y0 + ij.2) = fs.sample cur p (x0 + ij.1) (y0 + ij.2) := sets.fresh fresh (inside ij mem)
  rw [TileAllows, toSample_toNat, old]
  simp only [placeIn, Nat.add_sub_cancel_left, Nat.cast_ite, Nat.cast_ofNat]

end

theorem residualAt_eq (blk : Block) {i j : Nat} (hi : i < 8) (hj : j < 8) :
    ∃ v, blk[8 * j + i]? = some v ∧ residualAt blk (i, j) = v.toInt := by
  have entry := Vector.getElem?_eq_getElem (xs := blk) (i := 8 * j + i) (by omega)
  exact ⟨_, entry, by rw [residualAt, entry, Option.getD_some]⟩

theorem tile_exec (intra : Bool) (b : BlockNo) (X Y : BitVec 8) (s : State) :
    exec (if intra then .mbtPutIntra b X Y else .mbtAddInter b X Y) s = (tile intra b X.toNat Y.toNat s).finish noResult := by
  cases intra <;> rfl

/-- Settles O38: the 64 samples of the block are set once each, from the residual and from what stood there. -/
theorem putAndAddBlock : Obligations.PutAndAddBlock := by
  refine ⟨?_, ?_⟩
  · intro s fs cur b mbX mbY intra p x0 y0 inv target origin
    have inside : ∀ ij ∈ area 8, fs.inPlane p (x0 + ij.1 : Nat) (y0 + ij.2 : Nat) = true := by
      intro ij mem
      obtain ⟨hi, hj⟩ := mem_area mem
      have place := blockOrigin_fits b mbX.toNat mbY.toNat hi hj
      rw [← origin] at place
      exact FrameStore.inPlane_of_macroblock target.hasMacroblock place
    have sets := tileSamples_sets s.blk[b] intra cur x0 y0 (inv.frames fs target.1) inside
    refine ⟨(area 8).foldl (tileSample intra s.blk[b] cur p x0 y0) fs, ?_, sets.same, fun i j hi hj => ?_,
      fun f q x y hq off => ?_⟩
    · rw [tile_exec, tile, State.withTarget_eq target, tileBlock, ← origin]
      rfl
    · obtain ⟨v, entry, residual⟩ := residualAt_eq s.blk[b] hi hj
      have value := sets.set p (x0 + i) (y0 + j) (mem_map_placeIn.2 ⟨rfl, by omega, by omega⟩)
      rw [TileAllows, Nat.add_sub_cancel_left, Nat.add_sub_cancel_left, residual] at value
      exact ⟨v, entry, value⟩
    · refine sets.kept f q x y hq fun ⟨buffer, mem⟩ => off ⟨buffer, ?_⟩
      obtain ⟨plane, ⟨left, right⟩, top, bottom⟩ := mem_map_placeIn.1 mem
      exact ⟨plane, left, right, top, bottom⟩
  · rintro s i b mbX mbY (rfl | rfl)
    · exact stops_without_target rfl
    · exact stops_without_target rfl

end Sys2Proof.Machine

/-!
PROOF. Commands (49_picture_buffers_host.md R410 to R417): the next command on the port, what each command answers, and that a
kernel which no test bench touches goes from command to command for ever (70_reset_and_hazards.md R490).
-/

namespace Sys2Proof.Machine

/-! ### The command port -/

/-- The bytes of a window made of bytes are those bytes. -/
theorem bitsOf_bytesWindow (bytes : List Byte) {k : Nat} (hk : k < 8) :
    bitsOf (bytesWindow bytes) (8 * k) 8 = (bytes.getD k 0).toNat := by
  simp only [bytesWindow, bitsOf, List.range, List.range.loop, List.foldl_cons, List.foldl_nil]
  interval_cases k <;> omega

/-- A code without an argument decodes to its command, whatever follows it (30_encoding.md R133). -/
theorem decodeCommand_code {c : Byte} (other : c ≠ 0x01) (more : List Byte) :
    decodeCommand (bytesWindow (c :: more)) = some (commandOf c) := by
  have byte (n : Nat) (e : c.toNat = n) : c = BitVec.ofNat 8 n := by rw [← e, BitVec.ofNat_toNat, BitVec.setWidth_eq]
  unfold decodeCommand
  rw [bitsOf_bytesWindow_cons]
  split
  case h_1 one => exact absurd (byte 1 one) other
  case h_6 _ two three four five =>
    obtain ⟨h2, h3, h4, h5⟩ : c ≠ 0x02 ∧ c ≠ 0x03 ∧ c ≠ 0x04 ∧ c ≠ 0x05 :=
      ⟨fun e => two (e ▸ rfl), fun e => three (e ▸ rfl), fun e => four (e ▸ rfl), fun e => five (e ▸ rfl)⟩
    rw [commandOf, if_neg h2, if_neg h3, if_neg h4, if_neg h5, BitVec.ofNat_toNat, BitVec.setWidth_eq]
  all_goals
    next code =>
      rw [byte _ code]
      rfl

theorem decodeCommand_open (cfg : Byte) : decodeCommand (bytesWindow [0x01, cfg]) = some (.cmdOpen cfg) := by
  have code : bitsOf (bytesWindow [0x01, cfg]) 0 8 = 1 := bitsOf_bytesWindow_cons ..
  have argument : bitsOf (bytesWindow [0x01, cfg]) 8 8 = cfg.toNat := bitsOf_bytesWindow _ (k := 1) (by norm_num)
  rw [decodeCommand, code, argument, BitVec.ofNat_toNat, BitVec.setWidth_eq]
  rfl

theorem nextCommand_code {c : Byte} (other : c ≠ 0x01) (rest : List Byte) :
    nextCommand (c :: rest) = some (commandOf c, rest) := by
  cases rest with
  | nil => rw [nextCommand, if_neg other, decode, decodeCommand_code other, Option.map_some]
  | cons d rest => rw [nextCommand, decode, decodeCommand_code other, Option.map_some, if_neg other]

theorem nextCommand_open (cfg : Byte) (rest : List Byte) :
    nextCommand (0x01 :: cfg :: rest) = some (.cmdOpen cfg, rest) := by
  simp only [nextCommand, decode, decodeCommand_open]
  rfl

/-- `CMD_OPEN` waits for its argument byte (log 25). -/
theorem nextCommand_waits {bytes : List Byte} (h : bytes = [] ∨ bytes = [0x01]) : nextCommand bytes = none := by
  rcases h with rfl | rfl <;> rfl

/-- Whatever stands on the port, a command comes next, or nothing. -/
theorem nextCommand_cases (bytes : List Byte) :
    nextCommand bytes = none ∨ (∃ cfg rest, nextCommand bytes = some (.cmdOpen cfg, rest)) ∨
      ∃ c rest, nextCommand bytes = some (commandOf c, rest) := by
  match bytes with
  | [] => exact .inl (nextCommand_waits (.inl rfl))
  | c :: rest =>
    by_cases one : c = 0x01
    · subst one
      cases rest with
      | nil => exact .inl (nextCommand_waits (.inr rfl))
      | cons cfg rest => exact .inr (.inl ⟨cfg, rest, nextCommand_open cfg rest⟩)
    · exact .inr (.inr ⟨c, rest, nextCommand_code one rest⟩)

theorem step_command {s : State} (idle : s.bench = []) {i : Instr} {rest : List Byte}
    (next : nextCommand s.commands = some (i, rest)) : step s = exec i { s with commands := rest } := by
  simp only [step, idle, runCommand, next]

theorem step_idle {s : State} (idle : s.bench = []) (none : nextCommand s.commands = none) : step s = .next s := by
  simp only [step, idle, runCommand, none]

/-! ### What keeps the invariant between commands -/

/-- The outcome is a next state, and it meets the invariant. -/
def AnswersKernel (o : Host.Outcome State Fault Refusal) : Prop := ∃ t, o = .next t ∧ KernelInv t

theorem KernelInv.answers {t : State} (h : KernelInv t) : AnswersKernel (.next t) := ⟨t, rfl, h⟩

theorem AnswersKernel.ite {p : Prop} [Decidable p] {o q : Host.Outcome State Fault Refusal} (ho : p → AnswersKernel o)
    (hq : ¬p → AnswersKernel q) : AnswersKernel (if p then o else q) := by
  split
  next h => exact ho h
  next h => exact hq h

/-- The registers that `KernelInv` speaks of beside those of `StepInv`. -/
def State.betweenCommands (s : State) : List BenchItem × HpState × Session × SequenceRegs × Option FrameStore :=
  (s.bench, s.hpState, s.session, s.seq, s.frames)

/-- Writes to other registers. -/
theorem KernelInv.then_eq {s t : State} (h : KernelInv s) (inv : StepInv t) (e : t.betweenCommands = s.betweenCommands) :
    KernelInv t := by
  simp only [State.betweenCommands, Prod.mk.injEq] at e
  obtain ⟨bench, parser, session, seq, frames⟩ := e
  exact { inv with
    noBench := bench.trans h.noBench
    parser := by rw [parser]; exact h.parser
    closed := by rw [session, seq, frames]; exact h.closed
    sized := by rw [seq, frames]; exact h.sized }

/-- A refused command changes the status registers alone (60_exceptions.md R447). -/
theorem KernelInv.recordFault {s : State} (h : KernelInv s) (c : Cause) (info : Nat) : KernelInv (s.recordFault c info) :=
  h.then_eq (h.toStepInv.recordFault c info) rfl

theorem KernelInv.setRet {s : State} (h : KernelInv s) (v : Ret) : KernelInv (s.setRet v) :=
  h.then_eq (h.toStepInv.then_eq rfl) rfl

theorem KernelInv.deliver {s : State} (h : KernelInv s) (v : Result) : KernelInv (s.deliver v) :=
  h.then_eq (h.toStepInv.deliver v) rfl

/-- What a command leaves of an open session, searching or at the end, is again a state between commands. -/
theorem DecodeInv.kernel {t : State} (h : DecodeInv t) (noBench : t.bench = [])
    (parser : t.hpState = .searching ∨ t.hpState = .sequenceEnded) (session : t.session ≠ .closed) : KernelInv t :=
  { h.toStepInv with
    noBench
    parser
    closed := fun closed => absurd closed session
    sized := h.sized }

/-- A fault ends the command, and `HP_STATE` is `SEARCHING` again (60_exceptions.md R445). -/
theorem DecodeInv.faultEntry_kernel {t : State} (h : DecodeInv t) (noBench : t.bench = []) (session : t.session = .opened)
    (c : Cause) (info : Nat) : KernelInv (faultEntry c info t) := by
  refine DecodeInv.kernel { h.toStepInv.faultEntry c info with sized := h.sized } noBench (.inl rfl) ?_
  show (if c.sessionFatal then Session.failed else t.session) ≠ .closed
  rw [session]
  split <;> decide

theorem KernelInv.openSession (cfg : BitVec 8) {s : State} (h : KernelInv s) : KernelInv (openSession cfg s) :=
  DecodeInv.kernel { StepInv.openSession cfg h.params with sized := fun known => absurd known Bool.false_ne_true } h.noBench
    (.inl rfl) fun closed => nomatch closed

theorem KernelInv.rewound {s : State} (h : KernelInv s) : KernelInv s.rewound :=
  { h.toStepInv.rewound with
    noBench := h.noBench
    parser := .inl rfl
    closed := h.closed
    sized := h.sized }

theorem KernelInv.afterClose {s : State} (h : KernelInv s) : KernelInv s.afterClose :=
  { h.toStepInv.afterClose with
    noBench := h.noBench
    parser := h.parser
    closed := fun _ => ⟨rfl, rfl⟩
    sized := fun known => absurd known Bool.false_ne_true }

/-! ### The commands keep it -/

section
variable {s : State} (h : KernelInv s)
include h

theorem cmdOpen_answersKernel (cfg : BitVec 8) : AnswersKernel (execCmdOpen cfg s) :=
  .ite (fun _ => (h.openSession cfg).answers) fun _ => (h.recordFault _ _).answers

theorem cmdReset_answersKernel : AnswersKernel (execCmdReset s) :=
  .ite (fun _ => (h.recordFault _ _).answers) fun _ =>
    .ite (fun _ => (h.recordFault _ _).answers) fun _ => h.rewound.answers

/-- The body of `CMD_DECODE_NEXT` never stops, and its fault entry ends the command like its success. -/
theorem cmdDecodeNext_answersKernel : AnswersKernel (execCmdDecodeNext s) := by
  refine .ite (fun _ => (h.recordFault _ _).answers) fun opened => .ite (fun _ => (h.setRet .eof).answers) fun _ => ?_
  replace opened : s.session = .opened := not_not.1 opened
  have meets := decodePicture_meets { h.toStepInv with sized := h.sized }
  obtain ⟨_, t, ⟨inv, session, bench, parser⟩, e⟩ | ⟨c, info, t, ⟨inv, session, bench⟩, e⟩ := meets.finish fun _ t => t
  · have stillOpen : t.session ≠ .closed := by rw [session, opened]; decide
    exact ⟨t, e, inv.kernel (bench.trans h.noBench) parser stillOpen⟩
  · exact ⟨_, e, inv.faultEntry_kernel (bench.trans h.noBench) (session.trans opened) c info⟩

theorem cmdGetFrame_answersKernel : AnswersKernel (execCmdGetFrame s) :=
  .ite (fun _ => ((h.setRet .ok).deliver _).answers) fun _ => (h.recordFault _ _).answers

theorem cmdClose_answersKernel : AnswersKernel (execCmdClose s) :=
  .ite (fun _ => (h.recordFault _ _).answers) fun _ => h.afterClose.answers

theorem commandOf_answersKernel (c : Byte) : AnswersKernel (exec (commandOf c) s) := by
  unfold commandOf
  split_ifs
  · exact cmdReset_answersKernel h
  · exact cmdDecodeNext_answersKernel h
  · exact cmdGetFrame_answersKernel h
  · exact cmdClose_answersKernel h
  · exact (h.recordFault _ _).answers

end

/-- The port's bytes are none of the invariant's business. -/
theorem KernelInv.setCommands {s : State} (h : KernelInv s) (rest : List Byte) : KernelInv { s with commands := rest } :=
  h.then_eq (h.toStepInv.then_eq rfl) rfl

/-- Settles O60: with no bench a step runs the next command or nothing, and every command answers a state between commands. -/
theorem everyCommandCompletes : Obligations.EveryCommandCompletes := by
  intro s h
  show AnswersKernel (step s)
  obtain none | ⟨cfg, rest, next⟩ | ⟨c, rest, next⟩ := nextCommand_cases s.commands
  · rw [step_idle h.noBench none]
    exact h.answers
  · rw [step_command h.noBench next]
    exact cmdOpen_answersKernel (h.setCommands rest) cfg
  · rw [step_command h.noBench next]
    exact commandOf_answersKernel (h.setCommands rest) c

end Sys2Proof.Machine

/-!
PROOF. Fetching (60_exceptions.md R460, 20_memory.md R86): what a bench presents decodes to its instruction, a stream element
from the window under the cursor and a unit operation from its bytes, and a step runs it.
-/

namespace Sys2Proof.Machine

/-! ### The bytes of a code -/

/-- Two windows that agree on their first bytes agree on the bits of those. -/
theorem bitsOf_bytes_congr {w v : Nat} (k : Nat) (hk : k ≤ 8) (same : ∀ i < k, bitsOf w (8 * i) 8 = bitsOf v (8 * i) 8) :
    bitsOf w 0 (8 * k) = bitsOf v 0 (8 * k) := by
  induction k with
  | zero => exact (Nat.mod_one _).trans (Nat.mod_one _).symm
  | succ k ih =>
    rw [Nat.mul_succ, bitsOf_add w (by omega), bitsOf_add v (by omega), Nat.zero_add, ih (by omega) fun i hi => same i (by omega),
      same k (by omega)]

theorem windowBytes_getD (w : Nat) {i : Nat} (hi : i < 8) :
    ((windowBytes w).getD i 0).toNat = bitsOf w (8 * i) 8 := by
  interval_cases i <;> exact toNat_ofNat_bitsOf ..

/-- The bytes of a code, put on a bench, are a window that begins with it. -/
theorem begins_codeBytes {c : Code} (short : c.len ≤ 64) : Begins (bytesWindow (codeBytes c)) c := by
  have taken : ∀ i < (c.len + 7) / 8, bitsOf (bytesWindow (codeBytes c)) (8 * i) 8 = bitsOf c.window (8 * i) 8 := by
    intro i hi
    rw [bitsOf_bytesWindow _ (by omega), codeBytes, List.getD_eq_getElem?_getD, List.getElem?_take_of_lt hi,
      ← List.getD_eq_getElem?_getD, windowBytes_getD _ (by omega)]
  have begins : Begins c.window c := begins_window c (tail := 0) (Nat.two_pow_pos _)
  rw [Begins, bitsOf_prefix _ (n := 8 * ((c.len + 7) / 8)) (by omega) (by omega), bitsOf_bytes_congr _ (by omega) taken,
    ← bitsOf_prefix _ (by omega) (by omega)]
  exact begins

/-- No code is longer than the window. -/
theorem encode_len_le (i : Instr) : (encode i).len ≤ 64 := by
  cases i with
  | motionResidual n r => exact n.isLt.le.trans (by norm_num)
  | dctDcDifferential n d => exact n.isLt.le.trans (by norm_num)
  | _ => exact of_decide_eq_true rfl

/-! ### One step of a bench -/

/-- A bench item that decodes, a start code at a byte boundary, is the instruction that the step runs. -/
theorem step_benchItem {s : State} {item : BenchItem} {rest : List BenchItem} {i : Instr} (bench : s.bench = item :: rest)
    (aligned : item = .startCode → s.br.bitpos % 8 = 0) (decodes : decode item.channel (item.window s) = some i) :
    step s = exec i { s with bench := rest } := by
  have fetched : item.fetch s = some i := by
    rw [BenchItem.fetch, if_neg fun ⟨code, off⟩ => off (aligned code), decodes]
  simp only [step, bench, runBenchItem, fetched]

/-- A start code off a byte boundary is none (20_memory.md R86). -/
theorem step_startCode_off {s : State} {rest : List BenchItem} (bench : s.bench = .startCode :: rest)
    (off : s.br.bitpos % 8 ≠ 0) : step s = .refused .notUnderCursor := by
  have fetched : BenchItem.startCode.fetch s = none := if_pos ⟨rfl, off⟩
  simp only [step, bench, runBenchItem, fetched, noInstruction]

/-- Settles O1: the bench's item as it decodes, else the command on the port. -/
theorem stepRunsDecodedInstruction : Obligations.StepRunsDecodedInstruction := by
  refine ⟨fun s item rest i bench aligned decodes => step_benchItem bench aligned decodes,
    fun s rest bench off => step_startCode_off bench off, fun s c rest idle port other => ?_, fun s cfg rest idle port => ?_,
    fun s idle port => step_idle idle (nextCommand_waits port)⟩
  · exact step_command idle (by rw [port, nextCommand_code other])
  · exact step_command idle (by rw [port, nextCommand_open])

/-- The window of the cursor begins with a code that lies under it. -/
theorem begins_window_of_shows {s : State} (h : s.br.InStep) {i : Instr}
    (shows : s.upcoming 0 (encode i).len = (encode i).bits) : Begins s.br.window (encode i) := by
  have bits := (h.bitsOf_window (encode_len_le i)).trans shows
  rw [Begins, ← bits, Nat.mod_eq_of_lt (bitsOf_lt ..)]

/-- An item that asks for an instruction presents a window that begins with its code: its own bytes, or the stream where the
instruction shows. -/
theorem begins_benchItem {i : Instr} {s : State} {item : BenchItem} (asks : benchItem i = some item) (h : s.br.InStep)
    (shows : s.Shows i) :
    item.channel = channel i ∧ (item = .startCode → s.br.bitpos % 8 = 0) ∧ Begins (item.window s) (encode i) := by
  unfold benchItem at asks
  unfold State.Shows at shows
  cases place : channel i with
  | command => simp [place] at asks
  | unitOp =>
    simp only [place, Option.some.injEq] at asks
    subst asks
    exact ⟨rfl, (nomatch ·), begins_codeBytes (encode_len_le i)⟩
  | startCode =>
    simp only [place, Option.some.injEq] at asks shows
    subst asks
    exact ⟨rfl, fun _ => shows.1, begins_window_of_shows h shows.2⟩
  | field f =>
    simp only [place, Option.some.injEq] at asks shows
    subst asks
    exact ⟨rfl, (nomatch ·), begins_window_of_shows h shows⟩
  | vlc p =>
    simp only [place, Option.some.injEq] at asks shows
    subst asks
    exact ⟨rfl, (nomatch ·), begins_window_of_shows h shows⟩

/-- Settles O2: what the item presents begins with the instruction's code, and so decodes to it. -/
theorem stepRunsInstructionUnderCursor : Obligations.StepRunsInstructionUnderCursor := by
  intro i s item rest check asks bench reader shows
  obtain ⟨place, aligned, begins⟩ := begins_benchItem asks reader shows
  exact step_benchItem bench aligned (place ▸ decode_of_begins check begins)

end Sys2Proof.Machine

/-!
PROOF. What a command writes and what it leaves unchanged (49_picture_buffers_host.md R400 to R416), the fault entry
(60_exceptions.md R445, R447), and the state after reset (70_reset_and_hazards.md R470).
-/

namespace Sys2Proof.Machine

/-! ### Faults and refusals -/

/-- Recording a fault writes the status registers but the event trace, and draws the message (R447). -/
theorem recordFault_eq (s : State) (c : Cause) (info : Nat) : ∃ text, text.length ≤ 255 ∧ (∀ b ∈ text, b ≠ 0) ∧
    s.recordFault c info = { s with
      status :=
        { s.status with
          ret := .error, fault := true, faultCause := c.code, faultInfo := BitVec.ofNat 32 info, errstr := text }
      draws := s.draws + 1 } :=
  ⟨faultText s.draws, faultText_length _, faultText_ne_zero _, rfl⟩

theorem Cause.sessionFatal_iff (c : Cause) : c.sessionFatal = true ↔ c = .alloc ∨ c = .demuxStartcode ∨ c = .seqParam := by
  cases c <;> decide

/-- Settles O54: a fault is recorded, `HP_STATE` is `SEARCHING`, and the three session-fatal causes fail the session. -/
theorem faultEntry' : Obligations.FaultEntry := by
  intro c info s
  obtain ⟨text, short, nonzero, recorded⟩ := recordFault_eq s c info
  refine ⟨text, short, nonzero, ?_⟩
  simp only [faultEntry, recorded, Cause.sessionFatal_iff]

/-- Settles O50: each is `badCommand`, which records the fault and nothing else. -/
theorem badCommands : Obligations.BadCommands := by
  intro s i code bad
  have refused : exec i s = .next (badCommand code s) := by
    obtain ⟨cfg, rfl, running, rfl⟩ | ⟨rfl, inactive, rfl⟩ | ⟨rfl, inactive, rfl⟩ | ⟨rfl, noFrame, rfl⟩ |
      ⟨rfl, closed, rfl⟩ | ⟨c, rfl, rfl⟩ := bad
    · exact if_neg running
    · exact if_pos inactive
    · exact if_pos inactive
    · exact if_neg fun ⟨opened, frame⟩ => noFrame.elim (· opened) frame
    · exact if_pos closed
    · rfl
  obtain ⟨text, short, nonzero, recorded⟩ := recordFault_eq s .badCommand code
  exact ⟨text, short, nonzero, refused.trans (congrArg _ recorded)⟩

/-! ### Commands that are allowed -/

/-- Settles O49: each takes its allowed branch; the reader rewound is that at bit 0. -/
theorem cmdResetGetFrameAndClose : Obligations.CmdResetGetFrameAndClose := by
  refine ⟨fun s opened => ⟨fun rewinds => ?_, fun fixed => ?_⟩, fun s opened shown => if_pos ⟨opened, shown⟩,
    fun s running => if_neg running⟩
  · have reset : exec .cmdReset s = .next s.rewound := (if_neg (not_not.2 opened)).trans (if_neg (by rw [rewinds]; decide))
    rw [reset, State.rewound, Reader.rewind_eq]
    rfl
  · obtain ⟨text, short, nonzero, recorded⟩ := recordFault_eq s .srcRewind 0
    have reset : exec .cmdReset s = .next (rewindRefused s) := (if_neg (not_not.2 opened)).trans (if_pos fixed)
    exact ⟨text, short, nonzero, reset.trans (congrArg _ recorded)⟩

/-- Settles O48: the state of `openSession`, whose reader is rewound. -/
theorem cmdOpen : Obligations.CmdOpen := by
  intro s cfg closed
  exact ⟨openSession cfg s, if_pos closed, rfl, Reader.rewind_eq _, rfl, rfl, rfl, rfl, rfl, rfl, rfl, rfl, rfl, rfl, rfl, rfl,
    rfl, rfl, rfl, rfl⟩

theorem allocOk_iff (s : State) (w h : Nat) : s.allocOk w h = true ↔ (w, h) ∉ s.allocDenied := by
  simp [State.allocOk]

/-- Settles O47: each operation is its writes; the oracle decides on the allocation. -/
theorem pictureBufferOperations : Obligations.PictureBufferOperations := by
  intro s
  refine ⟨rfl, rfl, rfl, ?_⟩
  rintro cols rows w h rfl rfl
  have run : exec (.pbmAlloc cols rows) s = (s.allocate _ _).finish noResult := rfl
  refine ⟨fun granted => ?_, fun denied => ?_⟩
  · rw [run, State.allocate, if_pos ((allocOk_iff ..).2 granted)]
    rfl
  · rw [run, State.allocate, if_neg (mt (allocOk_iff ..).1 (not_not.2 denied))]
    rfl

/-! ### Reset -/

theorem stepInv_reset : StepInv State.reset where
  reader := rfl
  params := defaultParams_legal
  roles := by decide
  frames := by rintro fs ⟨⟩
  allocated := by rintro ⟨⟩
  eventCount := rfl
  message := ⟨by decide, by rintro b ⟨⟩⟩
  cause := by decide
  predictors := Predictors.inRange_zero

/-- Settles O58: no bench, no session, no sequence, no buffers. -/
theorem resetMeetsInvariants : Obligations.ResetMeetsInvariants :=
  ⟨rfl, stepInv_reset,
    { stepInv_reset with
      noBench := rfl
      parser := .inl rfl
      closed := fun _ => ⟨rfl, rfl⟩
      sized := fun known => absurd known Bool.false_ne_true }⟩

end Sys2Proof.Machine

/-!
PROOF. `CMD_DECODE_NEXT` (49_picture_buffers_host.md R417): by the result of the header search, and for a whole picture of one
flat macroblock (43_macroblock_decoder.md R230, R240).
-/

namespace Sys2Proof.Machine

/-! ### By the result of the search -/

/-- Where the command runs, it is the body with its fault entry (R413; 42_header_parser.md R207). -/
theorem cmdDecodeNext_exec {s : State} (opened : s.session = .opened) (going : s.hpState ≠ .sequenceEnded) :
    exec .cmdDecodeNext s = (decodePicture s).finish fun _ t => t :=
  (if_neg (not_not.2 opened)).trans (if_neg going)

theorem decodePicture_raised {s u : State} {c : Cause} {info : Nat} (search : nextHeader s = .raised c info u) :
    decodePicture s = .raised c info u := by
  rw [decodePicture, search]
  rfl

theorem decodePicture_end {s u : State} (search : nextHeader s = .ok .endOfSequence u) :
    decodePicture s = .ok () (u.setRet .eof) := by
  rw [decodePicture, search]
  rfl

/-- The roles for the picture's type (R401, R402). -/
theorem rolesForPicture_eq (u : State) : (if u.pic.pictType = 3 then selectAux u else rotateRef u) =
    { u with roles := u.roles.forPicture u.pic.pictType } := by
  unfold Roles.forPicture
  split <;> rfl

/-- Behind a picture header: the checks, the roles, the data, the display (R417). -/
theorem decodePicture_picture {s u : State} (search : nextHeader s = .ok .picture u) :
    decodePicture s = (pictureChecks u).bind fun _ u =>
      (pictureData { u with roles := u.roles.forPicture u.pic.pictType }).bind fun _ t => .ok () t.shown := by
  rw [decodePicture, search]
  simp only [Res.bind_ok, rolesForPicture_eq]
  rfl

section
variable {u : State}

theorem pictureChecks_noSequence (unknown : u.seq.seqKnown = false) : pictureChecks u = .raised .noSequence 0 u :=
  if_pos unknown

variable (known : u.seq.seqKnown = true)
include known

theorem pictureChecks_type (other : u.pic.pictType ∉ [1, 2, 3]) :
    pictureChecks u = .raised .pictype u.pic.pictType.toNat u := by
  have apart : u.pic.pictType ≠ 1 ∧ u.pic.pictType ≠ 2 ∧ u.pic.pictType ≠ 3 := by simpa using other
  exact (if_neg (by rw [known]; decide)).trans (if_pos apart)

/-- A zero range code, forward or backward, is raised alike (42_header_parser.md R215). -/
theorem pictureChecks_rangeCode (zero : (u.pic.pictType = 2 ∨ u.pic.pictType = 3) ∧ u.pic.forwardCode = 0 ∨
    u.pic.pictType = 3 ∧ u.pic.backwardCode = 0) : pictureChecks u = .raised .fcodeZero u.pic.pictType.toNat u := by
  have type : ¬(u.pic.pictType ≠ 1 ∧ u.pic.pictType ≠ 2 ∧ u.pic.pictType ≠ 3) := by
    rintro ⟨-, two, three⟩
    exact zero.elim (fun h => h.1.elim two three) fun h => three h.1
  refine (if_neg (by rw [known]; decide)).trans ((if_neg type).trans ?_)
  split
  · rfl
  next forward => exact if_pos (zero.resolve_left forward)

theorem pictureChecks_passed (type : u.pic.pictType ∈ [1, 2, 3]) (forward : u.pic.pictType ≠ 1 → u.pic.forwardCode ≠ 0)
    (backward : u.pic.pictType = 3 → u.pic.backwardCode ≠ 0) : pictureChecks u = .ok () u := by
  have listed : u.pic.pictType = 1 ∨ u.pic.pictType = 2 ∨ u.pic.pictType = 3 := by simpa using type
  refine (if_neg (by rw [known]; decide)).trans ((if_neg ?_).trans ((if_neg ?_).trans (if_neg ?_)))
  · rintro ⟨one, two, three⟩
    exact listed.elim one (·.elim two three)
  · rintro ⟨two | three, zero⟩
    · exact forward (by rw [two]; decide) zero
    · exact forward (by rw [three]; decide) zero
  · rintro ⟨three, zero⟩
    exact backward three zero

end

/-- An operation run alone that answers a state outside `SEARCHING` ended well in that state, for a fault entry leaves
`SEARCHING`; the operands of single steps tell the state from the answer. -/
theorem Res.ok_of_answering {α : Type} {x : Res α} {deliver : α → Result} {t : State} {r : Result}
    (answers : x.finish (fun a u => u.deliver (deliver a)) = .next (t.answering r)) (going : t.hpState ≠ .searching)
    (kept : ∀ a u, x = .ok a u → u.assembly = t.assembly) : ∃ a, x = .ok a t ∧ deliver a = r := by
  cases x with
  | ok a u =>
    have same : u.deliver (deliver a) = t.answering r := Host.Outcome.next.inj answers
    exact ⟨a, by rw [State.of_answering same (kept a u rfl)], congrArg (fun v => v.assembly.result) same⟩
  | raised c info u => exact absurd (congrArg State.hpState (Host.Outcome.next.inj answers)).symm going
  | stop e => cases answers

/-- The search run alone is the search of the command. -/
theorem nextHeader_of_exec {s u : State} {i : HeaderEnd} (h : s.br.InStep)
    (answers : exec .seqNextHeader s = .next (u.answering (.header i))) (same : u.assembly = s.assembly)
    (going : u.hpState ≠ .searching) : nextHeader s = .ok i u := by
  obtain ⟨e, ended, result⟩ := Res.ok_of_answering (x := nextHeader s) (deliver := .header) answers going fun e t ended => by
    have heads := nextHeader_heads h
    rw [ended] at heads
    rw [same, heads.1.only]
  rw [ended, Result.header.inj result]

/-- The search where the first start code is a picture's (42_header_parser.md R204, R212). -/
theorem nextHeader_picture {s : State} (h : s.br.InStep) {k m : Nat} (first : FirstPrefix s.br.source s.br.bitpos k)
    (picture : streamBits s.br.source (8 * k) 32 = 0x100)
    (extra : ExtraBytes s.br.source (8 * k + 32 + pictureFieldBits (streamBits s.br.source (8 * k + 42) 3)) m) :
    nextHeader s = .ok .picture
      { (s.atByte k).ahead (32 + pictureFieldBits (streamBits s.br.source (8 * k + 42) 3) + 9 * m + 1) with
        pic := (s.atByte k).pictureRegs 32, hpState := .pictureReady } := by
  have type : ((s.atByte k).ahead 32).upcoming 10 3 = streamBits s.br.source (8 * k + 42) 3 := State.ahead_upcoming ..
  have header := pictureHeader_eq (s := (s.atByte k).ahead 32) (m := m) (State.ahead_inStep _ _) (by rw [type]; exact extra)
  rw [type, State.ahead_ahead, State.pictureRegs_ahead, ← Nat.add_assoc, ← Nat.add_assoc] at header
  rw [nextHeader_eq h first, picture, afterStartCode_picture, header]
  rfl

/-- Settles O52: the body by the result of the search, then by the checks. -/
theorem decodeNextPicture : Obligations.DecodeNextPicture := by
  refine ⟨fun s opened going _ => ⟨fun c info u search => ?_, fun u search => ?_, fun u search =>
    ⟨fun unknown => ?_, fun known other => ?_, fun known zero => ?_, fun known type forward backward =>
      ⟨fun t data => ?_, fun c info t data => ?_⟩⟩⟩,
    fun s i u h answers same going => nextHeader_of_exec h answers same going,
    fun s k m h first picture extra => nextHeader_picture h first picture extra⟩
  all_goals rw [cmdDecodeNext_exec opened going]
  · rw [decodePicture_raised search]
    rfl
  · rw [decodePicture_end search]
    rfl
  · rw [decodePicture_picture search, pictureChecks_noSequence unknown]
    rfl
  · rw [decodePicture_picture search, pictureChecks_type known other]
    rfl
  · rw [decodePicture_picture search, pictureChecks_rangeCode known zero]
    rfl
  · rw [decodePicture_picture search, pictureChecks_passed known type forward backward, Res.bind_ok, data]
    rfl
  · rw [decodePicture_picture search, pictureChecks_passed known type forward backward, Res.bind_ok, data]
    rfl

/-! ### A picture of one flat macroblock -/

/-- The macroblock of a picture of one is every sample of its buffer (20_memory.md R90). -/
theorem FrameStore.inMacroblock_of_inPlane {fs : FrameStore} (width : fs.width = 16) (height : fs.height = 16) {p : Fin 3}
    {x y : Nat} (inside : fs.inPlane p x y = true) : inMacroblock p 0 0 x y := by
  simp only [FrameStore.inPlane, FrameStore.planeWidth, FrameStore.planeHeight, width, height, decide_eq_true_eq] at inside
  by_cases luma : p = 0
  · simp only [luma, if_true] at inside
    rw [inMacroblock, if_pos luma]
    omega
  · simp only [luma, if_false] at inside
    rw [inMacroblock, if_neg luma]
    omega

/-- A slice of one flat macroblock in a picture of one (43_macroblock_decoder.md R230 to R240): it paints the buffer `cur` with
128, keeps the others, and ends the picture. -/
theorem sliceDecode_flat {s : State} {fs : FrameStore} {cur : Fin 3} {q : BitVec 5} (inv : StepInv s)
    (tables : s.params.tables = defaultTables) (type : s.pic.pictType = 1) (grid : s.seq.mbCols = 1)
    (ready : s.hpState ≠ .searching) (target : s.Targets fs cur 0 0) (legal : q ≠ 0)
    (codes : s.Holds 0 [⟨32, 0x101⟩, ⟨5, q.toNat⟩, ⟨1, 0⟩, ⟨1, 1⟩, flatIntra]) :
    ∃ t, (((s.sliceStart q).ahead 39).setMba 0).PaintsFlat t ∧ sliceDecode 1 s = .ok .done (t.setMba 1) := by
  obtain ⟨code, scale, extra, increment, flat, -⟩ := codes
  have one : (⟨1, 1, .increment 1⟩ : Row MbaSymbol) ∈ s.params.tables.mba := by
    rw [tables]
    decide
  have start : ((s.sliceStart q).ahead 39).setMba 0 =
      ((s.sliceStart q).ahead 39).setMba ((1 - 1) * s.seq.mbCols + 1 - 1) := by rw [grid]
  obtain ⟨-, -, -, paint⟩ := macroblockLoop' s _ 1 1 1 q _ inv le_rfl (by norm_num) legal one rfl
    ⟨code, scale, extra, increment, trivial⟩ start
  have place : s.Targets fs cur (0 % s.seq.mbCols) (0 / s.seq.mbCols) := by
    rw [grid]
    exact target
  obtain ⟨t, paints, run⟩ := paint fs cur tables type (by rw [grid]; decide) flat rfl place
  refine ⟨t, paints, ?_⟩
  obtain ⟨_, gs, _, -, -, leaves, -⟩ := paints
  have done : ∃ e, sliceDecode 1 s = .ok e (t.setMba 1) ∧ Result.slice e = .slice .done :=
    Res.ok_of_answering (x := sliceDecode 1 s) run (by rw [leaves]; exact ready) fun e u ended => by
      rw [(sliceDecode_onward inv.decoding ended).only, leaves]
      rfl
  obtain ⟨e, ended, result⟩ := done
  rw [ended, Result.slice.inj result]

/-- The data of a picture of one macroblock that is flat (43_macroblock_decoder.md R230). -/
theorem pictureData_flat {s : State} {fs : FrameStore} {cur : Fin 3} {q : BitVec 5} {l : Nat} (inv : StepInv s)
    (tables : s.params.tables = defaultTables) (type : s.pic.pictType = 1) (cols : s.seq.mbCols = 1) (rows : s.seq.mbRows = 1)
    (ready : s.hpState ≠ .searching) (target : s.Targets fs cur 0 0) (first : FirstPrefix s.br.source s.br.bitpos l)
    (legal : q ≠ 0) (codes : (s.atByte l).Holds 0 [⟨32, 0x101⟩, ⟨5, q.toNat⟩, ⟨1, 0⟩, ⟨1, 1⟩, flatIntra]) :
    ∃ t, ((((s.atByte l).sliceStart q).ahead 39).setMba 0).PaintsFlat t ∧ pictureData s = .ok () (t.setMba 1) := by
  obtain ⟨t, paints, slice⟩ := sliceDecode_flat (s := s.atByte l) (inv.setReader (Reader.atBit_inStep _ _)) tables type cols
    ready target legal codes
  have code : streamBits s.br.source (8 * l) 32 = 0x101 := codes.1
  refine ⟨t, paints, ?_⟩
  rw [pictureData_eq inv.decoding first, cols, rows, code, atSliceCode, if_neg (by norm_num), slice]
  rfl

/-- What a flat macroblock at address 0 with the predictors at 0 makes of a picture of one: its buffer is 128 all over, the
others are kept. -/
theorem State.PaintsFlat.samples {s t : State} {fs : FrameStore} {cur : Fin 3} (paints : s.PaintsFlat t)
    (frames : s.frames = some fs) (target : s.roles.cur = some cur) (width : fs.width = 16) (height : fs.height = 16)
    (first : s.work.mba = 0) (reset : s.work.dcPred = Vector.replicate 3 0) :
    ∃ gs, t.frames = some gs ∧ (∀ p (x y : Nat), fs.inPlane p x y = true → gs.sample cur p x y = 128) ∧
      ∀ f p (x y : Nat), fs.inPlane p x y = true → f ≠ cur → gs.sample f p x y = fs.sample f p x y := by
  obtain ⟨fs', gs, cur', frames', target', rfl, -, outside, painted⟩ := paints
  obtain rfl : fs' = fs := Option.some.inj (frames'.symm.trans frames)
  obtain rfl : cur' = cur := Option.some.inj (target'.symm.trans target)
  rw [first, Nat.zero_mod, Nat.zero_div] at painted
  refine ⟨gs, rfl, fun p x y inside => ?_, fun f p x y inside other => outside f p x y inside fun here => other here.1⟩
  have value := painted p x y (FrameStore.inMacroblock_of_inPlane width height inside)
  have residual : max 0 (min 255 (128 + flatResidual s.work.dcPred[p])) = 128 := by
    rw [reset, show (Vector.replicate 3 (0 : BitVec 32))[p] = 0 from Vector.getElem_replicate p.isLt]
    decide
  rw [residual] at value
  exact BitVec.eq_of_toNat_eq (Int.ofNat.inj value)

/-- The state behind the header of an I-picture at byte `k` without extra information (42_header_parser.md R212). -/
def State.behindHeaderI (s : State) (k : Nat) : State :=
  { (s.atByte k).ahead 62 with pic := (s.atByte k).pictureRegs 32, hpState := .pictureReady }

theorem nextHeader_typeI {s : State} (h : s.br.InStep) {k : Nat} (first : FirstPrefix s.br.source s.br.bitpos k)
    (picture : streamBits s.br.source (8 * k) 32 = 0x100) (type : streamBits s.br.source (8 * k + 42) 3 = 1)
    (extra : streamBits s.br.source (8 * k + 61) 1 = 0) :
    nextHeader s = .ok .picture (s.behindHeaderI k) ∧ (s.behindHeaderI k).pic.pictType = 1 := by
  have none : ExtraBytes s.br.source (8 * k + 32 + pictureFieldBits (streamBits s.br.source (8 * k + 42) 3)) 0 := by
    rw [type]
    exact ⟨extra, by omega⟩
  have search := nextHeader_picture h first picture none
  rw [type] at search
  exact ⟨search, congrArg (BitVec.ofNat 3) type⟩

/-- Behind the header of an I-picture the references are rotated and the data decoded (R401, R417). -/
theorem decodePicture_typeI {s u : State} (search : nextHeader s = .ok .picture u) (known : u.seq.seqKnown = true)
    (type : u.pic.pictType = 1) : decodePicture s = (pictureData (rotateRef u)).bind fun _ t => .ok () t.shown := by
  have passed := pictureChecks_passed known (by rw [type]; decide) (absurd type) (fun three => by rw [type] at three; cases three)
  rw [decodePicture_picture search, passed, Res.bind_ok, ← rolesForPicture_eq, if_neg (by rw [type]; decide)]

/-- An I-picture shows the old reference, now `FWD` (R405, R407). -/
theorem State.shown_typeI {s : State} (type : s.pic.pictType = 1) : s.shown =
    { s with
      roles := { s.roles with disp := some s.roles.fwd }
      hpState := .searching
      display := s.display ++
        [⟨some s.roles.fwd, s.seq.codedWidth, s.seq.codedWidth / 2, s.seq.codedWidth, s.seq.codedHeight, 1⟩]
      status := { s.status with ret := .ok } } := by
  rw [State.shown, type]
  rfl

/-- Settles O53: the header by the search, the slice and its macroblock by their codes; the search and the display leave the
buffers to the macroblock. -/
theorem decodeNextFlatPicture : Obligations.DecodeNextFlatPicture := by
  intro s fs k l q inv tables opened going known cols rows frames width height picture code type extra slice legal codes
  obtain ⟨search, typeI⟩ := nextHeader_typeI inv.reader picture code type extra
  have header : StepInv (s.behindHeaderI k) := by
    have heads := nextHeader_heads inv.reader
    rw [search] at heads
    exact inv.headerTo heads.1
  obtain ⟨t, paints, data⟩ := pictureData_flat header.rotateRef tables typeI cols rows (fun searching => nomatch searching)
    ⟨frames, rfl, width.ge, height.ge⟩ slice legal codes
  obtain ⟨gs, stored, painted, kept⟩ := paints.samples frames rfl width height rfl rfl
  have body : exec .cmdDecodeNext s = .next (t.setMba 1).shown := by
    rw [cmdDecodeNext_exec opened going, decodePicture_typeI search known typeI, data]
    rfl
  obtain ⟨_, _, _, -, -, rfl, -⟩ := paints
  rw [State.shown_typeI (by exact typeI)] at body
  exact ⟨_, gs, body, rfl, rfl, rfl, stored, rfl, rfl, painted, kept⟩

end Sys2Proof.Machine
